-- ==== Sys2Proof/Word.lean ====
section
/-!
DEFINITION. The engine's word types (00_scope.md R5, "Fixed widths the engine takes"; 30_encoding.md R91).
-/

namespace Sys2Proof

/-- A register-window register, a command word, an argument word or a host address: 32 bits. -/
abbrev Word := BitVec 32

/-- A transmit or receive data field: 16 bits. -/
abbrev Half := BitVec 16

/-- A byte of host memory, a chip-select pattern or a mode byte: 8 bits. -/
abbrev Byte := BitVec 8

/-- A chip-select index, the 3-bit field `CS` of a command word. -/
abbrev Cs := BitVec 3

/-- A DMA channel identifier, opaque (10_state.md R29): any natural number [DESIGN CHOICE, log 30]. -/
abbrev ChanId := Nat

end Sys2Proof
end

