-- ==== Sys2Proof/Syntax.lean ====
section
/-!
DEFINITION. The commands of the engine (30_encoding.md R90-R94, opcode_table.json): one constructor of `Instr`
per row. A command is its 32-bit command word and its five argument words, so an instruction carries the
arguments its row reads; an absent buffer or override of TRANSFER is `none`.
-/

namespace Sys2Proof

/-- The three command ports (30_encoding.md R90). -/
inductive Port where
  | queue
  | freq
  | power
deriving DecidableEq, Repr, Inhabited

/-- The five argument words `ARG[0..4]` of a port (10_state.md R23, 30_encoding.md R91). -/
structure Args where
  a0 : Word
  a1 : Word
  a2 : Word
  a3 : Word
  a4 : Word
deriving DecidableEq, Repr, Inhabited

/-- Five argument words of zero. -/
def Args.zero : Args := ⟨0, 0, 0, 0, 0⟩

/-- The engine's commands. Widths, lengths, frequencies and clock rates are natural numbers (00_scope.md R5, R7);
`WellFormed` says which of them the 32-bit argument words can carry. -/
inductive Instr where
  /-- SETUP (40_divider_config.md R150): chip-select, mode flags, word width in bits, maximum frequency in Hz. -/
  | setup (cs : Cs) (mode : Byte) (bits maxHz : Nat)
  /-- TRANSFER (42_transfer.md R190): chip-select, optional buffers, length in bytes, optional overrides. -/
  | transfer (cs : Cs) (tx rx : Option Word) (len : Nat) (bits hz : Option Nat)
  /-- CLEANUP (40_divider_config.md R155): chip-select. -/
  | cleanup (cs : Cs)
  /-- CHIPSELECT (41_chipselect.md R175): chip-select, activate (true) or deactivate (false). -/
  | chipselect (cs : Cs) (act : Bool)
  /-- FREQ_PRE (46_coordination.md R300). -/
  | freqPre
  /-- FREQ_POST (46_coordination.md R305): the new input clock rate in Hz. -/
  | freqPost (newClk : Nat)
  /-- SUSPEND (46_coordination.md R310). -/
  | suspend
  /-- RESUME (46_coordination.md R315). -/
  | resume
deriving DecidableEq, Repr, Inhabited

/-- The port that accepts a command (30_encoding.md R90, R92). -/
def Instr.port : Instr → Port
  | .setup .. => .queue
  | .transfer .. => .queue
  | .cleanup .. => .queue
  | .chipselect .. => .queue
  | .freqPre => .freq
  | .freqPost .. => .freq
  | .suspend => .power
  | .resume => .power

end Sys2Proof
end

