-- ==== Sys2Proof/WellFormed.lean ====
section
/-!
DEFINITION. Which instructions an encoding exists for: "Every argument is an unsigned 32-bit word read as a
natural number" (30_encoding.md R94), so every natural-number operand fits 32 bits. The other operands are
bit vectors of their field's width and always encodable.
-/

namespace Sys2Proof

/-- A natural number one argument word can carry. -/
def fitsWord (n : Nat) : Bool := n < 2 ^ 32

/-- An absent operand, or one that an argument word can carry. -/
def fitsWordIfAny : Option Nat → Bool
  | none => true
  | some n => fitsWord n

/-- The operands of `i` fit their argument words. -/
def Instr.wf : Instr → Bool
  | .setup _ _ bits maxHz => fitsWord bits && fitsWord maxHz
  | .transfer _ _ _ len bits hz => fitsWord len && fitsWordIfAny bits && fitsWordIfAny hz
  | .cleanup _ => true
  | .chipselect _ _ => true
  | .freqPre => true
  | .freqPost newClk => fitsWord newClk
  | .suspend => true
  | .resume => true

end Sys2Proof
end

