-- ==== Sys2Proof/Decode.lean ====
section
/-!
DEFINITION. Decoding of commands (30_encoding.md R91-R94, R98, R106), total on every command word of every port and
rejecting by name; then the encoder, written from the same tables; then the reading of a word numbered as
opcode_table.json numbers its bits.
-/

namespace Sys2Proof

/-- Why a command word is a reserved encoding (30_encoding.md R98). -/
inductive DecodeError where
  /-- The `OP` value is not listed in 30_encoding.md R92. -/
  | reservedOp (op : Byte)
  /-- The `OP` value belongs to another port. -/
  | wrongPort (op : Byte)
  /-- A reserved bit of the command word is 1 (30_encoding.md R93). -/
  | reservedBits (op : Byte)
deriving DecidableEq, Repr

/-- The rows of the operation-code table (30_encoding.md R92). -/
inductive Op where
  | setup
  | transfer
  | cleanup
  | chipselect
  | freqPre
  | freqPost
  | suspend
  | resume
deriving DecidableEq, Repr

/-- Every row of the table, in its order. -/
def Op.all : List Op :=
  [.setup, .transfer, .cleanup, .chipselect, .freqPre, .freqPost, .suspend, .resume]

/-- The operation code of a row (30_encoding.md R92). -/
def Op.code : Op → Byte
  | .setup => 0x01
  | .transfer => 0x02
  | .cleanup => 0x03
  | .chipselect => 0x04
  | .freqPre => 0x10
  | .freqPost => 0x11
  | .suspend => 0x20
  | .resume => 0x21

/-- The port of a row (30_encoding.md R92). -/
def Op.port : Op → Port
  | .setup | .transfer | .cleanup | .chipselect => .queue
  | .freqPre | .freqPost => .freq
  | .suspend | .resume => .power

/-- The bits that must be 0 in a row's command word (30_encoding.md R93): `[15:11]` and every bit no field names. -/
def Op.reserved : Op → Word
  | .setup => 0xFF00F800
  | .transfer => 0xFFF0F800
  | .cleanup => 0xFFFFF800
  | .chipselect => 0xFFFEF800
  | .freqPre | .freqPost | .suspend | .resume => 0xFFFFFF00

/-- The `mask` of a row in opcode_table.json: the operation code and the reserved bits are fixed. -/
def Op.mask (o : Op) : Word := o.reserved ||| 0xFF

/-- The `match` of a row in opcode_table.json: the operation code, every reserved bit 0. -/
def Op.pattern (o : Op) : Word := o.code.zeroExtend 32

/-- The row of an instruction. -/
def Instr.op : Instr → Op
  | .setup .. => .setup
  | .transfer .. => .transfer
  | .cleanup .. => .cleanup
  | .chipselect .. => .chipselect
  | .freqPre => .freqPre
  | .freqPost .. => .freqPost
  | .suspend => .suspend
  | .resume => .resume

/-- The field `OP = CMD[7:0]`. -/
def opField (cmd : Word) : Byte := cmd.extractLsb' 0 8

/-- The field `CS = CMD[10:8]`. -/
def csField (cmd : Word) : Cs := cmd.extractLsb' 8 3

/-- The field `MODE = CMD[23:16]` of SETUP. -/
def modeField (cmd : Word) : Byte := cmd.extractLsb' 16 8

/-- The row whose operation code is `op`, if any. -/
def opOf (op : Byte) : Option Op := Op.all.find? (fun o => o.code == op)

/-- Operand assembly (30_encoding.md R93, R94): the fields of the command word and the argument words a row reads. -/
def Op.assemble : Op → Word → Args → Instr
  | .setup, cmd, a => .setup (csField cmd) (modeField cmd) a.a0.toNat a.a1.toNat
  | .transfer, cmd, a =>
      .transfer (csField cmd)
        (if cmd.getLsbD 16 then some a.a0 else none)
        (if cmd.getLsbD 17 then some a.a1 else none)
        a.a2.toNat
        (if cmd.getLsbD 18 then some a.a3.toNat else none)
        (if cmd.getLsbD 19 then some a.a4.toNat else none)
  | .cleanup, cmd, _ => .cleanup (csField cmd)
  | .chipselect, cmd, _ => .chipselect (csField cmd) (cmd.getLsbD 16)
  | .freqPre, _, _ => .freqPre
  | .freqPost, _, a => .freqPost a.a0.toNat
  | .suspend, _, _ => .suspend
  | .resume, _, _ => .resume

/-- Decode the command word `cmd` with arguments `a` on port `p` (30_encoding.md R98, R106). -/
def decode (p : Port) (cmd : Word) (a : Args) : Except DecodeError Instr :=
  match opOf (opField cmd) with
  | none => .error (.reservedOp (opField cmd))
  | some o =>
    if o.port ≠ p then .error (.wrongPort (opField cmd))
    else if cmd &&& o.reserved ≠ 0 then .error (.reservedBits (opField cmd))
    else .ok (o.assemble cmd a)

/-- A command word with its argument words. -/
structure Encoded where
  cmd : Word
  args : Args
deriving DecidableEq, Repr

/-- The command word of format `CMD` (30_encoding.md R91): `FL`, five reserved zeros, `CS`, `OP`. -/
def cmdWord (fl : BitVec 16) (cs : Cs) (o : Op) : Word := fl ++ (0 : BitVec 5) ++ cs ++ o.code

/-- The flags of a TRANSFER: `HZ_OVR`, `BPW_OVR`, `RXP`, `TXP` in bits 19 down to 16 (30_encoding.md R93). -/
def transferFlags (txp rxp bpwOvr hzOvr : Bool) : BitVec 16 :=
  (0 : BitVec 12) ++ BitVec.ofBool hzOvr ++ BitVec.ofBool bpwOvr ++ BitVec.ofBool rxp ++ BitVec.ofBool txp

/-- An argument word: the number it carries, 0 where the argument is absent (30_encoding.md R104). -/
def argWord (n : Option Nat) : Word := BitVec.ofNat 32 (n.getD 0)

/-- The words of an instruction (30_encoding.md R91-R94); arguments a row does not read are 0. -/
def encode : Instr → Encoded
  | .setup cs mode bits maxHz =>
      ⟨cmdWord ((0 : BitVec 8) ++ mode) cs .setup, { Args.zero with a0 := argWord (some bits), a1 := argWord (some maxHz) }⟩
  | .transfer cs tx rx len bits hz =>
      ⟨cmdWord (transferFlags tx.isSome rx.isSome bits.isSome hz.isSome) cs .transfer,
        ⟨tx.getD 0, rx.getD 0, argWord (some len), argWord bits, argWord hz⟩⟩
  | .cleanup cs => ⟨cmdWord 0 cs .cleanup, Args.zero⟩
  | .chipselect cs act => ⟨cmdWord ((0 : BitVec 15) ++ BitVec.ofBool act) cs .chipselect, Args.zero⟩
  | .freqPre => ⟨cmdWord 0 0 .freqPre, Args.zero⟩
  | .freqPost newClk => ⟨cmdWord 0 0 .freqPost, { Args.zero with a0 := argWord (some newClk) }⟩
  | .suspend => ⟨cmdWord 0 0 .suspend, Args.zero⟩
  | .resume => ⟨cmdWord 0 0 .resume, Args.zero⟩

/-- The port that accepts the operation code of `cmd`; port Q for a reserved code, which every port refuses alike. -/
def portOf (cmd : Word) : Port := ((opOf (opField cmd)).map Op.port).getD .queue

/-- The first `nbits` bits of `w` as a command word and argument words: `CMD` is bits 31..0 and `ARG[i]` follows from
bit `32 (i + 1)`; every bit from `nbits` on is 0. -/
def tableWords (nbits w : Nat) : Encoded :=
  let v := w % 2 ^ nbits
  let arg := fun i => BitVec.ofNat 32 (v >>> (32 * i))
  ⟨arg 0, ⟨arg 1, arg 2, arg 3, arg 4, arg 5⟩⟩

/-- The instruction the decoder reads from a word numbered as opcode_table.json numbers its bits, on the port that
accepts its operation code; `none` for a reserved encoding. -/
def decodeTableWord (nbits w : Nat) : Option Instr :=
  let e := tableWords nbits w
  match decode (portOf e.cmd) e.cmd e.args with
  | .ok i => some i
  | .error _ => none

end Sys2Proof
end

