-- ==== Sys2Proof/Config.lean ====
section
/-!
DEFINITION. What an implementation fixes (00_scope.md R5), the register layout (30_encoding.md R102), the moves of the
environment (10_state.md R20, 60_exceptions.md R345) and the free values: the constants of this file declared
`opaque` have no body, so no proof can know a value of theirs.
-/

namespace Sys2Proof

/-- The controller hardware revision `P_REV` (00_scope.md R2). -/
inductive Rev where
  | v1
  | v2
deriving DecidableEq, Repr, Inhabited

/-- `P_LAYOUT` (30_encoding.md R102): the byte offset of every register and the low bit of every field of
30_encoding.md R101. The widths of the fields are fixed by R101. -/
structure Layout where
  offGcr : Nat
  offInt : Nat
  offFlg : Nat
  offPc : Nat
  offDat : Nat
  offBuf : Nat
  offDelay : Nat
  offDef : Nat
  /-- The offset of `FMT[i]` at position `i`. -/
  offFmt : List Nat
  loEnable : Nat
  loLoopback : Nat
  loIeDlen : Nat
  loIeTimeout : Nat
  loIeParity : Nat
  loIeDesync : Nat
  loIeBiterr : Nat
  loIeOvrn : Nat
  loIeRx : Nat
  loIeTx : Nat
  loDmareqen : Nat
  loTimeout : Nat
  loDesync : Nat
  loBiterr : Nat
  loDlen : Nat
  loParity : Nat
  loOvrn : Nat
  loTxint : Nat
  loBufinit : Nat
  loRxint : Nat
  loHandshake : Nat
  loThreewire : Nat
  loTxdata : Nat
  loCsnr : Nat
  loHold : Nat
  loRxdata : Nat
  loRxempty : Nat
  loTxfull : Nat
  loCsdef : Nat
  loPrescale : Nat
  loCharlen : Nat
  loPolarity : Nat
  loPhase : Nat
  loShiftdir : Nat
deriving DecidableEq, Repr, Inhabited

/-- `P_DMA_IDS`: the sync-device identifiers and the event-queue identifier passed to allocation, opaque; no rule
reads them (00_scope.md R5). Three natural numbers here [DESIGN CHOICE, log 21]. -/
structure DmaIds where
  rxSync : Nat
  txSync : Nat
  eventQueue : Nat
deriving DecidableEq, Repr, Inhabited

/-- The open parameters of 00_scope.md R5. `handshakeWait` and `dmaIds` are read by no rule. -/
structure Params where
  rev : Rev
  numCs : Nat
  clkRate0 : Nat
  csHold : Bool
  handshakeWait : Bool
  useDma : Bool
  pollMode : Bool
  delayWord : Word
  phaseInvert : Bool
  scratchBytes : Nat
  scratchFill : Half
  scratchAddr : Word
  regBase : Word
  layout : Layout
  dmaTxAddr : Word
  dmaRxAddr : Word
  dmaIds : DmaIds
deriving DecidableEq, Repr, Inhabited

/-- A transfer or DMA direction. -/
inductive Dir where
  | tx
  | rx
deriving DecidableEq, Repr, Inhabited

/-- The completion status of a DMA channel (44_dma.md R260). -/
inductive Completion where
  | clean
  | error
deriving DecidableEq, Repr, Inhabited

/-- A move the environment chooses (00_scope.md R12, 10_state.md R20): which agent takes its next step, or which event of
60_exceptions.md R345 happens. `store` is a host store (20_memory.md R86) or a stray DMA write (R395), `attach` is reset
(R380). -/
inductive Move where
  | port (p : Port)
  | handler
  | callback (d : Dir)
  | cmd (p : Port) (word : Word) (args : Args)
  | irq
  | dmaDone (ch : ChanId) (st : Completion)
  | intr
  | timeout
  | store (addr : Word) (b : Byte)
  | attach
deriving DecidableEq, Repr, Inhabited

/-- The open parameters of the instance, any value. -/
opaque Config.openParams : Params

/-- The oracle's answer to a volatile register read (20_memory.md R62). -/
opaque Config.freeWord : Nat → Word

/-- The oracle's answer to `DmaAlloc` (44_dma.md R240). -/
opaque Config.freeAlloc : Nat → Option ChanId

/-- The oracle's answer to `Map` (20_memory.md R75); a device address is of 32 bits [DESIGN CHOICE, log 31]. -/
opaque Config.freeMap : Nat → Option Word

/-- A host byte of a `FROM_DEVICE` mapping after `Unmap` (20_memory.md R75). -/
opaque Config.freeByte : Nat → Byte

/-- The environment's choice of the next mover (00_scope.md R12). -/
opaque Config.freeMove : Nat → Move

end Sys2Proof
end

