-- ==== Sys2Proof/Machine/Params.lean ====
section
/-!
DEFINITION. The fixed parameters of 00_scope.md R5, what R5 and 30_encoding.md R102 demand of the open ones, the
informative layout and the vectors' parameters (95_test_vectors.md), and the parameters of the instance.
-/

namespace Sys2Proof

/-- `P_MIN_HZ` (00_scope.md R5). -/
def Config.minHz : Nat := 600000

/-- `P_MAX_HZ` (00_scope.md R5). -/
def Config.maxHz : Nat := 50000000

/-- `P_CS_DEFAULT` (00_scope.md R5, 41_chipselect.md R170). -/
def Config.csDefault : Byte := 0xFF

/-- The bit ranges `(low bit, width)` of each register's fields (30_encoding.md R101), one list per register. -/
def Layout.fields (L : Layout) : List (List (Nat × Nat)) :=
  [ [(L.loEnable, 1), (L.loLoopback, 1)],
    [(L.loIeDlen, 1), (L.loIeTimeout, 1), (L.loIeParity, 1), (L.loIeDesync, 1), (L.loIeBiterr, 1), (L.loIeOvrn, 1),
     (L.loIeRx, 1), (L.loIeTx, 1), (L.loDmareqen, 1)],
    [(L.loTimeout, 1), (L.loDesync, 1), (L.loBiterr, 1), (L.loDlen, 1), (L.loParity, 1), (L.loOvrn, 1), (L.loTxint, 1),
     (L.loBufinit, 1), (L.loRxint, 1)],
    [(L.loHandshake, 1), (L.loThreewire, 1)],
    [(L.loTxdata, 16), (L.loCsnr, 8), (L.loHold, 1)],
    [(L.loRxdata, 16), (L.loRxempty, 1), (L.loTxfull, 1)],
    [(L.loCsdef, 8)],
    [(L.loPrescale, 8), (L.loCharlen, 5), (L.loPolarity, 1), (L.loPhase, 1), (L.loShiftdir, 1)] ]

/-- Two bit ranges share no bit. -/
def rangesDisjoint (f g : Nat × Nat) : Bool := f.1 + f.2 ≤ g.1 || g.1 + g.2 ≤ f.1

/-- The bit ranges of one register lie in 32 bits and are pairwise disjoint. -/
def rangesWf : List (Nat × Nat) → Bool
  | [] => true
  | f :: fs => decide (f.1 + f.2 ≤ 32) && fs.all (rangesDisjoint f) && rangesWf fs

/-- The offsets of the registers that exist with `n` chip-selects. -/
def Layout.offsets (L : Layout) (n : Nat) : List Nat :=
  [L.offGcr, L.offInt, L.offFlg, L.offPc, L.offDat, L.offBuf, L.offDelay, L.offDef] ++ L.offFmt.take n

/-- What 30_encoding.md R102 demands of a layout with `n` chip-selects. -/
def Layout.wf (L : Layout) (n : Nat) : Bool :=
  L.fields.all rangesWf && decide (n ≤ L.offFmt.length) && (L.offsets n).all (fun o => o % 4 == 0)
    && decide ((L.offsets n).Nodup)

/-- What 00_scope.md R5 demands of the parameters: `1 ≤ P_NUM_CS ≤ 8`, a 2-aligned scratch buffer, a legal layout. -/
def Params.wf (c : Params) : Bool :=
  decide (1 ≤ c.numCs) && decide (c.numCs ≤ 8) && c.scratchAddr.toNat % 2 == 0 && c.layout.wf c.numCs

/-- The informative layout `L_GK` (30_encoding.md R103), [PRESUMED]: used only for the tests' parameters.
R103 knows no position of `THREEWIRE`; bit 16 is taken here [DESIGN CHOICE, log 21]. -/
def Config.layoutGk : Layout where
  offGcr := 0x04
  offInt := 0x08
  offFlg := 0x10
  offPc := 0x14
  offDat := 0x3C
  offBuf := 0x40
  offDelay := 0x48
  offDef := 0x4C
  offFmt := [0x50, 0x54, 0x58, 0x5C]
  loEnable := 24
  loLoopback := 16
  loIeDlen := 0
  loIeTimeout := 1
  loIeParity := 2
  loIeDesync := 3
  loIeBiterr := 4
  loIeOvrn := 6
  loIeRx := 8
  loIeTx := 9
  loDmareqen := 16
  loTimeout := 1
  loDesync := 3
  loBiterr := 4
  loDlen := 0
  loParity := 2
  loOvrn := 6
  loTxint := 9
  loBufinit := 24
  loRxint := 8
  loHandshake := 8
  loThreewire := 16
  loTxdata := 0
  loCsnr := 16
  loHold := 28
  loRxdata := 0
  loRxempty := 31
  loTxfull := 29
  loCsdef := 0
  loPrescale := 8
  loCharlen := 0
  loPolarity := 17
  loPhase := 16
  loShiftdir := 20

/-- The parameters the vectors of 95_test_vectors.md assume ("Conventions"), with `P_SCRATCH_*` as in V10. The vectors give
no `P_HANDSHAKE_WAIT` and no `P_DMA_IDS`, which no rule reads: false and three zeros here [DESIGN CHOICE, log 21]. -/
def Config.vectorParams : Params where
  rev := .v2
  numCs := 2
  clkRate0 := 50000000
  csHold := true
  handshakeWait := false
  useDma := false
  pollMode := true
  delayWord := 0
  phaseInvert := true
  scratchBytes := 64
  scratchFill := 0
  scratchAddr := 0x8000
  regBase := 0x40000000
  layout := Config.layoutGk
  dmaTxAddr := 0x4000003C
  dmaRxAddr := 0x40000040
  dmaIds := ⟨0, 0, 0⟩

/-- The parameters of the instance: the open ones where they are legal by R5, else those of the vectors (log 1). -/
def Config.params : Params := if Config.openParams.wf then Config.openParams else Config.vectorParams

end Sys2Proof
end

