-- ==== Sys2Proof/Machine/State.lean ====
section
/-!
DEFINITION. The engine's state as plain data (10_state.md), its reset value (R36), and the reasons a step can stop.
-/

namespace Sys2Proof.Machine

open Sys2Proof

/-- The agents of 10_state.md R20. -/
inductive Agent where
  | queue
  | freq
  | power
  | handler
  | callback (d : Dir)
  | env
deriving DecidableEq, Repr, Inhabited

/-- The reasons of `raise Fault` (60_exceptions.md R336). -/
inductive FaultReason where
  | unconfiguredCs
  | suspended
  | noBuffers
  | lenNotMultiple
  | misaligned
  | dividerDomain
  | dmaUnallocated
  | dmaZeroCount
  | scratchTooSmall
  | dmaChannelBusy
  | strayReceive
  | rxCursorOverflow
deriving DecidableEq, Repr, Inhabited

/-- Why a step answers a fault. -/
inductive Fault where
  /-- Raised by `step` in a state whose `fault` is already set: no agent takes a step and no event is admitted
  (60_exceptions.md R335). Safe: the spec gives that state no step but reset. -/
  | stopped (reason : FaultReason)
deriving DecidableEq, Repr

/-- Why a step answers a refusal. -/
inductive Refusal where
  /-- Raised by `exec` for an instruction without a meaning. Safe: nothing is claimed about it. No arm of this model
  answers it. -/
  | notModelled (mnemonic : String)
deriving DecidableEq, Repr

/-- The registers of the register window (30_encoding.md R100). -/
inductive Reg where
  | gcr
  | int
  | flg
  | pc
  | dat
  | buf
  | delay
  | dflt
  | fmt (cs : Cs)
deriving DecidableEq, Repr, Inhabited

/-- The record of `GCR` (10_state.md R27, 30_encoding.md R101); `none` is unknown. -/
structure GcrRec where
  enable : Option Bool
  loopback : Option Bool
  other : Option Word
deriving DecidableEq, Repr, Inhabited

/-- The record of `INT`. -/
structure IntRec where
  ieDlen : Option Bool
  ieTimeout : Option Bool
  ieParity : Option Bool
  ieDesync : Option Bool
  ieBiterr : Option Bool
  ieOvrn : Option Bool
  ieRx : Option Bool
  ieTx : Option Bool
  dmareqen : Option Bool
  other : Option Word
deriving DecidableEq, Repr, Inhabited

/-- The record of `PC`. -/
structure PcRec where
  handshake : Option Bool
  threewire : Option Bool
  other : Option Word
deriving DecidableEq, Repr, Inhabited

/-- The record of `DEF`. -/
structure DefRec where
  csdef : Option Byte
  other : Option Word
deriving DecidableEq, Repr, Inhabited

/-- The record of `FMT[i]`. -/
structure FmtRec where
  prescale : Option Byte
  charlen : Option (BitVec 5)
  polarity : Option Bool
  phase : Option Bool
  shiftdir : Option Bool
  other : Option Word
deriving DecidableEq, Repr, Inhabited

/-- The register-window record `regrec` (10_state.md R27): every storage register, and the last word written to `DAT`. -/
structure RegRec where
  gcr : GcrRec
  int : IntRec
  pc : PcRec
  delay : Option Word
  dflt : DefRec
  fmt : Vector FmtRec 8
  dat : Option Word
deriving DecidableEq, Repr, Inhabited

/-- The value of a register access as the history records it: a 32-bit word, or the record of a storage register with its
unknown entries (20_memory.md R80) [DEDUCED, log 26]. -/
inductive RegVal where
  | word (v : Word)
  | gcr (r : GcrRec)
  | int (r : IntRec)
  | pc (r : PcRec)
  | delay (r : Option Word)
  | dflt (r : DefRec)
  | fmt (r : FmtRec)
deriving DecidableEq, Repr, Inhabited

/-- A DMA transfer unit in bits (44_dma.md R240, R242). -/
inductive DmaUnit where
  | u8
  | u16
  | u32
deriving DecidableEq, Repr, Inhabited

/-- The events of the history (20_memory.md R80). `mapping`'s direction `tx` is `TO_DEVICE`, `rx` is `FROM_DEVICE`;
`raised` is the event of `raise Fault` (60_exceptions.md R335, log 13). -/
inductive Ev where
  | rd (r : Reg) (v : RegVal)
  | wr (r : Reg) (v : RegVal)
  | mrd (a n : Nat) (v : Half)
  | mwr (a n : Nat) (v : Half)
  | dalloc (d : Dir) (cs : Cs) (r : Option ChanId)
  | dfree (ch : ChanId)
  | dprog (ch : ChanId) (src dst : Word) (unit : DmaUnit) (n : Nat)
  | dstart (ch : ChanId)
  | dstop (ch : ChanId)
  | dclean (ch : ChanId)
  | mapping (a : Word) (n : Nat) (d : Dir) (r : Option Word)
  | unmapping (dev : Word) (n : Nat) (d : Dir)
  | clk (on : Bool)
  | prescaleFloor (cs : Cs)
  | cmd (p : Port) (word : Word) (args : Args)
  | res (p : Port) (r : Word)
  | irq
  | dmaDone (ch : ChanId) (st : Completion)
  | intr
  | timeout
  | raised (r : FaultReason)
deriving DecidableEq, Repr, Inhabited

/-- An event with the agent that performed it. -/
structure Event where
  agent : Agent
  ev : Ev
deriving DecidableEq, Repr, Inhabited

/-- The port registers of one port (10_state.md R23). -/
structure PortRegs where
  cmd : Word
  arg : Args
  res : Word
  busy : Bool
deriving DecidableEq, Repr, Inhabited

/-- A configured chip-select (10_state.md R28). -/
structure Slave where
  declBits : Nat
  declHz : Nat
  mode : Byte
  bits : Nat
  bpw : Nat
  hz : Nat
  cmdBase : Option Word
deriving DecidableEq, Repr, Inhabited

/-- The DMA entry of a chip-select (10_state.md R29). -/
structure DmaEntry where
  rxCh : Option ChanId
  txCh : Option ChanId
  rxDone : Bool
  txDone : Bool
deriving DecidableEq, Repr, Inhabited

/-- `xf.mode` (10_state.md R31). -/
inductive XfMode where
  | none
  | pioTx
  | pioRxPoll
  | pioRxIrq
  | dma
deriving DecidableEq, Repr, Inhabited

/-- The transfer context `xf` (10_state.md R31). The mapped device addresses `txd` and `rxd` are of 32 bits [DESIGN CHOICE,
log 31]. -/
structure Xfer where
  mode : XfMode
  cs : Cs
  bpw : Nat
  count : Nat
  len : Nat
  tx : Option Word
  rx : Option Word
  rxCur : Nat
  rxEnd : Nat
  cmd : Word
  txd : Word
  txn : Nat
  rxd : Word
  rxn : Nat
deriving DecidableEq, Repr, Inhabited

/-- Positions inside `Configure` (40_divider_config.md R140, R135), with the values read so far. -/
inductive CfgSeq where
  | lenW (t : FmtRec) (bits hz : Nat)
  | divR (hz : Nat)
  | divW (t : FmtRec) (p : Nat)
deriving DecidableEq, Repr, Inhabited

/-- Positions inside `ModeConfig` (42_transfer.md R201). -/
inductive ModeSeq where
  | m1
  | m2 (t : GcrRec)
  | m3
  | m4 (t : PcRec)
deriving DecidableEq, Repr, Inhabited

/-- Positions of the PIO engine (43_pio.md R210, R213, R216, R217); `i` is the loop counter. -/
inductive PioSeq where
  | mode (m : ModeSeq)
  | p5
  | p6
  | p7 (t : GcrRec)
  | p8
  | p9
  | l0 (i : Nat)
  | l2 (i : Nat) (w : Half)
  | l3 (i : Nat) (w : Half)
  | l4 (i : Nat)
  | l5 (i : Nat)
  | l5s (i : Nat) (d : Half)
  | r0 (i : Nat)
  | r2 (i : Nat)
  | r3 (i : Nat)
  | r4 (i : Nat)
  | r5 (i : Nat) (d : Half)
  | i0 (i : Nat)
  | i2 (i : Nat) (t : IntRec)
  | i3 (i : Nat)
  | i4 (i : Nat)
deriving DecidableEq, Repr, Inhabited

/-- Positions of the DMA engine after `E0` (44_dma.md R241). -/
inductive DmaSeq where
  | mode (m : ModeSeq)
  | g6
  | g7 (t : IntRec)
  | g8
  | g9 (t : GcrRec)
  | g10
  | g11
  | g12 (t : GcrRec)
  | g13
  | g15 (k : Nat)
  | g16
  | g17 (m : Word)
  | g18
  | g18u
  | g19 (r : Word)
  | g20
  | g21
  | g22
  | g23 (t : IntRec)
  | g24
  | g25
  | g26
  | g27
deriving DecidableEq, Repr, Inhabited

/-- The sequencer positions of agent Q (10_state.md R24). `bad` is the one step of a reserved encoding (30_encoding.md R98);
`s*` SETUP (R150, R151), `t*`, `pio`, `dma`, `x*`, `exit` TRANSFER (R190, R200, R198), `c*` CLEANUP (R155), `cs*`, `d*`
CHIPSELECT (R175, R176). -/
inductive QSeq where
  | idle
  | bad
  | s1
  | sAllocTx (r : ChanId)
  | sFree (r : ChanId)
  | sNoDma
  | s6 (r t : ChanId)
  | s7 (c : CfgSeq)
  | s8
  | s8w (t : FmtRec)
  | s9
  | t1
  | t6 (c : CfgSeq)
  | t7
  | pio (x : PioSeq)
  | dma (x : DmaSeq)
  | x1
  | x2 (v : Word)
  | exit (r : Word)
  | c1
  | c2 (t : ChanId)
  | c3
  | cs1
  | d2 (t : DefRec)
  | d3
  | d4
  | cs5
deriving DecidableEq, Repr, Inhabited

/-- The sequencer positions of agent F (46_coordination.md R300, R305). -/
inductive FSeq where
  | idle
  | bad
  | fp1
  | fp2
  | fq1
  | fqW (cs : Cs) (t : FmtRec) (p : Nat)
  | fqNext (k : Nat)
deriving DecidableEq, Repr, Inhabited

/-- The sequencer positions of agent P (46_coordination.md R310, R315). -/
inductive PSeq where
  | idle
  | bad
  | sp1
  | spTimeout
  | sp2
  | sp3 (t : GcrRec)
  | sp4
  | sp5
  | rs1
  | rs2
  | rs3 (t : GcrRec)
  | rs4
deriving DecidableEq, Repr, Inhabited

/-- The positions of the receive interrupt handler (60_exceptions.md R351), with the status word it has read and the
word it is storing. -/
inductive HSeq where
  | idle
  | h1
  | h2 (v : Word)
  | h3 (d : Half)
  | h4
  | h5 (t : IntRec)
deriving DecidableEq, Repr, Inhabited

/-- The positions of a DMA completion callback (44_dma.md R262), with what it was started with. -/
inductive CbSeq where
  | idle
  | k1 (c : Cs) (ch : ChanId) (st : Completion)
  | k2 (c : Cs) (ch : ChanId)
  | k4 (c : Cs)
  | k5 (t : IntRec)
deriving DecidableEq, Repr, Inhabited

/-- The model's own input data (log 2, log 3): the environment's moves and the oracle's answers laid down next, oldest
first, and the counter that numbers the free values drawn where nothing is laid down. -/
structure Env where
  turns : List Move
  words : List Word
  allocs : List (Option ChanId)
  maps : List (Option Word)
  bytes : List Byte
  draws : Nat
deriving DecidableEq, Repr, Inhabited

/-- Host memory: pairs of an address and its byte, in the canonical form `Memory.wf` (Machine/Ops.lean). -/
abbrev Memory := List Host.Cell

/-- The state of the machine (10_state.md). `params` and `env` are the model's own fields (log 1, log 2); the tables have an
entry for each of the eight indices a command word can name (log 8); `active` lists the active channels (log 9). -/
structure State where
  params : Params
  portQ : PortRegs
  portF : PortRegs
  portP : PortRegs
  seqQ : QSeq
  seqF : FSeq
  seqP : PSeq
  seqH : HSeq
  seqTx : CbSeq
  seqRx : CbSeq
  inUse : Bool
  done : Bool
  suspended : Bool
  clkOn : Bool
  clkRate : Nat
  regrec : RegRec
  slave : Vector (Option Slave) 8
  dma : Vector DmaEntry 8
  active : List ChanId
  xf : Xfer
  fault : Option FaultReason
  hist : List Event
  mem : Memory
  env : Env
deriving DecidableEq, Repr, Inhabited

/-- A port at reset (10_state.md R36); `CMD` and `ARG` are unknown there and never read before a host writes them:
0 here [DESIGN CHOICE, log 6]. -/
def PortRegs.reset : PortRegs := ⟨0, Args.zero, 0, false⟩

/-- Every storage register's record unknown (10_state.md R36). The spec states no reset value for the record of the command
register `DAT` (20_memory.md R63): unknown here too [DESIGN CHOICE, log 27]. -/
def RegRec.reset : RegRec where
  gcr := ⟨none, none, none⟩
  int := ⟨none, none, none, none, none, none, none, none, none, none⟩
  pc := ⟨none, none, none⟩
  delay := none
  dflt := ⟨none, none⟩
  fmt := Vector.replicate 8 ⟨none, none, none, none, none, none⟩
  dat := none

/-- `xf` at reset: the mode is `NONE`; the other fields are unknown there (10_state.md R36): the values here are the
model's [DESIGN CHOICE, log 7]. -/
def Xfer.reset : Xfer := ⟨.none, 0, 1, 0, 0, none, none, 0, 0, 0, 0, 0, 0, 0⟩

/-- No move and no answer laid down [DESIGN CHOICE, log 25]. -/
def Env.reset : Env := ⟨[], [], [], [], [], 0⟩

/-- The machine right after reset with the parameters `c` (10_state.md R36, 70_reset_and_hazards.md R380). -/
def State.resetWith (c : Params) : State where
  params := c
  portQ := PortRegs.reset
  portF := PortRegs.reset
  portP := PortRegs.reset
  seqQ := .idle
  seqF := .idle
  seqP := .idle
  seqH := .idle
  seqTx := .idle
  seqRx := .idle
  inUse := false
  done := true
  suspended := false
  clkOn := true
  clkRate := c.clkRate0
  regrec := RegRec.reset
  slave := Vector.replicate 8 none
  dma := Vector.replicate 8 ⟨none, none, false, false⟩
  active := []
  xf := Xfer.reset
  fault := none
  hist := []
  mem := []
  env := Env.reset

/-- The machine right after reset, with the parameters of the instance. -/
def State.reset : State := State.resetWith Config.params

end Sys2Proof.Machine
end

