-- ==== Sys2Proof/Machine/Operands.lean ====
section
/-!
DEFINITION. Operand forms: fields of register words by `P_LAYOUT` (30_encoding.md R102), records as 32-bit words (R67),
mode flags (R99), chip-select patterns and command words (41_chipselect.md R170-R174), word widths (40_divider_config.md
R141, 44_dma.md R242), and the per-chip-select tables (10_state.md R28, R29).
-/

namespace Sys2Proof.Machine

open Sys2Proof

/-! ### Fields of a register word -/

/-- `R.F(v)` for a field of `w` bits at low bit `lo` (30_encoding.md R102). -/
def getField (lo w : Nat) (v : Word) : BitVec w := v.extractLsb' lo w

/-- `R.F(v) = 1` for a one-bit field at bit `lo`. -/
def getFlag (lo : Nat) (v : Word) : Bool := v.getLsbD lo

/-- `mask(F)` of a field of `w` bits at low bit `lo` (30_encoding.md R102). -/
def fieldMask (lo w : Nat) : Word := (BitVec.allOnes w).zeroExtend 32 <<< lo

/-- `v with F := x` (30_encoding.md R102). -/
def setField (lo w : Nat) (x : BitVec w) (v : Word) : Word :=
  (v &&& ~~~ fieldMask lo w) ||| ((x.zeroExtend 32 <<< lo) &&& fieldMask lo w)

/-- `v with F := x` for a one-bit field. -/
def setFlag (lo : Nat) (x : Bool) (v : Word) : Word := setField lo 1 (BitVec.ofBool x) v

/-- `setField` where the entry is known, else `v` unchanged. -/
def setFieldIfKnown (lo w : Nat) (x : Option (BitVec w)) (v : Word) : Word :=
  match x with
  | none => v
  | some y => setField lo w y v

/-- `setFlag` where the entry is known, else `v` unchanged. -/
def setFlagIfKnown (lo : Nat) (x : Option Bool) (v : Word) : Word :=
  match x with
  | none => v
  | some y => setFlag lo y v

/-- The bits of `v` outside every named field of a register. -/
def otherBits (fields : List (Nat × Nat)) (v : Word) : Word :=
  v &&& ~~~ (fields.foldl (fun m f => m ||| fieldMask f.1 f.2) 0)

/-- The word below a record: the unnamed bits where they are known, else the bits of `u`. -/
def underOther (other : Option Word) (u : Word) : Word := other.getD u

/-! ### Records and the words that carry them (20_memory.md R66, R67) -/

/-- The record a whole-word write of `v` sets (20_memory.md R66). -/
def gcrOfWord (L : Layout) (v : Word) : GcrRec where
  enable := some (getFlag L.loEnable v)
  loopback := some (getFlag L.loLoopback v)
  other := some (otherBits [(L.loEnable, 1), (L.loLoopback, 1)] v)

/-- The record a whole-word write of `v` sets. -/
def intOfWord (L : Layout) (v : Word) : IntRec where
  ieDlen := some (getFlag L.loIeDlen v)
  ieTimeout := some (getFlag L.loIeTimeout v)
  ieParity := some (getFlag L.loIeParity v)
  ieDesync := some (getFlag L.loIeDesync v)
  ieBiterr := some (getFlag L.loIeBiterr v)
  ieOvrn := some (getFlag L.loIeOvrn v)
  ieRx := some (getFlag L.loIeRx v)
  ieTx := some (getFlag L.loIeTx v)
  dmareqen := some (getFlag L.loDmareqen v)
  other := some (otherBits [(L.loIeDlen, 1), (L.loIeTimeout, 1), (L.loIeParity, 1), (L.loIeDesync, 1), (L.loIeBiterr, 1),
    (L.loIeOvrn, 1), (L.loIeRx, 1), (L.loIeTx, 1), (L.loDmareqen, 1)] v)

/-- The record a whole-word write of `v` sets. -/
def pcOfWord (L : Layout) (v : Word) : PcRec where
  handshake := some (getFlag L.loHandshake v)
  threewire := some (getFlag L.loThreewire v)
  other := some (otherBits [(L.loHandshake, 1), (L.loThreewire, 1)] v)

/-- The record a whole-word write of `v` sets. -/
def defOfWord (L : Layout) (v : Word) : DefRec where
  csdef := some (getField L.loCsdef 8 v)
  other := some (otherBits [(L.loCsdef, 8)] v)

/-- The record a whole-word write of `v` sets. -/
def fmtOfWord (L : Layout) (v : Word) : FmtRec where
  prescale := some (getField L.loPrescale 8 v)
  charlen := some (getField L.loCharlen 5 v)
  polarity := some (getFlag L.loPolarity v)
  phase := some (getFlag L.loPhase v)
  shiftdir := some (getFlag L.loShiftdir v)
  other := some (otherBits [(L.loPrescale, 8), (L.loCharlen, 5), (L.loPolarity, 1), (L.loPhase, 1), (L.loShiftdir, 1)] v)

/-- The 32-bit word of a record on the register window, its unknown bits taken from `u`, the register's contents. -/
def gcrWord (L : Layout) (u : Word) (r : GcrRec) : Word :=
  setFlagIfKnown L.loEnable r.enable (setFlagIfKnown L.loLoopback r.loopback (underOther r.other u))

/-- The 32-bit word of a record on the register window, its unknown bits taken from `u`. -/
def intWord (L : Layout) (u : Word) (r : IntRec) : Word :=
  setFlagIfKnown L.loIeDlen r.ieDlen (setFlagIfKnown L.loIeTimeout r.ieTimeout (setFlagIfKnown L.loIeParity r.ieParity
    (setFlagIfKnown L.loIeDesync r.ieDesync (setFlagIfKnown L.loIeBiterr r.ieBiterr (setFlagIfKnown L.loIeOvrn r.ieOvrn
      (setFlagIfKnown L.loIeRx r.ieRx (setFlagIfKnown L.loIeTx r.ieTx (setFlagIfKnown L.loDmareqen r.dmareqen
        (underOther r.other u)))))))))

/-- The 32-bit word of a record on the register window, its unknown bits taken from `u`. -/
def pcWord (L : Layout) (u : Word) (r : PcRec) : Word :=
  setFlagIfKnown L.loHandshake r.handshake (setFlagIfKnown L.loThreewire r.threewire (underOther r.other u))

/-- The 32-bit word of a record on the register window, its unknown bits taken from `u`. -/
def defWord (L : Layout) (u : Word) (r : DefRec) : Word :=
  setFieldIfKnown L.loCsdef 8 r.csdef (underOther r.other u)

/-- The 32-bit word of a record on the register window, its unknown bits taken from `u`. -/
def fmtWord (L : Layout) (u : Word) (r : FmtRec) : Word :=
  setFieldIfKnown L.loPrescale 8 r.prescale (setFieldIfKnown L.loCharlen 5 r.charlen (setFlagIfKnown L.loPolarity r.polarity
    (setFlagIfKnown L.loPhase r.phase (setFlagIfKnown L.loShiftdir r.shiftdir (underOther r.other u)))))

/-- The word a register access of the history moves on the register window (20_memory.md R67) [DEDUCED, log 26]. -/
def valWord (L : Layout) (u : Word) : RegVal → Word
  | .word v => v
  | .gcr r => gcrWord L u r
  | .int r => intWord L u r
  | .pc r => pcWord L u r
  | .delay r => r.getD u
  | .dflt r => defWord L u r
  | .fmt r => fmtWord L u r

/-- The byte offset of a register (30_encoding.md R102). -/
def regOffset (L : Layout) : Reg → Nat
  | .gcr => L.offGcr
  | .int => L.offInt
  | .flg => L.offFlg
  | .pc => L.offPc
  | .dat => L.offDat
  | .buf => L.offBuf
  | .delay => L.offDelay
  | .dflt => L.offDef
  | .fmt cs => L.offFmt.getD cs.toNat 0

/-- The address of a register, `P_REG_BASE + offset(R)` (20_memory.md R60): a natural number that does not wrap at `2^32`
[DESIGN CHOICE, log 29]. -/
def regAddr (c : Params) (r : Reg) : Nat := c.regBase.toNat + regOffset c.layout r

/-! ### Mode flags (30_encoding.md R99) -/

/-- `CPHA` clock phase. -/
def modeCpha (m : Byte) : Bool := m.getLsbD 0

/-- `CPOL` clock polarity. -/
def modeCpol (m : Byte) : Bool := m.getLsbD 1

/-- `LSB_FIRST` bit order. -/
def modeLsbFirst (m : Byte) : Bool := m.getLsbD 3

/-- `THREE_WIRE` 3-wire pinout. -/
def modeThreeWire (m : Byte) : Bool := m.getLsbD 4

/-- `LOOP` loopback. -/
def modeLoop (m : Byte) : Bool := m.getLsbD 5

/-- `READY` handshake line. -/
def modeReady (m : Byte) : Bool := m.getLsbD 7

/-- The format register's mode bits of SETUP step S8 (40_divider_config.md R152). -/
def withFormatBits (c : Params) (m : Byte) (t : FmtRec) : FmtRec :=
  { t with polarity := some (modeCpol m), phase := some (modeCpha m ^^ c.phaseInvert), shiftdir := some (modeLsbFirst m) }

/-! ### Chip-select patterns and command words (41_chipselect.md) -/

/-- `ActivePattern(cs)` (41_chipselect.md R170). -/
def activePattern (cs : Cs) : Byte := Config.csDefault &&& ~~~ ((1 : Byte) <<< cs.toNat)

/-- `Compose(cs, d)` (41_chipselect.md R172). -/
def compose (c : Params) (cs : Cs) (d : Half) : Word :=
  setFlag c.layout.loHold c.csHold (setField c.layout.loCsnr 8 (activePattern cs) (setField c.layout.loTxdata 16 d 0))

/-- `CmdBase(cs)` (41_chipselect.md R172). -/
def cmdBase (c : Params) (cs : Cs) : Word := compose c cs 0

/-- `cmd with TXDATA := d` (43_pio.md R213, L3). -/
def withTxData (c : Params) (cmd : Word) (d : Half) : Word := setField c.layout.loTxdata 16 d cmd

/-- `DeselectWord` (41_chipselect.md R173). -/
def deselectWord (c : Params) : Word := setField c.layout.loCsnr 8 Config.csDefault 0

/-- `ReleaseWord(cs)` (41_chipselect.md R174). -/
def releaseWord (c : Params) (cs : Cs) : Word := setFlag c.layout.loHold false (cmdBase c cs)

/-! ### Fields of the receive buffer register (30_encoding.md R101) -/

/-- `BUF.RXEMPTY(v) = 1`. -/
def bufRxEmpty (c : Params) (v : Word) : Bool := getFlag c.layout.loRxempty v

/-- `BUF.TXFULL(v) = 1`. -/
def bufTxFull (c : Params) (v : Word) : Bool := getFlag c.layout.loTxfull v

/-- `BUF.RXDATA(v)`. -/
def bufRxData (c : Params) (v : Word) : Half := getField c.layout.loRxdata 16 v

/-! ### Widths -/

/-- `Bpw(bits)` (40_divider_config.md R141). -/
def bpwOf (bits : Nat) : Nat := if bits ≤ 8 then 1 else 2

/-- `Unit(b)` (44_dma.md R242). -/
def dmaUnit : Nat → Option DmaUnit
  | 1 => some .u8
  | 2 => some .u16
  | 4 => some .u32
  | _ => none

/-- The address of word `i` of a buffer at `base` with `bpw` bytes a word (43_pio.md R214, R215; 44_dma.md R244): a natural
number that does not wrap at `2^32` [DESIGN CHOICE, log 28]. -/
def wordAddr (base : Word) (i bpw : Nat) : Nat := base.toNat + i * bpw

/-- `v[8·n − 1 : 0]` zero-extended, for an access of `n` bytes (43_pio.md R215). -/
def lowBytes (n : Nat) (v : Half) : Half := if n = 1 then v &&& 0xFF else v

/-! ### The per-chip-select tables -/

/-- The entry of chip-select `cs`. -/
def csGet {α : Type} (t : Vector α 8) (cs : Cs) : α := t[cs.toNat]'cs.isLt

/-- The table with the entry of chip-select `cs` replaced. -/
def csSet {α : Type} (t : Vector α 8) (cs : Cs) (x : α) : Vector α 8 := t.set cs.toNat x cs.isLt

/-- Every chip-select index, ascending. -/
def allCs : List Cs := [0, 1, 2, 3, 4, 5, 6, 7]

end Sys2Proof.Machine
end

