-- ==== Sys2Proof/Machine/Flags.lean ====
section
/-!
DEFINITION. Result codes (30_encoding.md R97), the error status decoder (45_error_decoder.md R280-R285) and the
admission of the controller's interrupt line (60_exceptions.md R346).
-/

namespace Sys2Proof.Machine

open Sys2Proof

/-- The error codes of 30_encoding.md R97. -/
inductive Err where
  | inval
  | hwTimeout
  | hwDesync
  | hwBiterr
  | hwDlen
  | hwParity
  | hwOverrun
  | hwTxint
  | busy
  | resDma
  | resMap
  | waitTimeout
  | badCmd
deriving DecidableEq, Repr, Inhabited

/-- The numeric value of an error code (30_encoding.md R97). -/
def errCode : Err → Int
  | .inval => -1
  | .hwTimeout => -2
  | .hwDesync => -3
  | .hwBiterr => -4
  | .hwDlen => -5
  | .hwParity => -6
  | .hwOverrun => -7
  | .hwTxint => -8
  | .busy => -9
  | .resDma => -10
  | .resMap => -11
  | .waitTimeout => -12
  | .badCmd => -13

/-- An error code as `RES` holds it: 32 bits, two's complement (30_encoding.md R96). -/
def errWord (e : Err) : Word := BitVec.ofInt 32 (errCode e)

/-- `Decode(v, rev)` (45_error_decoder.md R280): `none` is `OK`. -/
def statusDecode (L : Layout) (rev : Rev) (v : Word) : Option Err :=
  if getFlag L.loTimeout v then some .hwTimeout
  else if getFlag L.loDesync v then some .hwDesync
  else if getFlag L.loBiterr v then some .hwBiterr
  else if rev = .v1 then none
  else if getFlag L.loDlen v then some .hwDlen
  else if getFlag L.loParity v then some .hwParity
  else if getFlag L.loOvrn v then some .hwOverrun
  else if getFlag L.loTxint v then some .hwTxint
  else if getFlag L.loBufinit v then some .busy
  else none

/-- The result of `StatusCheck` from the status word `v` (42_transfer.md R199, R200). -/
def statusResult (c : Params) (x : Xfer) (v : Word) : Word :=
  match statusDecode c.layout c.rev v with
  | none => BitVec.ofNat 32 (x.count * x.bpw)
  | some e => errWord e

/-- `FLG.RXINT(v) = 1` (30_encoding.md R101). -/
def flgRxint (c : Params) (v : Word) : Bool := getFlag c.layout.loRxint v

/-- An interrupt-source enable that is 1 or unknown (60_exceptions.md R346). -/
def mayEnable (e : Option Bool) : Bool := e != some false

/-- At least one interrupt-source enable of `INT` is 1 or unknown (60_exceptions.md R346). -/
def lineEnabled (t : IntRec) : Bool :=
  mayEnable t.ieDlen || mayEnable t.ieTimeout || mayEnable t.ieParity || mayEnable t.ieDesync
    || mayEnable t.ieBiterr || mayEnable t.ieOvrn || mayEnable t.ieRx || mayEnable t.ieTx

/-- `INT` with all eight interrupt sources disabled (44_dma.md R241, G6-G7). -/
def withSourcesOff (t : IntRec) : IntRec :=
  { t with ieDlen := some false, ieTimeout := some false, ieParity := some false, ieDesync := some false,
           ieBiterr := some false, ieOvrn := some false, ieRx := some false, ieTx := some false }

/-- `INT` with the bit-error, overrun and receive-ready sources enabled (43_pio.md R217, I1-I2). -/
def withRxArmed (t : IntRec) : IntRec :=
  { t with ieBiterr := some true, ieOvrn := some true, ieRx := some true }

end Sys2Proof.Machine
end

