-- ==== Sys2Proof/Machine/Ops.lean ====
section
/-!
DEFINITION. The named operations over the state: host memory, the oracle's answers, the history, the port registers, the
register window, the DMA controller's commands, the engine flags, `finish`, `raise Fault`, the issue of a command and
reset. Every meaning is written over these.
-/

namespace Sys2Proof.Machine

open Sys2Proof

/-! ### Host memory (20_memory.md R60, R70, R71) -/

/-- What an address with no entry reads as: the spec gives host memory no contents [DESIGN CHOICE, log 10]. -/
def Memory.blank : Byte := 0

/-- Addresses strictly rise from `k`, lie below `2^32`, and no entry equals what an unlisted address reads as. -/
def Memory.wfFrom : Nat → Memory → Bool
  | _, [] => true
  | k, (a, b) :: m => decide (k ≤ a) && decide (a < 2 ^ 32) && b != Memory.blank && Memory.wfFrom (a + 1) m

/-- The canonical form of host memory. -/
def Memory.wf (m : Memory) : Bool := Memory.wfFrom 0 m

/-- The byte at address `a`. -/
def memGet : Memory → Nat → Byte
  | [], _ => Memory.blank
  | (k, b) :: m, a => if k = a then b else memGet m a

/-- A cell in front of `m`, unless it holds what an unlisted address reads as. -/
def memCons (a : Nat) (b : Byte) (m : Memory) : Memory := if b = Memory.blank then m else (a, b) :: m

/-- Memory with byte `b` at address `a`, in canonical form. -/
def memSet : Memory → Nat → Byte → Memory
  | [], a, b => memCons a b []
  | (k, c) :: m, a, b =>
    if a < k then memCons a b ((k, c) :: m)
    else if a = k then memCons a b m
    else (k, c) :: memSet m a b

/-- The value `MemRead(a, n)` returns, `n` in {1, 2}, little-endian, zero-extended (20_memory.md R70). -/
def memRead (m : Memory) (a n : Nat) : Half :=
  if n = 1 then (memGet m a).zeroExtend 16 else memGet m (a + 1) ++ memGet m a

/-- Memory after `MemWrite(a, n, v)`, `n` in {1, 2}, little-endian (20_memory.md R70). -/
def memWrite (m : Memory) (a n : Nat) (v : Half) : Memory :=
  if n = 1 then memSet m a (v.extractLsb' 0 8)
  else memSet (memSet m a (v.extractLsb' 0 8)) (a + 1) (v.extractLsb' 8 8)

/-- `[a, a + n)` lies in `[base, base + len)`. -/
def within (a n base len : Nat) : Bool := decide (base ≤ a) && decide (a + n ≤ base + len)

/-- `[a, a + n)` lies in the region of `len` bytes of an optional buffer. -/
def withinBuffer (a n : Nat) (base : Option Word) (len : Nat) : Bool :=
  match base with
  | none => false
  | some b => within a n b.toNat len

/-- A host-memory access of `n` bytes at `a` is admitted: one byte, or two at an even address, in the 32-bit address space
and in the transmit, receive or scratch region (00_scope.md R10; 20_memory.md R60, R70, R71) [DEDUCED, log 11]. -/
def admitted (s : State) (a n : Nat) : Bool :=
  (n == 1 || (n == 2 && a % 2 == 0)) && decide (a + n ≤ 2 ^ 32)
    && (withinBuffer a n s.xf.tx s.xf.len || withinBuffer a n s.xf.rx s.xf.len
        || within a n s.params.scratchAddr.toNat s.params.scratchBytes)

/-! ### The oracle's answers (20_memory.md R62): the answer laid down next, else a free value -/

/-- The environment's data after a volatile read's answer is taken. -/
def envDropWord (e : Env) : Env :=
  match e.words with
  | [] => { e with draws := e.draws + 1 }
  | _ :: r => { e with words := r }

/-- The environment's data after a `DmaAlloc` answer is taken. -/
def envDropAlloc (e : Env) : Env :=
  match e.allocs with
  | [] => { e with draws := e.draws + 1 }
  | _ :: r => { e with allocs := r }

/-- The environment's data after a `Map` answer is taken. -/
def envDropMap (e : Env) : Env :=
  match e.maps with
  | [] => { e with draws := e.draws + 1 }
  | _ :: r => { e with maps := r }

/-- The environment's data after one byte of an unmapped receive buffer is taken. -/
def envDropByte (e : Env) : Env :=
  match e.bytes with
  | [] => { e with draws := e.draws + 1 }
  | _ :: r => { e with bytes := r }

/-- The environment's data after its next move is taken. -/
def envDropTurn (e : Env) : Env :=
  match e.turns with
  | [] => { e with draws := e.draws + 1 }
  | _ :: r => { e with turns := r }

/-- The answer to the next volatile register read. -/
def nextWord (s : State) : Word := s.env.words.head?.getD (Config.freeWord s.env.draws)

/-- The host byte the next drawn position of an unmapped receive buffer holds. -/
def envByte (e : Env) : Byte := e.bytes.head?.getD (Config.freeByte e.draws)

/-- The answer to the next `Map`. -/
def nextMap (s : State) : Option Word := s.env.maps.head?.getD (Config.freeMap s.env.draws)

/-- The environment's next move. -/
def nextTurn (s : State) : Move := s.env.turns.head?.getD (Config.freeMove s.env.draws)

/-- The channels a SETUP in progress has been given and has not recorded yet. -/
def heldInSetup : QSeq → List ChanId
  | .sAllocTx r => [r]
  | .sFree r => [r]
  | .s6 r t => [r, t]
  | _ => []

/-- The engine holds channel `ch`: some chip-select's table entry names it, or the SETUP in progress was given it. -/
def held (s : State) (ch : ChanId) : Bool :=
  (heldInSetup s.seqQ).contains ch
    || allCs.any (fun c => (csGet s.dma c).rxCh == some ch || (csGet s.dma c).txCh == some ch)

/-- The answer to the next `DmaAlloc`: a channel not held by the engine, or `none` (44_dma.md R240); an answer that
names a held channel is no answer the spec admits and is taken as `none` (log 18). -/
def nextAlloc (s : State) : Option ChanId :=
  (s.env.allocs.head?.getD (Config.freeAlloc s.env.draws)).filter (fun ch => !held s ch)

/-- The state after a volatile read's answer is taken. -/
def dropWord (s : State) : State := { s with env := envDropWord s.env }

/-- The state after a `DmaAlloc` answer is taken. -/
def dropAlloc (s : State) : State := { s with env := envDropAlloc s.env }

/-- The state after a `Map` answer is taken. -/
def dropMap (s : State) : State := { s with env := envDropMap s.env }

/-- The state after the environment's next move is taken. -/
def dropTurn (s : State) : State := { s with env := envDropTurn s.env }

/-! ### The history and the sequencer positions -/

/-- Record event `e` of agent `a` (20_memory.md R80). -/
def record (a : Agent) (e : Ev) (s : State) : State := { s with hist := s.hist ++ [⟨a, e⟩] }

/-- `seq <- l` of agent Q. -/
def goQ (l : QSeq) (s : State) : State := { s with seqQ := l }

/-- `seq <- l` of agent F. -/
def goF (l : FSeq) (s : State) : State := { s with seqF := l }

/-- `seq <- l` of agent P. -/
def goP (l : PSeq) (s : State) : State := { s with seqP := l }

/-- `seq <- l` of the interrupt handler. -/
def goH (l : HSeq) (s : State) : State := { s with seqH := l }

/-- The position of the callback of direction `d`. -/
def seqCb (d : Dir) (s : State) : CbSeq :=
  match d with
  | .tx => s.seqTx
  | .rx => s.seqRx

/-- `seq <- l` of the callback of direction `d`. -/
def goCb (d : Dir) (l : CbSeq) (s : State) : State :=
  match d with
  | .tx => { s with seqTx := l }
  | .rx => { s with seqRx := l }

/-! ### Ports (10_state.md R23; 30_encoding.md R95, R96) -/

/-- The agent that executes a port's commands (10_state.md R20). -/
def portAgent : Port → Agent
  | .queue => .queue
  | .freq => .freq
  | .power => .power

/-- The registers of a port. -/
def portRegs (p : Port) (s : State) : PortRegs :=
  match p with
  | .queue => s.portQ
  | .freq => s.portF
  | .power => s.portP

/-- The state with the registers of a port replaced. -/
def setPort (p : Port) (r : PortRegs) (s : State) : State :=
  match p with
  | .queue => { s with portQ := r }
  | .freq => { s with portF := r }
  | .power => { s with portP := r }

/-- `seq <- IDLE` of a port's agent. -/
def idlePort (p : Port) (s : State) : State :=
  match p with
  | .queue => goQ .idle s
  | .freq => goF .idle s
  | .power => goP .idle s

/-- `finish(r)` on port `p`: `RES <- r`, `BUSY <- false`, `seq <- IDLE`, event `Res(p, r)` (30_encoding.md R96). -/
def finish (p : Port) (r : Word) (s : State) : State :=
  record (portAgent p) (.res p r) (idlePort p (setPort p { portRegs p s with res := r, busy := false } s))

/-- The position of a command's first step on port Q; `bad` for a reserved encoding (30_encoding.md R95, R98). -/
def firstQ : Except DecodeError Instr → QSeq
  | .ok (.setup ..) => .s1
  | .ok (.transfer ..) => .t1
  | .ok (.cleanup ..) => .c1
  | .ok (.chipselect ..) => .cs1
  | .ok .freqPre => .bad
  | .ok (.freqPost ..) => .bad
  | .ok .suspend => .bad
  | .ok .resume => .bad
  | .error _ => .bad

/-- The position of a command's first step on port F. -/
def firstF : Except DecodeError Instr → FSeq
  | .ok .freqPre => .fp1
  | .ok (.freqPost ..) => .fq1
  | .ok (.setup ..) => .bad
  | .ok (.transfer ..) => .bad
  | .ok (.cleanup ..) => .bad
  | .ok (.chipselect ..) => .bad
  | .ok .suspend => .bad
  | .ok .resume => .bad
  | .error _ => .bad

/-- The position of a command's first step on port P. -/
def firstP : Except DecodeError Instr → PSeq
  | .ok .suspend => .sp1
  | .ok .resume => .rs1
  | .ok (.setup ..) => .bad
  | .ok (.transfer ..) => .bad
  | .ok (.cleanup ..) => .bad
  | .ok (.chipselect ..) => .bad
  | .ok .freqPre => .bad
  | .ok (.freqPost ..) => .bad
  | .error _ => .bad

/-- The agent of port `p` at the first step of the command `w` with arguments `a`. -/
def startPort (p : Port) (w : Word) (a : Args) (s : State) : State :=
  match p with
  | .queue => goQ (firstQ (decode .queue w a)) s
  | .freq => goF (firstF (decode .freq w a)) s
  | .power => goP (firstP (decode .power w a)) s

/-- `ARG_p` and `CMD_p` written, `BUSY_p` set, the port's agent at the command's first step (30_encoding.md R95). -/
def loadCommand (p : Port) (w : Word) (a : Args) (s : State) : State :=
  startPort p w a (setPort p { portRegs p s with cmd := w, arg := a, busy := true } s)

/-- A host's issue of a command: one environment step, recorded as `Cmd(p, CMD, ARG)` (30_encoding.md R95). -/
def issue (p : Port) (w : Word) (a : Args) (s : State) : State := record .env (.cmd p w a) (loadCommand p w a s)

/-! ### Faults and reset (60_exceptions.md R335; 70_reset_and_hazards.md R380) -/

/-- `raise Fault(r)` by agent `a`: `fault <- some r`, its event the last of the history; nothing is rolled back
(60_exceptions.md R335) [DEDUCED, logs 13 and 14]. -/
def raise (a : Agent) (r : FaultReason) (s : State) : State := record a (.raised r) { s with fault := some r }

/-- Reset (attach): every piece of engine state at its reset value, a fault cleared; the parameters, host memory and the
environment's data are not the engine's and stay (70_reset_and_hazards.md R380, log 22). -/
def attach (s : State) : State := { State.resetWith s.params with mem := s.mem, env := s.env }

/-! ### The register window (20_memory.md R63-R67) -/

/-- `RegRead(GCR)`: the record. -/
def readGcr (a : Agent) (s : State) : State := record a (.rd .gcr (.gcr s.regrec.gcr)) s

/-- `RegRead(INT)`: the record. -/
def readInt (a : Agent) (s : State) : State := record a (.rd .int (.int s.regrec.int)) s

/-- `RegRead(PC)`: the record. -/
def readPc (a : Agent) (s : State) : State := record a (.rd .pc (.pc s.regrec.pc)) s

/-- `RegRead(DEF)`: the record. -/
def readDef (a : Agent) (s : State) : State := record a (.rd .dflt (.dflt s.regrec.dflt)) s

/-- The record of `FMT[cs]`. -/
def fmtRec (cs : Cs) (s : State) : FmtRec := csGet s.regrec.fmt cs

/-- `RegRead(FMT[cs])`: the record. -/
def readFmt (a : Agent) (cs : Cs) (s : State) : State := record a (.rd (.fmt cs) (.fmt (fmtRec cs s))) s

/-- `RegRead(FLG)` or `RegRead(BUF)`: an oracle draw (20_memory.md R63); the value read is `nextWord s`. -/
def readVolatile (a : Agent) (r : Reg) (s : State) : State := record a (.rd r (.word (nextWord s))) (dropWord s)

/-- The write step of a read-modify-write of `GCR` (20_memory.md R65). -/
def writeGcr (a : Agent) (v : GcrRec) (s : State) : State :=
  record a (.wr .gcr (.gcr v)) { s with regrec := { s.regrec with gcr := v } }

/-- The write step of a read-modify-write of `INT`. -/
def writeInt (a : Agent) (v : IntRec) (s : State) : State :=
  record a (.wr .int (.int v)) { s with regrec := { s.regrec with int := v } }

/-- The write step of a read-modify-write of `PC`. -/
def writePc (a : Agent) (v : PcRec) (s : State) : State :=
  record a (.wr .pc (.pc v)) { s with regrec := { s.regrec with pc := v } }

/-- The write step of a read-modify-write of `DEF`. -/
def writeDef (a : Agent) (v : DefRec) (s : State) : State :=
  record a (.wr .dflt (.dflt v)) { s with regrec := { s.regrec with dflt := v } }

/-- The write step of a read-modify-write of `FMT[cs]`. -/
def writeFmt (a : Agent) (cs : Cs) (v : FmtRec) (s : State) : State :=
  record a (.wr (.fmt cs) (.fmt v)) { s with regrec := { s.regrec with fmt := csSet s.regrec.fmt cs v } }

/-- `RegWrite(DELAY, v)`. -/
def writeDelay (a : Agent) (v : Word) (s : State) : State :=
  record a (.wr .delay (.delay (some v))) { s with regrec := { s.regrec with delay := some v } }

/-- `RegWrite(DAT, v)`: the word is handed to the controller and recorded (20_memory.md R66). -/
def writeDat (a : Agent) (v : Word) (s : State) : State :=
  record a (.wr .dat (.word v)) { s with regrec := { s.regrec with dat := some v } }

/-- `RegWrite(R, v)` of a whole word: `regrec[R]` set from `v` in full (20_memory.md R66); `FLG` and `BUF` are never
written (R63). -/
def regWrite (a : Agent) (r : Reg) (v : Word) (s : State) : State :=
  match r with
  | .gcr => writeGcr a (gcrOfWord s.params.layout v) s
  | .int => writeInt a (intOfWord s.params.layout v) s
  | .flg => s
  | .pc => writePc a (pcOfWord s.params.layout v) s
  | .dat => writeDat a v s
  | .buf => s
  | .delay => writeDelay a v s
  | .dflt => writeDef a (defOfWord s.params.layout v) s
  | .fmt cs => writeFmt a cs (fmtOfWord s.params.layout v) s

/-! ### Host memory accesses of an agent -/

/-- `MemRead(addr, n)`; the value read is `memRead s.mem addr n`. -/
def hostRead (a : Agent) (addr n : Nat) (s : State) : State := record a (.mrd addr n (memRead s.mem addr n)) s

/-- `MemWrite(addr, n, v)`. -/
def hostWrite (a : Agent) (addr n : Nat) (v : Half) (s : State) : State :=
  record a (.mwr addr n (lowBytes n v)) { s with mem := memWrite s.mem addr n v }

/-! ### The tables -/

/-- The record of chip-select `cs`. -/
def slaveOf (cs : Cs) (s : State) : Option Slave := csGet s.slave cs

/-- `slave[cs] <- x`. -/
def setSlave (cs : Cs) (x : Option Slave) (s : State) : State := { s with slave := csSet s.slave cs x }

/-- The DMA entry of chip-select `cs`. -/
def dmaOf (cs : Cs) (s : State) : DmaEntry := csGet s.dma cs

/-- `dma[cs] <- x`. -/
def setDma (cs : Cs) (x : DmaEntry) (s : State) : State := { s with dma := csSet s.dma cs x }

/-- The mode flags of a configured chip-select. -/
def slaveMode (cs : Cs) (s : State) : Byte := ((slaveOf cs s).map Slave.mode).getD 0

/-! ### DMA controller commands (44_dma.md R240) and the mapping service (20_memory.md R75) -/

/-- `active[ch]` (10_state.md R30). -/
def isActive (s : State) (ch : ChanId) : Bool := s.active.contains ch

/-- The ascending list of channels with `ch` added. -/
def insertChan (ch : ChanId) : List ChanId → List ChanId
  | [] => [ch]
  | x :: r => if ch < x then ch :: x :: r else if ch = x then x :: r else x :: insertChan ch r

/-- `DmaAlloc(d, cs)`; the answer is `nextAlloc s`. -/
def dmaAlloc (d : Dir) (cs : Cs) (s : State) : State := record .queue (.dalloc d cs (nextAlloc s)) (dropAlloc s)

/-- `DmaFree(ch)`. -/
def dmaFree (ch : ChanId) (s : State) : State := record .queue (.dfree ch) s

/-- `DmaProgram(ch, src, dst, unit, n)`, Q continuing at `next`; on an active channel the step is
`raise Fault(F_DMA_CHANNEL_BUSY)` instead. -/
def dmaProgram (ch : ChanId) (src dst : Word) (u : DmaUnit) (n : Nat) (next : QSeq) (s : State) : State :=
  if isActive s ch then raise .queue .dmaChannelBusy s else goQ next (record .queue (.dprog ch src dst u n) s)

/-- `DmaStart(ch)`. -/
def dmaStart (ch : ChanId) (s : State) : State := record .queue (.dstart ch) { s with active := insertChan ch s.active }

/-- `DmaStop(ch)`, by a callback. -/
def dmaStop (a : Agent) (ch : ChanId) (s : State) : State :=
  record a (.dstop ch) { s with active := s.active.filter (fun x => x != ch) }

/-- `DmaClean(ch)`, by a callback. -/
def dmaClean (a : Agent) (ch : ChanId) (s : State) : State := record a (.dclean ch) s

/-- `Map(a, n, d)`; the answer is `nextMap s`. -/
def mapBuffer (a : Word) (n : Nat) (d : Dir) (s : State) : State := record .queue (.mapping a n d (nextMap s)) (dropMap s)

/-- `Unmap(dev, n, TO_DEVICE)`. -/
def unmapTx (dev : Word) (n : Nat) (s : State) : State := record .queue (.unmapping dev n .tx) s

/-- `n` drawn bytes at address `a` on: each byte of an unmapped receive buffer holds an oracle draw (20_memory.md R75);
an address outside the 32-bit space has no byte [DEDUCED, log 19]. -/
def scatter : Nat → Nat → Memory → Env → Memory × Env
  | 0, _, m, e => (m, e)
  | n + 1, a, m, e => scatter n (a + 1) (if a < 2 ^ 32 then memSet m a (envByte e) else m) (envDropByte e)

/-- `Unmap(dev, n, FROM_DEVICE)` of the mapping of the host bytes at `a`. -/
def unmapRx (dev : Word) (n a : Nat) (s : State) : State :=
  record .queue (.unmapping dev n .rx) { s with mem := (scatter n a s.mem s.env).1, env := (scatter n a s.mem s.env).2 }

/-! ### The clock gate and the engine flags -/

/-- `ClockGate(on | off)`; `clk_on` is the last value driven (10_state.md R25). -/
def clockGate (on : Bool) (s : State) : State := record .power (.clk on) { s with clkOn := on }

/-- `E0` (42_transfer.md R196): `in_use <- true; done <- false; xf.mode <- m`. -/
def engineEntry (m : XfMode) (s : State) : State :=
  { s with inUse := true, done := false, xf := { s.xf with mode := m } }

/-- `Exit(r)` (42_transfer.md R198): `in_use <- false; done <- true; xf.mode <- NONE; finish(r)`. -/
def engineExit (r : Word) (s : State) : State :=
  finish .queue r { s with inUse := false, done := true, xf := { s.xf with mode := .none } }

/-- The one step of a reserved encoding on port `p`: `finish(E_BADCMD)` (30_encoding.md R98). -/
def refuseEncoding (p : Port) (s : State) : State := finish p (errWord .badCmd) s

end Sys2Proof.Machine
end

