-- ==== Sys2Proof/Machine/ChipSelect.lean ====
section
/-!
DEFINITION. CHIPSELECT (41_chipselect.md R175-R177).
-/

namespace Sys2Proof.Machine

open Sys2Proof

/-- CS1 to CS3, and the first step of `Deactivate` (41_chipselect.md R175, R176). -/
def chipselectFirst (cs : Cs) (act : Bool) (s : State) : State :=
  if s.params.numCs ≤ cs.toNat then finish .queue (errWord .inval) s
  else if s.suspended then raise .queue .suspended s
  else if act then finish .queue 0 s
  else goQ (.d2 s.regrec.dflt) (readDef .queue s)

/-- One step of CHIPSELECT at Q's position; `none` where Q is at no position of CHIPSELECT. -/
def chipselectStep (cs : Cs) (act : Bool) (s : State) : Option State :=
  match s.seqQ with
  | .cs1 => some (chipselectFirst cs act s)
  | .d2 t => some (goQ .d3 (writeDef .queue { t with csdef := some Config.csDefault } s))
  | .d3 => some (goQ .d4 (regWrite .queue .dat (deselectWord s.params) s))
  | .d4 =>
      some (goQ (if bufRxEmpty s.params (nextWord s) then .cs5 else .d4) (readVolatile .queue .buf s))
  | .cs5 => some (finish .queue 0 s)
  | _ => none

/-- CHIPSELECT: one atomic step (41_chipselect.md R175). -/
def execChipselect (cs : Cs) (act : Bool) (s : State) : Host.Outcome State Fault Refusal :=
  .next ((chipselectStep cs act s).getD s)

end Sys2Proof.Machine
end

