-- ==== Sys2Proof/Machine/Cleanup.lean ====
section
/-!
DEFINITION. CLEANUP (40_divider_config.md R155).
-/

namespace Sys2Proof.Machine

open Sys2Proof

/-- C1 and the first primitive step of C2 or C3. -/
def cleanupFirst (cs : Cs) (s : State) : State :=
  if s.params.numCs ≤ cs.toNat then finish .queue (errWord .inval) s
  else
    match (dmaOf cs s).rxCh, (dmaOf cs s).txCh with
    | some r, some t =>
        if isActive s r || isActive s t then raise .queue .dmaChannelBusy s else goQ (.c2 t) (dmaFree r s)
    | _, _ => finish .queue 0 s

/-- The end of C2 and C3: both channels unallocated, `finish(0)`. -/
def cleanupLast (cs : Cs) (s : State) : State :=
  finish .queue 0 (setDma cs { dmaOf cs s with rxCh := none, txCh := none } s)

/-- One step of CLEANUP at Q's position; `none` where Q is at no position of CLEANUP. -/
def cleanupStep (cs : Cs) (s : State) : Option State :=
  match s.seqQ with
  | .c1 => some (cleanupFirst cs s)
  | .c2 t => some (goQ .c3 (dmaFree t s))
  | .c3 => some (cleanupLast cs s)
  | _ => none

/-- CLEANUP: one atomic step (40_divider_config.md R155). -/
def execCleanup (cs : Cs) (s : State) : Host.Outcome State Fault Refusal := .next ((cleanupStep cs s).getD s)

end Sys2Proof.Machine
end

