-- ==== Sys2Proof/Machine/Divider.lean ====
section
/-!
DEFINITION. The clock divider (40_divider_config.md R130-R135) and Transfer Configuration (R140-R143).
-/

namespace Sys2Proof.Machine

open Sys2Proof

/-- `p1` of `Prescale`: the quotient less one, clamped to 255 (40_divider_config.md R130). -/
def prescaleClamped (clk hz : Nat) : Nat := min (clk / hz - 1) 255

/-- `p2` of `Prescale`: one more where the achieved frequency is still above `hz` (40_divider_config.md R130). -/
def prescaleRaised (clk hz : Nat) : Nat :=
  if hz < clk / (prescaleClamped clk hz + 1) then prescaleClamped clk hz + 1 else prescaleClamped clk hz

/-- `Prescale(clk, hz)`: the prescale value and whether the floor raised it; `none` where it raises
`Fault(F_DIVIDER_DOMAIN)` (40_divider_config.md R130, R134). -/
def prescale (clk hz : Nat) : Option (Nat × Bool) :=
  if hz = 0 ∨ clk < hz then none
  else if prescaleRaised clk hz < 2 then some (2, true)
  else some (min (prescaleRaised clk hz) 255, false)

/-- `achieved(clk, p)`, the bus frequency of prescale `p` (40_divider_config.md R132). -/
def achieved (clk p : Nat) : Nat := clk / (p + 1)

/-- The diagnostic note of a floored prescale (40_divider_config.md R133). -/
def noteFloor (a : Agent) (cs : Cs) (floored : Bool) (s : State) : State :=
  if floored then record a (.prescaleFloor cs) s else s

/-- The first step of `WriteDivider(cs, hz)` (40_divider_config.md R135): the prescale is computed, a floor noted, the format
register read; `k` moves the agent on with what was read and the prescale. -/
def dividerRead (a : Agent) (cs : Cs) (hz : Nat) (k : FmtRec → Nat → State → State) (s : State) : State :=
  match prescale s.clkRate hz with
  | none => raise a .dividerDomain s
  | some (p, floored) => k (fmtRec cs s) p (readFmt a cs (noteFloor a cs floored s))

/-- The second step of `WriteDivider`: the record read, with `PRESCALE := p`. -/
def dividerWrite (a : Agent) (cs : Cs) (t : FmtRec) (p : Nat) (s : State) : State :=
  writeFmt a cs { t with prescale := some (BitVec.ofNat 8 p) } s

/-- The checks of `Configure` (40_divider_config.md R140): a width in [2, 16] and a frequency in bounds. -/
def configOk (bits hz : Nat) : Bool :=
  decide (2 ≤ bits) && decide (bits ≤ 16) && decide (Config.minHz ≤ hz) && decide (hz ≤ Config.maxHz)

/-- The first step of `Configure(cs, bits_o, hz_o)` (40_divider_config.md R140): the checks, the effective values recorded,
the format register read for `CHARLEN`; Q continues at `wrap` of the position inside `Configure`. `none` is
`return E_INVAL`, before anything is written. -/
def configureStart (cs : Cs) (bitsO hzO : Option Nat) (wrap : CfgSeq → QSeq) (s : State) : Option State :=
  match slaveOf cs s with
  | none => none
  | some sl =>
    if configOk (bitsO.getD sl.declBits) (hzO.getD sl.declHz) then
      some (goQ (wrap (.lenW (fmtRec cs s) (bitsO.getD sl.declBits) (hzO.getD sl.declHz)))
        (readFmt .queue cs
          (setSlave cs
            (some { sl with
                      bits := bitsO.getD sl.declBits
                      bpw := bpwOf (bitsO.getD sl.declBits)
                      hz := hzO.getD sl.declHz }) s)))
    else none

/-- The later steps of `Configure`: `CHARLEN` written, then `WriteDivider`; Q goes on at `next` after the last. -/
def configureStep (cs : Cs) (c : CfgSeq) (wrap : CfgSeq → QSeq) (next : QSeq) (s : State) : State :=
  match c with
  | .lenW t bits hz =>
      goQ (wrap (.divR hz)) (writeFmt .queue cs { t with charlen := some (BitVec.ofNat 5 bits) } s)
  | .divR hz => dividerRead .queue cs hz (fun t p s' => goQ (wrap (.divW t p)) s') s
  | .divW t p => goQ next (dividerWrite .queue cs t p s)

end Sys2Proof.Machine
end

