-- ==== Sys2Proof/Machine/Coordination.lean ====
section
/-!
DEFINITION. FREQ_PRE, FREQ_POST, SUSPEND and RESUME (46_coordination.md R300-R317).
-/

namespace Sys2Proof.Machine

open Sys2Proof

/-- One step of FREQ_PRE at F's position; `none` where F holds or is at no position of FREQ_PRE (46_coordination.md R300,
R301). -/
def freqPreStep (s : State) : Option State :=
  match s.seqF with
  | .fp1 => if s.done then some (goF .fp2 s) else none
  | .fp2 => some (finish .freq 0 s)
  | _ => none

/-- FREQ_PRE: one atomic step (46_coordination.md R300). -/
def execFreqPre (s : State) : Host.Outcome State Fault Refusal := .next ((freqPreStep s).getD s)

/-- The configured chip-select of least index from `k` on, below `P_NUM_CS`, with its target frequency
(46_coordination.md R305, FQ2). -/
def nextConfigured (k : Nat) (s : State) : Option (Cs × Nat) :=
  (allCs.find? (fun c => decide (k ≤ c.toNat) && decide (c.toNat < s.params.numCs) && (slaveOf c s).isSome)).bind
    (fun c => (slaveOf c s).map (fun sl => (c, sl.hz)))

/-- The loop of FQ2 from chip-select `k` on: the read step of the next `WriteDivider`, or `finish(0)` (FQ3). -/
def freqPostFrom (k : Nat) (s : State) : State :=
  match nextConfigured k s with
  | none => finish .freq 0 s
  | some (cs, hz) => dividerRead .freq cs hz (fun t p s' => goF (.fqW cs t p) s') s

/-- One step of FREQ_POST at F's position; `none` where F is at no position of FREQ_POST (46_coordination.md R305). -/
def freqPostStep (newClk : Nat) (s : State) : Option State :=
  match s.seqF with
  | .fq1 => some (freqPostFrom 0 { s with clkRate := newClk })
  | .fqW cs t p => some (goF (.fqNext (cs.toNat + 1)) (dividerWrite .freq cs t p s))
  | .fqNext k => some (freqPostFrom k s)
  | _ => none

/-- FREQ_POST: one atomic step (46_coordination.md R305). -/
def execFreqPost (newClk : Nat) (s : State) : Host.Outcome State Fault Refusal :=
  .next ((freqPostStep newClk s).getD s)

/-- One step of SUSPEND at P's position; `none` where P holds or is at no position of SUSPEND (46_coordination.md R310). -/
def suspendStep (s : State) : Option State :=
  match s.seqP with
  | .sp1 => if s.done then some (goP .sp2 s) else none
  | .spTimeout => some (finish .power (errWord .waitTimeout) s)
  | .sp2 => some (goP (.sp3 s.regrec.gcr) (readGcr .power s))
  | .sp3 t => some (goP .sp4 (writeGcr .power { t with enable := some false } s))
  | .sp4 => some (goP .sp5 (clockGate false s))
  | .sp5 => some (finish .power 0 { s with suspended := true })
  | _ => none

/-- SUSPEND: one atomic step (46_coordination.md R310). -/
def execSuspend (s : State) : Host.Outcome State Fault Refusal := .next ((suspendStep s).getD s)

/-- One step of RESUME at P's position; `none` where P is at no position of RESUME (46_coordination.md R315). -/
def resumeStep (s : State) : Option State :=
  match s.seqP with
  | .rs1 => some (goP .rs2 (clockGate true s))
  | .rs2 => some (goP (.rs3 s.regrec.gcr) (readGcr .power s))
  | .rs3 t => some (goP .rs4 (writeGcr .power { t with enable := some true } s))
  | .rs4 => some (finish .power 0 { s with suspended := false })
  | _ => none

/-- RESUME: one atomic step (46_coordination.md R315). -/
def execResume (s : State) : Host.Outcome State Fault Refusal := .next ((resumeStep s).getD s)

end Sys2Proof.Machine
end

