-- ==== Sys2Proof/Machine/Setup.lean ====
section
/-!
DEFINITION. SETUP (40_divider_config.md R150-R152).
-/

namespace Sys2Proof.Machine

open Sys2Proof

/-- The record SETUP step S6 writes: the declared values and mode, the effective values and the cached command word of the
previous record, or the declared values and none (40_divider_config.md R150). -/
def setupRecord (mode : Byte) (bits maxHz : Nat) (old : Option Slave) : Slave :=
  match old with
  | none => ⟨bits, maxHz, mode, bits, bpwOf bits, maxHz, none⟩
  | some o => ⟨bits, maxHz, mode, o.bits, o.bpw, o.hz, o.cmdBase⟩

/-- Step S8's read, for the format bits (40_divider_config.md R152). -/
def setupFormatRead (cs : Cs) (s : State) : State := goQ (.s8w (fmtRec cs s)) (readFmt .queue cs s)

/-- S6 and the first step of S7's `Configure` (40_divider_config.md R150). `Configure` cannot return `E_INVAL` after S3 and
S4; its result is not looked at, so SETUP would go on at S8 (log 23). -/
def setupConfigure (cs : Cs) (mode : Byte) (bits maxHz : Nat) (s : State) : State :=
  let s6 := setSlave cs (some (setupRecord mode bits maxHz (slaveOf cs s))) s
  (configureStart cs none none .s7 s6).getD (setupFormatRead cs s6)

/-- A5: both channels recorded (40_divider_config.md R151). -/
def setupChannels (cs : Cs) (r t : ChanId) (s : State) : State :=
  setDma cs { dmaOf cs s with rxCh := some r, txCh := some t } s

/-- S1 to the first primitive step: the checks in order, then the allocation of the receive channel, or S6 and S7. -/
def setupFirst (cs : Cs) (mode : Byte) (bits maxHz : Nat) (s : State) : State :=
  if s.params.numCs ≤ cs.toNat then finish .queue (errWord .inval) s
  else if s.suspended then raise .queue .suspended s
  else if maxHz < Config.minHz ∨ Config.maxHz < maxHz then finish .queue (errWord .inval) s
  else if bits < 2 ∨ 16 < bits then finish .queue (errWord .inval) s
  else if s.params.useDma ∧ (dmaOf cs s).rxCh = none then
    match nextAlloc s with
    | none => goQ .sNoDma (dmaAlloc .rx cs s)
    | some r => goQ (.sAllocTx r) (dmaAlloc .rx cs s)
  else setupConfigure cs mode bits maxHz s

/-- A3: the transmit channel's allocation (40_divider_config.md R151). -/
def setupAllocTx (cs : Cs) (r : ChanId) (s : State) : State :=
  match nextAlloc s with
  | none => goQ (.sFree r) (dmaAlloc .tx cs s)
  | some t => goQ (.s6 r t) (dmaAlloc .tx cs s)

/-- One step of SETUP at Q's position; `none` where Q is at no position of SETUP. -/
def setupStep (cs : Cs) (mode : Byte) (bits maxHz : Nat) (s : State) : Option State :=
  match s.seqQ with
  | .s1 => some (setupFirst cs mode bits maxHz s)
  | .sAllocTx r => some (setupAllocTx cs r s)
  | .sFree r => some (goQ .sNoDma (dmaFree r s))
  | .sNoDma => some (finish .queue (errWord .resDma) s)
  | .s6 r t => some (setupConfigure cs mode bits maxHz (setupChannels cs r t s))
  | .s7 c => some (configureStep cs c .s7 .s8 s)
  | .s8 => some (setupFormatRead cs s)
  | .s8w t => some (goQ .s9 (writeFmt .queue cs (withFormatBits s.params mode t) s))
  | .s9 => some (finish .queue 0 s)
  | _ => none

/-- SETUP: one atomic step (40_divider_config.md R150). -/
def execSetup (cs : Cs) (mode : Byte) (bits maxHz : Nat) (s : State) : Host.Outcome State Fault Refusal :=
  .next ((setupStep cs mode bits maxHz s).getD s)

end Sys2Proof.Machine
end

