-- ==== Sys2Proof/Machine/Pio.lean ====
section
/-!
DEFINITION. The mode configuration both transfer engines use (42_transfer.md R201) and the PIO transfer FIFO sequencer
(43_pio.md R210-R220).
-/

namespace Sys2Proof.Machine

open Sys2Proof

/-- One step of `ModeConfig(cs)` (42_transfer.md R201); Q continues at `wrap` of the position inside it, and at `next` after
its last step. -/
def modeStep (cs : Cs) (m : ModeSeq) (wrap : ModeSeq → QSeq) (next : QSeq) (s : State) : State :=
  match m with
  | .m1 => goQ (wrap (.m2 s.regrec.gcr)) (readGcr .queue s)
  | .m2 t => goQ (wrap .m3) (writeGcr .queue { t with loopback := some (modeLoop (slaveMode cs s)) } s)
  | .m3 => goQ (wrap (.m4 s.regrec.pc)) (readPc .queue s)
  | .m4 t =>
      goQ next (writePc .queue { t with handshake := some (modeReady (slaveMode cs s)),
                                        threewire := some (modeThreeWire (slaveMode cs s)) } s)

/-- `Policy()` (43_pio.md R212). -/
def pioPolicy (c : Params) (x : Xfer) : XfMode :=
  if x.tx.isSome then .pioTx else if c.pollMode then .pioRxPoll else .pioRxIrq

/-- P10: the loop of the selected policy, at its head with `i = 0` (43_pio.md R210). -/
def pioLoop : XfMode → PioSeq
  | .pioTx => .l0 0
  | .pioRxPoll => .r0 0
  | .pioRxIrq => .i0 0
  | .none => .p9
  | .dma => .p9

/-- X1: the one read of the status-flag register (42_transfer.md R200). -/
def statusRead (s : State) : State := goQ (.x2 (nextWord s)) (readVolatile .queue .flg s)

/-- `MemWrite(rx + i·bpw, bpw, d)` of `RxStore(i, d)` by Q (43_pio.md R215), Q continuing at `next`; Q has no step where
the access is not admitted (20_memory.md R71). -/
def rxStore (i : Nat) (d : Half) (next : QSeq) (s : State) : Option State :=
  match s.xf.rx with
  | none => none
  | some a =>
    if admitted s (wordAddr a i s.xf.bpw) s.xf.bpw then
      some (goQ next (hostWrite .queue (wordAddr a i s.xf.bpw) s.xf.bpw d s))
    else none

/-- The head L0 of the transmit-driven loop: `TxWord(i)`'s read, or the status check when the count is reached
(43_pio.md R213, R214). -/
def pioTxHead (i : Nat) (s : State) : Option State :=
  if i < s.xf.count then
    match s.xf.tx with
    | none => none
    | some a =>
      if admitted s (wordAddr a i s.xf.bpw) s.xf.bpw then
        some (goQ (.pio (.l2 i (memRead s.mem (wordAddr a i s.xf.bpw) s.xf.bpw)))
          (hostRead .queue (wordAddr a i s.xf.bpw) s.xf.bpw s))
      else none
  else some (statusRead s)

/-- The head R0 of the polled receive loop: one look at the transmit slot, or the status check (43_pio.md R216). -/
def pioPollHead (i : Nat) (s : State) : State :=
  if i < s.xf.count then
    goQ (.pio (if bufTxFull s.params (nextWord s) then .r3 i else .r2 i)) (readVolatile .queue .buf s)
  else statusRead s

/-- The head I0 of the interrupt-driven loop: the arming read, or the release write I5 (43_pio.md R217, R218). -/
def pioIrqHead (i : Nat) (s : State) : State :=
  if i < s.xf.count then goQ (.pio (.i2 i s.regrec.int)) (readInt .queue s)
  else goQ .x1 (regWrite .queue .dat (releaseWord s.params s.xf.cs) s)

/-- One step of the PIO engine at position `x` (43_pio.md R210, R213, R216, R217); at I4 an unknown `IE_RX` is not 0
[DEDUCED, log 20]. -/
def pioStep (x : PioSeq) (s : State) : Option State :=
  match x with
  | .mode m => some (modeStep s.xf.cs m (fun m' => .pio (.mode m')) (.pio .p5) s)
  | .p5 => some (goQ (.pio .p6) (engineEntry (pioPolicy s.params s.xf) s))
  | .p6 => some (goQ (.pio (.p7 s.regrec.gcr)) (readGcr .queue s))
  | .p7 t => some (goQ (.pio .p8) (writeGcr .queue { t with enable := some true } s))
  | .p8 => some (goQ (.pio .p9) (regWrite .queue .delay s.params.delayWord s))
  | .p9 =>
      some (goQ (.pio (if bufRxEmpty s.params (nextWord s) then pioLoop s.xf.mode else .p9)) (readVolatile .queue .buf s))
  | .l0 i => pioTxHead i s
  | .l2 i w =>
      some (goQ (.pio (if bufTxFull s.params (nextWord s) then .l2 i w else .l3 i w)) (readVolatile .queue .buf s))
  | .l3 i w => some (goQ (.pio (.l4 i)) (regWrite .queue .dat (withTxData s.params s.xf.cmd w) s))
  | .l4 i =>
      some (goQ (.pio (if bufRxEmpty s.params (nextWord s) then .l4 i
                       else if s.xf.rx.isSome then .l5 i else .l0 (i + 1)))
        (readVolatile .queue .buf s))
  | .l5 i => some (goQ (.pio (.l5s i (bufRxData s.params (nextWord s)))) (readVolatile .queue .buf s))
  | .l5s i d => rxStore i d (.pio (.l0 (i + 1))) s
  | .r0 i => some (pioPollHead i s)
  | .r2 i => some (goQ (.pio (.r3 i)) (regWrite .queue .dat s.xf.cmd s))
  | .r3 i =>
      some (goQ (.pio (if bufRxEmpty s.params (nextWord s) then .r3 i else .r4 i)) (readVolatile .queue .buf s))
  | .r4 i => some (goQ (.pio (.r5 i (bufRxData s.params (nextWord s)))) (readVolatile .queue .buf s))
  | .r5 i d => rxStore i d (.pio (.r0 (i + 1))) s
  | .i0 i => some (pioIrqHead i s)
  | .i2 i t => some (goQ (.pio (.i3 i)) (writeInt .queue (withRxArmed t) s))
  | .i3 i => some (goQ (.pio (.i4 i)) (regWrite .queue .dat s.xf.cmd s))
  | .i4 i =>
      some (goQ (.pio (if s.regrec.int.ieRx = some false then .i0 (i + 1) else .i4 i)) (readInt .queue s))

end Sys2Proof.Machine
end

