-- ==== Sys2Proof/Machine/DmaEngine.lean ====
section
/-!
DEFINITION. The dual-channel DMA transfer orchestrator (44_dma.md R240-R252).
-/

namespace Sys2Proof.Machine

open Sys2Proof

/-- The source address and the size in bytes of the transmit mapping: the caller's buffer, or the scratch buffer with one
extra word (44_dma.md R244). -/
def dmaTxSource (c : Params) (x : Xfer) : Word × Nat :=
  match x.tx with
  | some a => (a, x.count * x.bpw)
  | none => (c.scratchAddr, (x.count + 1) * x.bpw)

/-- The position after the poll of G13: the transmit mapping, or the scratch fill before it (44_dma.md R244). -/
def dmaAfterPreload (x : Xfer) : DmaSeq := if x.tx.isSome then .g16 else .g15 0

/-- The first wait of the transfer, or the unmapping where there is none (44_dma.md R248). -/
def dmaFirstWait (x : Xfer) : DmaSeq := if x.tx.isSome then .g24 else if x.rx.isSome then .g25 else .g26

/-- The position after the transmit wait (44_dma.md R248). -/
def dmaAfterTxWait (x : Xfer) : DmaSeq := if x.rx.isSome then .g25 else .g26

/-- The first step after `E0`: `Exit(E_INVAL)` for a width with no transfer unit, else the first step of `ModeConfig`
(44_dma.md R241, R242). -/
def dmaModeRead (s : State) : State :=
  match dmaUnit s.xf.bpw with
  | none => engineExit (errWord .inval) s
  | some _ => modeStep s.xf.cs .m1 (fun m => .dma (.mode m)) (.dma .g6) s

/-- One step of the scratch fill: word `k` of `n + 1`; Q has no step where the access is not admitted (44_dma.md R244). -/
def dmaFill (k : Nat) (s : State) : Option State :=
  if admitted s (wordAddr s.params.scratchAddr k s.xf.bpw) s.xf.bpw then
    some (goQ (.dma (if k < s.xf.count then .g15 (k + 1) else .g16))
      (hostWrite .queue (wordAddr s.params.scratchAddr k s.xf.bpw) s.xf.bpw s.params.scratchFill s))
  else none

/-- G16: the transmit mapping (44_dma.md R244). -/
def dmaMapTx (s : State) : State :=
  let src := dmaTxSource s.params s.xf
  goQ (match nextMap s with
       | none => .exit (errWord .resMap)
       | some m => .dma (.g17 m))
    (mapBuffer src.1 src.2 .tx { s with xf := { s.xf with txn := src.2 } })

/-- G17: the transmit channel programmed (44_dma.md R245). Q has no step without a channel or a unit, which TRANSFER step T8
and R242 exclude. -/
def dmaProgTx (m : Word) (s : State) : Option State :=
  match (dmaOf s.xf.cs s).txCh, dmaUnit s.xf.bpw with
  | some ch, some u =>
      some (dmaProgram ch m s.params.dmaTxAddr u (s.xf.txn / s.xf.bpw) (.dma (if s.xf.rx.isSome then .g18 else .g20))
        { s with xf := { s.xf with txd := m } })
  | _, _ => none

/-- G18: the receive mapping (44_dma.md R246). -/
def dmaMapRx (s : State) : Option State :=
  match s.xf.rx with
  | none => none
  | some a =>
      some (goQ (match nextMap s with
                 | none => .dma .g18u
                 | some r => .dma (.g19 r))
        (mapBuffer a (s.xf.count * s.xf.bpw) .rx s))

/-- G19: the receive channel programmed (44_dma.md R246). -/
def dmaProgRx (r : Word) (s : State) : Option State :=
  match (dmaOf s.xf.cs s).rxCh, dmaUnit s.xf.bpw with
  | some ch, some u =>
      some (dmaProgram ch s.params.dmaRxAddr r u s.xf.count (.dma .g20)
        { s with xf := { s.xf with rxd := r, rxn := s.xf.count * s.xf.bpw } })
  | _, _ => none

/-- G20: both completion latches cleared and the transmit channel started (44_dma.md R247). -/
def dmaStartTx (s : State) : Option State :=
  match (dmaOf s.xf.cs s).txCh with
  | none => none
  | some ch =>
      some (goQ (.dma (if s.xf.rx.isSome then .g21 else .g22))
        (dmaStart ch (setDma s.xf.cs { dmaOf s.xf.cs s with txDone := false, rxDone := false } s)))

/-- G21: the receive channel started (44_dma.md R247). -/
def dmaStartRx (s : State) : Option State :=
  match (dmaOf s.xf.cs s).rxCh with
  | none => none
  | some ch => some (goQ (.dma .g22) (dmaStart ch s))

/-- G27: the receive mapping unmapped (44_dma.md R250). -/
def dmaUnmapRx (s : State) : Option State :=
  match s.xf.rx with
  | none => none
  | some a => some (goQ .x1 (unmapRx s.xf.rxd s.xf.rxn a.toNat s))

/-- One step of the DMA engine at position `x` (44_dma.md R241, R243-R250); `none` where Q holds at a wait, or is stuck. -/
def dmaStep (x : DmaSeq) (s : State) : Option State :=
  match x with
  | .mode .m1 => some (dmaModeRead s)
  | .mode m => some (modeStep s.xf.cs m (fun m' => .dma (.mode m')) (.dma .g6) s)
  | .g6 => some (goQ (.dma (.g7 s.regrec.int)) (readInt .queue s))
  | .g7 t => some (goQ (.dma .g8) (writeInt .queue (withSourcesOff t) s))
  | .g8 => some (goQ (.dma (.g9 s.regrec.gcr)) (readGcr .queue s))
  | .g9 t => some (goQ (.dma .g10) (writeGcr .queue { t with enable := some false } s))
  | .g10 => some (goQ (.dma .g11) (regWrite .queue .dat s.xf.cmd s))
  | .g11 => some (goQ (.dma (.g12 s.regrec.gcr)) (readGcr .queue s))
  | .g12 t => some (goQ (.dma .g13) (writeGcr .queue { t with enable := some true } s))
  | .g13 =>
      some (goQ (.dma (if bufRxEmpty s.params (nextWord s) then dmaAfterPreload s.xf else .g13))
        (readVolatile .queue .buf s))
  | .g15 k => dmaFill k s
  | .g16 => some (dmaMapTx s)
  | .g17 m => dmaProgTx m s
  | .g18 => dmaMapRx s
  | .g18u => some (goQ (.exit (errWord .resMap)) (unmapTx s.xf.txd s.xf.txn s))
  | .g19 r => dmaProgRx r s
  | .g20 => dmaStartTx s
  | .g21 => dmaStartRx s
  | .g22 => some (goQ (.dma (.g23 s.regrec.int)) (readInt .queue s))
  | .g23 t => some (goQ (.dma (dmaFirstWait s.xf)) (writeInt .queue { t with dmareqen := some true } s))
  | .g24 => if (dmaOf s.xf.cs s).txDone then some (goQ (.dma (dmaAfterTxWait s.xf)) s) else none
  | .g25 => if (dmaOf s.xf.cs s).rxDone then some (goQ (.dma .g26) s) else none
  | .g26 => some (goQ (if s.xf.rx.isSome then .dma .g27 else .x1) (unmapTx s.xf.txd s.xf.txn s))
  | .g27 => dmaUnmapRx s

end Sys2Proof.Machine
end

