-- ==== Sys2Proof/Machine/Transfer.lean ====
section
/-!
DEFINITION. TRANSFER: front end, dispatch and exit (42_transfer.md R190-R202), over the PIO and DMA engines.
-/

namespace Sys2Proof.Machine

open Sys2Proof

/-- A buffer address that is present and odd (42_transfer.md R190, T7). -/
def oddBuffer (a : Option Word) : Bool :=
  match a with
  | none => false
  | some x => x.toNat % 2 != 0

/-- T7 and T8: the fault of a transfer with these operands on a chip-select whose record is `sl`, the first that applies
(42_transfer.md R190, R192). -/
def transferFault (sl : Slave) (cs : Cs) (tx rx : Option Word) (len : Nat) (s : State) : Option FaultReason :=
  if len % sl.bpw ≠ 0 then some .lenNotMultiple
  else if sl.bpw = 2 ∧ (oddBuffer tx ∨ oddBuffer rx) then some .misaligned
  else if s.params.useDma then
    if (dmaOf cs s).rxCh = none then some .dmaUnallocated
    else if len / sl.bpw = 0 then some .dmaZeroCount
    else if tx = none ∧ s.params.scratchBytes < (len / sl.bpw + 1) * sl.bpw then some .scratchTooSmall
    else none
  else none

/-- T9: the transfer context and the cached base command word (42_transfer.md R190, R195). The fields of `xf` that T9 does
not name stay [log 7]. `rx_cur` and `rx_end` are natural numbers: `rx + len` does not wrap at `2^32`
[DESIGN CHOICE, log 28]. -/
def transferContext (sl : Slave) (cs : Cs) (tx rx : Option Word) (len : Nat) (s : State) : State :=
  setSlave cs (some { sl with cmdBase := some (cmdBase s.params cs) })
    { s with xf := { s.xf with
        cs := cs
        bpw := sl.bpw
        count := len / sl.bpw
        len := len
        tx := tx
        rx := rx
        rxCur := (rx.getD 0).toNat
        rxEnd := (rx.getD 0).toNat + len
        cmd := cmdBase s.params cs } }

/-- T10: the first step of the engine of the instance's strategy (42_transfer.md R190, R197): `E0` of the DMA engine, the
first step of `ModeConfig` in the PIO engine. -/
def transferDispatch (cs : Cs) (s : State) : State :=
  if s.params.useDma then goQ (.dma (.mode .m1)) (engineEntry .dma s)
  else modeStep cs .m1 (fun m => .pio (.mode m)) (.pio .p5) s

/-- T7 to the first primitive step after it (42_transfer.md R190). -/
def transferEnter (cs : Cs) (tx rx : Option Word) (len : Nat) (s : State) : State :=
  match slaveOf cs s with
  | none => raise .queue .unconfiguredCs s
  | some sl =>
    match transferFault sl cs tx rx len s with
    | some r => raise .queue r s
    | none => transferDispatch cs (transferContext sl cs tx rx len s)

/-- T1 to the first primitive step: the checks in order, then `Configure` where an override is present, else T7 on
(42_transfer.md R190, R193). -/
def transferFirst (cs : Cs) (tx rx : Option Word) (len : Nat) (bits hz : Option Nat) (s : State) : State :=
  if s.params.numCs ≤ cs.toNat then finish .queue (errWord .inval) s
  else if s.suspended then raise .queue .suspended s
  else if slaveOf cs s = none then raise .queue .unconfiguredCs s
  else if tx = none ∧ rx = none then raise .queue .noBuffers s
  else if 0x7FFFFFFF < len then finish .queue (errWord .inval) s
  else if bits.isSome ∨ hz.isSome then
    (configureStart cs bits hz .t6 s).getD (finish .queue (errWord .inval) s)
  else transferEnter cs tx rx len s

/-- One step of TRANSFER at Q's position; `none` where Q is at no position of TRANSFER, holds at a wait, or is stuck. -/
def transferStep (cs : Cs) (tx rx : Option Word) (len : Nat) (bits hz : Option Nat) (s : State) : Option State :=
  match s.seqQ with
  | .t1 => some (transferFirst cs tx rx len bits hz s)
  | .t6 c => some (configureStep cs c .t6 .t7 s)
  | .t7 => some (transferEnter cs tx rx len s)
  | .pio x => pioStep x s
  | .dma x => dmaStep x s
  | .x1 => some (statusRead s)
  | .x2 v => some (engineExit (statusResult s.params s.xf v) s)
  | .exit r => some (engineExit r s)
  | _ => none

/-- TRANSFER: one atomic step (42_transfer.md R190). -/
def execTransfer (cs : Cs) (tx rx : Option Word) (len : Nat) (bits hz : Option Nat) (s : State) :
    Host.Outcome State Fault Refusal :=
  .next ((transferStep cs tx rx len bits hz s).getD s)

end Sys2Proof.Machine
end

