-- ==== Sys2Proof/Machine/Dispatch.lean ====
section
/-!
DEFINITION. The meaning of every command: `exec i s` is the next atomic step of command `i` at the position its port's
agent holds in `s` (10_state.md R24, 00_scope.md R11); an agent that has no step leaves the state as it is.
-/

namespace Sys2Proof.Machine

open Sys2Proof

def exec (i : Instr) (s : State) : Host.Outcome State Fault Refusal :=
  match i with
  | .setup cs mode bits maxHz => Sys2Proof.Machine.execSetup cs mode bits maxHz s
  | .transfer cs tx rx len bits hz => Sys2Proof.Machine.execTransfer cs tx rx len bits hz s
  | .cleanup cs => Sys2Proof.Machine.execCleanup cs s
  | .chipselect cs act => Sys2Proof.Machine.execChipselect cs act s
  | .freqPre => Sys2Proof.Machine.execFreqPre s
  | .freqPost newClk => Sys2Proof.Machine.execFreqPost newClk s
  | .suspend => Sys2Proof.Machine.execSuspend s
  | .resume => Sys2Proof.Machine.execResume s

end Sys2Proof.Machine
end

