-- ==== Sys2Proof/Machine/Interrupts.lean ====
section
/-!
DEFINITION. The receive interrupt handler (60_exceptions.md R350-R352) and the DMA completion callbacks (44_dma.md
R260-R263).
-/

namespace Sys2Proof.Machine

open Sys2Proof

/-- H1: `FLG` read (60_exceptions.md R351). -/
def handlerLook (s : State) : State := goH (.h2 (nextWord s)) (readVolatile .handler .flg s)

/-- A word is ready in the status word `v` and `IE_RX` is known to be 1 (60_exceptions.md R351, `armed`). -/
def handlerArmed (v : Word) (s : State) : Bool := flgRxint s.params v && s.regrec.int.ieRx == some true

/-- What follows the read of H1, with the status word `v` read there: `armed` and its test, folded into the next step
(00_scope.md R11); the return is a step of its own; else the guards of H2, then the receive read (60_exceptions.md R351). -/
def handlerTake (v : Word) (s : State) : State :=
  if handlerArmed v s = false then goH .idle s
  else if s.xf.mode ≠ .pioRxIrq then raise .handler .strayReceive s
  else if s.xf.rxEnd < s.xf.rxCur + s.xf.bpw then raise .handler .rxCursorOverflow s
  else goH (.h3 (bufRxData s.params (nextWord s))) (readVolatile .handler .buf s)

/-- H3: the word stored at the receive cursor, the cursor advanced; the handler has no step where the access is not
admitted (60_exceptions.md R351, 20_memory.md R71). -/
def handlerStore (d : Half) (s : State) : Option State :=
  if admitted s s.xf.rxCur s.xf.bpw then
    let s' := hostWrite .handler s.xf.rxCur s.xf.bpw d s
    some (goH .h4 { s' with xf := { s'.xf with rxCur := s'.xf.rxCur + s'.xf.bpw } })
  else none

/-- One step of the handler; `none` where it is idle or stuck (60_exceptions.md R351). -/
def handlerStep (s : State) : Option State :=
  match s.seqH with
  | .idle => none
  | .h1 => some (handlerLook s)
  | .h2 v => some (handlerTake v s)
  | .h3 d => handlerStore d s
  | .h4 => some (goH (.h5 s.regrec.int) (readInt .handler s))
  | .h5 t => some (goH .idle (writeInt .handler { t with ieRx := some false } s))

/-- The DMA entry with the completion latch of direction `d` set. -/
def withDone (d : Dir) (e : DmaEntry) : DmaEntry :=
  match d with
  | .tx => { e with txDone := true }
  | .rx => { e with rxDone := true }

/-- One step of the callback of direction `d`; `none` where it is idle (44_dma.md R262). -/
def callbackStep (d : Dir) (s : State) : Option State :=
  match seqCb d s with
  | .idle => none
  | .k1 c ch .clean => some (goCb d (.k4 c) (dmaStop (.callback d) ch s))
  | .k1 c ch .error => some (goCb d (.k2 c ch) (dmaStop (.callback d) ch s))
  | .k2 c ch => some (goCb d (.k4 c) (dmaClean (.callback d) ch s))
  | .k4 c => some (goCb d (.k5 s.regrec.int) (readInt (.callback d) (setDma c (withDone d (dmaOf c s)) s)))
  | .k5 t => some (goCb d .idle (writeInt (.callback d) { t with dmareqen := some false } s))

end Sys2Proof.Machine
end

