-- ==== Sys2Proof/Machine/Environment.lean ====
section
/-!
DEFINITION. The environment's events and when each is admitted (60_exceptions.md R345-R349, 44_dma.md R261); host stores
(20_memory.md R86). An event that is not admitted does not happen: `none`.
-/

namespace Sys2Proof.Machine

open Sys2Proof

/-- `Cmd(p, w, a)`: a host issues a command, on an idle port only (30_encoding.md R95). -/
def envCmd (p : Port) (w : Word) (a : Args) (s : State) : Option State :=
  if (portRegs p s).busy then none else some (issue p w a s)

/-- `Irq`: admitted while the handler is idle and the line is enabled (60_exceptions.md R346). -/
def envIrq (s : State) : Option State :=
  if s.seqH = .idle ∧ lineEnabled s.regrec.int then some (goH .h1 (record .env .irq s)) else none

/-- The chip-select and direction whose channel is `ch` (60_exceptions.md R347), the receive side first where entries of states
no run reaches share it [DESIGN CHOICE, log 23]. -/
def channelOwner (ch : ChanId) (s : State) : Option (Cs × Dir) :=
  match allCs.find? (fun c => (dmaOf c s).rxCh == some ch) with
  | some c => some (c, .rx)
  | none =>
    match allCs.find? (fun c => (dmaOf c s).txCh == some ch) with
    | some c => some (c, .tx)
    | none => none

/-- `DmaDone(ch, st)`: admitted while `ch` is active and its direction's callback is idle; starts that callback at K1
(44_dma.md R261, 60_exceptions.md R345, R347). -/
def envDmaDone (ch : ChanId) (st : Completion) (s : State) : Option State :=
  match channelOwner ch s with
  | none => none
  | some (c, d) =>
    if isActive s ch ∧ seqCb d s = .idle then some (goCb d (.k1 c ch st) (record .env (.dmaDone ch st) s)) else none

/-- `Intr(Q)`: admitted while Q holds at G24 or G25; Q continues at the next step as if the latch were set (44_dma.md R249,
60_exceptions.md R345) [DEDUCED, log 16]. -/
def envIntr (s : State) : Option State :=
  match s.seqQ with
  | .dma .g24 =>
      if (dmaOf s.xf.cs s).txDone then none else some (goQ (.dma (dmaAfterTxWait s.xf)) (record .env .intr s))
  | .dma .g25 => if (dmaOf s.xf.cs s).rxDone then none else some (goQ (.dma .g26) (record .env .intr s))
  | _ => none

/-- `Timeout(P)`: admitted while P holds at SP1 with `done = false`; P continues at `finish(E_WAIT_TIMEOUT)`
(46_coordination.md R311, 60_exceptions.md R345) [DEDUCED, log 17]. -/
def envTimeout (s : State) : Option State :=
  match s.seqP with
  | .sp1 => if s.done then none else some (goP .spTimeout (record .env .timeout s))
  | _ => none

/-- A host store, or a stray write of a channel still running: the environment owns host memory (10_state.md R20,
20_memory.md R86, 70_reset_and_hazards.md R395, log 12). No event records it (R81). -/
def envStore (addr : Word) (b : Byte) (s : State) : Option State := some { s with mem := memSet s.mem addr.toNat b }

end Sys2Proof.Machine
end

