-- ==== Sys2Proof/Machine/Step.lean ====
section
/-!
DEFINITION. One step of the machine: the environment's next move (00_scope.md R12, 10_state.md R20) takes an agent's step
or one event; a step of a port's agent decodes the port's command registers and runs that command.
-/

namespace Sys2Proof.Machine

open Sys2Proof

/-- The port's agent is at some position of a command. -/
def portRunning (p : Port) (s : State) : Bool :=
  match p with
  | .queue => s.seqQ != .idle
  | .freq => s.seqF != .idle
  | .power => s.seqP != .idle

/-- The command in the registers of port `p`, decoded (30_encoding.md R106). -/
def portCommand (p : Port) (s : State) : Except DecodeError Instr :=
  decode p (portRegs p s).cmd (portRegs p s).arg

/-- The next step of the agent of port `p`: of the decoded command, or the one step of a reserved encoding
(30_encoding.md R98); an idle agent has no step. -/
def stepPort (p : Port) (s : State) : Host.Outcome State Fault Refusal :=
  if portRunning p s then
    match portCommand p s with
    | .ok i => exec i s
    | .error _ => .next (refuseEncoding p s)
  else .next s

/-- The machine after the environment's move `m`; a move no rule admits changes nothing (log 3). -/
def applyMove (m : Move) (s : State) : Host.Outcome State Fault Refusal :=
  match m with
  | .port p => stepPort p s
  | .handler => .next ((handlerStep s).getD s)
  | .callback d => .next ((callbackStep d s).getD s)
  | .cmd p w a => .next ((envCmd p w a s).getD s)
  | .irq => .next ((envIrq s).getD s)
  | .dmaDone ch st => .next ((envDmaDone ch st s).getD s)
  | .intr => .next ((envIntr s).getD s)
  | .timeout => .next ((envTimeout s).getD s)
  | .store addr b => .next ((envStore addr b s).getD s)
  | .attach => .next (attach s)

/-- One step. After a fault nothing but reset happens (60_exceptions.md R335, 70_reset_and_hazards.md R380). -/
def step (s : State) : Host.Outcome State Fault Refusal :=
  match s.fault with
  | none => applyMove (nextTurn s) (dropTurn s)
  | some r =>
    match nextTurn s with
    | .attach => .next (attach (dropTurn s))
    | _ => .fault (.stopped r)

/-- `s` with the command of the first `nbits` bits of `w` issued on the port that accepts its operation code, that port's
agent at the command's first step, and that agent's step laid down as the environment's next move (log 5). -/
def State.withFetchWord (s : State) (nbits w : Nat) : State :=
  let e := tableWords nbits w
  let p := portOf e.cmd
  let s' := loadCommand p e.cmd e.args s
  { s' with env := { s'.env with turns := .port p :: s'.env.turns } }

end Sys2Proof.Machine
end

