-- ==== Sys2Proof/Machine/Assembler.lean ====
section
/-!
DEFINITION. The textual form of commands (30_encoding.md R104) and the pseudo-commands (R105). The rule fixes the keywords,
their order and the number forms; that words are separated by spaces is the model's choice [DESIGN CHOICE, log 24].
-/

namespace Sys2Proof.Machine

open Sys2Proof

/-- The pseudo-commands of 30_encoding.md R105. -/
inductive Pseudo where
  | tx (cs : Cs) (a : Word) (len : Nat)
  | rx (cs : Cs) (a : Word) (len : Nat)
  | xfer (cs : Cs) (a b : Word) (len : Nat)
  | deselect (cs : Cs)
deriving DecidableEq, Repr

/-- The command a pseudo-command stands for (30_encoding.md R105). -/
def expandPseudo : Pseudo → Instr
  | .tx cs a len => .transfer cs (some a) none len none none
  | .rx cs a len => .transfer cs none (some a) len none none
  | .xfer cs a b len => .transfer cs (some a) (some b) len none none
  | .deselect cs => .chipselect cs false

/-- The words of a line: its maximal runs of characters other than the space. -/
def lineWords : List Char → List (List Char)
  | [] => [[]]
  | c :: r =>
    if c = ' ' then [] :: lineWords r
    else
      match lineWords r with
      | [] => [[c]]
      | w :: ws => (c :: w) :: ws

/-- The value of a digit of base `base`. -/
def digitValue (base : Nat) (c : Char) : Option Nat :=
  let v :=
    if '0' ≤ c ∧ c ≤ '9' then c.toNat - '0'.toNat
    else if 'a' ≤ c ∧ c ≤ 'f' then c.toNat - 'a'.toNat + 10
    else if 'A' ≤ c ∧ c ≤ 'F' then c.toNat - 'A'.toNat + 10
    else 16
  if v < base then some v else none

/-- The value of the digits `ds` after the value `acc` read so far. -/
def digitsValue (base : Nat) : List Char → Nat → Option Nat
  | [], acc => some acc
  | d :: ds, acc =>
    match digitValue base d with
    | none => none
    | some v => digitsValue base ds (acc * base + v)

/-- A number, decimal or `0x` hexadecimal (30_encoding.md R104). -/
def numberValue : List Char → Option Nat
  | [] => none
  | '0' :: 'x' :: d :: ds => digitsValue 16 (d :: ds) 0
  | d :: ds => digitsValue 10 (d :: ds) 0

/-- What follows the keyword `k` in a word, where the word begins with it. -/
def afterKeyword : List Char → List Char → Option (List Char)
  | [], w => some w
  | _ :: _, [] => none
  | k :: ks, c :: w => if k = c then afterKeyword ks w else none

/-- The number of a keyword that must stand at the head of the words, and the rest. -/
def required (k : String) (ws : List (List Char)) : Option (Nat × List (List Char)) :=
  match ws with
  | [] => none
  | w :: r => ((afterKeyword k.toList w).bind numberValue).map (fun n => (n, r))

/-- The number of an optional keyword at the head of the words, and the rest. -/
def optional (k : String) (ws : List (List Char)) : Option (Option Nat × List (List Char)) :=
  match ws with
  | [] => some (none, [])
  | w :: r =>
    match afterKeyword k.toList w with
    | none => some (none, w :: r)
    | some ds => (numberValue ds).map (fun n => (some n, r))

/-- A chip-select operand, 0 to 7. -/
def csOperand (n : Nat) : Option Cs := if n < 8 then some (BitVec.ofNat 3 n) else none

/-- A mode operand, 8 bits. -/
def modeOperand (n : Nat) : Option Byte := if n < 256 then some (BitVec.ofNat 8 n) else none

/-- An address operand, 32 bits. -/
def addrOperand (n : Nat) : Option Word := if n < 2 ^ 32 then some (BitVec.ofNat 32 n) else none

/-- An optional address operand. -/
def addrOperandIfAny : Option Nat → Option (Option Word)
  | none => some none
  | some n => (addrOperand n).map some

/-- The operands of a SETUP line: `cs= mode= bits= hz=`. -/
def parseSetup (ws : List (List Char)) : Option Instr := do
  let (c, ws) ← required "cs=" ws
  let (m, ws) ← required "mode=" ws
  let (b, ws) ← required "bits=" ws
  let (h, ws) ← required "hz=" ws
  let cs ← csOperand c
  let mode ← modeOperand m
  if ws.isEmpty then some (.setup cs mode b h) else none

/-- The operands of a TRANSFER line: `cs= [tx=] [rx=] len= [bits=] [hz=]`. -/
def parseTransfer (ws : List (List Char)) : Option Instr := do
  let (c, ws) ← required "cs=" ws
  let (t, ws) ← optional "tx=" ws
  let (r, ws) ← optional "rx=" ws
  let (n, ws) ← required "len=" ws
  let (b, ws) ← optional "bits=" ws
  let (h, ws) ← optional "hz=" ws
  let cs ← csOperand c
  let tx ← addrOperandIfAny t
  let rx ← addrOperandIfAny r
  if ws.isEmpty then some (.transfer cs tx rx n b h) else none

/-- The operand of a line whose only operand is `cs=`. -/
def parseCs (ws : List (List Char)) : Option Cs := do
  let (c, ws) ← required "cs=" ws
  let cs ← csOperand c
  if ws.isEmpty then some cs else none

/-- The operands of a CHIPSELECT line: `cs= active|inactive`. -/
def parseChipselect (ws : List (List Char)) : Option Instr := do
  let (c, ws) ← required "cs=" ws
  let cs ← csOperand c
  match ws with
  | [w] =>
      if w = "active".toList then some (.chipselect cs true)
      else if w = "inactive".toList then some (.chipselect cs false)
      else none
  | _ => none

/-- The operands of a TX or RX line: `cs= <k> len=`. -/
def parseOneBuffer (k : String) (ws : List (List Char)) : Option (Cs × Word × Nat) := do
  let (c, ws) ← required "cs=" ws
  let (a, ws) ← required k ws
  let (n, ws) ← required "len=" ws
  let cs ← csOperand c
  let addr ← addrOperand a
  if ws.isEmpty then some (cs, addr, n) else none

/-- The operands of an XFER line: `cs= tx= rx= len=`. -/
def parseXfer (ws : List (List Char)) : Option Pseudo := do
  let (c, ws) ← required "cs=" ws
  let (t, ws) ← required "tx=" ws
  let (r, ws) ← required "rx=" ws
  let (n, ws) ← required "len=" ws
  let cs ← csOperand c
  let a ← addrOperand t
  let b ← addrOperand r
  if ws.isEmpty then some (.xfer cs a b n) else none

/-- The operand of a FREQ_POST line: `clk=`. -/
def parseFreqPost (ws : List (List Char)) : Option Instr := do
  let (n, ws) ← required "clk=" ws
  if ws.isEmpty then some (.freqPost n) else none

/-- The command of a line's words (30_encoding.md R104, R105). -/
def parseWords : List (List Char) → Option Instr
  | [] => none
  | w :: ws =>
    if w = "SETUP".toList then parseSetup ws
    else if w = "TRANSFER".toList then parseTransfer ws
    else if w = "CLEANUP".toList then (parseCs ws).map .cleanup
    else if w = "CHIPSELECT".toList then parseChipselect ws
    else if w = "FREQ_PRE".toList then (if ws.isEmpty then some .freqPre else none)
    else if w = "FREQ_POST".toList then parseFreqPost ws
    else if w = "SUSPEND".toList then (if ws.isEmpty then some .suspend else none)
    else if w = "RESUME".toList then (if ws.isEmpty then some .resume else none)
    else if w = "TX".toList then (parseOneBuffer "tx=" ws).map (fun o => expandPseudo (.tx o.1 o.2.1 o.2.2))
    else if w = "RX".toList then (parseOneBuffer "rx=" ws).map (fun o => expandPseudo (.rx o.1 o.2.1 o.2.2))
    else if w = "XFER".toList then (parseXfer ws).map expandPseudo
    else if w = "DESELECT".toList then (parseCs ws).map (fun cs => expandPseudo (.deselect cs))
    else none

/-- The command words and argument words of a line, where it is a command whose operands fit their words. -/
def assemble (line : String) : Option (Port × Encoded) :=
  match parseWords ((lineWords line.toList).filter (fun w => !w.isEmpty)) with
  | none => none
  | some i => if i.wf then some (i.port, encode i) else none

end Sys2Proof.Machine
end

