-- ==== Sys2Proof/Safety.lean ====
section
/-!
DEFINITION. What claims are stated in: a run of one command alone, a safe state, a quiescent state (70_reset_and_hazards.md
R415), and the invariants of 10_state.md R35.
-/

namespace Sys2Proof.Machine

open Sys2Proof

/-- `k` steps of command `i` by its port's agent, with no other agent's step between them. -/
def execs : Nat → Instr → State → Host.Outcome State Fault Refusal
  | 0, _, s => .next s
  | k + 1, i, s =>
    match exec i s with
    | .next t => execs k i t
    | .fault r => .fault r
    | .refused r => .refused r

/-- `k` steps of the interrupt handler, with no other agent's step between them. -/
def handlerSteps : Nat → State → Option State
  | 0, s => some s
  | k + 1, s => (handlerStep s).bind (handlerSteps k)

/-- `k` steps of the callback of direction `d`, with no other agent's step between them. -/
def callbackSteps (d : Dir) : Nat → State → Option State
  | 0, s => some s
  | k + 1, s => (callbackStep d s).bind (callbackSteps d k)

/-- The answer to the volatile read after `k` more of them, from the environment's data `e` (20_memory.md R62). -/
def wordAt : Nat → Env → Word
  | 0, e => e.words.head?.getD (Config.freeWord e.draws)
  | k + 1, e => wordAt k (envDropWord e)

/-- The environment's data after `k` volatile reads. -/
def dropWords : Nat → Env → Env
  | 0, e => e
  | k + 1, e => dropWords k (envDropWord e)

/-- The host byte the `k`-th position after the next of an unmapped receive buffer holds, from the environment's data `e`
(20_memory.md R75). -/
def byteAt : Nat → Env → Byte
  | 0, e => e.bytes.head?.getD (Config.freeByte e.draws)
  | k + 1, e => byteAt k (envDropByte e)

/-- The environment's data after `k` such bytes are drawn. -/
def dropBytes : Nat → Env → Env
  | 0, e => e
  | k + 1, e => dropBytes k (envDropByte e)

/-- The events agent `a` performs, in order, as the history records them (20_memory.md R80). -/
def eventsBy (a : Agent) (es : List Ev) : List Event := es.map (fun e => ⟨a, e⟩)

/-- The steps of both callbacks in the order `ds` names them; a callback that has no step leaves the state as it is. -/
def callbackSchedule : List Dir → State → State
  | [], s => s
  | d :: ds, s => callbackSchedule ds ((callbackStep d s).getD s)

/-- The checks T7 and T8 of a TRANSFER pass on a chip-select whose record is `sl` (42_transfer.md R190). -/
def transferFits (cs : Cs) (tx rx : Option Word) (len : Nat) (sl : Slave) (s : State) : Prop :=
  slaveOf cs s = some sl ∧ len % sl.bpw = 0
    ∧ (sl.bpw = 2 → (∀ a, tx = some a → a.toNat % 2 = 0) ∧ ∀ a, rx = some a → a.toNat % 2 = 0)
    ∧ (s.params.useDma = true →
        (dmaOf cs s).rxCh ≠ none ∧ len / sl.bpw ≠ 0
          ∧ (tx = none → (len / sl.bpw + 1) * sl.bpw ≤ s.params.scratchBytes))

/-- The checks T1, T2, T4 and T5 of a TRANSFER pass (42_transfer.md R190); T3 is that the chip-select has a record. -/
def transferAccepted (cs : Cs) (tx rx : Option Word) (len : Nat) (s : State) : Prop :=
  cs.toNat < s.params.numCs ∧ s.suspended = false ∧ (tx ≠ none ∨ rx ≠ none) ∧ len ≤ 0x7FFFFFFF

/-- The checks T1 to T8 of a TRANSFER without an override pass on a chip-select whose record is `sl` (42_transfer.md R190). -/
def transferChecked (cs : Cs) (tx rx : Option Word) (len : Nat) (sl : Slave) (s : State) : Prop :=
  transferAccepted cs tx rx len s ∧ transferFits cs tx rx len sl s

/-- Q's next step of a TRANSFER is T7: after `Configure` where an override is present, else at once, T1 to T5 passing
(42_transfer.md R190, R193). -/
def transferAtT7 (cs : Cs) (tx rx : Option Word) (len : Nat) (bits hz : Option Nat) (s : State) : Prop :=
  s.seqQ = .t7 ∨ (s.seqQ = .t1 ∧ bits = none ∧ hz = none ∧ transferAccepted cs tx rx len s)

/-- The transfer context that step T9 leaves (42_transfer.md R190). -/
def checkedContext (cs : Cs) (tx rx : Option Word) (len : Nat) (sl : Slave) (s : State) : Xfer :=
  { s.xf with
    cs := cs
    bpw := sl.bpw
    count := len / sl.bpw
    len := len
    tx := tx
    rx := rx
    rxCur := (rx.getD 0).toNat
    rxEnd := (rx.getD 0).toNat + len
    cmd := cmdBase s.params cs }

/-- The reads `first` to `first + k - 1` of `BUF`, as the history records them, with the environment's data `e` before the
first of them. -/
def bufReads (first k : Nat) (e : Env) : List Ev :=
  (List.range k).map (fun j => .rd .buf (.word (wordAt (first + j) e)))

/-- The configured chip-selects below `n` and below `P_NUM_CS`, ascending (46_coordination.md R305, FQ2). -/
def configuredBelow (n : Nat) (s : State) : List Cs :=
  allCs.filter (fun c => decide (c.toNat < n) && decide (c.toNat < s.params.numCs) && (slaveOf c s).isSome)

/-- The format record of chip-select `c` as `WriteDivider` against the clock rate `clk` leaves it, and the events it adds, in
order; neither where `c` is not configured or its frequency is out of the divider's domain (40_divider_config.md R133-R135). -/
def dividerEffect (clk : Nat) (c : Cs) (s : State) : FmtRec × List Ev :=
  let t := fmtRec c s
  match (slaveOf c s).bind (fun sl => prescale clk sl.hz) with
  | none => (t, [])
  | some (p, floored) =>
      let t' := { t with prescale := some (BitVec.ofNat 8 p) }
      (t', (if floored then [.prescaleFloor c] else []) ++ [.rd (.fmt c) (.fmt t), .wr (.fmt c) (.fmt t')])

/-- A safe state: no fault has been raised (60_exceptions.md R335). -/
def isSafe (s : State) : Bool := s.fault == none

/-- A quiescent state (70_reset_and_hazards.md R415). -/
def quiescent (s : State) : Bool :=
  !s.portQ.busy && !s.portF.busy && !s.portP.busy
    && s.seqQ == .idle && s.seqF == .idle && s.seqP == .idle && s.seqH == .idle && s.seqTx == .idle && s.seqRx == .idle
    && s.active == [] && s.fault == none

/-- A position of the PIO engine after `E0` (43_pio.md R210). -/
def pioEntered : PioSeq → Bool
  | .mode _ => false
  | .p5 => false
  | _ => true

/-- Q executes a transfer engine between `E0` and `Exit` (10_state.md R35, 42_transfer.md R196). -/
def engineRunning : QSeq → Bool
  | .pio x => pioEntered x
  | .dma _ => true
  | .x1 => true
  | .x2 _ => true
  | .exit _ => true
  | _ => false

/-- The engine flags agree with Q's position: `in_use = ¬done`, and `in_use` and `xf.mode` say whether a transfer engine
runs (10_state.md R25, R31, R35). -/
def flagsInv (s : State) : Bool :=
  s.inUse == !s.done && s.inUse == engineRunning s.seqQ && (s.xf.mode != .none) == engineRunning s.seqQ

/-- Which command a position of port Q belongs to. -/
inductive QKind where
  | idle
  | bad
  | setup
  | transfer
  | cleanup
  | chipselect
deriving DecidableEq, Repr

/-- The command a position of port Q belongs to (10_state.md R24). -/
def qKind : QSeq → QKind
  | .idle => .idle
  | .bad => .bad
  | .s1 => .setup
  | .sAllocTx _ => .setup
  | .sFree _ => .setup
  | .sNoDma => .setup
  | .s6 _ _ => .setup
  | .s7 _ => .setup
  | .s8 => .setup
  | .s8w _ => .setup
  | .s9 => .setup
  | .t1 => .transfer
  | .t6 _ => .transfer
  | .t7 => .transfer
  | .pio _ => .transfer
  | .dma _ => .transfer
  | .x1 => .transfer
  | .x2 _ => .transfer
  | .exit _ => .transfer
  | .c1 => .cleanup
  | .c2 _ => .cleanup
  | .c3 => .cleanup
  | .cs1 => .chipselect
  | .d2 _ => .chipselect
  | .d3 => .chipselect
  | .d4 => .chipselect
  | .cs5 => .chipselect

/-- Q is idle, or at a position of the command in its command registers. -/
def positionInv (s : State) : Bool :=
  s.seqQ == .idle || qKind s.seqQ == qKind (firstQ (portCommand .queue s))

/-- A port is busy exactly while its agent is at a position of a command (30_encoding.md R95, R96). -/
def portsInv (s : State) : Bool :=
  s.portQ.busy == (s.seqQ != .idle) && s.portF.busy == (s.seqF != .idle) && s.portP.busy == (s.seqP != .idle)

/-- The engine flags, the ports and Q's position agree. -/
def controlInv (s : State) : Bool := positionInv s && portsInv s && flagsInv s

/-- A chip-select's DMA channels are both allocated or both unallocated (10_state.md R35). -/
def dmaInv (s : State) : Bool := allCs.all (fun c => (dmaOf c s).rxCh.isSome == (dmaOf c s).txCh.isSome)

/-- A configured chip-select's widths and frequencies are in range, and `bpw` is that of `bits` (10_state.md R35). -/
def slaveOk (sl : Slave) : Bool :=
  configOk sl.declBits sl.declHz && configOk sl.bits sl.hz && sl.bpw == bpwOf sl.bits

/-- SETUP has passed its checks S3 and S4 where it allocates channels (40_divider_config.md R150). -/
def setupChecked (s : State) : Bool :=
  match s.seqQ with
  | .sAllocTx _ | .s6 _ _ =>
    match portCommand .queue s with
    | .ok (.setup _ _ bits hz) => configOk bits hz
    | _ => true
  | _ => true

/-- Every chip-select's record is none or in range (10_state.md R35). -/
def slavesInv (s : State) : Bool := setupChecked s && allCs.all (fun c => (slaveOf c s).all slaveOk)

/-- A format record whose `PRESCALE`, where known, is at least 2 (10_state.md R35). -/
def fmtOk (t : FmtRec) : Bool := t.prescale.all (fun p => decide (2 ≤ p.toNat))

/-- A prescale value the divider may write (40_divider_config.md R131). -/
def prescaleOk (p : Nat) : Bool := decide (2 ≤ p) && decide (p ≤ 255)

/-- The format record and the prescale held inside `Configure` are in range. -/
def cfgOk : CfgSeq → Bool
  | .lenW t _ _ => fmtOk t
  | .divR _ => true
  | .divW t p => fmtOk t && prescaleOk p

/-- The format record and the prescale Q holds are in range. -/
def seqQOk : QSeq → Bool
  | .s7 c => cfgOk c
  | .t6 c => cfgOk c
  | .s8w t => fmtOk t
  | _ => true

/-- The format record and the prescale F holds are in range. -/
def seqFOk : FSeq → Bool
  | .fqW _ t p => fmtOk t && prescaleOk p
  | _ => true

/-- "Every prescale value the engine writes lies in `[2, 255]`" (10_state.md R35). -/
def prescaleInv (s : State) : Bool := allCs.all (fun c => fmtOk (fmtRec c s)) && seqQOk s.seqQ && seqFOk s.seqF

/-- The list of active channels ascends (10_state.md R30, log 9). -/
def ascends : List ChanId → Bool
  | [] => true
  | [_] => true
  | a :: b :: r => decide (a < b) && ascends (b :: r)

/-- The data of the state are in their canonical forms: host memory and the list of active channels. -/
def formsInv (s : State) : Bool := Memory.wf s.mem && ascends s.active

/-- The bytes TRANSFER's next step stores to, `(address, number of bytes)`: a received word, a scratch word, or the receive
buffer's bytes when its mapping ends (43_pio.md R215, 44_dma.md R244, R250). -/
def transferStores (s : State) : Option (Nat × Nat) :=
  match s.seqQ, s.xf.rx with
  | .pio (.l5s i _), some a => some (wordAddr a i s.xf.bpw, s.xf.bpw)
  | .pio (.r5 i _), some a => some (wordAddr a i s.xf.bpw, s.xf.bpw)
  | .dma (.g15 k), _ => some (wordAddr s.params.scratchAddr k s.xf.bpw, s.xf.bpw)
  | .dma .g27, some a => some (a.toNat, s.xf.rxn)
  | _, _ => none

end Sys2Proof.Machine
end

