-- ==== Sys2Proof/Certificates/Slice0/Obligations.lean ====
section
/-!
DEFINITION. The statements for the provers.
-/

section

open Sys2Proof Sys2Proof.Machine

/-! ### Commands (30_encoding.md) -/

/-- The words of a well-formed instruction decode, on its port, to that instruction (30_encoding.md R91-R94). -/
def Obligations.DecodeEncode : Prop :=
  ∀ i : Instr, i.wf = true → decode i.port (encode i).cmd (encode i).args = .ok i

/-- A command that decodes is a well-formed instruction of its port, and its command word is the one the instruction encodes
to: no bit of the word is dropped (30_encoding.md R91-R93). -/
def Obligations.DecodedCommandReencodes : Prop :=
  ∀ (p : Port) (cmd : Word) (a : Args) (i : Instr),
    decode p cmd a = .ok i → i.wf = true ∧ i.port = p ∧ (encode i).cmd = cmd

/-- 30_encoding.md R106: on every port a command word decodes to the row of that port it matches, or is refused, and it
matches one row at most. -/
def Obligations.DecodeMatchesTableRow : Prop :=
  (∀ (p : Port) (cmd : Word) (a : Args) (i : Instr),
    decode p cmd a = .ok i ↔
      ∃ o ∈ Op.all, o.port = p ∧ cmd &&& o.mask = o.pattern ∧ i = o.assemble cmd a)
    ∧ (∀ (p : Port) (cmd : Word) (a : Args),
        (¬ ∃ o ∈ Op.all, o.port = p ∧ cmd &&& o.mask = o.pattern) → ∃ e, decode p cmd a = .error e)
    ∧ ∀ (cmd : Word) (o o' : Op), cmd &&& o.mask = o.pattern → cmd &&& o'.mask = o'.pattern → o = o'

/-- Some words of 95_test_vectors.md V13 and programs L3-1 to L3-5, one for every row, decode to their commands. -/
def Obligations.KnownCommandWords : Prop :=
  decode .queue 0x00FF0701 ⟨8, 0x000F4240, 0, 0, 0⟩ = .ok (.setup 7 0xFF 8 1000000)
    ∧ decode .queue 0x00090002 ⟨0x1000, 0, 2, 0, 0x000927C0⟩ = .ok (.transfer 0 (some 0x1000) none 2 none (some 600000))
    ∧ decode .queue 0x00000103 Args.zero = .ok (.cleanup 1)
    ∧ decode .queue 0x00010004 Args.zero = .ok (.chipselect 0 true)
    ∧ decode .freq 0x00000010 Args.zero = .ok .freqPre
    ∧ decode .freq 0x00000011 ⟨0x05F5E100, 0, 0, 0, 0⟩ = .ok (.freqPost 100000000)
    ∧ decode .power 0x00000020 Args.zero = .ok .suspend
    ∧ decode .power 0x00000021 Args.zero = .ok .resume

/-- What a step does in a state without a fault, for every move but reset (10_state.md R20, R24; 30_encoding.md R95, R98;
60_exceptions.md R345): where the next move is a step of port `p`'s agent, that agent is running and its command registers
decode to `i`, it is `exec i` on the state with the move taken; where they do not decode, it is the one step of a reserved
encoding; a step of the handler or a callback and an event have their effect on the state with the move taken where the agent
has a step or the event is admitted, else, as for an idle port, only the move is taken (log 3). The next move is the one laid
down first, else a free value. The move `store` is the model's (log 12) and no event of R345: for a host store (20_memory.md
R86) or a stray DMA write (70_reset_and_hazards.md R395) it replaces one byte of host memory, always admitted and recorded by
no event (20_memory.md R81). That an instruction's meaning is one atomic step is the model's (log 4). -/
def Obligations.StepRunsDecodedCommand : Prop :=
  (∀ s : State,
    (∀ m r, s.env.turns = m :: r → nextTurn s = m ∧ dropTurn s = { s with env := { s.env with turns := r } })
    ∧ (s.env.turns = [] → nextTurn s = Config.freeMove s.env.draws
        ∧ dropTurn s = { s with env := { s.env with draws := s.env.draws + 1 } }))
  ∧ ∀ s : State, s.fault = none →
    let u := dropTurn s
    let takes := fun o : Option State => (∀ t, o = some t → step s = .next t) ∧ (o = none → step s = .next u)
    (∀ p, nextTurn s = .port p →
      (∀ i, portRunning p s = true → portCommand p s = .ok i → i.wf = true ∧ step s = exec i u)
      ∧ (∀ e, portRunning p s = true → portCommand p s = .error e →
          step s = stepPort p u ∧ step s = .next (finish p 0xFFFFFFF3 u))
      ∧ (portRunning p s = false → step s = .next u))
    ∧ (nextTurn s = .handler → takes (handlerStep u))
    ∧ (∀ d, nextTurn s = .callback d → takes (callbackStep d u))
    ∧ (∀ p w a, nextTurn s = .cmd p w a → takes (envCmd p w a u))
    ∧ (nextTurn s = .irq → takes (envIrq u))
    ∧ (∀ ch st, nextTurn s = .dmaDone ch st → takes (envDmaDone ch st u))
    ∧ (nextTurn s = .intr → takes (envIntr u))
    ∧ (nextTurn s = .timeout → takes (envTimeout u))
    ∧ ∀ addr b, nextTurn s = .store addr b →
        takes (envStore addr b u)
          ∧ step s = .next { u with mem := memWrite s.mem addr.toNat 1 (b.zeroExtend 16) }

/-- 30_encoding.md R98: a command whose operation code is reserved or another port's, or whose reserved bits are not all 0, is
one step `finish(E_BADCMD)`: `RES`, `BUSY`, the position and the history change, nothing else. -/
def Obligations.ReservedEncodingRefused : Prop :=
  (∀ (p : Port) (cmd : Word) (a : Args),
    (∃ e, decode p cmd a = .error e) ↔
      (∀ o ∈ Op.all, o.code ≠ opField cmd)
        ∨ (∃ o ∈ Op.all, o.code = opField cmd ∧ o.port ≠ p)
        ∨ ∃ o ∈ Op.all, o.code = opField cmd ∧ cmd &&& o.reserved ≠ 0)
    ∧ (∀ (s : State) (e : DecodeError),
        s.seqQ ≠ .idle → decode .queue s.portQ.cmd s.portQ.arg = .error e →
          stepPort .queue s = .next { s with
            portQ := { s.portQ with res := 0xFFFFFFF3, busy := false }
            seqQ := .idle
            hist := s.hist ++ [⟨.queue, .res .queue 0xFFFFFFF3⟩] })
    ∧ (∀ (s : State) (e : DecodeError),
        s.seqF ≠ .idle → decode .freq s.portF.cmd s.portF.arg = .error e →
          stepPort .freq s = .next { s with
            portF := { s.portF with res := 0xFFFFFFF3, busy := false }
            seqF := .idle
            hist := s.hist ++ [⟨.freq, .res .freq 0xFFFFFFF3⟩] })
    ∧ ∀ (s : State) (e : DecodeError),
        s.seqP ≠ .idle → decode .power s.portP.cmd s.portP.arg = .error e →
          stepPort .power s = .next { s with
            portP := { s.portP with res := 0xFFFFFFF3, busy := false }
            seqP := .idle
            hist := s.hist ++ [⟨.power, .res .power 0xFFFFFFF3⟩] }

/-- 30_encoding.md R95: a command is issued on an idle port in one environment step that writes `ARG` and `CMD`, sets `BUSY`,
puts the port's agent at the command's first step (each command's named; the one step of a reserved encoding) and is recorded;
a busy port takes none. -/
def Obligations.IssueProtocol : Prop :=
  (∀ (p : Port) (w : Word) (a : Args) (s : State), (portRegs p s).busy = true → envCmd p w a s = none)
    ∧ (∀ (w : Word) (a : Args) (s : State), s.portQ.busy = false →
        envCmd .queue w a s = some { s with
          portQ := { s.portQ with cmd := w, arg := a, busy := true }
          seqQ := firstQ (decode .queue w a)
          hist := s.hist ++ [⟨.env, .cmd .queue w a⟩] })
    ∧ (∀ (w : Word) (a : Args) (s : State), s.portF.busy = false →
        envCmd .freq w a s = some { s with
          portF := { s.portF with cmd := w, arg := a, busy := true }
          seqF := firstF (decode .freq w a)
          hist := s.hist ++ [⟨.env, .cmd .freq w a⟩] })
    ∧ (∀ (w : Word) (a : Args) (s : State), s.portP.busy = false →
        envCmd .power w a s = some { s with
          portP := { s.portP with cmd := w, arg := a, busy := true }
          seqP := firstP (decode .power w a)
          hist := s.hist ++ [⟨.env, .cmd .power w a⟩] })
    ∧ (∀ (p : Port) (w : Word) (a : Args) (i : Instr) (s t : State),
        decode p w a = .ok i → envCmd p w a s = some t →
          match i with
          | .setup .. => t.seqQ = .s1
          | .transfer .. => t.seqQ = .t1
          | .cleanup .. => t.seqQ = .c1
          | .chipselect .. => t.seqQ = .cs1
          | .freqPre => t.seqF = .fp1
          | .freqPost .. => t.seqF = .fq1
          | .suspend => t.seqP = .sp1
          | .resume => t.seqP = .rs1)
    ∧ ∀ (p : Port) (w : Word) (a : Args) (e : DecodeError) (s t : State),
        decode p w a = .error e → envCmd p w a s = some t →
          match p with
          | .queue => t.seqQ = .bad
          | .freq => t.seqF = .bad
          | .power => t.seqP = .bad

/-- 30_encoding.md R96: the step in which a command's port stops being busy is `finish(r)`: it records `Res(p, r)` and nothing
else, `RES` holds `r` and the agent is idle. -/
def Obligations.CommandEndsWithFinish : Prop :=
  ∀ (i : Instr) (s t : State),
    exec i s = .next t → (portRegs i.port s).busy = true → (portRegs i.port t).busy = false →
      t.hist = s.hist ++ [⟨portAgent i.port, .res i.port (portRegs i.port t).res⟩] ∧ portRunning i.port t = false

/-- 10_state.md R23: "The engine never writes `CMD_p` or `ARG_p`": no step of an agent changes a command or argument register
of any port. -/
def Obligations.CommandRegistersNeverWritten : Prop :=
  (∀ (i : Instr) (s : State), ∃ t, exec i s = .next t ∧
    ∀ p, (portRegs p t).cmd = (portRegs p s).cmd ∧ (portRegs p t).arg = (portRegs p s).arg)
    ∧ (∀ s t, handlerStep s = some t →
        ∀ p, (portRegs p t).cmd = (portRegs p s).cmd ∧ (portRegs p t).arg = (portRegs p s).arg)
    ∧ ∀ d s t, callbackStep d s = some t →
        ∀ p, (portRegs p t).cmd = (portRegs p s).cmd ∧ (portRegs p t).arg = (portRegs p s).arg

/-- 20_memory.md R80: "The machine records the history; it reads it for no decision": a command's step does the same from any
other history, and adds the same events to it. -/
def Obligations.HistoryIsReadForNoDecision : Prop :=
  ∀ (i : Instr) (s : State), ∃ (t : State) (e : List Event),
    exec i s = .next t ∧ t.hist = s.hist ++ e ∧
      ∀ h : List Event, exec i { s with hist := h } = .next { t with hist := h ++ e }

/-- 60_exceptions.md R335: `raise Fault(r)` sets `fault`, its event is the last of the history, nothing is rolled back; after it
no move but reset does anything: a step answers the fault `stopped`. That `raise` is a next state and the stop the step
after it, and the event's form, are the model's (logs 13, 14). -/
def Obligations.FaultedMachineStops : Prop :=
  (∀ (a : Agent) (r : FaultReason) (s : State),
    raise a r s = { s with fault := some r, hist := s.hist ++ [⟨a, .raised r⟩] })
    ∧ ∀ (s : State) (r : FaultReason), s.fault = some r → nextTurn s ≠ .attach → step s = .fault (.stopped r)

/-- 10_state.md R36: the values the spec gives for reset; `regrec` unknown. That the record of `DAT` is unknown is the model's
choice (log 27). -/
def Obligations.ResetState : Prop :=
  ∀ c : Params,
    let s := State.resetWith c
    s.portQ.busy = false ∧ s.portF.busy = false ∧ s.portP.busy = false
      ∧ s.portQ.res = 0 ∧ s.portF.res = 0 ∧ s.portP.res = 0
      ∧ s.seqQ = .idle ∧ s.seqF = .idle ∧ s.seqP = .idle ∧ s.seqH = .idle ∧ s.seqTx = .idle ∧ s.seqRx = .idle
      ∧ s.inUse = false ∧ s.done = true ∧ s.suspended = false ∧ s.clkOn = true ∧ s.clkRate = c.clkRate0
      ∧ (∀ cs, slaveOf cs s = none) ∧ (∀ cs, dmaOf cs s = ⟨none, none, false, false⟩) ∧ (∀ ch, isActive s ch = false)
      ∧ s.xf.mode = .none ∧ s.fault = none ∧ s.hist = []
      ∧ s.regrec.gcr = ⟨none, none, none⟩
      ∧ s.regrec.int = ⟨none, none, none, none, none, none, none, none, none, none⟩
      ∧ s.regrec.pc = ⟨none, none, none⟩ ∧ s.regrec.delay = none ∧ s.regrec.dflt = ⟨none, none⟩
      ∧ (∀ cs, fmtRec cs s = ⟨none, none, none, none, none, none⟩) ∧ s.regrec.dat = none

/-- 70_reset_and_hazards.md R380: reset sets every piece of engine state to its reset value and clears a fault; the parameters,
host memory and the environment's data stay (log 22); the values reset gives CMD, ARG, `DAT`'s record and the rest of `xf`
are the model's choices (logs 6, 7, 27). -/
def Obligations.AttachResets : Prop :=
  ∀ s : State, nextTurn s = .attach →
    step s = .next { State.resetWith s.params with mem := s.mem, env := envDropTurn s.env }

/-! ### Clock divider and configuration (40_divider_config.md) -/

/-- 40_divider_config.md R131: "Every value `Prescale` returns satisfies `2 ≤ p ≤ 255`". -/
def Obligations.PrescaleRange : Prop :=
  ∀ (clk hz p : Nat) (floored : Bool), prescale clk hz = some (p, floored) → 2 ≤ p ∧ p ≤ 255

/-- 40_divider_config.md R130, R132: `Prescale` has no value for `hz = 0` and for `hz > clk`; else its value is the quotient
less one, clamped to 255, one more where the frequency that gives is above `hz`, raised to 2 with `floored` exactly there,
clamped to 255 again; the achieved frequency `clk / (p + 1)` is at most `hz` if and only if `clk / 256 ≤ hz`; when
`clk / 256 > hz` the value is 255 and the bus runs at `clk / 256 > hz`. -/
def Obligations.PrescaleAchieved : Prop :=
  (∀ clk hz : Nat, (hz = 0 ∨ clk < hz) → prescale clk hz = none)
  ∧ ∀ clk hz : Nat, 0 < hz → hz ≤ clk →
    let p0 := clk / hz - 1
    let p1 := min p0 255
    let p2 := if hz < clk / (p1 + 1) then p1 + 1 else p1
    let p3 := if p2 < 2 then 2 else p2
    let p := min p3 255
    prescale clk hz = some (p, decide (p2 < 2))
      ∧ achieved clk p = clk / (p + 1)
      ∧ (achieved clk p ≤ hz ↔ clk / 256 ≤ hz)
      ∧ (hz < clk / 256 → p = 255 ∧ achieved clk p = clk / 256)

/-- 40_divider_config.md R133-R135: inside `Configure`, of SETUP and of TRANSFER, with 0 < hz ≤ clk_rate, `WriteDivider(cs,
hz)` is two steps: the read of `FMT[cs]`, with the note of a floored value in the same step, then the write of the record
read with `PRESCALE := p`; `hz = 0` and `hz > clk_rate` raise `F_DIVIDER_DOMAIN` instead. Which lines share a step is the
model's reading of 00_scope.md R11 (log 15). -/
def Obligations.DividerWritten : Prop :=
  ∀ (cs : Cs) (hz : Nat) (s : State),
    (∀ (p : Nat) (floored : Bool), prescale s.clkRate hz = some (p, floored) →
      let written := fun l : QSeq => { s with
        seqQ := l
        regrec := { s.regrec with
          fmt := csSet s.regrec.fmt cs { fmtRec cs s with prescale := some (BitVec.ofNat 8 p) } }
        hist := s.hist ++ eventsBy .queue
          ((if floored then [.prescaleFloor cs] else [])
            ++ [.rd (.fmt cs) (.fmt (fmtRec cs s)),
                .wr (.fmt cs) (.fmt { fmtRec cs s with prescale := some (BitVec.ofNat 8 p) })]) }
      (∀ mode bits maxHz, s.seqQ = .s7 (.divR hz) → execs 2 (.setup cs mode bits maxHz) s = .next (written .s8))
      ∧ ∀ tx rx len bits hzO, s.seqQ = .t6 (.divR hz) →
          execs 2 (.transfer cs tx rx len bits hzO) s = .next (written .t7))
    ∧ ((hz = 0 ∨ s.clkRate < hz) →
      (∀ mode bits maxHz, s.seqQ = .s7 (.divR hz) →
          exec (.setup cs mode bits maxHz) s = .next (raise .queue .dividerDomain s))
      ∧ ∀ tx rx len bits hzO, s.seqQ = .t6 (.divR hz) →
          exec (.transfer cs tx rx len bits hzO) s = .next (raise .queue .dividerDomain s))

/-- 40_divider_config.md R150: the checks S1 to S4 of SETUP in their order; the first that applies is the whole effect. -/
def Obligations.SetupChecksInOrder : Prop :=
  ∀ (cs : Cs) (mode : Byte) (bits maxHz : Nat) (s : State), s.seqQ = .s1 →
    (s.params.numCs ≤ cs.toNat →
      exec (.setup cs mode bits maxHz) s = .next (finish .queue (errWord .inval) s))
    ∧ (cs.toNat < s.params.numCs → s.suspended = true →
      exec (.setup cs mode bits maxHz) s = .next (raise .queue .suspended s))
    ∧ (cs.toNat < s.params.numCs → s.suspended = false → (maxHz < 600000 ∨ 50000000 < maxHz) →
      exec (.setup cs mode bits maxHz) s = .next (finish .queue (errWord .inval) s))
    ∧ (cs.toNat < s.params.numCs → s.suspended = false → 600000 ≤ maxHz → maxHz ≤ 50000000 → (bits < 2 ∨ 16 < bits) →
      exec (.setup cs mode bits maxHz) s = .next (finish .queue (errWord .inval) s))

/-- 40_divider_config.md R150, R140, R141, R152: SETUP of a chip-select in range, with a width and a frequency in range, on a
machine that is not suspended and, with DMA, has its channels, runs its seven steps to `finish(0)`: the record, `CHARLEN`,
`PRESCALE` and the mode bits are written and nothing else; its last step is `finish(0)`. Which lines share a step is the
model's reading of 00_scope.md R11 (log 15). -/
def Obligations.SetupCompletes : Prop :=
  (∀ (cs : Cs) (mode : Byte) (bits maxHz p : Nat) (floored : Bool) (s : State),
    s.seqQ = .s1 → cs.toNat < s.params.numCs → s.suspended = false →
    600000 ≤ maxHz → maxHz ≤ 50000000 → 2 ≤ bits → bits ≤ 16 →
    (s.params.useDma = true → (dmaOf cs s).rxCh ≠ none) →
    prescale s.clkRate maxHz = some (p, floored) →
      let f0 := fmtRec cs s
      let f1 := { f0 with charlen := some (BitVec.ofNat 5 bits) }
      let f2 := { f1 with prescale := some (BitVec.ofNat 8 p) }
      let f3 := { f2 with
        polarity := some (mode.getLsbD 1)
        phase := some (mode.getLsbD 0 ^^ s.params.phaseInvert)
        shiftdir := some (mode.getLsbD 3) }
      execs 7 (.setup cs mode bits maxHz) s = .next { s with
        portQ := { s.portQ with res := 0, busy := false }
        seqQ := .idle
        slave := csSet s.slave cs (some
          { declBits := bits
            declHz := maxHz
            mode := mode
            bits := bits
            bpw := if bits ≤ 8 then 1 else 2
            hz := maxHz
            cmdBase := (slaveOf cs s).bind Slave.cmdBase })
        regrec := { s.regrec with fmt := csSet s.regrec.fmt cs f3 }
        hist := s.hist ++ eventsBy .queue
          ([.rd (.fmt cs) (.fmt f0), .wr (.fmt cs) (.fmt f1)]
            ++ (if floored then [.prescaleFloor cs] else [])
            ++ [.rd (.fmt cs) (.fmt f1), .wr (.fmt cs) (.fmt f2),
                .rd (.fmt cs) (.fmt f2), .wr (.fmt cs) (.fmt f3), .res .queue 0]) })
    ∧ ∀ (cs : Cs) (mode : Byte) (bits maxHz : Nat) (s : State), s.seqQ = .s9 →
      exec (.setup cs mode bits maxHz) s = .next { s with
        portQ := { s.portQ with res := 0, busy := false }
        seqQ := .idle
        hist := s.hist ++ [⟨.queue, .res .queue 0⟩] }

/-- 40_divider_config.md R150-R152, R140: `AllocChannels`, all or nothing: the receive channel is asked for first; where it is
not given, or the transmit channel is not, nothing stays allocated and the result is `E_RES_DMA`; where both are given, the
step after records both and the chip-select's record (S6), with the first read of `Configure`; so a first SETUP with the DMA
strategy runs its nine steps to `finish(0)`. An answer is the one laid down first, else a free value (20_memory.md R62,
44_dma.md R240; log 2): one that names a channel the engine holds, in the table or in the SETUP in progress, is taken as none
(log 18), one that does not is given unchanged. That S1 to S5 share the allocation's step, and A5 and S6 the first read of
`Configure`, is the model's reading of 00_scope.md R11 (log 15). -/
def Obligations.SetupAllocatesAllOrNothing : Prop :=
  (∀ s : State,
    let answer := s.env.allocs.head?.getD (Config.freeAlloc s.env.draws)
    let isHeld := fun ch : ChanId => (∃ c, (dmaOf c s).rxCh = some ch ∨ (dmaOf c s).txCh = some ch)
      ∨ s.seqQ = .sAllocTx ch ∨ s.seqQ = .sFree ch ∨ ∃ r t, s.seqQ = .s6 r t ∧ (ch = r ∨ ch = t)
    (∀ ch, nextAlloc s = some ch → answer = some ch ∧ ¬ isHeld ch)
    ∧ (∀ ch, answer = some ch → (isHeld ch → nextAlloc s = none) ∧ (¬ isHeld ch → nextAlloc s = some ch))
    ∧ (answer = none → nextAlloc s = none)
    ∧ (∀ x r, s.env.allocs = x :: r → envDropAlloc s.env = { s.env with allocs := r })
    ∧ (s.env.allocs = [] → envDropAlloc s.env = { s.env with draws := s.env.draws + 1 }))
  ∧
  ∀ (cs : Cs) (mode : Byte) (bits maxHz : Nat) (s : State),
    (s.seqQ = .s1 → cs.toNat < s.params.numCs → s.suspended = false →
      600000 ≤ maxHz → maxHz ≤ 50000000 → 2 ≤ bits → bits ≤ 16 →
      s.params.useDma = true → (dmaOf cs s).rxCh = none →
        (∀ r, nextAlloc s = some r → exec (.setup cs mode bits maxHz) s = .next { s with
          seqQ := .sAllocTx r
          hist := s.hist ++ [⟨.queue, .dalloc .rx cs (some r)⟩]
          env := envDropAlloc s.env })
        ∧ (nextAlloc s = none → execs 2 (.setup cs mode bits maxHz) s = .next { s with
          portQ := { s.portQ with res := 0xFFFFFFF6, busy := false }
          seqQ := .idle
          hist := s.hist ++ [⟨.queue, .dalloc .rx cs none⟩, ⟨.queue, .res .queue 0xFFFFFFF6⟩]
          env := envDropAlloc s.env }))
    ∧ (∀ r, s.seqQ = .sAllocTx r → nextAlloc s = none → execs 3 (.setup cs mode bits maxHz) s = .next { s with
          portQ := { s.portQ with res := 0xFFFFFFF6, busy := false }
          seqQ := .idle
          hist := s.hist ++ [⟨.queue, .dalloc .tx cs none⟩, ⟨.queue, .dfree r⟩, ⟨.queue, .res .queue 0xFFFFFFF6⟩]
          env := envDropAlloc s.env })
    ∧ (∀ r t, s.seqQ = .sAllocTx r → nextAlloc s = some t → configOk bits maxHz = true →
        execs 2 (.setup cs mode bits maxHz) s = .next { s with
          seqQ := .s7 (.lenW (fmtRec cs s) bits maxHz)
          slave := csSet s.slave cs (some
            { declBits := bits
              declHz := maxHz
              mode := mode
              bits := bits
              bpw := if bits ≤ 8 then 1 else 2
              hz := maxHz
              cmdBase := (slaveOf cs s).bind Slave.cmdBase })
          dma := csSet s.dma cs { dmaOf cs s with rxCh := some r, txCh := some t }
          hist := s.hist ++ [⟨.queue, .dalloc .tx cs (some t)⟩, ⟨.queue, .rd (.fmt cs) (.fmt (fmtRec cs s))⟩]
          env := envDropAlloc s.env })
    ∧ ∀ (r t : ChanId) (p : Nat) (floored : Bool),
      s.seqQ = .s1 → cs.toNat < s.params.numCs → s.suspended = false →
      600000 ≤ maxHz → maxHz ≤ 50000000 → 2 ≤ bits → bits ≤ 16 →
      s.params.useDma = true → (dmaOf cs s).rxCh = none →
      nextAlloc s = some r → nextAlloc { s with seqQ := .sAllocTx r, env := envDropAlloc s.env } = some t →
      prescale s.clkRate maxHz = some (p, floored) →
        let f0 := fmtRec cs s
        let f1 := { f0 with charlen := some (BitVec.ofNat 5 bits) }
        let f2 := { f1 with prescale := some (BitVec.ofNat 8 p) }
        let f3 := { f2 with
          polarity := some (mode.getLsbD 1)
          phase := some (mode.getLsbD 0 ^^ s.params.phaseInvert)
          shiftdir := some (mode.getLsbD 3) }
        execs 9 (.setup cs mode bits maxHz) s = .next { s with
          portQ := { s.portQ with res := 0, busy := false }
          seqQ := .idle
          slave := csSet s.slave cs (some
            { declBits := bits
              declHz := maxHz
              mode := mode
              bits := bits
              bpw := if bits ≤ 8 then 1 else 2
              hz := maxHz
              cmdBase := (slaveOf cs s).bind Slave.cmdBase })
          dma := csSet s.dma cs { dmaOf cs s with rxCh := some r, txCh := some t }
          regrec := { s.regrec with fmt := csSet s.regrec.fmt cs f3 }
          hist := s.hist ++ eventsBy .queue
            ([.dalloc .rx cs (some r), .dalloc .tx cs (some t), .rd (.fmt cs) (.fmt f0), .wr (.fmt cs) (.fmt f1)]
              ++ (if floored then [.prescaleFloor cs] else [])
              ++ [.rd (.fmt cs) (.fmt f1), .wr (.fmt cs) (.fmt f2),
                  .rd (.fmt cs) (.fmt f2), .wr (.fmt cs) (.fmt f3), .res .queue 0])
          env := envDropAlloc (envDropAlloc s.env) }

/-- 40_divider_config.md R142, R150: a second SETUP with the same operands leaves the same record and the same format
register, and allocates no channel. -/
def Obligations.SetupIdempotent : Prop :=
  ∀ (cs : Cs) (mode : Byte) (bits maxHz : Nat) (s : State),
    s.seqQ = .s1 → cs.toNat < s.params.numCs → s.suspended = false →
    600000 ≤ maxHz → maxHz ≤ 50000000 → 2 ≤ bits → bits ≤ 16 →
    (s.params.useDma = true → (dmaOf cs s).rxCh ≠ none) → maxHz ≤ s.clkRate →
      ∃ t u : State,
        execs 7 (.setup cs mode bits maxHz) s = .next t
          ∧ execs 7 (.setup cs mode bits maxHz) { t with seqQ := .s1 } = .next u
          ∧ u.slave = t.slave ∧ u.regrec = t.regrec ∧ u.dma = t.dma
          ∧ ∀ d c r, (⟨.queue, .dalloc d c r⟩ : Event) ∈ u.hist → (⟨.queue, .dalloc d c r⟩ : Event) ∈ s.hist

/-! ### CLEANUP and CHIPSELECT -/

/-- 40_divider_config.md R155: CLEANUP of a chip-select with both channels, neither active, frees both in three steps; with an
active one it raises `F_DMA_CHANNEL_BUSY`; without channels it finishes with 0; an invalid chip-select is `E_INVAL`. Which
lines share a step is the model's reading of 00_scope.md R11 (log 15). -/
def Obligations.CleanupFreesChannels : Prop :=
  ∀ (cs : Cs) (s : State), s.seqQ = .c1 →
    (s.params.numCs ≤ cs.toNat → exec (.cleanup cs) s = .next (finish .queue (errWord .inval) s))
    ∧ (∀ r t, cs.toNat < s.params.numCs → (dmaOf cs s).rxCh = some r → (dmaOf cs s).txCh = some t →
        (isActive s r = true ∨ isActive s t = true → exec (.cleanup cs) s = .next (raise .queue .dmaChannelBusy s))
        ∧ (isActive s r = false → isActive s t = false → execs 3 (.cleanup cs) s = .next { s with
            portQ := { s.portQ with res := 0, busy := false }
            seqQ := .idle
            dma := csSet s.dma cs { dmaOf cs s with rxCh := none, txCh := none }
            hist := s.hist ++ eventsBy .queue [.dfree r, .dfree t, .res .queue 0] }))
    ∧ (cs.toNat < s.params.numCs → ((dmaOf cs s).rxCh = none ∨ (dmaOf cs s).txCh = none) →
        exec (.cleanup cs) s = .next (finish .queue 0 s))

/-- 41_chipselect.md R175-R177: CHIPSELECT active finishes with 0 and has no downstream access; inactive writes `DEF.CSDEF`, then
the deselect word to `DAT`, then polls `BUF` until it reads `RXEMPTY = 1` (after `k` reads with 0) and finishes with 0; an
invalid chip-select is `E_INVAL` for either. -/
def Obligations.ChipselectEffect : Prop :=
  ∀ (cs : Cs) (s : State), s.seqQ = .cs1 →
    (s.params.numCs ≤ cs.toNat → ∀ act, exec (.chipselect cs act) s = .next (finish .queue (errWord .inval) s))
    ∧ (cs.toNat < s.params.numCs → s.suspended = false → exec (.chipselect cs true) s = .next { s with
        portQ := { s.portQ with res := 0, busy := false }
        seqQ := .idle
        hist := s.hist ++ [⟨.queue, .res .queue 0⟩] })
    ∧ ∀ k : Nat, cs.toNat < s.params.numCs → s.suspended = false →
      (∀ j, j < k → bufRxEmpty s.params (wordAt j s.env) = false) → bufRxEmpty s.params (wordAt k s.env) = true →
        execs (k + 5) (.chipselect cs false) s = .next { s with
          portQ := { s.portQ with res := 0, busy := false }
          seqQ := .idle
          regrec := { s.regrec with
            dflt := { s.regrec.dflt with csdef := some 0xFF }
            dat := some (deselectWord s.params) }
          hist := s.hist ++ eventsBy .queue
            ([.rd .dflt (.dflt s.regrec.dflt), .wr .dflt (.dflt { s.regrec.dflt with csdef := some 0xFF }),
              .wr .dat (.word (deselectWord s.params))]
              ++ bufReads 0 (k + 1) s.env
              ++ [.res .queue 0])
          env := dropWords (k + 1) s.env }

/-- 46_coordination.md R317: while suspended, port Q refuses SETUP, TRANSFER and CHIPSELECT of a valid chip-select with
`raise Fault(F_SUSPENDED)` and accepts CLEANUP, which touches no register. -/
def Obligations.SuspendedPortRefuses : Prop :=
  ∀ (cs : Cs) (s : State), s.suspended = true → cs.toNat < s.params.numCs →
    (∀ mode bits maxHz, s.seqQ = .s1 → exec (.setup cs mode bits maxHz) s = .next (raise .queue .suspended s))
    ∧ (∀ tx rx len bits hz, s.seqQ = .t1 →
        exec (.transfer cs tx rx len bits hz) s = .next (raise .queue .suspended s))
    ∧ (∀ act, s.seqQ = .cs1 → exec (.chipselect cs act) s = .next (raise .queue .suspended s))
    ∧ (s.seqQ = .c1 → ∃ t, exec (.cleanup cs) s = .next t ∧ t.regrec = s.regrec
        ∧ exec (.cleanup cs) { s with suspended := false } = .next { t with suspended := false })

/-! ### TRANSFER: front end (42_transfer.md) -/

/-- 42_transfer.md R190, R192: the checks T1 to T8 of TRANSFER are made in their order, and the first that applies decides the
outcome; T7 and T8 are made after `Configure` where an override is present, at once where none is. -/
def Obligations.TransferChecksInOrder : Prop :=
  ∀ (cs : Cs) (tx rx : Option Word) (len : Nat) (bits hz : Option Nat) (s : State),
    (s.seqQ = .t1 →
      (s.params.numCs ≤ cs.toNat →
        exec (.transfer cs tx rx len bits hz) s = .next (finish .queue (errWord .inval) s))
      ∧ (cs.toNat < s.params.numCs → s.suspended = true →
        exec (.transfer cs tx rx len bits hz) s = .next (raise .queue .suspended s))
      ∧ (cs.toNat < s.params.numCs → s.suspended = false → slaveOf cs s = none →
        exec (.transfer cs tx rx len bits hz) s = .next (raise .queue .unconfiguredCs s))
      ∧ ∀ sl, cs.toNat < s.params.numCs → s.suspended = false → slaveOf cs s = some sl →
        (tx = none → rx = none →
          exec (.transfer cs tx rx len bits hz) s = .next (raise .queue .noBuffers s))
        ∧ ((tx ≠ none ∨ rx ≠ none) → 0x7FFFFFFF < len →
          exec (.transfer cs tx rx len bits hz) s = .next (finish .queue (errWord .inval) s))
        ∧ ((tx ≠ none ∨ rx ≠ none) → len ≤ 0x7FFFFFFF → (bits ≠ none ∨ hz ≠ none) →
          configOk (bits.getD sl.declBits) (hz.getD sl.declHz) = false →
            exec (.transfer cs tx rx len bits hz) s = .next (finish .queue (errWord .inval) s)))
    ∧ (transferAtT7 cs tx rx len bits hz s → ∀ sl, slaveOf cs s = some sl →
      (len % sl.bpw ≠ 0 →
        exec (.transfer cs tx rx len bits hz) s = .next (raise .queue .lenNotMultiple s))
      ∧ (len % sl.bpw = 0 → sl.bpw = 2 → (∃ a, (tx = some a ∨ rx = some a) ∧ a.toNat % 2 = 1) →
        exec (.transfer cs tx rx len bits hz) s = .next (raise .queue .misaligned s))
      ∧ (len % sl.bpw = 0 → (sl.bpw = 2 → ∀ a, (tx = some a ∨ rx = some a) → a.toNat % 2 = 0) →
        s.params.useDma = true →
          ((dmaOf cs s).rxCh = none →
            exec (.transfer cs tx rx len bits hz) s = .next (raise .queue .dmaUnallocated s))
          ∧ ((dmaOf cs s).rxCh ≠ none → len / sl.bpw = 0 →
            exec (.transfer cs tx rx len bits hz) s = .next (raise .queue .dmaZeroCount s))
          ∧ ((dmaOf cs s).rxCh ≠ none → len / sl.bpw ≠ 0 → tx = none →
            s.params.scratchBytes < (len / sl.bpw + 1) * sl.bpw →
              exec (.transfer cs tx rx len bits hz) s = .next (raise .queue .scratchTooSmall s))))

/-- 42_transfer.md R193, 40_divider_config.md R140: a TRANSFER with an override in range first runs `Configure`: the effective
width and frequency (an absent override is the declared value), `CHARLEN` and `PRESCALE` are written, and the transfer goes
on at T7. Which lines share a step is the model's reading of 00_scope.md R11 (log 15). -/
def Obligations.TransferReconfigures : Prop :=
  ∀ (cs : Cs) (tx rx : Option Word) (len : Nat) (bits hz : Option Nat) (p : Nat) (floored : Bool) (sl : Slave) (s : State),
    s.seqQ = .t1 → cs.toNat < s.params.numCs → s.suspended = false → slaveOf cs s = some sl →
    (tx ≠ none ∨ rx ≠ none) → len ≤ 0x7FFFFFFF → (bits ≠ none ∨ hz ≠ none) →
    2 ≤ bits.getD sl.declBits → bits.getD sl.declBits ≤ 16 →
    600000 ≤ hz.getD sl.declHz → hz.getD sl.declHz ≤ 50000000 →
    prescale s.clkRate (hz.getD sl.declHz) = some (p, floored) →
      let f0 := fmtRec cs s
      let f1 := { f0 with charlen := some (BitVec.ofNat 5 (bits.getD sl.declBits)) }
      let f2 := { f1 with prescale := some (BitVec.ofNat 8 p) }
      execs 4 (.transfer cs tx rx len bits hz) s = .next { s with
        seqQ := .t7
        slave := csSet s.slave cs (some { sl with
          bits := bits.getD sl.declBits
          bpw := if bits.getD sl.declBits ≤ 8 then 1 else 2
          hz := hz.getD sl.declHz })
        regrec := { s.regrec with fmt := csSet s.regrec.fmt cs f2 }
        hist := s.hist ++ eventsBy .queue
          ([.rd (.fmt cs) (.fmt f0), .wr (.fmt cs) (.fmt f1)]
            ++ (if floored then [.prescaleFloor cs] else [])
            ++ [.rd (.fmt cs) (.fmt f1), .wr (.fmt cs) (.fmt f2)]) }

/-! ### TRANSFER: the PIO engine (43_pio.md) -/

/-- 43_pio.md R210, R212, 42_transfer.md R195, R196, R201: a TRANSFER whose checks pass, entered at once or, with an override,
at T7 after `Configure`, with the PIO strategy, prepares the context and `cmd_base`, writes `GCR.LOOPBACK` and `PC` from the
mode flags in its first four steps, which leave in-use, `done` and the mode as they were; its fifth is `E0` alone (in-use set,
`done` cleared, the policy's mode); then it enables the controller, writes `DELAY`, polls `BUF` until `RXEMPTY = 1` (after
`k` reads with 0) and stands at the head of its policy's loop. Which lines share a step is the model's reading of
00_scope.md R11 (log 15). What `xf` holds beyond the fields T9 names, and its receive cursor without a receive buffer, are the model's choices
(log 7); the cursor does not wrap at 2^32 (log 28). -/
def Obligations.PioEntrySequence : Prop :=
  ∀ (cs : Cs) (tx rx : Option Word) (len : Nat) (bits hz : Option Nat) (sl : Slave) (s : State),
    transferAtT7 cs tx rx len bits hz s → transferFits cs tx rx len sl s → s.params.useDma = false →
      let g1 := { s.regrec.gcr with loopback := some (sl.mode.getLsbD 5) }
      let g2 := { g1 with enable := some true }
      let p1 := { s.regrec.pc with handshake := some (sl.mode.getLsbD 7), threewire := some (sl.mode.getLsbD 4) }
      let policy : XfMode := if tx.isSome then .pioTx else if s.params.pollMode then .pioRxPoll else .pioRxIrq
      let prepared := csSet s.slave cs (some { sl with cmdBase := some (cmdBase s.params cs) })
      let modeEvents : List Ev :=
        [.rd .gcr (.gcr s.regrec.gcr), .wr .gcr (.gcr g1), .rd .pc (.pc s.regrec.pc), .wr .pc (.pc p1)]
      (∀ j, j ≤ 4 → ∃ t, execs j (.transfer cs tx rx len bits hz) s = .next t
        ∧ t.inUse = s.inUse ∧ t.done = s.done ∧ t.xf.mode = s.xf.mode)
      ∧ execs 4 (.transfer cs tx rx len bits hz) s = .next { s with
        seqQ := .pio .p5
        slave := prepared
        xf := checkedContext cs tx rx len sl s
        regrec := { s.regrec with gcr := g1, pc := p1 }
        hist := s.hist ++ eventsBy .queue modeEvents }
      ∧ execs 5 (.transfer cs tx rx len bits hz) s = .next { s with
        seqQ := .pio .p6
        inUse := true
        done := false
        slave := prepared
        xf := { checkedContext cs tx rx len sl s with mode := policy }
        regrec := { s.regrec with gcr := g1, pc := p1 }
        hist := s.hist ++ eventsBy .queue modeEvents }
      ∧ ∀ k, (∀ j, j < k → bufRxEmpty s.params (wordAt j s.env) = false) → bufRxEmpty s.params (wordAt k s.env) = true →
        execs (k + 9) (.transfer cs tx rx len bits hz) s = .next { s with
          seqQ := .pio (if tx.isSome then .l0 0 else if s.params.pollMode then .r0 0 else .i0 0)
          inUse := true
          done := false
          slave := prepared
          xf := { checkedContext cs tx rx len sl s with mode := policy }
          regrec := { s.regrec with gcr := g2, pc := p1, delay := some s.params.delayWord }
          hist := s.hist ++ eventsBy .queue
            (modeEvents
              ++ [.rd .gcr (.gcr g1), .wr .gcr (.gcr g2), .wr .delay (.delay (some s.params.delayWord))]
              ++ bufReads 0 (k + 1) s.env)
          env := dropWords (k + 1) s.env }

/-- 43_pio.md R213-R215: one word of the transmit-driven loop: `TxWord(i)`, the poll for a free transmit slot (after `k` reads
with `TXFULL = 1`), the command word with the data, the poll for a received word (after `m` reads with `RXEMPTY = 1`); with
a receive buffer the receive read and its store. A transmit word of a buffer below 2^32 is admitted; at a word that is not
admitted, of either buffer, Q has no step (20_memory.md R71, 60_exceptions.md R337, log 11). Word addresses do not wrap at
2^32 (log 28). -/
def Obligations.TransmitWordExchanged : Prop :=
  (∀ (cs : Cs) (tx rx : Option Word) (len : Nat) (bits hz : Option Nat) (i k m : Nat) (a : Word) (s : State),
    s.seqQ = .pio (.l0 i) → i < s.xf.count → s.xf.tx = some a →
    admitted s (wordAddr a i s.xf.bpw) s.xf.bpw = true →
    (∀ j, j < k → bufTxFull s.params (wordAt j s.env) = true) → bufTxFull s.params (wordAt k s.env) = false →
    (∀ j, j < m → bufRxEmpty s.params (wordAt (k + 1 + j) s.env) = true) →
    bufRxEmpty s.params (wordAt (k + 1 + m) s.env) = false →
      let w := memRead s.mem (wordAddr a i s.xf.bpw) s.xf.bpw
      let c := setField s.params.layout.loTxdata 16 w s.xf.cmd
      let es := [.mrd (wordAddr a i s.xf.bpw) s.xf.bpw w] ++ bufReads 0 (k + 1) s.env ++ [.wr .dat (.word c)]
        ++ bufReads (k + 1) (m + 1) s.env
      (s.xf.rx = none → execs (k + m + 4) (.transfer cs tx rx len bits hz) s = .next { s with
        seqQ := .pio (.l0 (i + 1))
        regrec := { s.regrec with dat := some c }
        hist := s.hist ++ eventsBy .queue es
        env := dropWords (k + m + 2) s.env })
      ∧ ∀ b, s.xf.rx = some b → admitted s (wordAddr b i s.xf.bpw) s.xf.bpw = true →
        let u := wordAt (k + m + 2) s.env
        let d := getField s.params.layout.loRxdata 16 u
        execs (k + m + 6) (.transfer cs tx rx len bits hz) s = .next { s with
          seqQ := .pio (.l0 (i + 1))
          regrec := { s.regrec with dat := some c }
          mem := memWrite s.mem (wordAddr b i s.xf.bpw) s.xf.bpw d
          hist := s.hist ++ eventsBy .queue
            (es ++ [.rd .buf (.word u), .mwr (wordAddr b i s.xf.bpw) s.xf.bpw (lowBytes s.xf.bpw d)])
          env := dropWords (k + m + 3) s.env })
  ∧ (∀ (i : Nat) (a : Word) (s : State), s.xf.tx = some a → (s.xf.bpw = 1 ∨ (s.xf.bpw = 2 ∧ a.toNat % 2 = 0)) →
      (i + 1) * s.xf.bpw ≤ s.xf.len → a.toNat + s.xf.len ≤ 2 ^ 32 →
        admitted s (wordAddr a i s.xf.bpw) s.xf.bpw = true)
  ∧ ∀ (cs : Cs) (tx rx : Option Word) (len : Nat) (bits hz : Option Nat) (i : Nat) (a : Word) (s : State),
    (s.seqQ = .pio (.l0 i) → i < s.xf.count → s.xf.tx = some a →
      admitted s (wordAddr a i s.xf.bpw) s.xf.bpw = false → exec (.transfer cs tx rx len bits hz) s = .next s)
    ∧ ∀ d, s.seqQ = .pio (.l5s i d) → s.xf.rx = some a →
      admitted s (wordAddr a i s.xf.bpw) s.xf.bpw = false → exec (.transfer cs tx rx len bits hz) s = .next s

/-- 43_pio.md R216: one word of the polled receive loop: one look at the transmit slot, the held command word only where it is
free, the poll for a received word (after `m` reads with `RXEMPTY = 1`), the receive read and its store. An access is
admitted exactly where it is one byte or two at an even address, below 2^32, in the transmit, receive or scratch region, so
every word of a receive buffer below 2^32 is; at a word that is not admitted Q has no step (20_memory.md R71,
60_exceptions.md R337, log 11). The words read from a volatile register are those laid down, in order, then free values
(20_memory.md R62; log 2). Word addresses do not wrap at 2^32 (log 28). -/
def Obligations.ReceiveWordPolled : Prop :=
  (∀ e : Env,
    (∀ w r, e.words = w :: r → wordAt 0 e = w ∧ dropWords 1 e = { e with words := r })
    ∧ (e.words = [] → wordAt 0 e = Config.freeWord e.draws ∧ dropWords 1 e = { e with draws := e.draws + 1 })
    ∧ ∀ k, wordAt (k + 1) e = wordAt k (dropWords 1 e) ∧ dropWords (k + 1) e = dropWords k (dropWords 1 e))
  ∧ (∀ (cs : Cs) (tx rx : Option Word) (len : Nat) (bits hz : Option Nat) (i m : Nat) (b : Word) (s : State),
    s.seqQ = .pio (.r0 i) → i < s.xf.count → s.xf.rx = some b →
    admitted s (wordAddr b i s.xf.bpw) s.xf.bpw = true →
    (∀ j, j < m → bufRxEmpty s.params (wordAt (1 + j) s.env) = true) →
    bufRxEmpty s.params (wordAt (1 + m) s.env) = false →
      let d := getField s.params.layout.loRxdata 16 (wordAt (m + 2) s.env)
      let es := bufReads 1 (m + 2) s.env
        ++ [.mwr (wordAddr b i s.xf.bpw) s.xf.bpw (lowBytes s.xf.bpw d)]
      (bufTxFull s.params (wordAt 0 s.env) = false →
        execs (m + 5) (.transfer cs tx rx len bits hz) s = .next { s with
          seqQ := .pio (.r0 (i + 1))
          regrec := { s.regrec with dat := some s.xf.cmd }
          mem := memWrite s.mem (wordAddr b i s.xf.bpw) s.xf.bpw d
          hist := s.hist ++ eventsBy .queue (bufReads 0 1 s.env ++ [.wr .dat (.word s.xf.cmd)] ++ es)
          env := dropWords (m + 3) s.env })
      ∧ (bufTxFull s.params (wordAt 0 s.env) = true →
        execs (m + 4) (.transfer cs tx rx len bits hz) s = .next { s with
          seqQ := .pio (.r0 (i + 1))
          mem := memWrite s.mem (wordAddr b i s.xf.bpw) s.xf.bpw d
          hist := s.hist ++ eventsBy .queue (bufReads 0 1 s.env ++ es)
          env := dropWords (m + 3) s.env }))
  ∧ (∀ (a n : Nat) (s : State),
    admitted s a n = true ↔
      (n = 1 ∨ (n = 2 ∧ a % 2 = 0)) ∧ a + n ≤ 2 ^ 32
        ∧ ((∃ b, s.xf.tx = some b ∧ b.toNat ≤ a ∧ a + n ≤ b.toNat + s.xf.len)
          ∨ (∃ b, s.xf.rx = some b ∧ b.toNat ≤ a ∧ a + n ≤ b.toNat + s.xf.len)
          ∨ (s.params.scratchAddr.toNat ≤ a ∧ a + n ≤ s.params.scratchAddr.toNat + s.params.scratchBytes)))
  ∧ (∀ (i : Nat) (b : Word) (s : State), s.xf.rx = some b → (s.xf.bpw = 1 ∨ (s.xf.bpw = 2 ∧ b.toNat % 2 = 0)) →
      (i + 1) * s.xf.bpw ≤ s.xf.len → b.toNat + s.xf.len ≤ 2 ^ 32 →
        admitted s (wordAddr b i s.xf.bpw) s.xf.bpw = true)
  ∧ ∀ (cs : Cs) (tx rx : Option Word) (len : Nat) (bits hz : Option Nat) (i : Nat) (d : Half) (b : Word) (s : State),
    s.seqQ = .pio (.r5 i d) → s.xf.rx = some b → admitted s (wordAddr b i s.xf.bpw) s.xf.bpw = false →
      exec (.transfer cs tx rx len bits hz) s = .next s

/-- 43_pio.md R217, R218: the interrupt-driven loop arms `IE_BITERR`, `IE_OVRN` and `IE_RX`, writes the command word, and polls
`INT` until the handler has cleared `IE_RX`; after the last word it writes the release word. That an unknown `IE_RX` goes on
polling is the model's reading (log 20). -/
def Obligations.ReceiveWordByInterrupt : Prop :=
  ∀ (cs : Cs) (tx rx : Option Word) (len : Nat) (bits hz : Option Nat) (i : Nat) (s : State),
    (s.seqQ = .pio (.i0 i) → i < s.xf.count →
      let t1 := { s.regrec.int with ieBiterr := some true, ieOvrn := some true, ieRx := some true }
      execs 3 (.transfer cs tx rx len bits hz) s = .next { s with
        seqQ := .pio (.i4 i)
        regrec := { s.regrec with int := t1, dat := some s.xf.cmd }
        hist := s.hist ++ eventsBy .queue
          [.rd .int (.int s.regrec.int), .wr .int (.int t1), .wr .dat (.word s.xf.cmd)] })
    ∧ (s.seqQ = .pio (.i4 i) →
      exec (.transfer cs tx rx len bits hz) s = .next { s with
        seqQ := .pio (if s.regrec.int.ieRx = some false then .i0 (i + 1) else .i4 i)
        hist := s.hist ++ [⟨.queue, .rd .int (.int s.regrec.int)⟩] })
    ∧ (s.seqQ = .pio (.i0 i) → s.xf.count ≤ i →
      exec (.transfer cs tx rx len bits hz) s = .next { s with
        seqQ := .x1
        regrec := { s.regrec with dat := some (releaseWord s.params s.xf.cs) }
        hist := s.hist ++ [⟨.queue, .wr .dat (.word (releaseWord s.params s.xf.cs))⟩] })

/-- 42_transfer.md R200, R198, R199: at the end of the data phase the status-flag register is read once and decoded, and the
exit funnel clears in-use, sets `done`, clears the mode and finishes with the byte count or the error; the error codes have the
values of 30_encoding.md R97, as 32-bit words. Which lines share a
step is the model's reading of 00_scope.md R11 (log 15). -/
def Obligations.StatusCheckExits : Prop :=
  (∀ p ∈ ([(.inval, 0xFFFFFFFF), (.hwTimeout, 0xFFFFFFFE), (.hwDesync, 0xFFFFFFFD), (.hwBiterr, 0xFFFFFFFC),
      (.hwDlen, 0xFFFFFFFB), (.hwParity, 0xFFFFFFFA), (.hwOverrun, 0xFFFFFFF9), (.hwTxint, 0xFFFFFFF8), (.busy, 0xFFFFFFF7),
      (.resDma, 0xFFFFFFF6), (.resMap, 0xFFFFFFF5), (.waitTimeout, 0xFFFFFFF4), (.badCmd, 0xFFFFFFF3)] : List (Err × Word)),
    errWord p.1 = p.2)
  ∧
  ∀ (cs : Cs) (tx rx : Option Word) (len : Nat) (bits hz : Option Nat) (s : State),
    ((s.seqQ = .x1 ∨ (∃ i, s.xf.count ≤ i ∧ (s.seqQ = .pio (.l0 i) ∨ s.seqQ = .pio (.r0 i)))) →
      let v := wordAt 0 s.env
      let r := match statusDecode s.params.layout s.params.rev v with
        | none => BitVec.ofNat 32 (s.xf.count * s.xf.bpw)
        | some e => errWord e
      execs 2 (.transfer cs tx rx len bits hz) s = .next { s with
        portQ := { s.portQ with res := r, busy := false }
        seqQ := .idle
        inUse := false
        done := true
        xf := { s.xf with mode := .none }
        hist := s.hist ++ eventsBy .queue [.rd .flg (.word v), .res .queue r]
        env := dropWords 1 s.env })
    ∧ ∀ v, s.seqQ = .x2 v →
      let r := match statusDecode s.params.layout s.params.rev v with
        | none => BitVec.ofNat 32 (s.xf.count * s.xf.bpw)
        | some e => errWord e
      exec (.transfer cs tx rx len bits hz) s = .next { s with
        portQ := { s.portQ with res := r, busy := false }
        seqQ := .idle
        inUse := false
        done := true
        xf := { s.xf with mode := .none }
        hist := s.hist ++ [⟨.queue, .res .queue r⟩] }

/-- 42_transfer.md R202, 43_pio.md R213: a transmit-only PIO transfer, of any number of words, on a controller that answers every
poll at once and reports a clean status, returns `len`, writes no byte of host memory and leaves the engine free. -/
def Obligations.TransmitOnlyTransfer : Prop :=
  ∀ (cs : Cs) (a : Word) (len : Nat) (sl : Slave) (s : State),
    s.seqQ = .t1 → transferChecked cs (some a) none len sl s → s.params.useDma = false →
    (sl.bpw = 1 ∨ sl.bpw = 2) → a.toNat + len ≤ 2 ^ 32 →
    bufRxEmpty s.params (wordAt 0 s.env) = true →
    (∀ i, i < len / sl.bpw →
      bufTxFull s.params (wordAt (2 * i + 1) s.env) = false ∧ bufRxEmpty s.params (wordAt (2 * i + 2) s.env) = false) →
    statusDecode s.params.layout s.params.rev (wordAt (2 * (len / sl.bpw) + 1) s.env) = none →
      ∃ (t : State) (es : List Event),
        execs (4 * (len / sl.bpw) + 11) (.transfer cs (some a) none len none none) s = .next t
          ∧ t.portQ.res = BitVec.ofNat 32 len ∧ t.portQ.busy = false ∧ t.seqQ = .idle
          ∧ t.inUse = false ∧ t.done = true ∧ t.fault = s.fault
          ∧ t.mem = s.mem ∧ t.hist = s.hist ++ es ∧ ∀ g x n v, (⟨g, .mwr x n v⟩ : Event) ∉ es

/-! ### TRANSFER: the DMA engine (44_dma.md) -/

/-- 44_dma.md R241, 42_transfer.md R196, R201: a TRANSFER whose checks pass, entered at once or, with an override, at T7 after
`Configure`, with the DMA strategy, prepares the context and `cmd_base` and sets in-use in its first step (`E0`), which has no
event, then writes `GCR.LOOPBACK` and `PC` from the mode flags and disables all eight interrupt sources. Which lines share a step is the model's reading of 00_scope.md R11 (log 15). What
`xf` holds beyond the fields T9 names, and its receive cursor without a receive buffer, are the model's choices (log 7); the
cursor does not wrap at 2^32 (log 28). -/
def Obligations.DmaEntrySequence : Prop :=
  ∀ (cs : Cs) (tx rx : Option Word) (len : Nat) (bits hz : Option Nat) (sl : Slave) (s : State),
    transferAtT7 cs tx rx len bits hz s → transferFits cs tx rx len sl s → s.params.useDma = true → (sl.bpw = 1 ∨ sl.bpw = 2) →
      let g1 := { s.regrec.gcr with loopback := some (sl.mode.getLsbD 5) }
      let p1 := { s.regrec.pc with handshake := some (sl.mode.getLsbD 7), threewire := some (sl.mode.getLsbD 4) }
      let off : IntRec := ⟨some false, some false, some false, some false, some false, some false, some false, some false,
        s.regrec.int.dmareqen, s.regrec.int.other⟩
      let prepared := csSet s.slave cs (some { sl with cmdBase := some (cmdBase s.params cs) })
      exec (.transfer cs tx rx len bits hz) s = .next { s with
        seqQ := .dma (.mode .m1)
        inUse := true
        done := false
        slave := prepared
        xf := { checkedContext cs tx rx len sl s with mode := .dma } }
      ∧ execs 7 (.transfer cs tx rx len bits hz) s = .next { s with
        seqQ := .dma .g8
        inUse := true
        done := false
        slave := prepared
        xf := { checkedContext cs tx rx len sl s with mode := .dma }
        regrec := { s.regrec with gcr := g1, pc := p1, int := off }
        hist := s.hist ++ eventsBy .queue
          [.rd .gcr (.gcr s.regrec.gcr), .wr .gcr (.gcr g1), .rd .pc (.pc s.regrec.pc), .wr .pc (.pc p1),
           .rd .int (.int s.regrec.int), .wr .int (.int off)] }

/-- 44_dma.md R243: the pre-load: the controller disabled, the command word written to `DAT`, the controller enabled, in that
order, then the poll of `BUF` until `RXEMPTY = 1` (after `k` reads with 0). -/
def Obligations.DmaPreloadOrder : Prop :=
  ∀ (cs : Cs) (tx rx : Option Word) (len : Nat) (bits hz : Option Nat) (k : Nat) (s : State),
    s.seqQ = .dma .g8 →
    (∀ j, j < k → bufRxEmpty s.params (wordAt j s.env) = false) → bufRxEmpty s.params (wordAt k s.env) = true →
      let g0 := { s.regrec.gcr with enable := some false }
      let g1 := { s.regrec.gcr with enable := some true }
      execs (k + 6) (.transfer cs tx rx len bits hz) s = .next { s with
        seqQ := .dma (if s.xf.tx.isSome then .g16 else .g15 0)
        regrec := { s.regrec with gcr := g1, dat := some s.xf.cmd }
        hist := s.hist ++ eventsBy .queue
          ([.rd .gcr (.gcr s.regrec.gcr), .wr .gcr (.gcr g0), .wr .dat (.word s.xf.cmd),
            .rd .gcr (.gcr g0), .wr .gcr (.gcr g1)] ++ bufReads 0 (k + 1) s.env)
        env := dropWords (k + 1) s.env }

/-- 44_dma.md R244: the scratch fill of a receive-only transfer: `n + 1` words of the fill value from the scratch address on,
one store each; no other byte of host memory changes; at a word that is not admitted Q has no step (20_memory.md R71,
60_exceptions.md R337, log 11). The addresses the machine has and what an unlisted one reads are those of log 10. -/
def Obligations.DmaScratchFill : Prop :=
  (∀ (cs : Cs) (tx rx : Option Word) (len : Nat) (bits hz : Option Nat) (s : State),
    s.seqQ = .dma (.g15 0) → Memory.wf s.mem = true → (s.xf.bpw = 1 ∨ s.xf.bpw = 2) →
    s.params.scratchAddr.toNat % 2 = 0 →
    (s.xf.count + 1) * s.xf.bpw ≤ s.params.scratchBytes →
    s.params.scratchAddr.toNat + (s.xf.count + 1) * s.xf.bpw ≤ 2 ^ 32 →
      let base := s.params.scratchAddr.toNat
      let v := lowBytes s.xf.bpw s.params.scratchFill
      ∃ t : State,
        execs (s.xf.count + 1) (.transfer cs tx rx len bits hz) s = .next t
          ∧ t = { s with
              seqQ := .dma .g16
              mem := t.mem
              hist := s.hist ++ eventsBy .queue
                ((List.range (s.xf.count + 1)).map (fun k => .mwr (base + k * s.xf.bpw) s.xf.bpw v)) }
          ∧ (∀ k, k ≤ s.xf.count → memRead t.mem (base + k * s.xf.bpw) s.xf.bpw = v)
          ∧ ∀ x, (x < base ∨ base + (s.xf.count + 1) * s.xf.bpw ≤ x) → memGet t.mem x = memGet s.mem x)
  ∧ ∀ (cs : Cs) (tx rx : Option Word) (len : Nat) (bits hz : Option Nat) (k : Nat) (s : State),
    s.seqQ = .dma (.g15 k) → admitted s (wordAddr s.params.scratchAddr k s.xf.bpw) s.xf.bpw = false →
      exec (.transfer cs tx rx len bits hz) s = .next s

/-- 44_dma.md R244, R245, R240, R252: the transmit buffer, or the scratch buffer with one extra word, is mapped; where the
mapping fails the engine exits with `E_RES_MAP`; else the transmit channel is programmed from the mapping to the data
register with the mapped word count and the width's unit (8, 16 or 32 bits, R242), or `F_DMA_CHANNEL_BUSY` is raised where
it is still active. A mapping's answer is the one laid down first, else a free value (20_memory.md R62, R75; log 2). Which
lines share a step is the model's reading of 00_scope.md R11 (log 15). A device address is of 32 bits (log 31). -/
def Obligations.DmaTransmitProgrammed : Prop :=
  (∀ s : State,
    (∀ x r, s.env.maps = x :: r → nextMap s = x ∧ envDropMap s.env = { s.env with maps := r })
    ∧ (s.env.maps = [] → nextMap s = Config.freeMap s.env.draws
        ∧ envDropMap s.env = { s.env with draws := s.env.draws + 1 }))
  ∧ ∀ (cs : Cs) (tx rx : Option Word) (len : Nat) (bits hz : Option Nat) (s : State),
    (s.seqQ = .dma .g16 →
      let src := if s.xf.tx.isSome then s.xf.tx.getD 0 else s.params.scratchAddr
      let n := if s.xf.tx.isSome then s.xf.count * s.xf.bpw else (s.xf.count + 1) * s.xf.bpw
      (nextMap s = none →
        execs 2 (.transfer cs tx rx len bits hz) s = .next { s with
          portQ := { s.portQ with res := 0xFFFFFFF5, busy := false }
          seqQ := .idle
          inUse := false
          done := true
          xf := { s.xf with txn := n, mode := .none }
          hist := s.hist ++ eventsBy .queue [.mapping src n .tx none, .res .queue 0xFFFFFFF5]
          env := envDropMap s.env })
      ∧ ∀ m, nextMap s = some m →
        exec (.transfer cs tx rx len bits hz) s = .next { s with
          seqQ := .dma (.g17 m)
          xf := { s.xf with txn := n }
          hist := s.hist ++ [⟨.queue, .mapping src n .tx (some m)⟩]
          env := envDropMap s.env })
    ∧ ∀ m ch u, s.seqQ = .dma (.g17 m) → (dmaOf s.xf.cs s).txCh = some ch → 
      ((s.xf.bpw = 1 ∧ u = .u8) ∨ (s.xf.bpw = 2 ∧ u = .u16) ∨ (s.xf.bpw = 4 ∧ u = .u32)) →
      (isActive s ch = true →
        exec (.transfer cs tx rx len bits hz) s = .next (raise .queue .dmaChannelBusy { s with xf := { s.xf with txd := m } }))
      ∧ (isActive s ch = false →
        exec (.transfer cs tx rx len bits hz) s = .next { s with
          seqQ := .dma (if s.xf.rx.isSome then .g18 else .g20)
          xf := { s.xf with txd := m }
          hist := s.hist ++ [⟨.queue, .dprog ch m s.params.dmaTxAddr u (s.xf.txn / s.xf.bpw)⟩] })

/-- 44_dma.md R246, R252: the receive buffer is mapped; where that fails the transmit mapping is unmapped and the engine exits
with `E_RES_MAP`; else the receive channel is programmed from the data register to the mapping with `n` words of
the width's unit (R242). Which lines share a step is the model's reading of 00_scope.md R11 (log 15). A device address is of
32 bits (log 31). -/
def Obligations.DmaReceiveProgrammed : Prop :=
  ∀ (cs : Cs) (tx rx : Option Word) (len : Nat) (bits hz : Option Nat) (b : Word) (s : State), s.xf.rx = some b →
    let n := s.xf.count * s.xf.bpw
    (s.seqQ = .dma .g18 →
      (nextMap s = none →
        execs 3 (.transfer cs tx rx len bits hz) s = .next { s with
          portQ := { s.portQ with res := 0xFFFFFFF5, busy := false }
          seqQ := .idle
          inUse := false
          done := true
          xf := { s.xf with mode := .none }
          hist := s.hist ++ eventsBy .queue
            [.mapping b n .rx none, .unmapping s.xf.txd s.xf.txn .tx, .res .queue 0xFFFFFFF5]
          env := envDropMap s.env })
      ∧ ∀ r, nextMap s = some r →
        exec (.transfer cs tx rx len bits hz) s = .next { s with
          seqQ := .dma (.g19 r)
          hist := s.hist ++ [⟨.queue, .mapping b n .rx (some r)⟩]
          env := envDropMap s.env })
    ∧ ∀ r ch u, s.seqQ = .dma (.g19 r) → (dmaOf s.xf.cs s).rxCh = some ch → 
      ((s.xf.bpw = 1 ∧ u = .u8) ∨ (s.xf.bpw = 2 ∧ u = .u16) ∨ (s.xf.bpw = 4 ∧ u = .u32)) →
      (isActive s ch = true →
        exec (.transfer cs tx rx len bits hz) s =
          .next (raise .queue .dmaChannelBusy { s with xf := { s.xf with rxd := r, rxn := n } }))
      ∧ (isActive s ch = false →
        exec (.transfer cs tx rx len bits hz) s = .next { s with
          seqQ := .dma .g20
          xf := { s.xf with rxd := r, rxn := n }
          hist := s.hist ++ [⟨.queue, .dprog ch s.params.dmaRxAddr r u s.xf.count⟩] })

/-- 44_dma.md R247: both latches are cleared and the transmit channel started, then the receive channel where receiving, then
`INT.DMAREQEN` set, in that order. -/
def Obligations.DmaStartOrder : Prop :=
  (∀ (ch x : ChanId) (s : State), isActive { s with active := insertChan ch s.active } x = (x == ch || isActive s x))
  ∧ ∀ (cs : Cs) (tx rx : Option Word) (len : Nat) (bits hz : Option Nat) (ch : ChanId) (s : State),
    s.seqQ = .dma .g20 → (dmaOf s.xf.cs s).txCh = some ch →
      let cleared := csSet s.dma s.xf.cs { dmaOf s.xf.cs s with txDone := false, rxDone := false }
      let t1 := { s.regrec.int with dmareqen := some true }
      (s.xf.rx = none →
        execs 3 (.transfer cs tx rx len bits hz) s = .next { s with
          seqQ := .dma (if s.xf.tx.isSome then .g24 else .g26)
          dma := cleared
          active := insertChan ch s.active
          regrec := { s.regrec with int := t1 }
          hist := s.hist ++ eventsBy .queue [.dstart ch, .rd .int (.int s.regrec.int), .wr .int (.int t1)] })
      ∧ ∀ b ch', s.xf.rx = some b → (dmaOf s.xf.cs s).rxCh = some ch' →
        execs 4 (.transfer cs tx rx len bits hz) s = .next { s with
          seqQ := .dma (if s.xf.tx.isSome then .g24 else .g25)
          dma := cleared
          active := insertChan ch' (insertChan ch s.active)
          regrec := { s.regrec with int := t1 }
          hist := s.hist ++ eventsBy .queue
            [.dstart ch, .dstart ch', .rd .int (.int s.regrec.int), .wr .int (.int t1)] }

/-- 44_dma.md R248, R249: at a completion wait port Q takes no step until the latch is set, then passes in one step; `Intr(Q)`,
admitted only while it holds, ends that one wait and stops no channel. That the interruption is admitted only while the
latch is false is the model's reading (log 16). -/
def Obligations.DmaWaits : Prop :=
  ∀ (cs : Cs) (tx rx : Option Word) (len : Nat) (bits hz : Option Nat) (s : State),
    (s.seqQ = .dma .g24 →
      let after := QSeq.dma (if s.xf.rx.isSome then .g25 else .g26)
      ((dmaOf s.xf.cs s).txDone = false →
        exec (.transfer cs tx rx len bits hz) s = .next s
          ∧ envIntr s = some { s with seqQ := after, hist := s.hist ++ [⟨.env, .intr⟩] })
      ∧ ((dmaOf s.xf.cs s).txDone = true →
        exec (.transfer cs tx rx len bits hz) s = .next { s with seqQ := after } ∧ envIntr s = none))
    ∧ (s.seqQ = .dma .g25 →
      ((dmaOf s.xf.cs s).rxDone = false →
        exec (.transfer cs tx rx len bits hz) s = .next s
          ∧ envIntr s = some { s with seqQ := .dma .g26, hist := s.hist ++ [⟨.env, .intr⟩] })
      ∧ ((dmaOf s.xf.cs s).rxDone = true →
        exec (.transfer cs tx rx len bits hz) s = .next { s with seqQ := .dma .g26 } ∧ envIntr s = none))
    ∧ (s.seqQ ≠ .dma .g24 → s.seqQ ≠ .dma .g25 → envIntr s = none)

/-- 44_dma.md R250, 20_memory.md R75: each buffer is unmapped with the size it was mapped with; in the step that unmaps the
receive buffer each of its bytes takes the oracle's next draw, in order, and no other byte changes; the draws are those laid
down, in order, then free values (20_memory.md R62; log 2). Which bytes an unmapping draws, and that those from 2^32 on do
not exist, is the model's reading (log 19). -/
def Obligations.DmaUnmaps : Prop :=
  (∀ e : Env,
    (∀ x r, e.bytes = x :: r → byteAt 0 e = x ∧ dropBytes 1 e = { e with bytes := r })
    ∧ (e.bytes = [] → byteAt 0 e = Config.freeByte e.draws ∧ dropBytes 1 e = { e with draws := e.draws + 1 })
    ∧ ∀ k, byteAt (k + 1) e = byteAt k (dropBytes 1 e) ∧ dropBytes (k + 1) e = dropBytes k (dropBytes 1 e))
  ∧ ∀ (cs : Cs) (tx rx : Option Word) (len : Nat) (bits hz : Option Nat) (s : State), s.seqQ = .dma .g26 →
    (s.xf.rx = none →
      exec (.transfer cs tx rx len bits hz) s = .next { s with
        seqQ := .x1
        hist := s.hist ++ [⟨.queue, .unmapping s.xf.txd s.xf.txn .tx⟩] })
    ∧ ∀ b, s.xf.rx = some b →
      ∃ t : State,
        execs 2 (.transfer cs tx rx len bits hz) s = .next t
          ∧ t = { s with
              seqQ := .x1
              mem := (scatter s.xf.rxn b.toNat s.mem s.env).1
              env := dropBytes s.xf.rxn s.env
              hist := s.hist ++ eventsBy .queue
                [.unmapping s.xf.txd s.xf.txn .tx, .unmapping s.xf.rxd s.xf.rxn .rx] }
          ∧ (scatter s.xf.rxn b.toNat s.mem s.env).2 = dropBytes s.xf.rxn s.env
          ∧ (Memory.wf s.mem = true → ∀ j, j < s.xf.rxn → b.toNat + j < 2 ^ 32 →
              memGet t.mem (b.toNat + j) = byteAt j s.env)
          ∧ ∀ x, (x < b.toNat ∨ b.toNat + s.xf.rxn ≤ x ∨ 2 ^ 32 ≤ x) → memGet t.mem x = memGet s.mem x

/-! ### Status decoder, fields and command words -/

/-- 45_error_decoder.md R280-R282: the decoder returns the first status bit that is set, in the order of R280: three on `V1`,
those and five more on `V2`; with none of them set it is success. -/
def Obligations.StatusDecodePriority : Prop :=
  ∀ (L : Layout) (v : Word),
    let three := [(L.loTimeout, Err.hwTimeout), (L.loDesync, Err.hwDesync), (L.loBiterr, Err.hwBiterr)]
    let five := [(L.loDlen, Err.hwDlen), (L.loParity, Err.hwParity), (L.loOvrn, Err.hwOverrun), (L.loTxint, Err.hwTxint),
      (L.loBufinit, Err.busy)]
    statusDecode L .v1 v = (three.find? (fun f => v.getLsbD f.1)).map Prod.snd
      ∧ statusDecode L .v2 v = ((three ++ five).find? (fun f => v.getLsbD f.1)).map Prod.snd

/-- 30_encoding.md R102: a field is extracted by its mask and low bit; inserting a value makes the field read as that value and
leaves every field that shares no bit with it as it was. 20_memory.md R70: an access of one byte is of the byte at `a`; one of two
bytes has `v[7:0]` at `a` and `v[15:8]` at `a + 1`; a word written reads back and every other byte is kept. -/
def Obligations.FieldReadAfterWrite : Prop :=
  (∀ (lo w : Nat) (v : Word) (x : BitVec w), lo + w ≤ 32 →
    getField lo w v = ((v &&& fieldMask lo w) >>> lo).setWidth w
      ∧ getField lo w (setField lo w x v) = x
      ∧ ∀ lo' w', (lo + w ≤ lo' ∨ lo' + w' ≤ lo) → getField lo' w' (setField lo w x v) = getField lo' w' v)
  ∧ ∀ (m : Memory) (a : Nat) (v : Half), Memory.wf m = true →
    (memRead m a 1 = (memGet m a).zeroExtend 16 ∧ memRead m a 2 = memGet m (a + 1) ++ memGet m a)
    ∧ (a + 1 ≤ 2 ^ 32 →
        Memory.wf (memWrite m a 1 v) = true ∧ memGet (memWrite m a 1 v) a = v.extractLsb' 0 8
        ∧ memRead (memWrite m a 1 v) a 1 = v &&& 0xFF ∧ ∀ x, x ≠ a → memGet (memWrite m a 1 v) x = memGet m x)
    ∧ (a + 2 ≤ 2 ^ 32 →
        Memory.wf (memWrite m a 2 v) = true
        ∧ memGet (memWrite m a 2 v) a = v.extractLsb' 0 8 ∧ memGet (memWrite m a 2 v) (a + 1) = v.extractLsb' 8 8
        ∧ memRead (memWrite m a 2 v) a 2 = v
        ∧ ∀ x, x ≠ a → x ≠ a + 1 → memGet (memWrite m a 2 v) x = memGet m x)

/-- 41_chipselect.md R170-R174: with a legal layout the three fields of a composed command word hold the data, the active
pattern (line `cs` asserted, every other line inactive) and the hold flag, and every other bit is 0; the base command word
is that with data 0; the deselect word holds every line inactive and nothing else; the release word is the base command
word with the hold bit 0. 30_encoding.md R101, R102: `RXEMPTY` and `TXFULL` of a word read from `BUF`, and `RXINT` of one read
from `FLG`, are its bits at the positions the layout gives those fields. -/
def Obligations.CommandWordFields : Prop :=
  (∀ (c : Params) (v : Word),
    bufRxEmpty c v = v.getLsbD c.layout.loRxempty
      ∧ bufTxFull c v = v.getLsbD c.layout.loTxfull
      ∧ flgRxint c v = v.getLsbD c.layout.loRxint)
  ∧ ∀ (c : Params) (cs : Cs) (d : Half), c.layout.wf c.numCs = true →
    let L := c.layout
    let outside := ~~~(fieldMask L.loTxdata 16 ||| fieldMask L.loCsnr 8 ||| fieldMask L.loHold 1)
    cmdBase c cs = compose c cs 0
    ∧ (getField L.loTxdata 16 (compose c cs d) = d
      ∧ (∀ i, i < 8 → (getField L.loCsnr 8 (compose c cs d)).getLsbD i = !decide (i = cs.toNat))
      ∧ getFlag L.loHold (compose c cs d) = c.csHold
      ∧ compose c cs d &&& outside = 0)
    ∧ (getField L.loTxdata 16 (deselectWord c) = 0 ∧ getField L.loCsnr 8 (deselectWord c) = 0xFF
      ∧ getFlag L.loHold (deselectWord c) = false ∧ deselectWord c &&& outside = 0)
    ∧ (releaseWord c cs = setField L.loHold 1 0 (cmdBase c cs)
      ∧ getFlag L.loHold (releaseWord c cs) = false
      ∧ getField L.loTxdata 16 (releaseWord c cs) = 0
      ∧ getField L.loCsnr 8 (releaseWord c cs) = getField L.loCsnr 8 (compose c cs d))

/-! ### Frequency change, suspend and resume (46_coordination.md) -/

/-- 46_coordination.md R300, R301: FREQ_PRE holds while `done` is false and otherwise passes and finishes with 0, changing
nothing else. Which lines share a step is the model's reading of 00_scope.md R11 (log 15). -/
def Obligations.FreqPreWaits : Prop :=
  (∀ s : State, s.seqF = .fp1 →
    (s.done = false → exec .freqPre s = .next s)
    ∧ (s.done = true → exec .freqPre s = .next { s with seqF := .fp2 })
    ∧ (s.done = true → execs 2 .freqPre s = .next { s with
        portF := { s.portF with res := 0, busy := false }
        seqF := .idle
        hist := s.hist ++ [⟨.freq, .res .freq 0⟩] }))
    ∧ ∀ s : State, s.seqF = .fp2 →
      exec .freqPre s = .next { s with
        portF := { s.portF with res := 0, busy := false }
        seqF := .idle
        hist := s.hist ++ [⟨.freq, .res .freq 0⟩] }

/-- 46_coordination.md R305, R306, 60_exceptions.md R357: FREQ_POST replaces `clk_rate` and rewrites the prescale of every
configured chip-select against it, in ascending order with the notes of floored values, and nothing else; without a
configured chip-select it is one step; where one asks for more than the new rate it raises `F_DIVIDER_DOMAIN` there, and the
rewritten prescales of the lower ones are kept. Which lines share a step is the model's reading of 00_scope.md R11 (log 15),
and the event of the fault has the form of log 13. -/
def Obligations.FreqPostRewritesDividers : Prop :=
  ∀ (newClk : Nat) (s : State), s.seqF = .fq1 →
    let rewritten := fun (n : Nat) (t : State) => ∀ c, fmtRec c t =
      if c ∈ configuredBelow n s then (dividerEffect newClk c s).1 else fmtRec c s
    ((∀ c sl, c.toNat < s.params.numCs → slaveOf c s = some sl → prescale newClk sl.hz ≠ none) →
      ∃ t : State,
        execs (2 * (configuredBelow 8 s).length + 1) (.freqPost newClk) s = .next t
          ∧ t = { s with
              portF := { s.portF with res := 0, busy := false }
              seqF := .idle
              clkRate := newClk
              regrec := { s.regrec with fmt := t.regrec.fmt }
              hist := s.hist ++ eventsBy .freq
                ((configuredBelow 8 s).flatMap (fun c => (dividerEffect newClk c s).2) ++ [.res .freq 0]) }
          ∧ rewritten 8 t)
    ∧ (∀ c sl p floored, slaveOf c s = some sl → prescale newClk sl.hz = some (p, floored) →
        dividerEffect newClk c s =
          ({ fmtRec c s with prescale := some (BitVec.ofNat 8 p) },
            (if floored then [.prescaleFloor c] else [])
              ++ [.rd (.fmt c) (.fmt (fmtRec c s)),
                  .wr (.fmt c) (.fmt { fmtRec c s with prescale := some (BitVec.ofNat 8 p) })]))
    ∧ ((∀ c, c.toNat < s.params.numCs → slaveOf c s = none) →
      exec (.freqPost newClk) s = .next { s with
        portF := { s.portF with res := 0, busy := false }
        seqF := .idle
        clkRate := newClk
        hist := s.hist ++ [⟨.freq, .res .freq 0⟩] })
    ∧ (∀ c sl, c.toNat < s.params.numCs → slaveOf c s = some sl → (sl.hz = 0 ∨ newClk < sl.hz) →
      (∀ c' sl', c'.toNat < c.toNat → slaveOf c' s = some sl' → prescale newClk sl'.hz ≠ none) →
        ∃ t : State,
          execs (2 * (configuredBelow c.toNat s).length + 1) (.freqPost newClk) s = .next t
            ∧ t = { s with
                seqF := t.seqF
                clkRate := newClk
                regrec := { s.regrec with fmt := t.regrec.fmt }
                fault := some .dividerDomain
                hist := s.hist ++ eventsBy .freq
                  ((configuredBelow c.toNat s).flatMap (fun c' => (dividerEffect newClk c' s).2)
                    ++ [.raised .dividerDomain]) }
            ∧ rewritten c.toNat t)
    ∧ ∀ c sl, c.toNat < s.params.numCs → slaveOf c s = some sl → (∀ c', c'.toNat < c.toNat → slaveOf c' s = none) →
      (sl.hz = 0 ∨ newClk < sl.hz) →
        exec (.freqPost newClk) s = .next (raise .freq .dividerDomain { s with clkRate := newClk })

/-- 46_coordination.md R310, R311, 70_reset_and_hazards.md R391: SUSPEND with `done` true disables the controller, then its
clock, sets `suspended` and finishes with 0; with `done` false it holds, and `Timeout(P)`, admitted there and nowhere
else, ends it with `E_WAIT_TIMEOUT` and no other effect. That a wait passes in a step of its own, and that the timeout
ends in P's next step, are the model's (logs 15, 17). -/
def Obligations.SuspendCompletes : Prop :=
  (∀ s : State, s.seqP = .sp1 →
    let g1 := { s.regrec.gcr with enable := some false }
    (s.done = true →
      envTimeout s = none
        ∧ execs 5 .suspend s = .next { s with
          portP := { s.portP with res := 0, busy := false }
          seqP := .idle
          clkOn := false
          suspended := true
          regrec := { s.regrec with gcr := g1 }
          hist := s.hist ++ eventsBy .power
            [.rd .gcr (.gcr s.regrec.gcr), .wr .gcr (.gcr g1), .clk false, .res .power 0] })
    ∧ (s.done = false →
      exec .suspend s = .next s
        ∧ ∃ u, envTimeout s = some u ∧ exec .suspend u = .next { s with
          portP := { s.portP with res := 0xFFFFFFF4, busy := false }
          seqP := .idle
          hist := s.hist ++ [⟨.env, .timeout⟩, ⟨.power, .res .power 0xFFFFFFF4⟩] }))
    ∧ (∀ s : State, s.seqP ≠ .sp1 → envTimeout s = none)
    ∧ ∀ s : State, s.seqP = .sp5 →
      exec .suspend s = .next { s with
        portP := { s.portP with res := 0, busy := false }
        seqP := .idle
        suspended := true
        hist := s.hist ++ [⟨.power, .res .power 0⟩] }

/-- 46_coordination.md R315: RESUME turns the clock on, then enables the controller, clears `suspended` and finishes with 0. -/
def Obligations.ResumeCompletes : Prop :=
  (∀ s : State, s.seqP = .rs1 →
    let g1 := { s.regrec.gcr with enable := some true }
    execs 4 .resume s = .next { s with
      portP := { s.portP with res := 0, busy := false }
      seqP := .idle
      clkOn := true
      suspended := false
      regrec := { s.regrec with gcr := g1 }
      hist := s.hist ++ eventsBy .power
        [.clk true, .rd .gcr (.gcr s.regrec.gcr), .wr .gcr (.gcr g1), .res .power 0] })
    ∧ ∀ s : State, s.seqP = .rs4 →
      exec .resume s = .next { s with
        portP := { s.portP with res := 0, busy := false }
        seqP := .idle
        suspended := false
        hist := s.hist ++ [⟨.power, .res .power 0⟩] }

/-! ### Interrupt handler and callbacks (60_exceptions.md, 44_dma.md) -/

/-- 60_exceptions.md R351: the handler consumes exactly one word of an armed interrupt-mode transfer, stores it at the receive
cursor, advances the cursor and disarms `IE_RX`; with `RXINT = 0` or not armed, looked at in the step after its one read of
`FLG`, it returns; its two guards raise their faults before anything is consumed. Which lines share a step is the model's
reading of 00_scope.md R11 (log 15). A word at the cursor inside the receive buffer is admitted; where the word is not
admitted the handler has no step (20_memory.md R71, 60_exceptions.md R337, log 11). The cursor does not wrap at 2^32 (log
28). -/
def Obligations.HandlerTakesOneWord : Prop :=
  ∀ s : State,
    (s.seqH = .h1 → handlerStep s = some { s with
      seqH := .h2 (wordAt 0 s.env)
      hist := s.hist ++ [⟨.handler, .rd .flg (.word (wordAt 0 s.env))⟩]
      env := dropWords 1 s.env })
    ∧ (∀ v, s.seqH = .h2 v → (flgRxint s.params v = false ∨ s.regrec.int.ieRx ≠ some true) →
      handlerStep s = some { s with seqH := .idle })
    ∧ (s.seqH = .h1 → (flgRxint s.params (wordAt 0 s.env) = false ∨ s.regrec.int.ieRx ≠ some true) →
      handlerSteps 2 s = some { s with
        seqH := .idle
        hist := s.hist ++ [⟨.handler, .rd .flg (.word (wordAt 0 s.env))⟩]
        env := dropWords 1 s.env })
    ∧ (s.seqH = .h1 → flgRxint s.params (wordAt 0 s.env) = true → s.regrec.int.ieRx = some true →
        s.xf.mode = .pioRxIrq → s.xf.rxCur + s.xf.bpw ≤ s.xf.rxEnd → admitted s s.xf.rxCur s.xf.bpw = true →
      let u := wordAt 1 s.env
      let d := getField s.params.layout.loRxdata 16 u
      let t1 := { s.regrec.int with ieRx := some false }
      handlerSteps 5 s = some { s with
        seqH := .idle
        mem := memWrite s.mem s.xf.rxCur s.xf.bpw d
        xf := { s.xf with rxCur := s.xf.rxCur + s.xf.bpw }
        regrec := { s.regrec with int := t1 }
        hist := s.hist ++ eventsBy .handler
          [.rd .flg (.word (wordAt 0 s.env)), .rd .buf (.word u), .mwr s.xf.rxCur s.xf.bpw (lowBytes s.xf.bpw d),
           .rd .int (.int s.regrec.int), .wr .int (.int t1)]
        env := dropWords 2 s.env })
    ∧ (∀ b, s.xf.rx = some b → b.toNat ≤ s.xf.rxCur → s.xf.rxCur + s.xf.bpw ≤ b.toNat + s.xf.len →
        b.toNat + s.xf.len ≤ 2 ^ 32 → (s.xf.bpw = 1 ∨ (s.xf.bpw = 2 ∧ s.xf.rxCur % 2 = 0)) →
          admitted s s.xf.rxCur s.xf.bpw = true)
    ∧ (∀ d, s.seqH = .h3 d → admitted s s.xf.rxCur s.xf.bpw = false → handlerStep s = none)
    ∧ ∀ v, s.seqH = .h2 v → flgRxint s.params v = true → s.regrec.int.ieRx = some true →
      (s.xf.mode ≠ .pioRxIrq → handlerStep s = some (raise .handler .strayReceive s))
      ∧ (s.xf.mode = .pioRxIrq → s.xf.rxEnd < s.xf.rxCur + s.xf.bpw →
          handlerStep s = some (raise .handler .rxCursorOverflow s))

/-- 44_dma.md R262: a callback stops its channel, cleans it where the status is not clean, sets its direction's latch with the
read of `INT`, clears `DMAREQEN` and returns. -/
def Obligations.CallbackRuns : Prop :=
  ∀ (d : Dir) (c : Cs) (ch : ChanId) (s : State),
    let a := Agent.callback d
    let t1 := { s.regrec.int with dmareqen := some false }
    let latched := csSet s.dma c (match d with
      | .tx => { dmaOf c s with txDone := true }
      | .rx => { dmaOf c s with rxDone := true })
    let after := fun es : List Ev => goCb d .idle { s with
      active := s.active.filter (fun x => x != ch)
      dma := latched
      regrec := { s.regrec with int := t1 }
      hist := s.hist ++ eventsBy a es }
    (seqCb d s = .k1 c ch .clean →
      callbackSteps d 3 s = some (after [.dstop ch, .rd .int (.int s.regrec.int), .wr .int (.int t1)]))
    ∧ (seqCb d s = .k1 c ch .error →
      callbackSteps d 4 s = some (after [.dstop ch, .dclean ch, .rd .int (.int s.regrec.int), .wr .int (.int t1)]))

/-- 44_dma.md R263: two callbacks of one transfer, their steps in any order, leave `DMAREQEN` 0, both channels inactive and both
latches true, no other agent stepping meanwhile. -/
def Obligations.CallbackPairInAnyOrder : Prop :=
  ∀ (c : Cs) (ch ch' : ChanId) (st st' : Completion) (order : List Dir) (s : State),
    s.seqTx = .k1 c ch st → s.seqRx = .k1 c ch' st' →
    (callbackSchedule order s).seqTx = .idle → (callbackSchedule order s).seqRx = .idle →
      let t := callbackSchedule order s
      t.regrec.int.dmareqen = some false
        ∧ isActive t ch = false ∧ isActive t ch' = false
        ∧ (dmaOf c t).txDone = true ∧ (dmaOf c t).rxDone = true

/-- 60_exceptions.md R345-R347, 44_dma.md R261: `Irq` is admitted exactly while the handler is idle and some interrupt-source
enable is 1 or unknown; `DmaDone(ch, st)` exactly while `ch` is active and its callback idle, and it starts that callback,
for the one entry that holds `ch`; a channel no entry holds completes nothing. Which entry a channel held twice belongs to
is the model's choice (log 23). -/
def Obligations.EventAdmission : Prop :=
  (∀ s : State,
    let enables := [s.regrec.int.ieDlen, s.regrec.int.ieTimeout, s.regrec.int.ieParity, s.regrec.int.ieDesync,
      s.regrec.int.ieBiterr, s.regrec.int.ieOvrn, s.regrec.int.ieRx, s.regrec.int.ieTx]
    ((s.seqH = .idle ∧ ∃ e ∈ enables, e ≠ some false) →
      envIrq s = some { s with seqH := .h1, hist := s.hist ++ [⟨.env, .irq⟩] })
    ∧ ((s.seqH ≠ .idle ∨ ∀ e ∈ enables, e = some false) → envIrq s = none))
  ∧ (∀ (c : Cs) (d : Dir) (ch : ChanId) (st : Completion) (s : State), channelOwner ch s = some (c, d) →
    (match d with
      | .tx => (dmaOf c s).txCh
      | .rx => (dmaOf c s).rxCh) = some ch
    ∧ (isActive s ch = true → seqCb d s = .idle →
        envDmaDone ch st s = some (goCb d (.k1 c ch st) { s with hist := s.hist ++ [⟨.env, .dmaDone ch st⟩] }))
    ∧ ((isActive s ch = false ∨ seqCb d s ≠ .idle) → envDmaDone ch st s = none))
  ∧ ∀ (c : Cs) (ch : ChanId) (st : Completion) (s : State),
    let event : List Event := [⟨.env, .dmaDone ch st⟩]
    ((dmaOf c s).rxCh = some ch → (∀ c', (dmaOf c' s).txCh ≠ some ch) → (∀ c', c' ≠ c → (dmaOf c' s).rxCh ≠ some ch) →
      envDmaDone ch st s =
        if isActive s ch = true ∧ s.seqRx = .idle then some { s with seqRx := .k1 c ch st, hist := s.hist ++ event } else none)
    ∧ ((dmaOf c s).txCh = some ch → (∀ c', (dmaOf c' s).rxCh ≠ some ch) → (∀ c', c' ≠ c → (dmaOf c' s).txCh ≠ some ch) →
      envDmaDone ch st s =
        if isActive s ch = true ∧ s.seqTx = .idle then some { s with seqTx := .k1 c ch st, hist := s.hist ++ event } else none)
    ∧ ((∀ c', (dmaOf c' s).rxCh ≠ some ch ∧ (dmaOf c' s).txCh ≠ some ch) → envDmaDone ch st s = none)

/-! ### Frames -/

/-- SETUP's step answers a next state that differs only in port Q's `RES` and `BUSY`, Q's position, the record, the DMA entry
and the format register of `cs`, the fault, the history and the oracle's answers taken; every byte of memory reads as before. -/
def Obligations.SetupFrame : Prop :=
  ∀ (cs : Cs) (mode : Byte) (bits maxHz : Nat) (s : State), ∃ t : State,
    exec (.setup cs mode bits maxHz) s = .next t
      ∧ t = { s with
          portQ := { s.portQ with res := t.portQ.res, busy := t.portQ.busy }
          seqQ := t.seqQ
          regrec := { s.regrec with fmt := t.regrec.fmt }
          slave := t.slave
          dma := t.dma
          fault := t.fault
          hist := t.hist
          env := { s.env with allocs := t.env.allocs, draws := t.env.draws } }
      ∧ (∀ c, c ≠ cs → slaveOf c t = slaveOf c s ∧ dmaOf c t = dmaOf c s ∧ fmtRec c t = fmtRec c s)
      ∧ (dmaOf cs t).txDone = (dmaOf cs s).txDone ∧ (dmaOf cs t).rxDone = (dmaOf cs s).rxDone
      ∧ ∀ a, memGet t.mem a = memGet s.mem a

/-- TRANSFER's step answers a next state in which `suspended`, the clock, `DEF`, the other ports and agents, every channel of the
tables, the declared values and modes, and the records and format registers of the other chip-selects are as before; every byte
of memory outside `transferStores` reads as before. -/
def Obligations.TransferFrame : Prop :=
  ∀ (cs : Cs) (tx rx : Option Word) (len : Nat) (bits hz : Option Nat) (s : State), ∃ t : State,
    exec (.transfer cs tx rx len bits hz) s = .next t
      ∧ t = { s with
          portQ := { s.portQ with res := t.portQ.res, busy := t.portQ.busy }
          seqQ := t.seqQ
          inUse := t.inUse
          done := t.done
          regrec := { t.regrec with dflt := s.regrec.dflt }
          slave := t.slave
          dma := t.dma
          active := t.active
          xf := t.xf
          fault := t.fault
          hist := t.hist
          mem := t.mem
          env := { t.env with turns := s.env.turns, allocs := s.env.allocs } }
      ∧ (∀ c, c ≠ cs → slaveOf c t = slaveOf c s ∧ fmtRec c t = fmtRec c s)
      ∧ (slaveOf cs t).map (fun r => (r.declBits, r.declHz, r.mode)) = (slaveOf cs s).map (fun r => (r.declBits, r.declHz, r.mode))
      ∧ (∀ c, (dmaOf c t).rxCh = (dmaOf c s).rxCh ∧ (dmaOf c t).txCh = (dmaOf c s).txCh)
      ∧ (∀ c, c ≠ s.xf.cs → dmaOf c t = dmaOf c s)
      ∧ (transferStores s = none → ∀ x, memGet t.mem x = memGet s.mem x)
      ∧ ∀ a n, transferStores s = some (a, n) → ∀ x, (x < a ∨ a + n ≤ x) → memGet t.mem x = memGet s.mem x

/-- CLEANUP's step answers a next state that differs only in port Q's `RES` and `BUSY`, Q's position, the channels of `cs`, the
fault and the history; every register and every byte of memory is as before. -/
def Obligations.CleanupFrame : Prop :=
  ∀ (cs : Cs) (s : State), ∃ t : State,
    exec (.cleanup cs) s = .next t
      ∧ t = { s with
          portQ := { s.portQ with res := t.portQ.res, busy := t.portQ.busy }
          seqQ := t.seqQ
          dma := t.dma
          fault := t.fault
          hist := t.hist }
      ∧ (∀ c, c ≠ cs → dmaOf c t = dmaOf c s)
      ∧ (dmaOf cs t).txDone = (dmaOf cs s).txDone ∧ (dmaOf cs t).rxDone = (dmaOf cs s).rxDone
      ∧ ∀ a, memGet t.mem a = memGet s.mem a

/-- CHIPSELECT's step answers a next state that differs only in port Q's `RES` and `BUSY`, Q's position, `DEF`, `DAT`, the
fault, the history and the oracle's answers taken; every byte of memory reads as before. -/
def Obligations.ChipselectFrame : Prop :=
  ∀ (cs : Cs) (act : Bool) (s : State), ∃ t : State,
    exec (.chipselect cs act) s = .next t
      ∧ t = { s with
          portQ := { s.portQ with res := t.portQ.res, busy := t.portQ.busy }
          seqQ := t.seqQ
          regrec := { s.regrec with dflt := t.regrec.dflt, dat := t.regrec.dat }
          fault := t.fault
          hist := t.hist
          env := { s.env with words := t.env.words, draws := t.env.draws } }
      ∧ ∀ a, memGet t.mem a = memGet s.mem a

/-- The steps of FREQ_PRE, FREQ_POST, SUSPEND and RESUME answer next states: FREQ_PRE changes only its port, position and the
history; FREQ_POST also `clk_rate`, the fault, and at a write step the one format register, to the record read with
`PRESCALE` replaced; SUSPEND and RESUME also `GCR`, the clock and `suspended`, so no table, format register or channel
(46_coordination.md R316); every byte of memory reads as before. -/
def Obligations.CoordinationFrame : Prop :=
  (∀ s : State, ∃ t : State, exec .freqPre s = .next t
    ∧ t = { s with
        portF := { s.portF with res := t.portF.res, busy := t.portF.busy }
        seqF := t.seqF
        hist := t.hist }
    ∧ ∀ a, memGet t.mem a = memGet s.mem a)
  ∧ (∀ (newClk : Nat) (s : State), ∃ t : State, exec (.freqPost newClk) s = .next t
    ∧ t = { s with
        portF := { s.portF with res := t.portF.res, busy := t.portF.busy }
        seqF := t.seqF
        clkRate := t.clkRate
        regrec := { s.regrec with fmt := t.regrec.fmt }
        fault := t.fault
        hist := t.hist }
    ∧ (∀ c, (∀ t0 p, s.seqF ≠ .fqW c t0 p) → fmtRec c t = fmtRec c s)
    ∧ (∀ c t0 p, s.seqF = .fqW c t0 p → fmtRec c t = { t0 with prescale := some (BitVec.ofNat 8 p) })
    ∧ ∀ a, memGet t.mem a = memGet s.mem a)
  ∧ ∀ (i : Instr) (s : State), i = .suspend ∨ i = .resume → ∃ t : State, exec i s = .next t
    ∧ t = { s with
        portP := { s.portP with res := t.portP.res, busy := t.portP.busy }
        seqP := t.seqP
        suspended := t.suspended
        clkOn := t.clkOn
        regrec := { s.regrec with gcr := t.regrec.gcr }
        hist := t.hist }
    ∧ ∀ a, memGet t.mem a = memGet s.mem a

/-! ### Invariants of every step -/

/-- 10_state.md R35, R24, R25: `in_use = ¬done`, `in_use` and `xf.mode` say whether a transfer engine runs, a port is busy exactly
while its agent runs, and Q stands at a position of the command in its registers: every step keeps this. -/
def Obligations.ControlInvariantKept : Prop :=
  ∀ s t : State, controlInv s = true → step s = .next t → controlInv t = true

/-- 10_state.md R35: the channels of a chip-select are both allocated or both not, and a configured chip-select's widths and
frequencies are in range with `bpw` that of `bits`: every step keeps this. -/
def Obligations.TablesInvariantKept : Prop :=
  ∀ s t : State, dmaInv s = true → slavesInv s = true → step s = .next t → dmaInv t = true ∧ slavesInv t = true

/-- 10_state.md R35: "Every prescale value the engine writes lies in `[2, 255]`": every step keeps the format registers' prescale
values at 2 or above. -/
def Obligations.PrescaleInvariantKept : Prop :=
  ∀ s t : State, prescaleInv s = true → step s = .next t → prescaleInv t = true

/-- Host memory keeps its canonical form, the list of active channels ascends, and the parameters are constant (logs 1, 9, 10). -/
def Obligations.FormsInvariantKept : Prop :=
  ∀ s t : State, formsInv s = true → step s = .next t → formsInv t = true ∧ t.params = s.params

/-- The invariants hold in the state right after reset, whatever the parameters. -/
def Obligations.InvariantsAtReset : Prop :=
  (∀ c : Params,
    let s := State.resetWith c
    controlInv s = true ∧ dmaInv s = true ∧ slavesInv s = true ∧ prescaleInv s = true ∧ formsInv s = true)
    ∧ State.reset = State.resetWith Config.params

end
end

