-- ==== Sys2Proof/Laws/Memory.lean ====
section
/-!
SUPPORT. Host memory: reads after writes, frames, and that every memory operation keeps the canonical form.
-/

namespace Sys2Proof.Machine

open Sys2Proof

theorem memGet_memCons_other (m : Memory) {a x : Nat} (b : Byte) (h : x ≠ a) :
    memGet (memCons a b m) x = memGet m x := by
  unfold memCons
  split
  · rfl
  · simp [memGet, Ne.symm h]

theorem memGet_memSet_other (m : Memory) {a x : Nat} (b : Byte) (h : x ≠ a) :
    memGet (memSet m a b) x = memGet m x := by
  induction m with
  | nil => exact memGet_memCons_other [] b h
  | cons e m ih =>
    obtain ⟨k, c⟩ := e
    simp only [memSet]
    split
    · exact memGet_memCons_other _ b h
    · split
      · rename_i _ hk
        subst hk
        rw [memGet_memCons_other m b h]
        simp [memGet, Ne.symm h]
      · simp only [memGet, ih]

theorem Memory.wfFrom_weaken {m : Memory} {j k : Nat} (h : Memory.wfFrom k m = true) (hjk : j ≤ k) :
    Memory.wfFrom j m = true := by
  cases m with
  | nil => rfl
  | cons e m =>
    obtain ⟨a, b⟩ := e
    simp only [Memory.wfFrom, Bool.and_eq_true, decide_eq_true_eq] at h ⊢
    exact ⟨⟨⟨Nat.le_trans hjk h.1.1.1, h.1.1.2⟩, h.1.2⟩, h.2⟩

theorem memGet_below {m : Memory} {k a : Nat} (h : Memory.wfFrom k m = true) (ha : a < k) :
    memGet m a = Memory.blank := by
  induction m generalizing k with
  | nil => rfl
  | cons e m ih =>
    obtain ⟨j, b⟩ := e
    simp only [Memory.wfFrom, Bool.and_eq_true, decide_eq_true_eq] at h
    have hj : j ≠ a := by omega
    simp only [memGet, hj, if_false]
    exact ih h.2 (by omega)

theorem memGet_memCons_same {m : Memory} {k a : Nat} (b : Byte) (h : Memory.wfFrom k m = true) (ha : a < k) :
    memGet (memCons a b m) a = b := by
  unfold memCons
  split
  · rename_i hb
    rw [memGet_below h ha, hb]
  · simp [memGet]

theorem memGet_memSet_same {m : Memory} {k : Nat} (a : Nat) (b : Byte) (h : Memory.wfFrom k m = true) :
    memGet (memSet m a b) a = b := by
  induction m generalizing k with
  | nil => exact memGet_memCons_same (k := a + 1) b rfl (Nat.lt_succ_self a)
  | cons e m ih =>
    obtain ⟨j, c⟩ := e
    have h' := h
    simp only [Memory.wfFrom, Bool.and_eq_true, decide_eq_true_eq] at h
    simp only [memSet]
    split
    · rename_i hlt
      refine memGet_memCons_same (k := j) b ?_ hlt
      simp only [Memory.wfFrom, Bool.and_eq_true, decide_eq_true_eq]
      exact ⟨⟨⟨Nat.le_refl j, h.1.1.2⟩, h.1.2⟩, h.2⟩
    · split
      · rename_i hk
        subst hk
        exact memGet_memCons_same b h.2 (Nat.lt_succ_self a)
      · rename_i hk
        simp only [memGet, Ne.symm hk, if_false]
        exact ih h.2

theorem memCons_wfFrom {m : Memory} {k a : Nat} (b : Byte) (h : Memory.wfFrom (a + 1) m = true) (hk : k ≤ a)
    (ha : a < 2 ^ 32) : Memory.wfFrom k (memCons a b m) = true := by
  unfold memCons
  split
  · exact Memory.wfFrom_weaken h (by omega)
  · rename_i hb
    simp only [Memory.wfFrom, Bool.and_eq_true, decide_eq_true_eq, bne_iff_ne]
    exact ⟨⟨⟨hk, ha⟩, hb⟩, h⟩

theorem memSet_wfFrom {m : Memory} {k a : Nat} (b : Byte) (h : Memory.wfFrom k m = true) (hk : k ≤ a)
    (ha : a < 2 ^ 32) : Memory.wfFrom k (memSet m a b) = true := by
  induction m generalizing k with
  | nil => exact memCons_wfFrom b rfl hk ha
  | cons e m ih =>
    obtain ⟨j, c⟩ := e
    simp only [Memory.wfFrom, Bool.and_eq_true, decide_eq_true_eq] at h
    simp only [memSet]
    split
    · refine memCons_wfFrom b ?_ hk ha
      simp only [Memory.wfFrom, Bool.and_eq_true, decide_eq_true_eq]
      exact ⟨⟨⟨by omega, h.1.1.2⟩, h.1.2⟩, h.2⟩
    · split
      · rename_i hj
        subst hj
        exact memCons_wfFrom b h.2 hk ha
      · simp only [Memory.wfFrom, Bool.and_eq_true, decide_eq_true_eq]
        exact ⟨⟨⟨h.1.1.1, h.1.1.2⟩, h.1.2⟩, ih h.2 (by omega)⟩

theorem memSet_wf {m : Memory} {a : Nat} (b : Byte) (h : Memory.wf m = true) (ha : a < 2 ^ 32) :
    Memory.wf (memSet m a b) = true :=
  memSet_wfFrom b h (Nat.zero_le a) ha

theorem memWrite_wf {m : Memory} {a n : Nat} (v : Half) (h : Memory.wf m = true) (hn : 1 ≤ n)
    (ha : n = 1 ∧ a < 2 ^ 32 ∨ a + 2 ≤ 2 ^ 32) : Memory.wf (memWrite m a n v) = true := by
  unfold memWrite
  split
  · exact memSet_wf _ h (by omega)
  · exact memSet_wf _ (memSet_wf _ h (by omega)) (by omega)

theorem memGet_memWrite_other (m : Memory) {a n x : Nat} (v : Half) (hn : n = 1 ∨ n = 2) (h : x < a ∨ a + n ≤ x) :
    memGet (memWrite m a n v) x = memGet m x := by
  unfold memWrite
  obtain rfl | rfl := hn
  · rw [if_pos rfl]
    exact memGet_memSet_other m _ (by omega)
  · rw [if_neg (by decide)]
    rw [memGet_memSet_other _ _ (by omega), memGet_memSet_other _ _ (by omega)]

theorem memRead_memWrite_one {m : Memory} (a : Nat) (v : Half) (h : Memory.wf m = true) :
    memRead (memWrite m a 1 v) a 1 = v &&& 0xFF := by
  simp only [memRead, memWrite, if_true, memGet_memSet_same a _ h]
  ext i hi
  have h8 : (0xFF : Half) = (BitVec.allOnes 8).setWidth 16 := rfl
  simp only [h8, BitVec.truncate_eq_setWidth, BitVec.getElem_setWidth, BitVec.getLsbD_extractLsb', BitVec.getElem_and,
    BitVec.getLsbD_allOnes, Nat.zero_add, BitVec.getLsbD_eq_getElem hi]
  exact Bool.and_comm _ _

theorem memRead_memWrite_two {m : Memory} {a : Nat} (v : Half) (h : Memory.wf m = true) (ha : a < 2 ^ 32) :
    memRead (memWrite m a 2 v) a 2 = v := by
  simp only [memRead, memWrite]
  rw [if_neg (by decide), if_neg (by decide), memGet_memSet_same (a + 1) _ (memSet_wf _ h ha),
    memGet_memSet_other _ _ (Nat.ne_of_lt (Nat.lt_succ_self a)), memGet_memSet_same a _ h]
  ext i hi
  simp only [BitVec.getElem_append, BitVec.getElem_extractLsb', Nat.zero_add]
  split
  · exact BitVec.getLsbD_eq_getElem hi
  · have e : 8 + (i - 8) = i := by omega
    rw [e]
    exact BitVec.getLsbD_eq_getElem hi

theorem scatter_wf (n a : Nat) {m : Memory} (e : Env) (h : Memory.wf m = true) :
    Memory.wf (scatter n a m e).1 = true := by
  induction n generalizing a m e with
  | zero => exact h
  | succ n ih =>
    simp only [scatter]
    refine ih (a + 1) _ ?_
    split
    · exact memSet_wf _ h ‹_›
    · exact h

theorem memGet_scatter_other (n a : Nat) (m : Memory) (e : Env) {x : Nat} (h : x < a ∨ a + n ≤ x) :
    memGet (scatter n a m e).1 x = memGet m x := by
  induction n generalizing a m e with
  | zero => rfl
  | succ n ih =>
    simp only [scatter]
    rw [ih (a + 1) _ _ (by omega)]
    split
    · exact memGet_memSet_other m _ (by omega)
    · rfl

theorem memory_reset_wf (c : Params) : Memory.wf (State.resetWith c).mem = true := rfl

end Sys2Proof.Machine
end

