-- ==== Sys2Proof/Laws/State.lean ====
section
/-!
SUPPORT. One lemma per field per update of the state: what each named operation leaves in each field.
-/

namespace Sys2Proof.Machine

open Sys2Proof

/-! ### record -/

@[simp] theorem record_params (a : Agent) (e : Ev) (s : State) : (record a e s).params = s.params := rfl
@[simp] theorem record_portQ (a : Agent) (e : Ev) (s : State) : (record a e s).portQ = s.portQ := rfl
@[simp] theorem record_portF (a : Agent) (e : Ev) (s : State) : (record a e s).portF = s.portF := rfl
@[simp] theorem record_portP (a : Agent) (e : Ev) (s : State) : (record a e s).portP = s.portP := rfl
@[simp] theorem record_seqQ (a : Agent) (e : Ev) (s : State) : (record a e s).seqQ = s.seqQ := rfl
@[simp] theorem record_seqF (a : Agent) (e : Ev) (s : State) : (record a e s).seqF = s.seqF := rfl
@[simp] theorem record_seqP (a : Agent) (e : Ev) (s : State) : (record a e s).seqP = s.seqP := rfl
@[simp] theorem record_seqH (a : Agent) (e : Ev) (s : State) : (record a e s).seqH = s.seqH := rfl
@[simp] theorem record_seqTx (a : Agent) (e : Ev) (s : State) : (record a e s).seqTx = s.seqTx := rfl
@[simp] theorem record_seqRx (a : Agent) (e : Ev) (s : State) : (record a e s).seqRx = s.seqRx := rfl
@[simp] theorem record_inUse (a : Agent) (e : Ev) (s : State) : (record a e s).inUse = s.inUse := rfl
@[simp] theorem record_done (a : Agent) (e : Ev) (s : State) : (record a e s).done = s.done := rfl
@[simp] theorem record_suspended (a : Agent) (e : Ev) (s : State) : (record a e s).suspended = s.suspended := rfl
@[simp] theorem record_clkOn (a : Agent) (e : Ev) (s : State) : (record a e s).clkOn = s.clkOn := rfl
@[simp] theorem record_clkRate (a : Agent) (e : Ev) (s : State) : (record a e s).clkRate = s.clkRate := rfl
@[simp] theorem record_regrec (a : Agent) (e : Ev) (s : State) : (record a e s).regrec = s.regrec := rfl
@[simp] theorem record_slave (a : Agent) (e : Ev) (s : State) : (record a e s).slave = s.slave := rfl
@[simp] theorem record_dma (a : Agent) (e : Ev) (s : State) : (record a e s).dma = s.dma := rfl
@[simp] theorem record_active (a : Agent) (e : Ev) (s : State) : (record a e s).active = s.active := rfl
@[simp] theorem record_xf (a : Agent) (e : Ev) (s : State) : (record a e s).xf = s.xf := rfl
@[simp] theorem record_fault (a : Agent) (e : Ev) (s : State) : (record a e s).fault = s.fault := rfl
@[simp] theorem record_hist (a : Agent) (e : Ev) (s : State) : (record a e s).hist = s.hist ++ [⟨a, e⟩] := rfl
@[simp] theorem record_mem (a : Agent) (e : Ev) (s : State) : (record a e s).mem = s.mem := rfl
@[simp] theorem record_env (a : Agent) (e : Ev) (s : State) : (record a e s).env = s.env := rfl

/-! ### goQ -/

@[simp] theorem goQ_params (l : QSeq) (s : State) : (goQ l s).params = s.params := rfl
@[simp] theorem goQ_portQ (l : QSeq) (s : State) : (goQ l s).portQ = s.portQ := rfl
@[simp] theorem goQ_portF (l : QSeq) (s : State) : (goQ l s).portF = s.portF := rfl
@[simp] theorem goQ_portP (l : QSeq) (s : State) : (goQ l s).portP = s.portP := rfl
@[simp] theorem goQ_seqQ (l : QSeq) (s : State) : (goQ l s).seqQ = l := rfl
@[simp] theorem goQ_seqF (l : QSeq) (s : State) : (goQ l s).seqF = s.seqF := rfl
@[simp] theorem goQ_seqP (l : QSeq) (s : State) : (goQ l s).seqP = s.seqP := rfl
@[simp] theorem goQ_seqH (l : QSeq) (s : State) : (goQ l s).seqH = s.seqH := rfl
@[simp] theorem goQ_seqTx (l : QSeq) (s : State) : (goQ l s).seqTx = s.seqTx := rfl
@[simp] theorem goQ_seqRx (l : QSeq) (s : State) : (goQ l s).seqRx = s.seqRx := rfl
@[simp] theorem goQ_inUse (l : QSeq) (s : State) : (goQ l s).inUse = s.inUse := rfl
@[simp] theorem goQ_done (l : QSeq) (s : State) : (goQ l s).done = s.done := rfl
@[simp] theorem goQ_suspended (l : QSeq) (s : State) : (goQ l s).suspended = s.suspended := rfl
@[simp] theorem goQ_clkOn (l : QSeq) (s : State) : (goQ l s).clkOn = s.clkOn := rfl
@[simp] theorem goQ_clkRate (l : QSeq) (s : State) : (goQ l s).clkRate = s.clkRate := rfl
@[simp] theorem goQ_regrec (l : QSeq) (s : State) : (goQ l s).regrec = s.regrec := rfl
@[simp] theorem goQ_slave (l : QSeq) (s : State) : (goQ l s).slave = s.slave := rfl
@[simp] theorem goQ_dma (l : QSeq) (s : State) : (goQ l s).dma = s.dma := rfl
@[simp] theorem goQ_active (l : QSeq) (s : State) : (goQ l s).active = s.active := rfl
@[simp] theorem goQ_xf (l : QSeq) (s : State) : (goQ l s).xf = s.xf := rfl
@[simp] theorem goQ_fault (l : QSeq) (s : State) : (goQ l s).fault = s.fault := rfl
@[simp] theorem goQ_hist (l : QSeq) (s : State) : (goQ l s).hist = s.hist := rfl
@[simp] theorem goQ_mem (l : QSeq) (s : State) : (goQ l s).mem = s.mem := rfl
@[simp] theorem goQ_env (l : QSeq) (s : State) : (goQ l s).env = s.env := rfl

/-! ### goF -/

@[simp] theorem goF_params (l : FSeq) (s : State) : (goF l s).params = s.params := rfl
@[simp] theorem goF_portQ (l : FSeq) (s : State) : (goF l s).portQ = s.portQ := rfl
@[simp] theorem goF_portF (l : FSeq) (s : State) : (goF l s).portF = s.portF := rfl
@[simp] theorem goF_portP (l : FSeq) (s : State) : (goF l s).portP = s.portP := rfl
@[simp] theorem goF_seqQ (l : FSeq) (s : State) : (goF l s).seqQ = s.seqQ := rfl
@[simp] theorem goF_seqF (l : FSeq) (s : State) : (goF l s).seqF = l := rfl
@[simp] theorem goF_seqP (l : FSeq) (s : State) : (goF l s).seqP = s.seqP := rfl
@[simp] theorem goF_seqH (l : FSeq) (s : State) : (goF l s).seqH = s.seqH := rfl
@[simp] theorem goF_seqTx (l : FSeq) (s : State) : (goF l s).seqTx = s.seqTx := rfl
@[simp] theorem goF_seqRx (l : FSeq) (s : State) : (goF l s).seqRx = s.seqRx := rfl
@[simp] theorem goF_inUse (l : FSeq) (s : State) : (goF l s).inUse = s.inUse := rfl
@[simp] theorem goF_done (l : FSeq) (s : State) : (goF l s).done = s.done := rfl
@[simp] theorem goF_suspended (l : FSeq) (s : State) : (goF l s).suspended = s.suspended := rfl
@[simp] theorem goF_clkOn (l : FSeq) (s : State) : (goF l s).clkOn = s.clkOn := rfl
@[simp] theorem goF_clkRate (l : FSeq) (s : State) : (goF l s).clkRate = s.clkRate := rfl
@[simp] theorem goF_regrec (l : FSeq) (s : State) : (goF l s).regrec = s.regrec := rfl
@[simp] theorem goF_slave (l : FSeq) (s : State) : (goF l s).slave = s.slave := rfl
@[simp] theorem goF_dma (l : FSeq) (s : State) : (goF l s).dma = s.dma := rfl
@[simp] theorem goF_active (l : FSeq) (s : State) : (goF l s).active = s.active := rfl
@[simp] theorem goF_xf (l : FSeq) (s : State) : (goF l s).xf = s.xf := rfl
@[simp] theorem goF_fault (l : FSeq) (s : State) : (goF l s).fault = s.fault := rfl
@[simp] theorem goF_hist (l : FSeq) (s : State) : (goF l s).hist = s.hist := rfl
@[simp] theorem goF_mem (l : FSeq) (s : State) : (goF l s).mem = s.mem := rfl
@[simp] theorem goF_env (l : FSeq) (s : State) : (goF l s).env = s.env := rfl

/-! ### goP -/

@[simp] theorem goP_params (l : PSeq) (s : State) : (goP l s).params = s.params := rfl
@[simp] theorem goP_portQ (l : PSeq) (s : State) : (goP l s).portQ = s.portQ := rfl
@[simp] theorem goP_portF (l : PSeq) (s : State) : (goP l s).portF = s.portF := rfl
@[simp] theorem goP_portP (l : PSeq) (s : State) : (goP l s).portP = s.portP := rfl
@[simp] theorem goP_seqQ (l : PSeq) (s : State) : (goP l s).seqQ = s.seqQ := rfl
@[simp] theorem goP_seqF (l : PSeq) (s : State) : (goP l s).seqF = s.seqF := rfl
@[simp] theorem goP_seqP (l : PSeq) (s : State) : (goP l s).seqP = l := rfl
@[simp] theorem goP_seqH (l : PSeq) (s : State) : (goP l s).seqH = s.seqH := rfl
@[simp] theorem goP_seqTx (l : PSeq) (s : State) : (goP l s).seqTx = s.seqTx := rfl
@[simp] theorem goP_seqRx (l : PSeq) (s : State) : (goP l s).seqRx = s.seqRx := rfl
@[simp] theorem goP_inUse (l : PSeq) (s : State) : (goP l s).inUse = s.inUse := rfl
@[simp] theorem goP_done (l : PSeq) (s : State) : (goP l s).done = s.done := rfl
@[simp] theorem goP_suspended (l : PSeq) (s : State) : (goP l s).suspended = s.suspended := rfl
@[simp] theorem goP_clkOn (l : PSeq) (s : State) : (goP l s).clkOn = s.clkOn := rfl
@[simp] theorem goP_clkRate (l : PSeq) (s : State) : (goP l s).clkRate = s.clkRate := rfl
@[simp] theorem goP_regrec (l : PSeq) (s : State) : (goP l s).regrec = s.regrec := rfl
@[simp] theorem goP_slave (l : PSeq) (s : State) : (goP l s).slave = s.slave := rfl
@[simp] theorem goP_dma (l : PSeq) (s : State) : (goP l s).dma = s.dma := rfl
@[simp] theorem goP_active (l : PSeq) (s : State) : (goP l s).active = s.active := rfl
@[simp] theorem goP_xf (l : PSeq) (s : State) : (goP l s).xf = s.xf := rfl
@[simp] theorem goP_fault (l : PSeq) (s : State) : (goP l s).fault = s.fault := rfl
@[simp] theorem goP_hist (l : PSeq) (s : State) : (goP l s).hist = s.hist := rfl
@[simp] theorem goP_mem (l : PSeq) (s : State) : (goP l s).mem = s.mem := rfl
@[simp] theorem goP_env (l : PSeq) (s : State) : (goP l s).env = s.env := rfl

/-! ### goH -/

@[simp] theorem goH_params (l : HSeq) (s : State) : (goH l s).params = s.params := rfl
@[simp] theorem goH_portQ (l : HSeq) (s : State) : (goH l s).portQ = s.portQ := rfl
@[simp] theorem goH_portF (l : HSeq) (s : State) : (goH l s).portF = s.portF := rfl
@[simp] theorem goH_portP (l : HSeq) (s : State) : (goH l s).portP = s.portP := rfl
@[simp] theorem goH_seqQ (l : HSeq) (s : State) : (goH l s).seqQ = s.seqQ := rfl
@[simp] theorem goH_seqF (l : HSeq) (s : State) : (goH l s).seqF = s.seqF := rfl
@[simp] theorem goH_seqP (l : HSeq) (s : State) : (goH l s).seqP = s.seqP := rfl
@[simp] theorem goH_seqH (l : HSeq) (s : State) : (goH l s).seqH = l := rfl
@[simp] theorem goH_seqTx (l : HSeq) (s : State) : (goH l s).seqTx = s.seqTx := rfl
@[simp] theorem goH_seqRx (l : HSeq) (s : State) : (goH l s).seqRx = s.seqRx := rfl
@[simp] theorem goH_inUse (l : HSeq) (s : State) : (goH l s).inUse = s.inUse := rfl
@[simp] theorem goH_done (l : HSeq) (s : State) : (goH l s).done = s.done := rfl
@[simp] theorem goH_suspended (l : HSeq) (s : State) : (goH l s).suspended = s.suspended := rfl
@[simp] theorem goH_clkOn (l : HSeq) (s : State) : (goH l s).clkOn = s.clkOn := rfl
@[simp] theorem goH_clkRate (l : HSeq) (s : State) : (goH l s).clkRate = s.clkRate := rfl
@[simp] theorem goH_regrec (l : HSeq) (s : State) : (goH l s).regrec = s.regrec := rfl
@[simp] theorem goH_slave (l : HSeq) (s : State) : (goH l s).slave = s.slave := rfl
@[simp] theorem goH_dma (l : HSeq) (s : State) : (goH l s).dma = s.dma := rfl
@[simp] theorem goH_active (l : HSeq) (s : State) : (goH l s).active = s.active := rfl
@[simp] theorem goH_xf (l : HSeq) (s : State) : (goH l s).xf = s.xf := rfl
@[simp] theorem goH_fault (l : HSeq) (s : State) : (goH l s).fault = s.fault := rfl
@[simp] theorem goH_hist (l : HSeq) (s : State) : (goH l s).hist = s.hist := rfl
@[simp] theorem goH_mem (l : HSeq) (s : State) : (goH l s).mem = s.mem := rfl
@[simp] theorem goH_env (l : HSeq) (s : State) : (goH l s).env = s.env := rfl

/-! ### goCb -/

@[simp] theorem goCb_params (d : Dir) (l : CbSeq) (s : State) : (goCb d l s).params = s.params := by cases d <;> rfl
@[simp] theorem goCb_portQ (d : Dir) (l : CbSeq) (s : State) : (goCb d l s).portQ = s.portQ := by cases d <;> rfl
@[simp] theorem goCb_portF (d : Dir) (l : CbSeq) (s : State) : (goCb d l s).portF = s.portF := by cases d <;> rfl
@[simp] theorem goCb_portP (d : Dir) (l : CbSeq) (s : State) : (goCb d l s).portP = s.portP := by cases d <;> rfl
@[simp] theorem goCb_seqQ (d : Dir) (l : CbSeq) (s : State) : (goCb d l s).seqQ = s.seqQ := by cases d <;> rfl
@[simp] theorem goCb_seqF (d : Dir) (l : CbSeq) (s : State) : (goCb d l s).seqF = s.seqF := by cases d <;> rfl
@[simp] theorem goCb_seqP (d : Dir) (l : CbSeq) (s : State) : (goCb d l s).seqP = s.seqP := by cases d <;> rfl
@[simp] theorem goCb_seqH (d : Dir) (l : CbSeq) (s : State) : (goCb d l s).seqH = s.seqH := by cases d <;> rfl
@[simp] theorem goCb_inUse (d : Dir) (l : CbSeq) (s : State) : (goCb d l s).inUse = s.inUse := by cases d <;> rfl
@[simp] theorem goCb_done (d : Dir) (l : CbSeq) (s : State) : (goCb d l s).done = s.done := by cases d <;> rfl
@[simp] theorem goCb_suspended (d : Dir) (l : CbSeq) (s : State) : (goCb d l s).suspended = s.suspended := by cases d <;> rfl
@[simp] theorem goCb_clkOn (d : Dir) (l : CbSeq) (s : State) : (goCb d l s).clkOn = s.clkOn := by cases d <;> rfl
@[simp] theorem goCb_clkRate (d : Dir) (l : CbSeq) (s : State) : (goCb d l s).clkRate = s.clkRate := by cases d <;> rfl
@[simp] theorem goCb_regrec (d : Dir) (l : CbSeq) (s : State) : (goCb d l s).regrec = s.regrec := by cases d <;> rfl
@[simp] theorem goCb_slave (d : Dir) (l : CbSeq) (s : State) : (goCb d l s).slave = s.slave := by cases d <;> rfl
@[simp] theorem goCb_dma (d : Dir) (l : CbSeq) (s : State) : (goCb d l s).dma = s.dma := by cases d <;> rfl
@[simp] theorem goCb_active (d : Dir) (l : CbSeq) (s : State) : (goCb d l s).active = s.active := by cases d <;> rfl
@[simp] theorem goCb_xf (d : Dir) (l : CbSeq) (s : State) : (goCb d l s).xf = s.xf := by cases d <;> rfl
@[simp] theorem goCb_fault (d : Dir) (l : CbSeq) (s : State) : (goCb d l s).fault = s.fault := by cases d <;> rfl
@[simp] theorem goCb_hist (d : Dir) (l : CbSeq) (s : State) : (goCb d l s).hist = s.hist := by cases d <;> rfl
@[simp] theorem goCb_mem (d : Dir) (l : CbSeq) (s : State) : (goCb d l s).mem = s.mem := by cases d <;> rfl
@[simp] theorem goCb_env (d : Dir) (l : CbSeq) (s : State) : (goCb d l s).env = s.env := by cases d <;> rfl

/-! ### setPort -/

@[simp] theorem setPort_params (p : Port) (r : PortRegs) (s : State) : (setPort p r s).params = s.params := by cases p <;> rfl
@[simp] theorem setPort_seqQ (p : Port) (r : PortRegs) (s : State) : (setPort p r s).seqQ = s.seqQ := by cases p <;> rfl
@[simp] theorem setPort_seqF (p : Port) (r : PortRegs) (s : State) : (setPort p r s).seqF = s.seqF := by cases p <;> rfl
@[simp] theorem setPort_seqP (p : Port) (r : PortRegs) (s : State) : (setPort p r s).seqP = s.seqP := by cases p <;> rfl
@[simp] theorem setPort_seqH (p : Port) (r : PortRegs) (s : State) : (setPort p r s).seqH = s.seqH := by cases p <;> rfl
@[simp] theorem setPort_seqTx (p : Port) (r : PortRegs) (s : State) : (setPort p r s).seqTx = s.seqTx := by cases p <;> rfl
@[simp] theorem setPort_seqRx (p : Port) (r : PortRegs) (s : State) : (setPort p r s).seqRx = s.seqRx := by cases p <;> rfl
@[simp] theorem setPort_inUse (p : Port) (r : PortRegs) (s : State) : (setPort p r s).inUse = s.inUse := by cases p <;> rfl
@[simp] theorem setPort_done (p : Port) (r : PortRegs) (s : State) : (setPort p r s).done = s.done := by cases p <;> rfl
@[simp] theorem setPort_suspended (p : Port) (r : PortRegs) (s : State) : (setPort p r s).suspended = s.suspended := by cases p <;> rfl
@[simp] theorem setPort_clkOn (p : Port) (r : PortRegs) (s : State) : (setPort p r s).clkOn = s.clkOn := by cases p <;> rfl
@[simp] theorem setPort_clkRate (p : Port) (r : PortRegs) (s : State) : (setPort p r s).clkRate = s.clkRate := by cases p <;> rfl
@[simp] theorem setPort_regrec (p : Port) (r : PortRegs) (s : State) : (setPort p r s).regrec = s.regrec := by cases p <;> rfl
@[simp] theorem setPort_slave (p : Port) (r : PortRegs) (s : State) : (setPort p r s).slave = s.slave := by cases p <;> rfl
@[simp] theorem setPort_dma (p : Port) (r : PortRegs) (s : State) : (setPort p r s).dma = s.dma := by cases p <;> rfl
@[simp] theorem setPort_active (p : Port) (r : PortRegs) (s : State) : (setPort p r s).active = s.active := by cases p <;> rfl
@[simp] theorem setPort_xf (p : Port) (r : PortRegs) (s : State) : (setPort p r s).xf = s.xf := by cases p <;> rfl
@[simp] theorem setPort_fault (p : Port) (r : PortRegs) (s : State) : (setPort p r s).fault = s.fault := by cases p <;> rfl
@[simp] theorem setPort_hist (p : Port) (r : PortRegs) (s : State) : (setPort p r s).hist = s.hist := by cases p <;> rfl
@[simp] theorem setPort_mem (p : Port) (r : PortRegs) (s : State) : (setPort p r s).mem = s.mem := by cases p <;> rfl
@[simp] theorem setPort_env (p : Port) (r : PortRegs) (s : State) : (setPort p r s).env = s.env := by cases p <;> rfl

/-! ### idlePort -/

@[simp] theorem idlePort_params (p : Port) (s : State) : (idlePort p s).params = s.params := by cases p <;> rfl
@[simp] theorem idlePort_portQ (p : Port) (s : State) : (idlePort p s).portQ = s.portQ := by cases p <;> rfl
@[simp] theorem idlePort_portF (p : Port) (s : State) : (idlePort p s).portF = s.portF := by cases p <;> rfl
@[simp] theorem idlePort_portP (p : Port) (s : State) : (idlePort p s).portP = s.portP := by cases p <;> rfl
@[simp] theorem idlePort_seqH (p : Port) (s : State) : (idlePort p s).seqH = s.seqH := by cases p <;> rfl
@[simp] theorem idlePort_seqTx (p : Port) (s : State) : (idlePort p s).seqTx = s.seqTx := by cases p <;> rfl
@[simp] theorem idlePort_seqRx (p : Port) (s : State) : (idlePort p s).seqRx = s.seqRx := by cases p <;> rfl
@[simp] theorem idlePort_inUse (p : Port) (s : State) : (idlePort p s).inUse = s.inUse := by cases p <;> rfl
@[simp] theorem idlePort_done (p : Port) (s : State) : (idlePort p s).done = s.done := by cases p <;> rfl
@[simp] theorem idlePort_suspended (p : Port) (s : State) : (idlePort p s).suspended = s.suspended := by cases p <;> rfl
@[simp] theorem idlePort_clkOn (p : Port) (s : State) : (idlePort p s).clkOn = s.clkOn := by cases p <;> rfl
@[simp] theorem idlePort_clkRate (p : Port) (s : State) : (idlePort p s).clkRate = s.clkRate := by cases p <;> rfl
@[simp] theorem idlePort_regrec (p : Port) (s : State) : (idlePort p s).regrec = s.regrec := by cases p <;> rfl
@[simp] theorem idlePort_slave (p : Port) (s : State) : (idlePort p s).slave = s.slave := by cases p <;> rfl
@[simp] theorem idlePort_dma (p : Port) (s : State) : (idlePort p s).dma = s.dma := by cases p <;> rfl
@[simp] theorem idlePort_active (p : Port) (s : State) : (idlePort p s).active = s.active := by cases p <;> rfl
@[simp] theorem idlePort_xf (p : Port) (s : State) : (idlePort p s).xf = s.xf := by cases p <;> rfl
@[simp] theorem idlePort_fault (p : Port) (s : State) : (idlePort p s).fault = s.fault := by cases p <;> rfl
@[simp] theorem idlePort_hist (p : Port) (s : State) : (idlePort p s).hist = s.hist := by cases p <;> rfl
@[simp] theorem idlePort_mem (p : Port) (s : State) : (idlePort p s).mem = s.mem := by cases p <;> rfl
@[simp] theorem idlePort_env (p : Port) (s : State) : (idlePort p s).env = s.env := by cases p <;> rfl

/-! ### startPort -/

@[simp] theorem startPort_params (p : Port) (w : Word) (a : Args) (s : State) : (startPort p w a s).params = s.params := by cases p <;> rfl
@[simp] theorem startPort_portQ (p : Port) (w : Word) (a : Args) (s : State) : (startPort p w a s).portQ = s.portQ := by cases p <;> rfl
@[simp] theorem startPort_portF (p : Port) (w : Word) (a : Args) (s : State) : (startPort p w a s).portF = s.portF := by cases p <;> rfl
@[simp] theorem startPort_portP (p : Port) (w : Word) (a : Args) (s : State) : (startPort p w a s).portP = s.portP := by cases p <;> rfl
@[simp] theorem startPort_seqH (p : Port) (w : Word) (a : Args) (s : State) : (startPort p w a s).seqH = s.seqH := by cases p <;> rfl
@[simp] theorem startPort_seqTx (p : Port) (w : Word) (a : Args) (s : State) : (startPort p w a s).seqTx = s.seqTx := by cases p <;> rfl
@[simp] theorem startPort_seqRx (p : Port) (w : Word) (a : Args) (s : State) : (startPort p w a s).seqRx = s.seqRx := by cases p <;> rfl
@[simp] theorem startPort_inUse (p : Port) (w : Word) (a : Args) (s : State) : (startPort p w a s).inUse = s.inUse := by cases p <;> rfl
@[simp] theorem startPort_done (p : Port) (w : Word) (a : Args) (s : State) : (startPort p w a s).done = s.done := by cases p <;> rfl
@[simp] theorem startPort_suspended (p : Port) (w : Word) (a : Args) (s : State) : (startPort p w a s).suspended = s.suspended := by cases p <;> rfl
@[simp] theorem startPort_clkOn (p : Port) (w : Word) (a : Args) (s : State) : (startPort p w a s).clkOn = s.clkOn := by cases p <;> rfl
@[simp] theorem startPort_clkRate (p : Port) (w : Word) (a : Args) (s : State) : (startPort p w a s).clkRate = s.clkRate := by cases p <;> rfl
@[simp] theorem startPort_regrec (p : Port) (w : Word) (a : Args) (s : State) : (startPort p w a s).regrec = s.regrec := by cases p <;> rfl
@[simp] theorem startPort_slave (p : Port) (w : Word) (a : Args) (s : State) : (startPort p w a s).slave = s.slave := by cases p <;> rfl
@[simp] theorem startPort_dma (p : Port) (w : Word) (a : Args) (s : State) : (startPort p w a s).dma = s.dma := by cases p <;> rfl
@[simp] theorem startPort_active (p : Port) (w : Word) (a : Args) (s : State) : (startPort p w a s).active = s.active := by cases p <;> rfl
@[simp] theorem startPort_xf (p : Port) (w : Word) (a : Args) (s : State) : (startPort p w a s).xf = s.xf := by cases p <;> rfl
@[simp] theorem startPort_fault (p : Port) (w : Word) (a : Args) (s : State) : (startPort p w a s).fault = s.fault := by cases p <;> rfl
@[simp] theorem startPort_hist (p : Port) (w : Word) (a : Args) (s : State) : (startPort p w a s).hist = s.hist := by cases p <;> rfl
@[simp] theorem startPort_mem (p : Port) (w : Word) (a : Args) (s : State) : (startPort p w a s).mem = s.mem := by cases p <;> rfl
@[simp] theorem startPort_env (p : Port) (w : Word) (a : Args) (s : State) : (startPort p w a s).env = s.env := by cases p <;> rfl

/-! ### loadCommand -/

@[simp] theorem loadCommand_params (p : Port) (w : Word) (a : Args) (s : State) : (loadCommand p w a s).params = s.params := by cases p <;> rfl
@[simp] theorem loadCommand_seqH (p : Port) (w : Word) (a : Args) (s : State) : (loadCommand p w a s).seqH = s.seqH := by cases p <;> rfl
@[simp] theorem loadCommand_seqTx (p : Port) (w : Word) (a : Args) (s : State) : (loadCommand p w a s).seqTx = s.seqTx := by cases p <;> rfl
@[simp] theorem loadCommand_seqRx (p : Port) (w : Word) (a : Args) (s : State) : (loadCommand p w a s).seqRx = s.seqRx := by cases p <;> rfl
@[simp] theorem loadCommand_inUse (p : Port) (w : Word) (a : Args) (s : State) : (loadCommand p w a s).inUse = s.inUse := by cases p <;> rfl
@[simp] theorem loadCommand_done (p : Port) (w : Word) (a : Args) (s : State) : (loadCommand p w a s).done = s.done := by cases p <;> rfl
@[simp] theorem loadCommand_suspended (p : Port) (w : Word) (a : Args) (s : State) : (loadCommand p w a s).suspended = s.suspended := by cases p <;> rfl
@[simp] theorem loadCommand_clkOn (p : Port) (w : Word) (a : Args) (s : State) : (loadCommand p w a s).clkOn = s.clkOn := by cases p <;> rfl
@[simp] theorem loadCommand_clkRate (p : Port) (w : Word) (a : Args) (s : State) : (loadCommand p w a s).clkRate = s.clkRate := by cases p <;> rfl
@[simp] theorem loadCommand_regrec (p : Port) (w : Word) (a : Args) (s : State) : (loadCommand p w a s).regrec = s.regrec := by cases p <;> rfl
@[simp] theorem loadCommand_slave (p : Port) (w : Word) (a : Args) (s : State) : (loadCommand p w a s).slave = s.slave := by cases p <;> rfl
@[simp] theorem loadCommand_dma (p : Port) (w : Word) (a : Args) (s : State) : (loadCommand p w a s).dma = s.dma := by cases p <;> rfl
@[simp] theorem loadCommand_active (p : Port) (w : Word) (a : Args) (s : State) : (loadCommand p w a s).active = s.active := by cases p <;> rfl
@[simp] theorem loadCommand_xf (p : Port) (w : Word) (a : Args) (s : State) : (loadCommand p w a s).xf = s.xf := by cases p <;> rfl
@[simp] theorem loadCommand_fault (p : Port) (w : Word) (a : Args) (s : State) : (loadCommand p w a s).fault = s.fault := by cases p <;> rfl
@[simp] theorem loadCommand_hist (p : Port) (w : Word) (a : Args) (s : State) : (loadCommand p w a s).hist = s.hist := by cases p <;> rfl
@[simp] theorem loadCommand_mem (p : Port) (w : Word) (a : Args) (s : State) : (loadCommand p w a s).mem = s.mem := by cases p <;> rfl
@[simp] theorem loadCommand_env (p : Port) (w : Word) (a : Args) (s : State) : (loadCommand p w a s).env = s.env := by cases p <;> rfl

/-! ### issue -/

@[simp] theorem issue_params (p : Port) (w : Word) (a : Args) (s : State) : (issue p w a s).params = s.params := by cases p <;> rfl
@[simp] theorem issue_seqH (p : Port) (w : Word) (a : Args) (s : State) : (issue p w a s).seqH = s.seqH := by cases p <;> rfl
@[simp] theorem issue_seqTx (p : Port) (w : Word) (a : Args) (s : State) : (issue p w a s).seqTx = s.seqTx := by cases p <;> rfl
@[simp] theorem issue_seqRx (p : Port) (w : Word) (a : Args) (s : State) : (issue p w a s).seqRx = s.seqRx := by cases p <;> rfl
@[simp] theorem issue_inUse (p : Port) (w : Word) (a : Args) (s : State) : (issue p w a s).inUse = s.inUse := by cases p <;> rfl
@[simp] theorem issue_done (p : Port) (w : Word) (a : Args) (s : State) : (issue p w a s).done = s.done := by cases p <;> rfl
@[simp] theorem issue_suspended (p : Port) (w : Word) (a : Args) (s : State) : (issue p w a s).suspended = s.suspended := by cases p <;> rfl
@[simp] theorem issue_clkOn (p : Port) (w : Word) (a : Args) (s : State) : (issue p w a s).clkOn = s.clkOn := by cases p <;> rfl
@[simp] theorem issue_clkRate (p : Port) (w : Word) (a : Args) (s : State) : (issue p w a s).clkRate = s.clkRate := by cases p <;> rfl
@[simp] theorem issue_regrec (p : Port) (w : Word) (a : Args) (s : State) : (issue p w a s).regrec = s.regrec := by cases p <;> rfl
@[simp] theorem issue_slave (p : Port) (w : Word) (a : Args) (s : State) : (issue p w a s).slave = s.slave := by cases p <;> rfl
@[simp] theorem issue_dma (p : Port) (w : Word) (a : Args) (s : State) : (issue p w a s).dma = s.dma := by cases p <;> rfl
@[simp] theorem issue_active (p : Port) (w : Word) (a : Args) (s : State) : (issue p w a s).active = s.active := by cases p <;> rfl
@[simp] theorem issue_xf (p : Port) (w : Word) (a : Args) (s : State) : (issue p w a s).xf = s.xf := by cases p <;> rfl
@[simp] theorem issue_fault (p : Port) (w : Word) (a : Args) (s : State) : (issue p w a s).fault = s.fault := by cases p <;> rfl
@[simp] theorem issue_hist (p : Port) (w : Word) (a : Args) (s : State) : (issue p w a s).hist = s.hist ++ [⟨.env, .cmd p w a⟩] := by cases p <;> rfl
@[simp] theorem issue_mem (p : Port) (w : Word) (a : Args) (s : State) : (issue p w a s).mem = s.mem := by cases p <;> rfl
@[simp] theorem issue_env (p : Port) (w : Word) (a : Args) (s : State) : (issue p w a s).env = s.env := by cases p <;> rfl

/-! ### finish -/

@[simp] theorem finish_params (p : Port) (r : Word) (s : State) : (finish p r s).params = s.params := by cases p <;> rfl
@[simp] theorem finish_seqH (p : Port) (r : Word) (s : State) : (finish p r s).seqH = s.seqH := by cases p <;> rfl
@[simp] theorem finish_seqTx (p : Port) (r : Word) (s : State) : (finish p r s).seqTx = s.seqTx := by cases p <;> rfl
@[simp] theorem finish_seqRx (p : Port) (r : Word) (s : State) : (finish p r s).seqRx = s.seqRx := by cases p <;> rfl
@[simp] theorem finish_inUse (p : Port) (r : Word) (s : State) : (finish p r s).inUse = s.inUse := by cases p <;> rfl
@[simp] theorem finish_done (p : Port) (r : Word) (s : State) : (finish p r s).done = s.done := by cases p <;> rfl
@[simp] theorem finish_suspended (p : Port) (r : Word) (s : State) : (finish p r s).suspended = s.suspended := by cases p <;> rfl
@[simp] theorem finish_clkOn (p : Port) (r : Word) (s : State) : (finish p r s).clkOn = s.clkOn := by cases p <;> rfl
@[simp] theorem finish_clkRate (p : Port) (r : Word) (s : State) : (finish p r s).clkRate = s.clkRate := by cases p <;> rfl
@[simp] theorem finish_regrec (p : Port) (r : Word) (s : State) : (finish p r s).regrec = s.regrec := by cases p <;> rfl
@[simp] theorem finish_slave (p : Port) (r : Word) (s : State) : (finish p r s).slave = s.slave := by cases p <;> rfl
@[simp] theorem finish_dma (p : Port) (r : Word) (s : State) : (finish p r s).dma = s.dma := by cases p <;> rfl
@[simp] theorem finish_active (p : Port) (r : Word) (s : State) : (finish p r s).active = s.active := by cases p <;> rfl
@[simp] theorem finish_xf (p : Port) (r : Word) (s : State) : (finish p r s).xf = s.xf := by cases p <;> rfl
@[simp] theorem finish_fault (p : Port) (r : Word) (s : State) : (finish p r s).fault = s.fault := by cases p <;> rfl
@[simp] theorem finish_hist (p : Port) (r : Word) (s : State) : (finish p r s).hist = s.hist ++ [⟨portAgent p, .res p r⟩] := by cases p <;> rfl
@[simp] theorem finish_mem (p : Port) (r : Word) (s : State) : (finish p r s).mem = s.mem := by cases p <;> rfl
@[simp] theorem finish_env (p : Port) (r : Word) (s : State) : (finish p r s).env = s.env := by cases p <;> rfl

/-! ### raise -/

@[simp] theorem raise_params (a : Agent) (r : FaultReason) (s : State) : (raise a r s).params = s.params := rfl
@[simp] theorem raise_portQ (a : Agent) (r : FaultReason) (s : State) : (raise a r s).portQ = s.portQ := rfl
@[simp] theorem raise_portF (a : Agent) (r : FaultReason) (s : State) : (raise a r s).portF = s.portF := rfl
@[simp] theorem raise_portP (a : Agent) (r : FaultReason) (s : State) : (raise a r s).portP = s.portP := rfl
@[simp] theorem raise_seqQ (a : Agent) (r : FaultReason) (s : State) : (raise a r s).seqQ = s.seqQ := rfl
@[simp] theorem raise_seqF (a : Agent) (r : FaultReason) (s : State) : (raise a r s).seqF = s.seqF := rfl
@[simp] theorem raise_seqP (a : Agent) (r : FaultReason) (s : State) : (raise a r s).seqP = s.seqP := rfl
@[simp] theorem raise_seqH (a : Agent) (r : FaultReason) (s : State) : (raise a r s).seqH = s.seqH := rfl
@[simp] theorem raise_seqTx (a : Agent) (r : FaultReason) (s : State) : (raise a r s).seqTx = s.seqTx := rfl
@[simp] theorem raise_seqRx (a : Agent) (r : FaultReason) (s : State) : (raise a r s).seqRx = s.seqRx := rfl
@[simp] theorem raise_inUse (a : Agent) (r : FaultReason) (s : State) : (raise a r s).inUse = s.inUse := rfl
@[simp] theorem raise_done (a : Agent) (r : FaultReason) (s : State) : (raise a r s).done = s.done := rfl
@[simp] theorem raise_suspended (a : Agent) (r : FaultReason) (s : State) : (raise a r s).suspended = s.suspended := rfl
@[simp] theorem raise_clkOn (a : Agent) (r : FaultReason) (s : State) : (raise a r s).clkOn = s.clkOn := rfl
@[simp] theorem raise_clkRate (a : Agent) (r : FaultReason) (s : State) : (raise a r s).clkRate = s.clkRate := rfl
@[simp] theorem raise_regrec (a : Agent) (r : FaultReason) (s : State) : (raise a r s).regrec = s.regrec := rfl
@[simp] theorem raise_slave (a : Agent) (r : FaultReason) (s : State) : (raise a r s).slave = s.slave := rfl
@[simp] theorem raise_dma (a : Agent) (r : FaultReason) (s : State) : (raise a r s).dma = s.dma := rfl
@[simp] theorem raise_active (a : Agent) (r : FaultReason) (s : State) : (raise a r s).active = s.active := rfl
@[simp] theorem raise_xf (a : Agent) (r : FaultReason) (s : State) : (raise a r s).xf = s.xf := rfl
@[simp] theorem raise_fault (a : Agent) (r : FaultReason) (s : State) : (raise a r s).fault = some r := rfl
@[simp] theorem raise_hist (a : Agent) (r : FaultReason) (s : State) : (raise a r s).hist = s.hist ++ [⟨a, .raised r⟩] := rfl
@[simp] theorem raise_mem (a : Agent) (r : FaultReason) (s : State) : (raise a r s).mem = s.mem := rfl
@[simp] theorem raise_env (a : Agent) (r : FaultReason) (s : State) : (raise a r s).env = s.env := rfl

/-! ### dropWord -/

@[simp] theorem dropWord_params (s : State) : (dropWord s).params = s.params := rfl
@[simp] theorem dropWord_portQ (s : State) : (dropWord s).portQ = s.portQ := rfl
@[simp] theorem dropWord_portF (s : State) : (dropWord s).portF = s.portF := rfl
@[simp] theorem dropWord_portP (s : State) : (dropWord s).portP = s.portP := rfl
@[simp] theorem dropWord_seqQ (s : State) : (dropWord s).seqQ = s.seqQ := rfl
@[simp] theorem dropWord_seqF (s : State) : (dropWord s).seqF = s.seqF := rfl
@[simp] theorem dropWord_seqP (s : State) : (dropWord s).seqP = s.seqP := rfl
@[simp] theorem dropWord_seqH (s : State) : (dropWord s).seqH = s.seqH := rfl
@[simp] theorem dropWord_seqTx (s : State) : (dropWord s).seqTx = s.seqTx := rfl
@[simp] theorem dropWord_seqRx (s : State) : (dropWord s).seqRx = s.seqRx := rfl
@[simp] theorem dropWord_inUse (s : State) : (dropWord s).inUse = s.inUse := rfl
@[simp] theorem dropWord_done (s : State) : (dropWord s).done = s.done := rfl
@[simp] theorem dropWord_suspended (s : State) : (dropWord s).suspended = s.suspended := rfl
@[simp] theorem dropWord_clkOn (s : State) : (dropWord s).clkOn = s.clkOn := rfl
@[simp] theorem dropWord_clkRate (s : State) : (dropWord s).clkRate = s.clkRate := rfl
@[simp] theorem dropWord_regrec (s : State) : (dropWord s).regrec = s.regrec := rfl
@[simp] theorem dropWord_slave (s : State) : (dropWord s).slave = s.slave := rfl
@[simp] theorem dropWord_dma (s : State) : (dropWord s).dma = s.dma := rfl
@[simp] theorem dropWord_active (s : State) : (dropWord s).active = s.active := rfl
@[simp] theorem dropWord_xf (s : State) : (dropWord s).xf = s.xf := rfl
@[simp] theorem dropWord_fault (s : State) : (dropWord s).fault = s.fault := rfl
@[simp] theorem dropWord_hist (s : State) : (dropWord s).hist = s.hist := rfl
@[simp] theorem dropWord_mem (s : State) : (dropWord s).mem = s.mem := rfl
@[simp] theorem dropWord_env (s : State) : (dropWord s).env = envDropWord s.env := rfl

/-! ### dropAlloc -/

@[simp] theorem dropAlloc_params (s : State) : (dropAlloc s).params = s.params := rfl
@[simp] theorem dropAlloc_portQ (s : State) : (dropAlloc s).portQ = s.portQ := rfl
@[simp] theorem dropAlloc_portF (s : State) : (dropAlloc s).portF = s.portF := rfl
@[simp] theorem dropAlloc_portP (s : State) : (dropAlloc s).portP = s.portP := rfl
@[simp] theorem dropAlloc_seqQ (s : State) : (dropAlloc s).seqQ = s.seqQ := rfl
@[simp] theorem dropAlloc_seqF (s : State) : (dropAlloc s).seqF = s.seqF := rfl
@[simp] theorem dropAlloc_seqP (s : State) : (dropAlloc s).seqP = s.seqP := rfl
@[simp] theorem dropAlloc_seqH (s : State) : (dropAlloc s).seqH = s.seqH := rfl
@[simp] theorem dropAlloc_seqTx (s : State) : (dropAlloc s).seqTx = s.seqTx := rfl
@[simp] theorem dropAlloc_seqRx (s : State) : (dropAlloc s).seqRx = s.seqRx := rfl
@[simp] theorem dropAlloc_inUse (s : State) : (dropAlloc s).inUse = s.inUse := rfl
@[simp] theorem dropAlloc_done (s : State) : (dropAlloc s).done = s.done := rfl
@[simp] theorem dropAlloc_suspended (s : State) : (dropAlloc s).suspended = s.suspended := rfl
@[simp] theorem dropAlloc_clkOn (s : State) : (dropAlloc s).clkOn = s.clkOn := rfl
@[simp] theorem dropAlloc_clkRate (s : State) : (dropAlloc s).clkRate = s.clkRate := rfl
@[simp] theorem dropAlloc_regrec (s : State) : (dropAlloc s).regrec = s.regrec := rfl
@[simp] theorem dropAlloc_slave (s : State) : (dropAlloc s).slave = s.slave := rfl
@[simp] theorem dropAlloc_dma (s : State) : (dropAlloc s).dma = s.dma := rfl
@[simp] theorem dropAlloc_active (s : State) : (dropAlloc s).active = s.active := rfl
@[simp] theorem dropAlloc_xf (s : State) : (dropAlloc s).xf = s.xf := rfl
@[simp] theorem dropAlloc_fault (s : State) : (dropAlloc s).fault = s.fault := rfl
@[simp] theorem dropAlloc_hist (s : State) : (dropAlloc s).hist = s.hist := rfl
@[simp] theorem dropAlloc_mem (s : State) : (dropAlloc s).mem = s.mem := rfl
@[simp] theorem dropAlloc_env (s : State) : (dropAlloc s).env = envDropAlloc s.env := rfl

/-! ### dropMap -/

@[simp] theorem dropMap_params (s : State) : (dropMap s).params = s.params := rfl
@[simp] theorem dropMap_portQ (s : State) : (dropMap s).portQ = s.portQ := rfl
@[simp] theorem dropMap_portF (s : State) : (dropMap s).portF = s.portF := rfl
@[simp] theorem dropMap_portP (s : State) : (dropMap s).portP = s.portP := rfl
@[simp] theorem dropMap_seqQ (s : State) : (dropMap s).seqQ = s.seqQ := rfl
@[simp] theorem dropMap_seqF (s : State) : (dropMap s).seqF = s.seqF := rfl
@[simp] theorem dropMap_seqP (s : State) : (dropMap s).seqP = s.seqP := rfl
@[simp] theorem dropMap_seqH (s : State) : (dropMap s).seqH = s.seqH := rfl
@[simp] theorem dropMap_seqTx (s : State) : (dropMap s).seqTx = s.seqTx := rfl
@[simp] theorem dropMap_seqRx (s : State) : (dropMap s).seqRx = s.seqRx := rfl
@[simp] theorem dropMap_inUse (s : State) : (dropMap s).inUse = s.inUse := rfl
@[simp] theorem dropMap_done (s : State) : (dropMap s).done = s.done := rfl
@[simp] theorem dropMap_suspended (s : State) : (dropMap s).suspended = s.suspended := rfl
@[simp] theorem dropMap_clkOn (s : State) : (dropMap s).clkOn = s.clkOn := rfl
@[simp] theorem dropMap_clkRate (s : State) : (dropMap s).clkRate = s.clkRate := rfl
@[simp] theorem dropMap_regrec (s : State) : (dropMap s).regrec = s.regrec := rfl
@[simp] theorem dropMap_slave (s : State) : (dropMap s).slave = s.slave := rfl
@[simp] theorem dropMap_dma (s : State) : (dropMap s).dma = s.dma := rfl
@[simp] theorem dropMap_active (s : State) : (dropMap s).active = s.active := rfl
@[simp] theorem dropMap_xf (s : State) : (dropMap s).xf = s.xf := rfl
@[simp] theorem dropMap_fault (s : State) : (dropMap s).fault = s.fault := rfl
@[simp] theorem dropMap_hist (s : State) : (dropMap s).hist = s.hist := rfl
@[simp] theorem dropMap_mem (s : State) : (dropMap s).mem = s.mem := rfl
@[simp] theorem dropMap_env (s : State) : (dropMap s).env = envDropMap s.env := rfl

/-! ### dropTurn -/

@[simp] theorem dropTurn_params (s : State) : (dropTurn s).params = s.params := rfl
@[simp] theorem dropTurn_portQ (s : State) : (dropTurn s).portQ = s.portQ := rfl
@[simp] theorem dropTurn_portF (s : State) : (dropTurn s).portF = s.portF := rfl
@[simp] theorem dropTurn_portP (s : State) : (dropTurn s).portP = s.portP := rfl
@[simp] theorem dropTurn_seqQ (s : State) : (dropTurn s).seqQ = s.seqQ := rfl
@[simp] theorem dropTurn_seqF (s : State) : (dropTurn s).seqF = s.seqF := rfl
@[simp] theorem dropTurn_seqP (s : State) : (dropTurn s).seqP = s.seqP := rfl
@[simp] theorem dropTurn_seqH (s : State) : (dropTurn s).seqH = s.seqH := rfl
@[simp] theorem dropTurn_seqTx (s : State) : (dropTurn s).seqTx = s.seqTx := rfl
@[simp] theorem dropTurn_seqRx (s : State) : (dropTurn s).seqRx = s.seqRx := rfl
@[simp] theorem dropTurn_inUse (s : State) : (dropTurn s).inUse = s.inUse := rfl
@[simp] theorem dropTurn_done (s : State) : (dropTurn s).done = s.done := rfl
@[simp] theorem dropTurn_suspended (s : State) : (dropTurn s).suspended = s.suspended := rfl
@[simp] theorem dropTurn_clkOn (s : State) : (dropTurn s).clkOn = s.clkOn := rfl
@[simp] theorem dropTurn_clkRate (s : State) : (dropTurn s).clkRate = s.clkRate := rfl
@[simp] theorem dropTurn_regrec (s : State) : (dropTurn s).regrec = s.regrec := rfl
@[simp] theorem dropTurn_slave (s : State) : (dropTurn s).slave = s.slave := rfl
@[simp] theorem dropTurn_dma (s : State) : (dropTurn s).dma = s.dma := rfl
@[simp] theorem dropTurn_active (s : State) : (dropTurn s).active = s.active := rfl
@[simp] theorem dropTurn_xf (s : State) : (dropTurn s).xf = s.xf := rfl
@[simp] theorem dropTurn_fault (s : State) : (dropTurn s).fault = s.fault := rfl
@[simp] theorem dropTurn_hist (s : State) : (dropTurn s).hist = s.hist := rfl
@[simp] theorem dropTurn_mem (s : State) : (dropTurn s).mem = s.mem := rfl
@[simp] theorem dropTurn_env (s : State) : (dropTurn s).env = envDropTurn s.env := rfl

/-! ### readGcr -/

@[simp] theorem readGcr_params (a : Agent) (s : State) : (readGcr a s).params = s.params := rfl
@[simp] theorem readGcr_portQ (a : Agent) (s : State) : (readGcr a s).portQ = s.portQ := rfl
@[simp] theorem readGcr_portF (a : Agent) (s : State) : (readGcr a s).portF = s.portF := rfl
@[simp] theorem readGcr_portP (a : Agent) (s : State) : (readGcr a s).portP = s.portP := rfl
@[simp] theorem readGcr_seqQ (a : Agent) (s : State) : (readGcr a s).seqQ = s.seqQ := rfl
@[simp] theorem readGcr_seqF (a : Agent) (s : State) : (readGcr a s).seqF = s.seqF := rfl
@[simp] theorem readGcr_seqP (a : Agent) (s : State) : (readGcr a s).seqP = s.seqP := rfl
@[simp] theorem readGcr_seqH (a : Agent) (s : State) : (readGcr a s).seqH = s.seqH := rfl
@[simp] theorem readGcr_seqTx (a : Agent) (s : State) : (readGcr a s).seqTx = s.seqTx := rfl
@[simp] theorem readGcr_seqRx (a : Agent) (s : State) : (readGcr a s).seqRx = s.seqRx := rfl
@[simp] theorem readGcr_inUse (a : Agent) (s : State) : (readGcr a s).inUse = s.inUse := rfl
@[simp] theorem readGcr_done (a : Agent) (s : State) : (readGcr a s).done = s.done := rfl
@[simp] theorem readGcr_suspended (a : Agent) (s : State) : (readGcr a s).suspended = s.suspended := rfl
@[simp] theorem readGcr_clkOn (a : Agent) (s : State) : (readGcr a s).clkOn = s.clkOn := rfl
@[simp] theorem readGcr_clkRate (a : Agent) (s : State) : (readGcr a s).clkRate = s.clkRate := rfl
@[simp] theorem readGcr_regrec (a : Agent) (s : State) : (readGcr a s).regrec = s.regrec := rfl
@[simp] theorem readGcr_slave (a : Agent) (s : State) : (readGcr a s).slave = s.slave := rfl
@[simp] theorem readGcr_dma (a : Agent) (s : State) : (readGcr a s).dma = s.dma := rfl
@[simp] theorem readGcr_active (a : Agent) (s : State) : (readGcr a s).active = s.active := rfl
@[simp] theorem readGcr_xf (a : Agent) (s : State) : (readGcr a s).xf = s.xf := rfl
@[simp] theorem readGcr_fault (a : Agent) (s : State) : (readGcr a s).fault = s.fault := rfl
@[simp] theorem readGcr_hist (a : Agent) (s : State) : (readGcr a s).hist = s.hist ++ [⟨a, .rd .gcr (.gcr s.regrec.gcr)⟩] := rfl
@[simp] theorem readGcr_mem (a : Agent) (s : State) : (readGcr a s).mem = s.mem := rfl
@[simp] theorem readGcr_env (a : Agent) (s : State) : (readGcr a s).env = s.env := rfl

/-! ### readInt -/

@[simp] theorem readInt_params (a : Agent) (s : State) : (readInt a s).params = s.params := rfl
@[simp] theorem readInt_portQ (a : Agent) (s : State) : (readInt a s).portQ = s.portQ := rfl
@[simp] theorem readInt_portF (a : Agent) (s : State) : (readInt a s).portF = s.portF := rfl
@[simp] theorem readInt_portP (a : Agent) (s : State) : (readInt a s).portP = s.portP := rfl
@[simp] theorem readInt_seqQ (a : Agent) (s : State) : (readInt a s).seqQ = s.seqQ := rfl
@[simp] theorem readInt_seqF (a : Agent) (s : State) : (readInt a s).seqF = s.seqF := rfl
@[simp] theorem readInt_seqP (a : Agent) (s : State) : (readInt a s).seqP = s.seqP := rfl
@[simp] theorem readInt_seqH (a : Agent) (s : State) : (readInt a s).seqH = s.seqH := rfl
@[simp] theorem readInt_seqTx (a : Agent) (s : State) : (readInt a s).seqTx = s.seqTx := rfl
@[simp] theorem readInt_seqRx (a : Agent) (s : State) : (readInt a s).seqRx = s.seqRx := rfl
@[simp] theorem readInt_inUse (a : Agent) (s : State) : (readInt a s).inUse = s.inUse := rfl
@[simp] theorem readInt_done (a : Agent) (s : State) : (readInt a s).done = s.done := rfl
@[simp] theorem readInt_suspended (a : Agent) (s : State) : (readInt a s).suspended = s.suspended := rfl
@[simp] theorem readInt_clkOn (a : Agent) (s : State) : (readInt a s).clkOn = s.clkOn := rfl
@[simp] theorem readInt_clkRate (a : Agent) (s : State) : (readInt a s).clkRate = s.clkRate := rfl
@[simp] theorem readInt_regrec (a : Agent) (s : State) : (readInt a s).regrec = s.regrec := rfl
@[simp] theorem readInt_slave (a : Agent) (s : State) : (readInt a s).slave = s.slave := rfl
@[simp] theorem readInt_dma (a : Agent) (s : State) : (readInt a s).dma = s.dma := rfl
@[simp] theorem readInt_active (a : Agent) (s : State) : (readInt a s).active = s.active := rfl
@[simp] theorem readInt_xf (a : Agent) (s : State) : (readInt a s).xf = s.xf := rfl
@[simp] theorem readInt_fault (a : Agent) (s : State) : (readInt a s).fault = s.fault := rfl
@[simp] theorem readInt_hist (a : Agent) (s : State) : (readInt a s).hist = s.hist ++ [⟨a, .rd .int (.int s.regrec.int)⟩] := rfl
@[simp] theorem readInt_mem (a : Agent) (s : State) : (readInt a s).mem = s.mem := rfl
@[simp] theorem readInt_env (a : Agent) (s : State) : (readInt a s).env = s.env := rfl

/-! ### readPc -/

@[simp] theorem readPc_params (a : Agent) (s : State) : (readPc a s).params = s.params := rfl
@[simp] theorem readPc_portQ (a : Agent) (s : State) : (readPc a s).portQ = s.portQ := rfl
@[simp] theorem readPc_portF (a : Agent) (s : State) : (readPc a s).portF = s.portF := rfl
@[simp] theorem readPc_portP (a : Agent) (s : State) : (readPc a s).portP = s.portP := rfl
@[simp] theorem readPc_seqQ (a : Agent) (s : State) : (readPc a s).seqQ = s.seqQ := rfl
@[simp] theorem readPc_seqF (a : Agent) (s : State) : (readPc a s).seqF = s.seqF := rfl
@[simp] theorem readPc_seqP (a : Agent) (s : State) : (readPc a s).seqP = s.seqP := rfl
@[simp] theorem readPc_seqH (a : Agent) (s : State) : (readPc a s).seqH = s.seqH := rfl
@[simp] theorem readPc_seqTx (a : Agent) (s : State) : (readPc a s).seqTx = s.seqTx := rfl
@[simp] theorem readPc_seqRx (a : Agent) (s : State) : (readPc a s).seqRx = s.seqRx := rfl
@[simp] theorem readPc_inUse (a : Agent) (s : State) : (readPc a s).inUse = s.inUse := rfl
@[simp] theorem readPc_done (a : Agent) (s : State) : (readPc a s).done = s.done := rfl
@[simp] theorem readPc_suspended (a : Agent) (s : State) : (readPc a s).suspended = s.suspended := rfl
@[simp] theorem readPc_clkOn (a : Agent) (s : State) : (readPc a s).clkOn = s.clkOn := rfl
@[simp] theorem readPc_clkRate (a : Agent) (s : State) : (readPc a s).clkRate = s.clkRate := rfl
@[simp] theorem readPc_regrec (a : Agent) (s : State) : (readPc a s).regrec = s.regrec := rfl
@[simp] theorem readPc_slave (a : Agent) (s : State) : (readPc a s).slave = s.slave := rfl
@[simp] theorem readPc_dma (a : Agent) (s : State) : (readPc a s).dma = s.dma := rfl
@[simp] theorem readPc_active (a : Agent) (s : State) : (readPc a s).active = s.active := rfl
@[simp] theorem readPc_xf (a : Agent) (s : State) : (readPc a s).xf = s.xf := rfl
@[simp] theorem readPc_fault (a : Agent) (s : State) : (readPc a s).fault = s.fault := rfl
@[simp] theorem readPc_hist (a : Agent) (s : State) : (readPc a s).hist = s.hist ++ [⟨a, .rd .pc (.pc s.regrec.pc)⟩] := rfl
@[simp] theorem readPc_mem (a : Agent) (s : State) : (readPc a s).mem = s.mem := rfl
@[simp] theorem readPc_env (a : Agent) (s : State) : (readPc a s).env = s.env := rfl

/-! ### readDef -/

@[simp] theorem readDef_params (a : Agent) (s : State) : (readDef a s).params = s.params := rfl
@[simp] theorem readDef_portQ (a : Agent) (s : State) : (readDef a s).portQ = s.portQ := rfl
@[simp] theorem readDef_portF (a : Agent) (s : State) : (readDef a s).portF = s.portF := rfl
@[simp] theorem readDef_portP (a : Agent) (s : State) : (readDef a s).portP = s.portP := rfl
@[simp] theorem readDef_seqQ (a : Agent) (s : State) : (readDef a s).seqQ = s.seqQ := rfl
@[simp] theorem readDef_seqF (a : Agent) (s : State) : (readDef a s).seqF = s.seqF := rfl
@[simp] theorem readDef_seqP (a : Agent) (s : State) : (readDef a s).seqP = s.seqP := rfl
@[simp] theorem readDef_seqH (a : Agent) (s : State) : (readDef a s).seqH = s.seqH := rfl
@[simp] theorem readDef_seqTx (a : Agent) (s : State) : (readDef a s).seqTx = s.seqTx := rfl
@[simp] theorem readDef_seqRx (a : Agent) (s : State) : (readDef a s).seqRx = s.seqRx := rfl
@[simp] theorem readDef_inUse (a : Agent) (s : State) : (readDef a s).inUse = s.inUse := rfl
@[simp] theorem readDef_done (a : Agent) (s : State) : (readDef a s).done = s.done := rfl
@[simp] theorem readDef_suspended (a : Agent) (s : State) : (readDef a s).suspended = s.suspended := rfl
@[simp] theorem readDef_clkOn (a : Agent) (s : State) : (readDef a s).clkOn = s.clkOn := rfl
@[simp] theorem readDef_clkRate (a : Agent) (s : State) : (readDef a s).clkRate = s.clkRate := rfl
@[simp] theorem readDef_regrec (a : Agent) (s : State) : (readDef a s).regrec = s.regrec := rfl
@[simp] theorem readDef_slave (a : Agent) (s : State) : (readDef a s).slave = s.slave := rfl
@[simp] theorem readDef_dma (a : Agent) (s : State) : (readDef a s).dma = s.dma := rfl
@[simp] theorem readDef_active (a : Agent) (s : State) : (readDef a s).active = s.active := rfl
@[simp] theorem readDef_xf (a : Agent) (s : State) : (readDef a s).xf = s.xf := rfl
@[simp] theorem readDef_fault (a : Agent) (s : State) : (readDef a s).fault = s.fault := rfl
@[simp] theorem readDef_hist (a : Agent) (s : State) : (readDef a s).hist = s.hist ++ [⟨a, .rd .dflt (.dflt s.regrec.dflt)⟩] := rfl
@[simp] theorem readDef_mem (a : Agent) (s : State) : (readDef a s).mem = s.mem := rfl
@[simp] theorem readDef_env (a : Agent) (s : State) : (readDef a s).env = s.env := rfl

/-! ### readFmt -/

@[simp] theorem readFmt_params (a : Agent) (cs : Cs) (s : State) : (readFmt a cs s).params = s.params := rfl
@[simp] theorem readFmt_portQ (a : Agent) (cs : Cs) (s : State) : (readFmt a cs s).portQ = s.portQ := rfl
@[simp] theorem readFmt_portF (a : Agent) (cs : Cs) (s : State) : (readFmt a cs s).portF = s.portF := rfl
@[simp] theorem readFmt_portP (a : Agent) (cs : Cs) (s : State) : (readFmt a cs s).portP = s.portP := rfl
@[simp] theorem readFmt_seqQ (a : Agent) (cs : Cs) (s : State) : (readFmt a cs s).seqQ = s.seqQ := rfl
@[simp] theorem readFmt_seqF (a : Agent) (cs : Cs) (s : State) : (readFmt a cs s).seqF = s.seqF := rfl
@[simp] theorem readFmt_seqP (a : Agent) (cs : Cs) (s : State) : (readFmt a cs s).seqP = s.seqP := rfl
@[simp] theorem readFmt_seqH (a : Agent) (cs : Cs) (s : State) : (readFmt a cs s).seqH = s.seqH := rfl
@[simp] theorem readFmt_seqTx (a : Agent) (cs : Cs) (s : State) : (readFmt a cs s).seqTx = s.seqTx := rfl
@[simp] theorem readFmt_seqRx (a : Agent) (cs : Cs) (s : State) : (readFmt a cs s).seqRx = s.seqRx := rfl
@[simp] theorem readFmt_inUse (a : Agent) (cs : Cs) (s : State) : (readFmt a cs s).inUse = s.inUse := rfl
@[simp] theorem readFmt_done (a : Agent) (cs : Cs) (s : State) : (readFmt a cs s).done = s.done := rfl
@[simp] theorem readFmt_suspended (a : Agent) (cs : Cs) (s : State) : (readFmt a cs s).suspended = s.suspended := rfl
@[simp] theorem readFmt_clkOn (a : Agent) (cs : Cs) (s : State) : (readFmt a cs s).clkOn = s.clkOn := rfl
@[simp] theorem readFmt_clkRate (a : Agent) (cs : Cs) (s : State) : (readFmt a cs s).clkRate = s.clkRate := rfl
@[simp] theorem readFmt_regrec (a : Agent) (cs : Cs) (s : State) : (readFmt a cs s).regrec = s.regrec := rfl
@[simp] theorem readFmt_slave (a : Agent) (cs : Cs) (s : State) : (readFmt a cs s).slave = s.slave := rfl
@[simp] theorem readFmt_dma (a : Agent) (cs : Cs) (s : State) : (readFmt a cs s).dma = s.dma := rfl
@[simp] theorem readFmt_active (a : Agent) (cs : Cs) (s : State) : (readFmt a cs s).active = s.active := rfl
@[simp] theorem readFmt_xf (a : Agent) (cs : Cs) (s : State) : (readFmt a cs s).xf = s.xf := rfl
@[simp] theorem readFmt_fault (a : Agent) (cs : Cs) (s : State) : (readFmt a cs s).fault = s.fault := rfl
@[simp] theorem readFmt_hist (a : Agent) (cs : Cs) (s : State) : (readFmt a cs s).hist = s.hist ++ [⟨a, .rd (.fmt cs) (.fmt (fmtRec cs s))⟩] := rfl
@[simp] theorem readFmt_mem (a : Agent) (cs : Cs) (s : State) : (readFmt a cs s).mem = s.mem := rfl
@[simp] theorem readFmt_env (a : Agent) (cs : Cs) (s : State) : (readFmt a cs s).env = s.env := rfl

/-! ### readVolatile -/

@[simp] theorem readVolatile_params (a : Agent) (r : Reg) (s : State) : (readVolatile a r s).params = s.params := rfl
@[simp] theorem readVolatile_portQ (a : Agent) (r : Reg) (s : State) : (readVolatile a r s).portQ = s.portQ := rfl
@[simp] theorem readVolatile_portF (a : Agent) (r : Reg) (s : State) : (readVolatile a r s).portF = s.portF := rfl
@[simp] theorem readVolatile_portP (a : Agent) (r : Reg) (s : State) : (readVolatile a r s).portP = s.portP := rfl
@[simp] theorem readVolatile_seqQ (a : Agent) (r : Reg) (s : State) : (readVolatile a r s).seqQ = s.seqQ := rfl
@[simp] theorem readVolatile_seqF (a : Agent) (r : Reg) (s : State) : (readVolatile a r s).seqF = s.seqF := rfl
@[simp] theorem readVolatile_seqP (a : Agent) (r : Reg) (s : State) : (readVolatile a r s).seqP = s.seqP := rfl
@[simp] theorem readVolatile_seqH (a : Agent) (r : Reg) (s : State) : (readVolatile a r s).seqH = s.seqH := rfl
@[simp] theorem readVolatile_seqTx (a : Agent) (r : Reg) (s : State) : (readVolatile a r s).seqTx = s.seqTx := rfl
@[simp] theorem readVolatile_seqRx (a : Agent) (r : Reg) (s : State) : (readVolatile a r s).seqRx = s.seqRx := rfl
@[simp] theorem readVolatile_inUse (a : Agent) (r : Reg) (s : State) : (readVolatile a r s).inUse = s.inUse := rfl
@[simp] theorem readVolatile_done (a : Agent) (r : Reg) (s : State) : (readVolatile a r s).done = s.done := rfl
@[simp] theorem readVolatile_suspended (a : Agent) (r : Reg) (s : State) : (readVolatile a r s).suspended = s.suspended := rfl
@[simp] theorem readVolatile_clkOn (a : Agent) (r : Reg) (s : State) : (readVolatile a r s).clkOn = s.clkOn := rfl
@[simp] theorem readVolatile_clkRate (a : Agent) (r : Reg) (s : State) : (readVolatile a r s).clkRate = s.clkRate := rfl
@[simp] theorem readVolatile_regrec (a : Agent) (r : Reg) (s : State) : (readVolatile a r s).regrec = s.regrec := rfl
@[simp] theorem readVolatile_slave (a : Agent) (r : Reg) (s : State) : (readVolatile a r s).slave = s.slave := rfl
@[simp] theorem readVolatile_dma (a : Agent) (r : Reg) (s : State) : (readVolatile a r s).dma = s.dma := rfl
@[simp] theorem readVolatile_active (a : Agent) (r : Reg) (s : State) : (readVolatile a r s).active = s.active := rfl
@[simp] theorem readVolatile_xf (a : Agent) (r : Reg) (s : State) : (readVolatile a r s).xf = s.xf := rfl
@[simp] theorem readVolatile_fault (a : Agent) (r : Reg) (s : State) : (readVolatile a r s).fault = s.fault := rfl
@[simp] theorem readVolatile_hist (a : Agent) (r : Reg) (s : State) : (readVolatile a r s).hist = s.hist ++ [⟨a, .rd r (.word (nextWord s))⟩] := rfl
@[simp] theorem readVolatile_mem (a : Agent) (r : Reg) (s : State) : (readVolatile a r s).mem = s.mem := rfl
@[simp] theorem readVolatile_env (a : Agent) (r : Reg) (s : State) : (readVolatile a r s).env = envDropWord s.env := rfl

/-! ### writeGcr -/

@[simp] theorem writeGcr_params (a : Agent) (v : GcrRec) (s : State) : (writeGcr a v s).params = s.params := rfl
@[simp] theorem writeGcr_portQ (a : Agent) (v : GcrRec) (s : State) : (writeGcr a v s).portQ = s.portQ := rfl
@[simp] theorem writeGcr_portF (a : Agent) (v : GcrRec) (s : State) : (writeGcr a v s).portF = s.portF := rfl
@[simp] theorem writeGcr_portP (a : Agent) (v : GcrRec) (s : State) : (writeGcr a v s).portP = s.portP := rfl
@[simp] theorem writeGcr_seqQ (a : Agent) (v : GcrRec) (s : State) : (writeGcr a v s).seqQ = s.seqQ := rfl
@[simp] theorem writeGcr_seqF (a : Agent) (v : GcrRec) (s : State) : (writeGcr a v s).seqF = s.seqF := rfl
@[simp] theorem writeGcr_seqP (a : Agent) (v : GcrRec) (s : State) : (writeGcr a v s).seqP = s.seqP := rfl
@[simp] theorem writeGcr_seqH (a : Agent) (v : GcrRec) (s : State) : (writeGcr a v s).seqH = s.seqH := rfl
@[simp] theorem writeGcr_seqTx (a : Agent) (v : GcrRec) (s : State) : (writeGcr a v s).seqTx = s.seqTx := rfl
@[simp] theorem writeGcr_seqRx (a : Agent) (v : GcrRec) (s : State) : (writeGcr a v s).seqRx = s.seqRx := rfl
@[simp] theorem writeGcr_inUse (a : Agent) (v : GcrRec) (s : State) : (writeGcr a v s).inUse = s.inUse := rfl
@[simp] theorem writeGcr_done (a : Agent) (v : GcrRec) (s : State) : (writeGcr a v s).done = s.done := rfl
@[simp] theorem writeGcr_suspended (a : Agent) (v : GcrRec) (s : State) : (writeGcr a v s).suspended = s.suspended := rfl
@[simp] theorem writeGcr_clkOn (a : Agent) (v : GcrRec) (s : State) : (writeGcr a v s).clkOn = s.clkOn := rfl
@[simp] theorem writeGcr_clkRate (a : Agent) (v : GcrRec) (s : State) : (writeGcr a v s).clkRate = s.clkRate := rfl
@[simp] theorem writeGcr_regrec (a : Agent) (v : GcrRec) (s : State) : (writeGcr a v s).regrec = { s.regrec with gcr := v } := rfl
@[simp] theorem writeGcr_slave (a : Agent) (v : GcrRec) (s : State) : (writeGcr a v s).slave = s.slave := rfl
@[simp] theorem writeGcr_dma (a : Agent) (v : GcrRec) (s : State) : (writeGcr a v s).dma = s.dma := rfl
@[simp] theorem writeGcr_active (a : Agent) (v : GcrRec) (s : State) : (writeGcr a v s).active = s.active := rfl
@[simp] theorem writeGcr_xf (a : Agent) (v : GcrRec) (s : State) : (writeGcr a v s).xf = s.xf := rfl
@[simp] theorem writeGcr_fault (a : Agent) (v : GcrRec) (s : State) : (writeGcr a v s).fault = s.fault := rfl
@[simp] theorem writeGcr_hist (a : Agent) (v : GcrRec) (s : State) : (writeGcr a v s).hist = s.hist ++ [⟨a, .wr .gcr (.gcr v)⟩] := rfl
@[simp] theorem writeGcr_mem (a : Agent) (v : GcrRec) (s : State) : (writeGcr a v s).mem = s.mem := rfl
@[simp] theorem writeGcr_env (a : Agent) (v : GcrRec) (s : State) : (writeGcr a v s).env = s.env := rfl

/-! ### writeInt -/

@[simp] theorem writeInt_params (a : Agent) (v : IntRec) (s : State) : (writeInt a v s).params = s.params := rfl
@[simp] theorem writeInt_portQ (a : Agent) (v : IntRec) (s : State) : (writeInt a v s).portQ = s.portQ := rfl
@[simp] theorem writeInt_portF (a : Agent) (v : IntRec) (s : State) : (writeInt a v s).portF = s.portF := rfl
@[simp] theorem writeInt_portP (a : Agent) (v : IntRec) (s : State) : (writeInt a v s).portP = s.portP := rfl
@[simp] theorem writeInt_seqQ (a : Agent) (v : IntRec) (s : State) : (writeInt a v s).seqQ = s.seqQ := rfl
@[simp] theorem writeInt_seqF (a : Agent) (v : IntRec) (s : State) : (writeInt a v s).seqF = s.seqF := rfl
@[simp] theorem writeInt_seqP (a : Agent) (v : IntRec) (s : State) : (writeInt a v s).seqP = s.seqP := rfl
@[simp] theorem writeInt_seqH (a : Agent) (v : IntRec) (s : State) : (writeInt a v s).seqH = s.seqH := rfl
@[simp] theorem writeInt_seqTx (a : Agent) (v : IntRec) (s : State) : (writeInt a v s).seqTx = s.seqTx := rfl
@[simp] theorem writeInt_seqRx (a : Agent) (v : IntRec) (s : State) : (writeInt a v s).seqRx = s.seqRx := rfl
@[simp] theorem writeInt_inUse (a : Agent) (v : IntRec) (s : State) : (writeInt a v s).inUse = s.inUse := rfl
@[simp] theorem writeInt_done (a : Agent) (v : IntRec) (s : State) : (writeInt a v s).done = s.done := rfl
@[simp] theorem writeInt_suspended (a : Agent) (v : IntRec) (s : State) : (writeInt a v s).suspended = s.suspended := rfl
@[simp] theorem writeInt_clkOn (a : Agent) (v : IntRec) (s : State) : (writeInt a v s).clkOn = s.clkOn := rfl
@[simp] theorem writeInt_clkRate (a : Agent) (v : IntRec) (s : State) : (writeInt a v s).clkRate = s.clkRate := rfl
@[simp] theorem writeInt_regrec (a : Agent) (v : IntRec) (s : State) : (writeInt a v s).regrec = { s.regrec with int := v } := rfl
@[simp] theorem writeInt_slave (a : Agent) (v : IntRec) (s : State) : (writeInt a v s).slave = s.slave := rfl
@[simp] theorem writeInt_dma (a : Agent) (v : IntRec) (s : State) : (writeInt a v s).dma = s.dma := rfl
@[simp] theorem writeInt_active (a : Agent) (v : IntRec) (s : State) : (writeInt a v s).active = s.active := rfl
@[simp] theorem writeInt_xf (a : Agent) (v : IntRec) (s : State) : (writeInt a v s).xf = s.xf := rfl
@[simp] theorem writeInt_fault (a : Agent) (v : IntRec) (s : State) : (writeInt a v s).fault = s.fault := rfl
@[simp] theorem writeInt_hist (a : Agent) (v : IntRec) (s : State) : (writeInt a v s).hist = s.hist ++ [⟨a, .wr .int (.int v)⟩] := rfl
@[simp] theorem writeInt_mem (a : Agent) (v : IntRec) (s : State) : (writeInt a v s).mem = s.mem := rfl
@[simp] theorem writeInt_env (a : Agent) (v : IntRec) (s : State) : (writeInt a v s).env = s.env := rfl

/-! ### writePc -/

@[simp] theorem writePc_params (a : Agent) (v : PcRec) (s : State) : (writePc a v s).params = s.params := rfl
@[simp] theorem writePc_portQ (a : Agent) (v : PcRec) (s : State) : (writePc a v s).portQ = s.portQ := rfl
@[simp] theorem writePc_portF (a : Agent) (v : PcRec) (s : State) : (writePc a v s).portF = s.portF := rfl
@[simp] theorem writePc_portP (a : Agent) (v : PcRec) (s : State) : (writePc a v s).portP = s.portP := rfl
@[simp] theorem writePc_seqQ (a : Agent) (v : PcRec) (s : State) : (writePc a v s).seqQ = s.seqQ := rfl
@[simp] theorem writePc_seqF (a : Agent) (v : PcRec) (s : State) : (writePc a v s).seqF = s.seqF := rfl
@[simp] theorem writePc_seqP (a : Agent) (v : PcRec) (s : State) : (writePc a v s).seqP = s.seqP := rfl
@[simp] theorem writePc_seqH (a : Agent) (v : PcRec) (s : State) : (writePc a v s).seqH = s.seqH := rfl
@[simp] theorem writePc_seqTx (a : Agent) (v : PcRec) (s : State) : (writePc a v s).seqTx = s.seqTx := rfl
@[simp] theorem writePc_seqRx (a : Agent) (v : PcRec) (s : State) : (writePc a v s).seqRx = s.seqRx := rfl
@[simp] theorem writePc_inUse (a : Agent) (v : PcRec) (s : State) : (writePc a v s).inUse = s.inUse := rfl
@[simp] theorem writePc_done (a : Agent) (v : PcRec) (s : State) : (writePc a v s).done = s.done := rfl
@[simp] theorem writePc_suspended (a : Agent) (v : PcRec) (s : State) : (writePc a v s).suspended = s.suspended := rfl
@[simp] theorem writePc_clkOn (a : Agent) (v : PcRec) (s : State) : (writePc a v s).clkOn = s.clkOn := rfl
@[simp] theorem writePc_clkRate (a : Agent) (v : PcRec) (s : State) : (writePc a v s).clkRate = s.clkRate := rfl
@[simp] theorem writePc_regrec (a : Agent) (v : PcRec) (s : State) : (writePc a v s).regrec = { s.regrec with pc := v } := rfl
@[simp] theorem writePc_slave (a : Agent) (v : PcRec) (s : State) : (writePc a v s).slave = s.slave := rfl
@[simp] theorem writePc_dma (a : Agent) (v : PcRec) (s : State) : (writePc a v s).dma = s.dma := rfl
@[simp] theorem writePc_active (a : Agent) (v : PcRec) (s : State) : (writePc a v s).active = s.active := rfl
@[simp] theorem writePc_xf (a : Agent) (v : PcRec) (s : State) : (writePc a v s).xf = s.xf := rfl
@[simp] theorem writePc_fault (a : Agent) (v : PcRec) (s : State) : (writePc a v s).fault = s.fault := rfl
@[simp] theorem writePc_hist (a : Agent) (v : PcRec) (s : State) : (writePc a v s).hist = s.hist ++ [⟨a, .wr .pc (.pc v)⟩] := rfl
@[simp] theorem writePc_mem (a : Agent) (v : PcRec) (s : State) : (writePc a v s).mem = s.mem := rfl
@[simp] theorem writePc_env (a : Agent) (v : PcRec) (s : State) : (writePc a v s).env = s.env := rfl

/-! ### writeDef -/

@[simp] theorem writeDef_params (a : Agent) (v : DefRec) (s : State) : (writeDef a v s).params = s.params := rfl
@[simp] theorem writeDef_portQ (a : Agent) (v : DefRec) (s : State) : (writeDef a v s).portQ = s.portQ := rfl
@[simp] theorem writeDef_portF (a : Agent) (v : DefRec) (s : State) : (writeDef a v s).portF = s.portF := rfl
@[simp] theorem writeDef_portP (a : Agent) (v : DefRec) (s : State) : (writeDef a v s).portP = s.portP := rfl
@[simp] theorem writeDef_seqQ (a : Agent) (v : DefRec) (s : State) : (writeDef a v s).seqQ = s.seqQ := rfl
@[simp] theorem writeDef_seqF (a : Agent) (v : DefRec) (s : State) : (writeDef a v s).seqF = s.seqF := rfl
@[simp] theorem writeDef_seqP (a : Agent) (v : DefRec) (s : State) : (writeDef a v s).seqP = s.seqP := rfl
@[simp] theorem writeDef_seqH (a : Agent) (v : DefRec) (s : State) : (writeDef a v s).seqH = s.seqH := rfl
@[simp] theorem writeDef_seqTx (a : Agent) (v : DefRec) (s : State) : (writeDef a v s).seqTx = s.seqTx := rfl
@[simp] theorem writeDef_seqRx (a : Agent) (v : DefRec) (s : State) : (writeDef a v s).seqRx = s.seqRx := rfl
@[simp] theorem writeDef_inUse (a : Agent) (v : DefRec) (s : State) : (writeDef a v s).inUse = s.inUse := rfl
@[simp] theorem writeDef_done (a : Agent) (v : DefRec) (s : State) : (writeDef a v s).done = s.done := rfl
@[simp] theorem writeDef_suspended (a : Agent) (v : DefRec) (s : State) : (writeDef a v s).suspended = s.suspended := rfl
@[simp] theorem writeDef_clkOn (a : Agent) (v : DefRec) (s : State) : (writeDef a v s).clkOn = s.clkOn := rfl
@[simp] theorem writeDef_clkRate (a : Agent) (v : DefRec) (s : State) : (writeDef a v s).clkRate = s.clkRate := rfl
@[simp] theorem writeDef_regrec (a : Agent) (v : DefRec) (s : State) : (writeDef a v s).regrec = { s.regrec with dflt := v } := rfl
@[simp] theorem writeDef_slave (a : Agent) (v : DefRec) (s : State) : (writeDef a v s).slave = s.slave := rfl
@[simp] theorem writeDef_dma (a : Agent) (v : DefRec) (s : State) : (writeDef a v s).dma = s.dma := rfl
@[simp] theorem writeDef_active (a : Agent) (v : DefRec) (s : State) : (writeDef a v s).active = s.active := rfl
@[simp] theorem writeDef_xf (a : Agent) (v : DefRec) (s : State) : (writeDef a v s).xf = s.xf := rfl
@[simp] theorem writeDef_fault (a : Agent) (v : DefRec) (s : State) : (writeDef a v s).fault = s.fault := rfl
@[simp] theorem writeDef_hist (a : Agent) (v : DefRec) (s : State) : (writeDef a v s).hist = s.hist ++ [⟨a, .wr .dflt (.dflt v)⟩] := rfl
@[simp] theorem writeDef_mem (a : Agent) (v : DefRec) (s : State) : (writeDef a v s).mem = s.mem := rfl
@[simp] theorem writeDef_env (a : Agent) (v : DefRec) (s : State) : (writeDef a v s).env = s.env := rfl

/-! ### writeFmt -/

@[simp] theorem writeFmt_params (a : Agent) (cs : Cs) (v : FmtRec) (s : State) : (writeFmt a cs v s).params = s.params := rfl
@[simp] theorem writeFmt_portQ (a : Agent) (cs : Cs) (v : FmtRec) (s : State) : (writeFmt a cs v s).portQ = s.portQ := rfl
@[simp] theorem writeFmt_portF (a : Agent) (cs : Cs) (v : FmtRec) (s : State) : (writeFmt a cs v s).portF = s.portF := rfl
@[simp] theorem writeFmt_portP (a : Agent) (cs : Cs) (v : FmtRec) (s : State) : (writeFmt a cs v s).portP = s.portP := rfl
@[simp] theorem writeFmt_seqQ (a : Agent) (cs : Cs) (v : FmtRec) (s : State) : (writeFmt a cs v s).seqQ = s.seqQ := rfl
@[simp] theorem writeFmt_seqF (a : Agent) (cs : Cs) (v : FmtRec) (s : State) : (writeFmt a cs v s).seqF = s.seqF := rfl
@[simp] theorem writeFmt_seqP (a : Agent) (cs : Cs) (v : FmtRec) (s : State) : (writeFmt a cs v s).seqP = s.seqP := rfl
@[simp] theorem writeFmt_seqH (a : Agent) (cs : Cs) (v : FmtRec) (s : State) : (writeFmt a cs v s).seqH = s.seqH := rfl
@[simp] theorem writeFmt_seqTx (a : Agent) (cs : Cs) (v : FmtRec) (s : State) : (writeFmt a cs v s).seqTx = s.seqTx := rfl
@[simp] theorem writeFmt_seqRx (a : Agent) (cs : Cs) (v : FmtRec) (s : State) : (writeFmt a cs v s).seqRx = s.seqRx := rfl
@[simp] theorem writeFmt_inUse (a : Agent) (cs : Cs) (v : FmtRec) (s : State) : (writeFmt a cs v s).inUse = s.inUse := rfl
@[simp] theorem writeFmt_done (a : Agent) (cs : Cs) (v : FmtRec) (s : State) : (writeFmt a cs v s).done = s.done := rfl
@[simp] theorem writeFmt_suspended (a : Agent) (cs : Cs) (v : FmtRec) (s : State) : (writeFmt a cs v s).suspended = s.suspended := rfl
@[simp] theorem writeFmt_clkOn (a : Agent) (cs : Cs) (v : FmtRec) (s : State) : (writeFmt a cs v s).clkOn = s.clkOn := rfl
@[simp] theorem writeFmt_clkRate (a : Agent) (cs : Cs) (v : FmtRec) (s : State) : (writeFmt a cs v s).clkRate = s.clkRate := rfl
@[simp] theorem writeFmt_regrec (a : Agent) (cs : Cs) (v : FmtRec) (s : State) : (writeFmt a cs v s).regrec = { s.regrec with fmt := csSet s.regrec.fmt cs v } := rfl
@[simp] theorem writeFmt_slave (a : Agent) (cs : Cs) (v : FmtRec) (s : State) : (writeFmt a cs v s).slave = s.slave := rfl
@[simp] theorem writeFmt_dma (a : Agent) (cs : Cs) (v : FmtRec) (s : State) : (writeFmt a cs v s).dma = s.dma := rfl
@[simp] theorem writeFmt_active (a : Agent) (cs : Cs) (v : FmtRec) (s : State) : (writeFmt a cs v s).active = s.active := rfl
@[simp] theorem writeFmt_xf (a : Agent) (cs : Cs) (v : FmtRec) (s : State) : (writeFmt a cs v s).xf = s.xf := rfl
@[simp] theorem writeFmt_fault (a : Agent) (cs : Cs) (v : FmtRec) (s : State) : (writeFmt a cs v s).fault = s.fault := rfl
@[simp] theorem writeFmt_hist (a : Agent) (cs : Cs) (v : FmtRec) (s : State) : (writeFmt a cs v s).hist = s.hist ++ [⟨a, .wr (.fmt cs) (.fmt v)⟩] := rfl
@[simp] theorem writeFmt_mem (a : Agent) (cs : Cs) (v : FmtRec) (s : State) : (writeFmt a cs v s).mem = s.mem := rfl
@[simp] theorem writeFmt_env (a : Agent) (cs : Cs) (v : FmtRec) (s : State) : (writeFmt a cs v s).env = s.env := rfl

/-! ### writeDelay -/

@[simp] theorem writeDelay_params (a : Agent) (v : Word) (s : State) : (writeDelay a v s).params = s.params := rfl
@[simp] theorem writeDelay_portQ (a : Agent) (v : Word) (s : State) : (writeDelay a v s).portQ = s.portQ := rfl
@[simp] theorem writeDelay_portF (a : Agent) (v : Word) (s : State) : (writeDelay a v s).portF = s.portF := rfl
@[simp] theorem writeDelay_portP (a : Agent) (v : Word) (s : State) : (writeDelay a v s).portP = s.portP := rfl
@[simp] theorem writeDelay_seqQ (a : Agent) (v : Word) (s : State) : (writeDelay a v s).seqQ = s.seqQ := rfl
@[simp] theorem writeDelay_seqF (a : Agent) (v : Word) (s : State) : (writeDelay a v s).seqF = s.seqF := rfl
@[simp] theorem writeDelay_seqP (a : Agent) (v : Word) (s : State) : (writeDelay a v s).seqP = s.seqP := rfl
@[simp] theorem writeDelay_seqH (a : Agent) (v : Word) (s : State) : (writeDelay a v s).seqH = s.seqH := rfl
@[simp] theorem writeDelay_seqTx (a : Agent) (v : Word) (s : State) : (writeDelay a v s).seqTx = s.seqTx := rfl
@[simp] theorem writeDelay_seqRx (a : Agent) (v : Word) (s : State) : (writeDelay a v s).seqRx = s.seqRx := rfl
@[simp] theorem writeDelay_inUse (a : Agent) (v : Word) (s : State) : (writeDelay a v s).inUse = s.inUse := rfl
@[simp] theorem writeDelay_done (a : Agent) (v : Word) (s : State) : (writeDelay a v s).done = s.done := rfl
@[simp] theorem writeDelay_suspended (a : Agent) (v : Word) (s : State) : (writeDelay a v s).suspended = s.suspended := rfl
@[simp] theorem writeDelay_clkOn (a : Agent) (v : Word) (s : State) : (writeDelay a v s).clkOn = s.clkOn := rfl
@[simp] theorem writeDelay_clkRate (a : Agent) (v : Word) (s : State) : (writeDelay a v s).clkRate = s.clkRate := rfl
@[simp] theorem writeDelay_regrec (a : Agent) (v : Word) (s : State) : (writeDelay a v s).regrec = { s.regrec with delay := some v } := rfl
@[simp] theorem writeDelay_slave (a : Agent) (v : Word) (s : State) : (writeDelay a v s).slave = s.slave := rfl
@[simp] theorem writeDelay_dma (a : Agent) (v : Word) (s : State) : (writeDelay a v s).dma = s.dma := rfl
@[simp] theorem writeDelay_active (a : Agent) (v : Word) (s : State) : (writeDelay a v s).active = s.active := rfl
@[simp] theorem writeDelay_xf (a : Agent) (v : Word) (s : State) : (writeDelay a v s).xf = s.xf := rfl
@[simp] theorem writeDelay_fault (a : Agent) (v : Word) (s : State) : (writeDelay a v s).fault = s.fault := rfl
@[simp] theorem writeDelay_hist (a : Agent) (v : Word) (s : State) : (writeDelay a v s).hist = s.hist ++ [⟨a, .wr .delay (.delay (some v))⟩] := rfl
@[simp] theorem writeDelay_mem (a : Agent) (v : Word) (s : State) : (writeDelay a v s).mem = s.mem := rfl
@[simp] theorem writeDelay_env (a : Agent) (v : Word) (s : State) : (writeDelay a v s).env = s.env := rfl

/-! ### writeDat -/

@[simp] theorem writeDat_params (a : Agent) (v : Word) (s : State) : (writeDat a v s).params = s.params := rfl
@[simp] theorem writeDat_portQ (a : Agent) (v : Word) (s : State) : (writeDat a v s).portQ = s.portQ := rfl
@[simp] theorem writeDat_portF (a : Agent) (v : Word) (s : State) : (writeDat a v s).portF = s.portF := rfl
@[simp] theorem writeDat_portP (a : Agent) (v : Word) (s : State) : (writeDat a v s).portP = s.portP := rfl
@[simp] theorem writeDat_seqQ (a : Agent) (v : Word) (s : State) : (writeDat a v s).seqQ = s.seqQ := rfl
@[simp] theorem writeDat_seqF (a : Agent) (v : Word) (s : State) : (writeDat a v s).seqF = s.seqF := rfl
@[simp] theorem writeDat_seqP (a : Agent) (v : Word) (s : State) : (writeDat a v s).seqP = s.seqP := rfl
@[simp] theorem writeDat_seqH (a : Agent) (v : Word) (s : State) : (writeDat a v s).seqH = s.seqH := rfl
@[simp] theorem writeDat_seqTx (a : Agent) (v : Word) (s : State) : (writeDat a v s).seqTx = s.seqTx := rfl
@[simp] theorem writeDat_seqRx (a : Agent) (v : Word) (s : State) : (writeDat a v s).seqRx = s.seqRx := rfl
@[simp] theorem writeDat_inUse (a : Agent) (v : Word) (s : State) : (writeDat a v s).inUse = s.inUse := rfl
@[simp] theorem writeDat_done (a : Agent) (v : Word) (s : State) : (writeDat a v s).done = s.done := rfl
@[simp] theorem writeDat_suspended (a : Agent) (v : Word) (s : State) : (writeDat a v s).suspended = s.suspended := rfl
@[simp] theorem writeDat_clkOn (a : Agent) (v : Word) (s : State) : (writeDat a v s).clkOn = s.clkOn := rfl
@[simp] theorem writeDat_clkRate (a : Agent) (v : Word) (s : State) : (writeDat a v s).clkRate = s.clkRate := rfl
@[simp] theorem writeDat_regrec (a : Agent) (v : Word) (s : State) : (writeDat a v s).regrec = { s.regrec with dat := some v } := rfl
@[simp] theorem writeDat_slave (a : Agent) (v : Word) (s : State) : (writeDat a v s).slave = s.slave := rfl
@[simp] theorem writeDat_dma (a : Agent) (v : Word) (s : State) : (writeDat a v s).dma = s.dma := rfl
@[simp] theorem writeDat_active (a : Agent) (v : Word) (s : State) : (writeDat a v s).active = s.active := rfl
@[simp] theorem writeDat_xf (a : Agent) (v : Word) (s : State) : (writeDat a v s).xf = s.xf := rfl
@[simp] theorem writeDat_fault (a : Agent) (v : Word) (s : State) : (writeDat a v s).fault = s.fault := rfl
@[simp] theorem writeDat_hist (a : Agent) (v : Word) (s : State) : (writeDat a v s).hist = s.hist ++ [⟨a, .wr .dat (.word v)⟩] := rfl
@[simp] theorem writeDat_mem (a : Agent) (v : Word) (s : State) : (writeDat a v s).mem = s.mem := rfl
@[simp] theorem writeDat_env (a : Agent) (v : Word) (s : State) : (writeDat a v s).env = s.env := rfl

/-! ### hostRead -/

@[simp] theorem hostRead_params (a : Agent) (x n : Nat) (s : State) : (hostRead a x n s).params = s.params := rfl
@[simp] theorem hostRead_portQ (a : Agent) (x n : Nat) (s : State) : (hostRead a x n s).portQ = s.portQ := rfl
@[simp] theorem hostRead_portF (a : Agent) (x n : Nat) (s : State) : (hostRead a x n s).portF = s.portF := rfl
@[simp] theorem hostRead_portP (a : Agent) (x n : Nat) (s : State) : (hostRead a x n s).portP = s.portP := rfl
@[simp] theorem hostRead_seqQ (a : Agent) (x n : Nat) (s : State) : (hostRead a x n s).seqQ = s.seqQ := rfl
@[simp] theorem hostRead_seqF (a : Agent) (x n : Nat) (s : State) : (hostRead a x n s).seqF = s.seqF := rfl
@[simp] theorem hostRead_seqP (a : Agent) (x n : Nat) (s : State) : (hostRead a x n s).seqP = s.seqP := rfl
@[simp] theorem hostRead_seqH (a : Agent) (x n : Nat) (s : State) : (hostRead a x n s).seqH = s.seqH := rfl
@[simp] theorem hostRead_seqTx (a : Agent) (x n : Nat) (s : State) : (hostRead a x n s).seqTx = s.seqTx := rfl
@[simp] theorem hostRead_seqRx (a : Agent) (x n : Nat) (s : State) : (hostRead a x n s).seqRx = s.seqRx := rfl
@[simp] theorem hostRead_inUse (a : Agent) (x n : Nat) (s : State) : (hostRead a x n s).inUse = s.inUse := rfl
@[simp] theorem hostRead_done (a : Agent) (x n : Nat) (s : State) : (hostRead a x n s).done = s.done := rfl
@[simp] theorem hostRead_suspended (a : Agent) (x n : Nat) (s : State) : (hostRead a x n s).suspended = s.suspended := rfl
@[simp] theorem hostRead_clkOn (a : Agent) (x n : Nat) (s : State) : (hostRead a x n s).clkOn = s.clkOn := rfl
@[simp] theorem hostRead_clkRate (a : Agent) (x n : Nat) (s : State) : (hostRead a x n s).clkRate = s.clkRate := rfl
@[simp] theorem hostRead_regrec (a : Agent) (x n : Nat) (s : State) : (hostRead a x n s).regrec = s.regrec := rfl
@[simp] theorem hostRead_slave (a : Agent) (x n : Nat) (s : State) : (hostRead a x n s).slave = s.slave := rfl
@[simp] theorem hostRead_dma (a : Agent) (x n : Nat) (s : State) : (hostRead a x n s).dma = s.dma := rfl
@[simp] theorem hostRead_active (a : Agent) (x n : Nat) (s : State) : (hostRead a x n s).active = s.active := rfl
@[simp] theorem hostRead_xf (a : Agent) (x n : Nat) (s : State) : (hostRead a x n s).xf = s.xf := rfl
@[simp] theorem hostRead_fault (a : Agent) (x n : Nat) (s : State) : (hostRead a x n s).fault = s.fault := rfl
@[simp] theorem hostRead_hist (a : Agent) (x n : Nat) (s : State) : (hostRead a x n s).hist = s.hist ++ [⟨a, .mrd x n (memRead s.mem x n)⟩] := rfl
@[simp] theorem hostRead_mem (a : Agent) (x n : Nat) (s : State) : (hostRead a x n s).mem = s.mem := rfl
@[simp] theorem hostRead_env (a : Agent) (x n : Nat) (s : State) : (hostRead a x n s).env = s.env := rfl

/-! ### hostWrite -/

@[simp] theorem hostWrite_params (a : Agent) (x n : Nat) (v : Half) (s : State) : (hostWrite a x n v s).params = s.params := rfl
@[simp] theorem hostWrite_portQ (a : Agent) (x n : Nat) (v : Half) (s : State) : (hostWrite a x n v s).portQ = s.portQ := rfl
@[simp] theorem hostWrite_portF (a : Agent) (x n : Nat) (v : Half) (s : State) : (hostWrite a x n v s).portF = s.portF := rfl
@[simp] theorem hostWrite_portP (a : Agent) (x n : Nat) (v : Half) (s : State) : (hostWrite a x n v s).portP = s.portP := rfl
@[simp] theorem hostWrite_seqQ (a : Agent) (x n : Nat) (v : Half) (s : State) : (hostWrite a x n v s).seqQ = s.seqQ := rfl
@[simp] theorem hostWrite_seqF (a : Agent) (x n : Nat) (v : Half) (s : State) : (hostWrite a x n v s).seqF = s.seqF := rfl
@[simp] theorem hostWrite_seqP (a : Agent) (x n : Nat) (v : Half) (s : State) : (hostWrite a x n v s).seqP = s.seqP := rfl
@[simp] theorem hostWrite_seqH (a : Agent) (x n : Nat) (v : Half) (s : State) : (hostWrite a x n v s).seqH = s.seqH := rfl
@[simp] theorem hostWrite_seqTx (a : Agent) (x n : Nat) (v : Half) (s : State) : (hostWrite a x n v s).seqTx = s.seqTx := rfl
@[simp] theorem hostWrite_seqRx (a : Agent) (x n : Nat) (v : Half) (s : State) : (hostWrite a x n v s).seqRx = s.seqRx := rfl
@[simp] theorem hostWrite_inUse (a : Agent) (x n : Nat) (v : Half) (s : State) : (hostWrite a x n v s).inUse = s.inUse := rfl
@[simp] theorem hostWrite_done (a : Agent) (x n : Nat) (v : Half) (s : State) : (hostWrite a x n v s).done = s.done := rfl
@[simp] theorem hostWrite_suspended (a : Agent) (x n : Nat) (v : Half) (s : State) : (hostWrite a x n v s).suspended = s.suspended := rfl
@[simp] theorem hostWrite_clkOn (a : Agent) (x n : Nat) (v : Half) (s : State) : (hostWrite a x n v s).clkOn = s.clkOn := rfl
@[simp] theorem hostWrite_clkRate (a : Agent) (x n : Nat) (v : Half) (s : State) : (hostWrite a x n v s).clkRate = s.clkRate := rfl
@[simp] theorem hostWrite_regrec (a : Agent) (x n : Nat) (v : Half) (s : State) : (hostWrite a x n v s).regrec = s.regrec := rfl
@[simp] theorem hostWrite_slave (a : Agent) (x n : Nat) (v : Half) (s : State) : (hostWrite a x n v s).slave = s.slave := rfl
@[simp] theorem hostWrite_dma (a : Agent) (x n : Nat) (v : Half) (s : State) : (hostWrite a x n v s).dma = s.dma := rfl
@[simp] theorem hostWrite_active (a : Agent) (x n : Nat) (v : Half) (s : State) : (hostWrite a x n v s).active = s.active := rfl
@[simp] theorem hostWrite_xf (a : Agent) (x n : Nat) (v : Half) (s : State) : (hostWrite a x n v s).xf = s.xf := rfl
@[simp] theorem hostWrite_fault (a : Agent) (x n : Nat) (v : Half) (s : State) : (hostWrite a x n v s).fault = s.fault := rfl
@[simp] theorem hostWrite_hist (a : Agent) (x n : Nat) (v : Half) (s : State) : (hostWrite a x n v s).hist = s.hist ++ [⟨a, .mwr x n (lowBytes n v)⟩] := rfl
@[simp] theorem hostWrite_mem (a : Agent) (x n : Nat) (v : Half) (s : State) : (hostWrite a x n v s).mem = memWrite s.mem x n v := rfl
@[simp] theorem hostWrite_env (a : Agent) (x n : Nat) (v : Half) (s : State) : (hostWrite a x n v s).env = s.env := rfl

/-! ### setSlave -/

@[simp] theorem setSlave_params (cs : Cs) (x : Option Slave) (s : State) : (setSlave cs x s).params = s.params := rfl
@[simp] theorem setSlave_portQ (cs : Cs) (x : Option Slave) (s : State) : (setSlave cs x s).portQ = s.portQ := rfl
@[simp] theorem setSlave_portF (cs : Cs) (x : Option Slave) (s : State) : (setSlave cs x s).portF = s.portF := rfl
@[simp] theorem setSlave_portP (cs : Cs) (x : Option Slave) (s : State) : (setSlave cs x s).portP = s.portP := rfl
@[simp] theorem setSlave_seqQ (cs : Cs) (x : Option Slave) (s : State) : (setSlave cs x s).seqQ = s.seqQ := rfl
@[simp] theorem setSlave_seqF (cs : Cs) (x : Option Slave) (s : State) : (setSlave cs x s).seqF = s.seqF := rfl
@[simp] theorem setSlave_seqP (cs : Cs) (x : Option Slave) (s : State) : (setSlave cs x s).seqP = s.seqP := rfl
@[simp] theorem setSlave_seqH (cs : Cs) (x : Option Slave) (s : State) : (setSlave cs x s).seqH = s.seqH := rfl
@[simp] theorem setSlave_seqTx (cs : Cs) (x : Option Slave) (s : State) : (setSlave cs x s).seqTx = s.seqTx := rfl
@[simp] theorem setSlave_seqRx (cs : Cs) (x : Option Slave) (s : State) : (setSlave cs x s).seqRx = s.seqRx := rfl
@[simp] theorem setSlave_inUse (cs : Cs) (x : Option Slave) (s : State) : (setSlave cs x s).inUse = s.inUse := rfl
@[simp] theorem setSlave_done (cs : Cs) (x : Option Slave) (s : State) : (setSlave cs x s).done = s.done := rfl
@[simp] theorem setSlave_suspended (cs : Cs) (x : Option Slave) (s : State) : (setSlave cs x s).suspended = s.suspended := rfl
@[simp] theorem setSlave_clkOn (cs : Cs) (x : Option Slave) (s : State) : (setSlave cs x s).clkOn = s.clkOn := rfl
@[simp] theorem setSlave_clkRate (cs : Cs) (x : Option Slave) (s : State) : (setSlave cs x s).clkRate = s.clkRate := rfl
@[simp] theorem setSlave_regrec (cs : Cs) (x : Option Slave) (s : State) : (setSlave cs x s).regrec = s.regrec := rfl
@[simp] theorem setSlave_slave (cs : Cs) (x : Option Slave) (s : State) : (setSlave cs x s).slave = csSet s.slave cs x := rfl
@[simp] theorem setSlave_dma (cs : Cs) (x : Option Slave) (s : State) : (setSlave cs x s).dma = s.dma := rfl
@[simp] theorem setSlave_active (cs : Cs) (x : Option Slave) (s : State) : (setSlave cs x s).active = s.active := rfl
@[simp] theorem setSlave_xf (cs : Cs) (x : Option Slave) (s : State) : (setSlave cs x s).xf = s.xf := rfl
@[simp] theorem setSlave_fault (cs : Cs) (x : Option Slave) (s : State) : (setSlave cs x s).fault = s.fault := rfl
@[simp] theorem setSlave_hist (cs : Cs) (x : Option Slave) (s : State) : (setSlave cs x s).hist = s.hist := rfl
@[simp] theorem setSlave_mem (cs : Cs) (x : Option Slave) (s : State) : (setSlave cs x s).mem = s.mem := rfl
@[simp] theorem setSlave_env (cs : Cs) (x : Option Slave) (s : State) : (setSlave cs x s).env = s.env := rfl

/-! ### setDma -/

@[simp] theorem setDma_params (cs : Cs) (x : DmaEntry) (s : State) : (setDma cs x s).params = s.params := rfl
@[simp] theorem setDma_portQ (cs : Cs) (x : DmaEntry) (s : State) : (setDma cs x s).portQ = s.portQ := rfl
@[simp] theorem setDma_portF (cs : Cs) (x : DmaEntry) (s : State) : (setDma cs x s).portF = s.portF := rfl
@[simp] theorem setDma_portP (cs : Cs) (x : DmaEntry) (s : State) : (setDma cs x s).portP = s.portP := rfl
@[simp] theorem setDma_seqQ (cs : Cs) (x : DmaEntry) (s : State) : (setDma cs x s).seqQ = s.seqQ := rfl
@[simp] theorem setDma_seqF (cs : Cs) (x : DmaEntry) (s : State) : (setDma cs x s).seqF = s.seqF := rfl
@[simp] theorem setDma_seqP (cs : Cs) (x : DmaEntry) (s : State) : (setDma cs x s).seqP = s.seqP := rfl
@[simp] theorem setDma_seqH (cs : Cs) (x : DmaEntry) (s : State) : (setDma cs x s).seqH = s.seqH := rfl
@[simp] theorem setDma_seqTx (cs : Cs) (x : DmaEntry) (s : State) : (setDma cs x s).seqTx = s.seqTx := rfl
@[simp] theorem setDma_seqRx (cs : Cs) (x : DmaEntry) (s : State) : (setDma cs x s).seqRx = s.seqRx := rfl
@[simp] theorem setDma_inUse (cs : Cs) (x : DmaEntry) (s : State) : (setDma cs x s).inUse = s.inUse := rfl
@[simp] theorem setDma_done (cs : Cs) (x : DmaEntry) (s : State) : (setDma cs x s).done = s.done := rfl
@[simp] theorem setDma_suspended (cs : Cs) (x : DmaEntry) (s : State) : (setDma cs x s).suspended = s.suspended := rfl
@[simp] theorem setDma_clkOn (cs : Cs) (x : DmaEntry) (s : State) : (setDma cs x s).clkOn = s.clkOn := rfl
@[simp] theorem setDma_clkRate (cs : Cs) (x : DmaEntry) (s : State) : (setDma cs x s).clkRate = s.clkRate := rfl
@[simp] theorem setDma_regrec (cs : Cs) (x : DmaEntry) (s : State) : (setDma cs x s).regrec = s.regrec := rfl
@[simp] theorem setDma_slave (cs : Cs) (x : DmaEntry) (s : State) : (setDma cs x s).slave = s.slave := rfl
@[simp] theorem setDma_dma (cs : Cs) (x : DmaEntry) (s : State) : (setDma cs x s).dma = csSet s.dma cs x := rfl
@[simp] theorem setDma_active (cs : Cs) (x : DmaEntry) (s : State) : (setDma cs x s).active = s.active := rfl
@[simp] theorem setDma_xf (cs : Cs) (x : DmaEntry) (s : State) : (setDma cs x s).xf = s.xf := rfl
@[simp] theorem setDma_fault (cs : Cs) (x : DmaEntry) (s : State) : (setDma cs x s).fault = s.fault := rfl
@[simp] theorem setDma_hist (cs : Cs) (x : DmaEntry) (s : State) : (setDma cs x s).hist = s.hist := rfl
@[simp] theorem setDma_mem (cs : Cs) (x : DmaEntry) (s : State) : (setDma cs x s).mem = s.mem := rfl
@[simp] theorem setDma_env (cs : Cs) (x : DmaEntry) (s : State) : (setDma cs x s).env = s.env := rfl

/-! ### dmaAlloc -/

@[simp] theorem dmaAlloc_params (d : Dir) (cs : Cs) (s : State) : (dmaAlloc d cs s).params = s.params := rfl
@[simp] theorem dmaAlloc_portQ (d : Dir) (cs : Cs) (s : State) : (dmaAlloc d cs s).portQ = s.portQ := rfl
@[simp] theorem dmaAlloc_portF (d : Dir) (cs : Cs) (s : State) : (dmaAlloc d cs s).portF = s.portF := rfl
@[simp] theorem dmaAlloc_portP (d : Dir) (cs : Cs) (s : State) : (dmaAlloc d cs s).portP = s.portP := rfl
@[simp] theorem dmaAlloc_seqQ (d : Dir) (cs : Cs) (s : State) : (dmaAlloc d cs s).seqQ = s.seqQ := rfl
@[simp] theorem dmaAlloc_seqF (d : Dir) (cs : Cs) (s : State) : (dmaAlloc d cs s).seqF = s.seqF := rfl
@[simp] theorem dmaAlloc_seqP (d : Dir) (cs : Cs) (s : State) : (dmaAlloc d cs s).seqP = s.seqP := rfl
@[simp] theorem dmaAlloc_seqH (d : Dir) (cs : Cs) (s : State) : (dmaAlloc d cs s).seqH = s.seqH := rfl
@[simp] theorem dmaAlloc_seqTx (d : Dir) (cs : Cs) (s : State) : (dmaAlloc d cs s).seqTx = s.seqTx := rfl
@[simp] theorem dmaAlloc_seqRx (d : Dir) (cs : Cs) (s : State) : (dmaAlloc d cs s).seqRx = s.seqRx := rfl
@[simp] theorem dmaAlloc_inUse (d : Dir) (cs : Cs) (s : State) : (dmaAlloc d cs s).inUse = s.inUse := rfl
@[simp] theorem dmaAlloc_done (d : Dir) (cs : Cs) (s : State) : (dmaAlloc d cs s).done = s.done := rfl
@[simp] theorem dmaAlloc_suspended (d : Dir) (cs : Cs) (s : State) : (dmaAlloc d cs s).suspended = s.suspended := rfl
@[simp] theorem dmaAlloc_clkOn (d : Dir) (cs : Cs) (s : State) : (dmaAlloc d cs s).clkOn = s.clkOn := rfl
@[simp] theorem dmaAlloc_clkRate (d : Dir) (cs : Cs) (s : State) : (dmaAlloc d cs s).clkRate = s.clkRate := rfl
@[simp] theorem dmaAlloc_regrec (d : Dir) (cs : Cs) (s : State) : (dmaAlloc d cs s).regrec = s.regrec := rfl
@[simp] theorem dmaAlloc_slave (d : Dir) (cs : Cs) (s : State) : (dmaAlloc d cs s).slave = s.slave := rfl
@[simp] theorem dmaAlloc_dma (d : Dir) (cs : Cs) (s : State) : (dmaAlloc d cs s).dma = s.dma := rfl
@[simp] theorem dmaAlloc_active (d : Dir) (cs : Cs) (s : State) : (dmaAlloc d cs s).active = s.active := rfl
@[simp] theorem dmaAlloc_xf (d : Dir) (cs : Cs) (s : State) : (dmaAlloc d cs s).xf = s.xf := rfl
@[simp] theorem dmaAlloc_fault (d : Dir) (cs : Cs) (s : State) : (dmaAlloc d cs s).fault = s.fault := rfl
@[simp] theorem dmaAlloc_hist (d : Dir) (cs : Cs) (s : State) : (dmaAlloc d cs s).hist = s.hist ++ [⟨.queue, .dalloc d cs (nextAlloc s)⟩] := rfl
@[simp] theorem dmaAlloc_mem (d : Dir) (cs : Cs) (s : State) : (dmaAlloc d cs s).mem = s.mem := rfl
@[simp] theorem dmaAlloc_env (d : Dir) (cs : Cs) (s : State) : (dmaAlloc d cs s).env = envDropAlloc s.env := rfl

/-! ### dmaFree -/

@[simp] theorem dmaFree_params (ch : ChanId) (s : State) : (dmaFree ch s).params = s.params := rfl
@[simp] theorem dmaFree_portQ (ch : ChanId) (s : State) : (dmaFree ch s).portQ = s.portQ := rfl
@[simp] theorem dmaFree_portF (ch : ChanId) (s : State) : (dmaFree ch s).portF = s.portF := rfl
@[simp] theorem dmaFree_portP (ch : ChanId) (s : State) : (dmaFree ch s).portP = s.portP := rfl
@[simp] theorem dmaFree_seqQ (ch : ChanId) (s : State) : (dmaFree ch s).seqQ = s.seqQ := rfl
@[simp] theorem dmaFree_seqF (ch : ChanId) (s : State) : (dmaFree ch s).seqF = s.seqF := rfl
@[simp] theorem dmaFree_seqP (ch : ChanId) (s : State) : (dmaFree ch s).seqP = s.seqP := rfl
@[simp] theorem dmaFree_seqH (ch : ChanId) (s : State) : (dmaFree ch s).seqH = s.seqH := rfl
@[simp] theorem dmaFree_seqTx (ch : ChanId) (s : State) : (dmaFree ch s).seqTx = s.seqTx := rfl
@[simp] theorem dmaFree_seqRx (ch : ChanId) (s : State) : (dmaFree ch s).seqRx = s.seqRx := rfl
@[simp] theorem dmaFree_inUse (ch : ChanId) (s : State) : (dmaFree ch s).inUse = s.inUse := rfl
@[simp] theorem dmaFree_done (ch : ChanId) (s : State) : (dmaFree ch s).done = s.done := rfl
@[simp] theorem dmaFree_suspended (ch : ChanId) (s : State) : (dmaFree ch s).suspended = s.suspended := rfl
@[simp] theorem dmaFree_clkOn (ch : ChanId) (s : State) : (dmaFree ch s).clkOn = s.clkOn := rfl
@[simp] theorem dmaFree_clkRate (ch : ChanId) (s : State) : (dmaFree ch s).clkRate = s.clkRate := rfl
@[simp] theorem dmaFree_regrec (ch : ChanId) (s : State) : (dmaFree ch s).regrec = s.regrec := rfl
@[simp] theorem dmaFree_slave (ch : ChanId) (s : State) : (dmaFree ch s).slave = s.slave := rfl
@[simp] theorem dmaFree_dma (ch : ChanId) (s : State) : (dmaFree ch s).dma = s.dma := rfl
@[simp] theorem dmaFree_active (ch : ChanId) (s : State) : (dmaFree ch s).active = s.active := rfl
@[simp] theorem dmaFree_xf (ch : ChanId) (s : State) : (dmaFree ch s).xf = s.xf := rfl
@[simp] theorem dmaFree_fault (ch : ChanId) (s : State) : (dmaFree ch s).fault = s.fault := rfl
@[simp] theorem dmaFree_hist (ch : ChanId) (s : State) : (dmaFree ch s).hist = s.hist ++ [⟨.queue, .dfree ch⟩] := rfl
@[simp] theorem dmaFree_mem (ch : ChanId) (s : State) : (dmaFree ch s).mem = s.mem := rfl
@[simp] theorem dmaFree_env (ch : ChanId) (s : State) : (dmaFree ch s).env = s.env := rfl

/-! ### dmaStart -/

@[simp] theorem dmaStart_params (ch : ChanId) (s : State) : (dmaStart ch s).params = s.params := rfl
@[simp] theorem dmaStart_portQ (ch : ChanId) (s : State) : (dmaStart ch s).portQ = s.portQ := rfl
@[simp] theorem dmaStart_portF (ch : ChanId) (s : State) : (dmaStart ch s).portF = s.portF := rfl
@[simp] theorem dmaStart_portP (ch : ChanId) (s : State) : (dmaStart ch s).portP = s.portP := rfl
@[simp] theorem dmaStart_seqQ (ch : ChanId) (s : State) : (dmaStart ch s).seqQ = s.seqQ := rfl
@[simp] theorem dmaStart_seqF (ch : ChanId) (s : State) : (dmaStart ch s).seqF = s.seqF := rfl
@[simp] theorem dmaStart_seqP (ch : ChanId) (s : State) : (dmaStart ch s).seqP = s.seqP := rfl
@[simp] theorem dmaStart_seqH (ch : ChanId) (s : State) : (dmaStart ch s).seqH = s.seqH := rfl
@[simp] theorem dmaStart_seqTx (ch : ChanId) (s : State) : (dmaStart ch s).seqTx = s.seqTx := rfl
@[simp] theorem dmaStart_seqRx (ch : ChanId) (s : State) : (dmaStart ch s).seqRx = s.seqRx := rfl
@[simp] theorem dmaStart_inUse (ch : ChanId) (s : State) : (dmaStart ch s).inUse = s.inUse := rfl
@[simp] theorem dmaStart_done (ch : ChanId) (s : State) : (dmaStart ch s).done = s.done := rfl
@[simp] theorem dmaStart_suspended (ch : ChanId) (s : State) : (dmaStart ch s).suspended = s.suspended := rfl
@[simp] theorem dmaStart_clkOn (ch : ChanId) (s : State) : (dmaStart ch s).clkOn = s.clkOn := rfl
@[simp] theorem dmaStart_clkRate (ch : ChanId) (s : State) : (dmaStart ch s).clkRate = s.clkRate := rfl
@[simp] theorem dmaStart_regrec (ch : ChanId) (s : State) : (dmaStart ch s).regrec = s.regrec := rfl
@[simp] theorem dmaStart_slave (ch : ChanId) (s : State) : (dmaStart ch s).slave = s.slave := rfl
@[simp] theorem dmaStart_dma (ch : ChanId) (s : State) : (dmaStart ch s).dma = s.dma := rfl
@[simp] theorem dmaStart_active (ch : ChanId) (s : State) : (dmaStart ch s).active = insertChan ch s.active := rfl
@[simp] theorem dmaStart_xf (ch : ChanId) (s : State) : (dmaStart ch s).xf = s.xf := rfl
@[simp] theorem dmaStart_fault (ch : ChanId) (s : State) : (dmaStart ch s).fault = s.fault := rfl
@[simp] theorem dmaStart_hist (ch : ChanId) (s : State) : (dmaStart ch s).hist = s.hist ++ [⟨.queue, .dstart ch⟩] := rfl
@[simp] theorem dmaStart_mem (ch : ChanId) (s : State) : (dmaStart ch s).mem = s.mem := rfl
@[simp] theorem dmaStart_env (ch : ChanId) (s : State) : (dmaStart ch s).env = s.env := rfl

/-! ### dmaStop -/

@[simp] theorem dmaStop_params (a : Agent) (ch : ChanId) (s : State) : (dmaStop a ch s).params = s.params := rfl
@[simp] theorem dmaStop_portQ (a : Agent) (ch : ChanId) (s : State) : (dmaStop a ch s).portQ = s.portQ := rfl
@[simp] theorem dmaStop_portF (a : Agent) (ch : ChanId) (s : State) : (dmaStop a ch s).portF = s.portF := rfl
@[simp] theorem dmaStop_portP (a : Agent) (ch : ChanId) (s : State) : (dmaStop a ch s).portP = s.portP := rfl
@[simp] theorem dmaStop_seqQ (a : Agent) (ch : ChanId) (s : State) : (dmaStop a ch s).seqQ = s.seqQ := rfl
@[simp] theorem dmaStop_seqF (a : Agent) (ch : ChanId) (s : State) : (dmaStop a ch s).seqF = s.seqF := rfl
@[simp] theorem dmaStop_seqP (a : Agent) (ch : ChanId) (s : State) : (dmaStop a ch s).seqP = s.seqP := rfl
@[simp] theorem dmaStop_seqH (a : Agent) (ch : ChanId) (s : State) : (dmaStop a ch s).seqH = s.seqH := rfl
@[simp] theorem dmaStop_seqTx (a : Agent) (ch : ChanId) (s : State) : (dmaStop a ch s).seqTx = s.seqTx := rfl
@[simp] theorem dmaStop_seqRx (a : Agent) (ch : ChanId) (s : State) : (dmaStop a ch s).seqRx = s.seqRx := rfl
@[simp] theorem dmaStop_inUse (a : Agent) (ch : ChanId) (s : State) : (dmaStop a ch s).inUse = s.inUse := rfl
@[simp] theorem dmaStop_done (a : Agent) (ch : ChanId) (s : State) : (dmaStop a ch s).done = s.done := rfl
@[simp] theorem dmaStop_suspended (a : Agent) (ch : ChanId) (s : State) : (dmaStop a ch s).suspended = s.suspended := rfl
@[simp] theorem dmaStop_clkOn (a : Agent) (ch : ChanId) (s : State) : (dmaStop a ch s).clkOn = s.clkOn := rfl
@[simp] theorem dmaStop_clkRate (a : Agent) (ch : ChanId) (s : State) : (dmaStop a ch s).clkRate = s.clkRate := rfl
@[simp] theorem dmaStop_regrec (a : Agent) (ch : ChanId) (s : State) : (dmaStop a ch s).regrec = s.regrec := rfl
@[simp] theorem dmaStop_slave (a : Agent) (ch : ChanId) (s : State) : (dmaStop a ch s).slave = s.slave := rfl
@[simp] theorem dmaStop_dma (a : Agent) (ch : ChanId) (s : State) : (dmaStop a ch s).dma = s.dma := rfl
@[simp] theorem dmaStop_active (a : Agent) (ch : ChanId) (s : State) : (dmaStop a ch s).active = s.active.filter (fun x => x != ch) := rfl
@[simp] theorem dmaStop_xf (a : Agent) (ch : ChanId) (s : State) : (dmaStop a ch s).xf = s.xf := rfl
@[simp] theorem dmaStop_fault (a : Agent) (ch : ChanId) (s : State) : (dmaStop a ch s).fault = s.fault := rfl
@[simp] theorem dmaStop_hist (a : Agent) (ch : ChanId) (s : State) : (dmaStop a ch s).hist = s.hist ++ [⟨a, .dstop ch⟩] := rfl
@[simp] theorem dmaStop_mem (a : Agent) (ch : ChanId) (s : State) : (dmaStop a ch s).mem = s.mem := rfl
@[simp] theorem dmaStop_env (a : Agent) (ch : ChanId) (s : State) : (dmaStop a ch s).env = s.env := rfl

/-! ### dmaClean -/

@[simp] theorem dmaClean_params (a : Agent) (ch : ChanId) (s : State) : (dmaClean a ch s).params = s.params := rfl
@[simp] theorem dmaClean_portQ (a : Agent) (ch : ChanId) (s : State) : (dmaClean a ch s).portQ = s.portQ := rfl
@[simp] theorem dmaClean_portF (a : Agent) (ch : ChanId) (s : State) : (dmaClean a ch s).portF = s.portF := rfl
@[simp] theorem dmaClean_portP (a : Agent) (ch : ChanId) (s : State) : (dmaClean a ch s).portP = s.portP := rfl
@[simp] theorem dmaClean_seqQ (a : Agent) (ch : ChanId) (s : State) : (dmaClean a ch s).seqQ = s.seqQ := rfl
@[simp] theorem dmaClean_seqF (a : Agent) (ch : ChanId) (s : State) : (dmaClean a ch s).seqF = s.seqF := rfl
@[simp] theorem dmaClean_seqP (a : Agent) (ch : ChanId) (s : State) : (dmaClean a ch s).seqP = s.seqP := rfl
@[simp] theorem dmaClean_seqH (a : Agent) (ch : ChanId) (s : State) : (dmaClean a ch s).seqH = s.seqH := rfl
@[simp] theorem dmaClean_seqTx (a : Agent) (ch : ChanId) (s : State) : (dmaClean a ch s).seqTx = s.seqTx := rfl
@[simp] theorem dmaClean_seqRx (a : Agent) (ch : ChanId) (s : State) : (dmaClean a ch s).seqRx = s.seqRx := rfl
@[simp] theorem dmaClean_inUse (a : Agent) (ch : ChanId) (s : State) : (dmaClean a ch s).inUse = s.inUse := rfl
@[simp] theorem dmaClean_done (a : Agent) (ch : ChanId) (s : State) : (dmaClean a ch s).done = s.done := rfl
@[simp] theorem dmaClean_suspended (a : Agent) (ch : ChanId) (s : State) : (dmaClean a ch s).suspended = s.suspended := rfl
@[simp] theorem dmaClean_clkOn (a : Agent) (ch : ChanId) (s : State) : (dmaClean a ch s).clkOn = s.clkOn := rfl
@[simp] theorem dmaClean_clkRate (a : Agent) (ch : ChanId) (s : State) : (dmaClean a ch s).clkRate = s.clkRate := rfl
@[simp] theorem dmaClean_regrec (a : Agent) (ch : ChanId) (s : State) : (dmaClean a ch s).regrec = s.regrec := rfl
@[simp] theorem dmaClean_slave (a : Agent) (ch : ChanId) (s : State) : (dmaClean a ch s).slave = s.slave := rfl
@[simp] theorem dmaClean_dma (a : Agent) (ch : ChanId) (s : State) : (dmaClean a ch s).dma = s.dma := rfl
@[simp] theorem dmaClean_active (a : Agent) (ch : ChanId) (s : State) : (dmaClean a ch s).active = s.active := rfl
@[simp] theorem dmaClean_xf (a : Agent) (ch : ChanId) (s : State) : (dmaClean a ch s).xf = s.xf := rfl
@[simp] theorem dmaClean_fault (a : Agent) (ch : ChanId) (s : State) : (dmaClean a ch s).fault = s.fault := rfl
@[simp] theorem dmaClean_hist (a : Agent) (ch : ChanId) (s : State) : (dmaClean a ch s).hist = s.hist ++ [⟨a, .dclean ch⟩] := rfl
@[simp] theorem dmaClean_mem (a : Agent) (ch : ChanId) (s : State) : (dmaClean a ch s).mem = s.mem := rfl
@[simp] theorem dmaClean_env (a : Agent) (ch : ChanId) (s : State) : (dmaClean a ch s).env = s.env := rfl

/-! ### mapBuffer -/

@[simp] theorem mapBuffer_params (b : Word) (n : Nat) (d : Dir) (s : State) : (mapBuffer b n d s).params = s.params := rfl
@[simp] theorem mapBuffer_portQ (b : Word) (n : Nat) (d : Dir) (s : State) : (mapBuffer b n d s).portQ = s.portQ := rfl
@[simp] theorem mapBuffer_portF (b : Word) (n : Nat) (d : Dir) (s : State) : (mapBuffer b n d s).portF = s.portF := rfl
@[simp] theorem mapBuffer_portP (b : Word) (n : Nat) (d : Dir) (s : State) : (mapBuffer b n d s).portP = s.portP := rfl
@[simp] theorem mapBuffer_seqQ (b : Word) (n : Nat) (d : Dir) (s : State) : (mapBuffer b n d s).seqQ = s.seqQ := rfl
@[simp] theorem mapBuffer_seqF (b : Word) (n : Nat) (d : Dir) (s : State) : (mapBuffer b n d s).seqF = s.seqF := rfl
@[simp] theorem mapBuffer_seqP (b : Word) (n : Nat) (d : Dir) (s : State) : (mapBuffer b n d s).seqP = s.seqP := rfl
@[simp] theorem mapBuffer_seqH (b : Word) (n : Nat) (d : Dir) (s : State) : (mapBuffer b n d s).seqH = s.seqH := rfl
@[simp] theorem mapBuffer_seqTx (b : Word) (n : Nat) (d : Dir) (s : State) : (mapBuffer b n d s).seqTx = s.seqTx := rfl
@[simp] theorem mapBuffer_seqRx (b : Word) (n : Nat) (d : Dir) (s : State) : (mapBuffer b n d s).seqRx = s.seqRx := rfl
@[simp] theorem mapBuffer_inUse (b : Word) (n : Nat) (d : Dir) (s : State) : (mapBuffer b n d s).inUse = s.inUse := rfl
@[simp] theorem mapBuffer_done (b : Word) (n : Nat) (d : Dir) (s : State) : (mapBuffer b n d s).done = s.done := rfl
@[simp] theorem mapBuffer_suspended (b : Word) (n : Nat) (d : Dir) (s : State) : (mapBuffer b n d s).suspended = s.suspended := rfl
@[simp] theorem mapBuffer_clkOn (b : Word) (n : Nat) (d : Dir) (s : State) : (mapBuffer b n d s).clkOn = s.clkOn := rfl
@[simp] theorem mapBuffer_clkRate (b : Word) (n : Nat) (d : Dir) (s : State) : (mapBuffer b n d s).clkRate = s.clkRate := rfl
@[simp] theorem mapBuffer_regrec (b : Word) (n : Nat) (d : Dir) (s : State) : (mapBuffer b n d s).regrec = s.regrec := rfl
@[simp] theorem mapBuffer_slave (b : Word) (n : Nat) (d : Dir) (s : State) : (mapBuffer b n d s).slave = s.slave := rfl
@[simp] theorem mapBuffer_dma (b : Word) (n : Nat) (d : Dir) (s : State) : (mapBuffer b n d s).dma = s.dma := rfl
@[simp] theorem mapBuffer_active (b : Word) (n : Nat) (d : Dir) (s : State) : (mapBuffer b n d s).active = s.active := rfl
@[simp] theorem mapBuffer_xf (b : Word) (n : Nat) (d : Dir) (s : State) : (mapBuffer b n d s).xf = s.xf := rfl
@[simp] theorem mapBuffer_fault (b : Word) (n : Nat) (d : Dir) (s : State) : (mapBuffer b n d s).fault = s.fault := rfl
@[simp] theorem mapBuffer_hist (b : Word) (n : Nat) (d : Dir) (s : State) : (mapBuffer b n d s).hist = s.hist ++ [⟨.queue, .mapping b n d (nextMap s)⟩] := rfl
@[simp] theorem mapBuffer_mem (b : Word) (n : Nat) (d : Dir) (s : State) : (mapBuffer b n d s).mem = s.mem := rfl
@[simp] theorem mapBuffer_env (b : Word) (n : Nat) (d : Dir) (s : State) : (mapBuffer b n d s).env = envDropMap s.env := rfl

/-! ### unmapTx -/

@[simp] theorem unmapTx_params (v : Word) (n : Nat) (s : State) : (unmapTx v n s).params = s.params := rfl
@[simp] theorem unmapTx_portQ (v : Word) (n : Nat) (s : State) : (unmapTx v n s).portQ = s.portQ := rfl
@[simp] theorem unmapTx_portF (v : Word) (n : Nat) (s : State) : (unmapTx v n s).portF = s.portF := rfl
@[simp] theorem unmapTx_portP (v : Word) (n : Nat) (s : State) : (unmapTx v n s).portP = s.portP := rfl
@[simp] theorem unmapTx_seqQ (v : Word) (n : Nat) (s : State) : (unmapTx v n s).seqQ = s.seqQ := rfl
@[simp] theorem unmapTx_seqF (v : Word) (n : Nat) (s : State) : (unmapTx v n s).seqF = s.seqF := rfl
@[simp] theorem unmapTx_seqP (v : Word) (n : Nat) (s : State) : (unmapTx v n s).seqP = s.seqP := rfl
@[simp] theorem unmapTx_seqH (v : Word) (n : Nat) (s : State) : (unmapTx v n s).seqH = s.seqH := rfl
@[simp] theorem unmapTx_seqTx (v : Word) (n : Nat) (s : State) : (unmapTx v n s).seqTx = s.seqTx := rfl
@[simp] theorem unmapTx_seqRx (v : Word) (n : Nat) (s : State) : (unmapTx v n s).seqRx = s.seqRx := rfl
@[simp] theorem unmapTx_inUse (v : Word) (n : Nat) (s : State) : (unmapTx v n s).inUse = s.inUse := rfl
@[simp] theorem unmapTx_done (v : Word) (n : Nat) (s : State) : (unmapTx v n s).done = s.done := rfl
@[simp] theorem unmapTx_suspended (v : Word) (n : Nat) (s : State) : (unmapTx v n s).suspended = s.suspended := rfl
@[simp] theorem unmapTx_clkOn (v : Word) (n : Nat) (s : State) : (unmapTx v n s).clkOn = s.clkOn := rfl
@[simp] theorem unmapTx_clkRate (v : Word) (n : Nat) (s : State) : (unmapTx v n s).clkRate = s.clkRate := rfl
@[simp] theorem unmapTx_regrec (v : Word) (n : Nat) (s : State) : (unmapTx v n s).regrec = s.regrec := rfl
@[simp] theorem unmapTx_slave (v : Word) (n : Nat) (s : State) : (unmapTx v n s).slave = s.slave := rfl
@[simp] theorem unmapTx_dma (v : Word) (n : Nat) (s : State) : (unmapTx v n s).dma = s.dma := rfl
@[simp] theorem unmapTx_active (v : Word) (n : Nat) (s : State) : (unmapTx v n s).active = s.active := rfl
@[simp] theorem unmapTx_xf (v : Word) (n : Nat) (s : State) : (unmapTx v n s).xf = s.xf := rfl
@[simp] theorem unmapTx_fault (v : Word) (n : Nat) (s : State) : (unmapTx v n s).fault = s.fault := rfl
@[simp] theorem unmapTx_hist (v : Word) (n : Nat) (s : State) : (unmapTx v n s).hist = s.hist ++ [⟨.queue, .unmapping v n .tx⟩] := rfl
@[simp] theorem unmapTx_mem (v : Word) (n : Nat) (s : State) : (unmapTx v n s).mem = s.mem := rfl
@[simp] theorem unmapTx_env (v : Word) (n : Nat) (s : State) : (unmapTx v n s).env = s.env := rfl

/-! ### unmapRx -/

@[simp] theorem unmapRx_params (v : Word) (n x : Nat) (s : State) : (unmapRx v n x s).params = s.params := rfl
@[simp] theorem unmapRx_portQ (v : Word) (n x : Nat) (s : State) : (unmapRx v n x s).portQ = s.portQ := rfl
@[simp] theorem unmapRx_portF (v : Word) (n x : Nat) (s : State) : (unmapRx v n x s).portF = s.portF := rfl
@[simp] theorem unmapRx_portP (v : Word) (n x : Nat) (s : State) : (unmapRx v n x s).portP = s.portP := rfl
@[simp] theorem unmapRx_seqQ (v : Word) (n x : Nat) (s : State) : (unmapRx v n x s).seqQ = s.seqQ := rfl
@[simp] theorem unmapRx_seqF (v : Word) (n x : Nat) (s : State) : (unmapRx v n x s).seqF = s.seqF := rfl
@[simp] theorem unmapRx_seqP (v : Word) (n x : Nat) (s : State) : (unmapRx v n x s).seqP = s.seqP := rfl
@[simp] theorem unmapRx_seqH (v : Word) (n x : Nat) (s : State) : (unmapRx v n x s).seqH = s.seqH := rfl
@[simp] theorem unmapRx_seqTx (v : Word) (n x : Nat) (s : State) : (unmapRx v n x s).seqTx = s.seqTx := rfl
@[simp] theorem unmapRx_seqRx (v : Word) (n x : Nat) (s : State) : (unmapRx v n x s).seqRx = s.seqRx := rfl
@[simp] theorem unmapRx_inUse (v : Word) (n x : Nat) (s : State) : (unmapRx v n x s).inUse = s.inUse := rfl
@[simp] theorem unmapRx_done (v : Word) (n x : Nat) (s : State) : (unmapRx v n x s).done = s.done := rfl
@[simp] theorem unmapRx_suspended (v : Word) (n x : Nat) (s : State) : (unmapRx v n x s).suspended = s.suspended := rfl
@[simp] theorem unmapRx_clkOn (v : Word) (n x : Nat) (s : State) : (unmapRx v n x s).clkOn = s.clkOn := rfl
@[simp] theorem unmapRx_clkRate (v : Word) (n x : Nat) (s : State) : (unmapRx v n x s).clkRate = s.clkRate := rfl
@[simp] theorem unmapRx_regrec (v : Word) (n x : Nat) (s : State) : (unmapRx v n x s).regrec = s.regrec := rfl
@[simp] theorem unmapRx_slave (v : Word) (n x : Nat) (s : State) : (unmapRx v n x s).slave = s.slave := rfl
@[simp] theorem unmapRx_dma (v : Word) (n x : Nat) (s : State) : (unmapRx v n x s).dma = s.dma := rfl
@[simp] theorem unmapRx_active (v : Word) (n x : Nat) (s : State) : (unmapRx v n x s).active = s.active := rfl
@[simp] theorem unmapRx_xf (v : Word) (n x : Nat) (s : State) : (unmapRx v n x s).xf = s.xf := rfl
@[simp] theorem unmapRx_fault (v : Word) (n x : Nat) (s : State) : (unmapRx v n x s).fault = s.fault := rfl
@[simp] theorem unmapRx_hist (v : Word) (n x : Nat) (s : State) : (unmapRx v n x s).hist = s.hist ++ [⟨.queue, .unmapping v n .rx⟩] := rfl
@[simp] theorem unmapRx_mem (v : Word) (n x : Nat) (s : State) : (unmapRx v n x s).mem = (scatter n x s.mem s.env).1 := rfl
@[simp] theorem unmapRx_env (v : Word) (n x : Nat) (s : State) : (unmapRx v n x s).env = (scatter n x s.mem s.env).2 := rfl

/-! ### clockGate -/

@[simp] theorem clockGate_params (on : Bool) (s : State) : (clockGate on s).params = s.params := rfl
@[simp] theorem clockGate_portQ (on : Bool) (s : State) : (clockGate on s).portQ = s.portQ := rfl
@[simp] theorem clockGate_portF (on : Bool) (s : State) : (clockGate on s).portF = s.portF := rfl
@[simp] theorem clockGate_portP (on : Bool) (s : State) : (clockGate on s).portP = s.portP := rfl
@[simp] theorem clockGate_seqQ (on : Bool) (s : State) : (clockGate on s).seqQ = s.seqQ := rfl
@[simp] theorem clockGate_seqF (on : Bool) (s : State) : (clockGate on s).seqF = s.seqF := rfl
@[simp] theorem clockGate_seqP (on : Bool) (s : State) : (clockGate on s).seqP = s.seqP := rfl
@[simp] theorem clockGate_seqH (on : Bool) (s : State) : (clockGate on s).seqH = s.seqH := rfl
@[simp] theorem clockGate_seqTx (on : Bool) (s : State) : (clockGate on s).seqTx = s.seqTx := rfl
@[simp] theorem clockGate_seqRx (on : Bool) (s : State) : (clockGate on s).seqRx = s.seqRx := rfl
@[simp] theorem clockGate_inUse (on : Bool) (s : State) : (clockGate on s).inUse = s.inUse := rfl
@[simp] theorem clockGate_done (on : Bool) (s : State) : (clockGate on s).done = s.done := rfl
@[simp] theorem clockGate_suspended (on : Bool) (s : State) : (clockGate on s).suspended = s.suspended := rfl
@[simp] theorem clockGate_clkOn (on : Bool) (s : State) : (clockGate on s).clkOn = on := rfl
@[simp] theorem clockGate_clkRate (on : Bool) (s : State) : (clockGate on s).clkRate = s.clkRate := rfl
@[simp] theorem clockGate_regrec (on : Bool) (s : State) : (clockGate on s).regrec = s.regrec := rfl
@[simp] theorem clockGate_slave (on : Bool) (s : State) : (clockGate on s).slave = s.slave := rfl
@[simp] theorem clockGate_dma (on : Bool) (s : State) : (clockGate on s).dma = s.dma := rfl
@[simp] theorem clockGate_active (on : Bool) (s : State) : (clockGate on s).active = s.active := rfl
@[simp] theorem clockGate_xf (on : Bool) (s : State) : (clockGate on s).xf = s.xf := rfl
@[simp] theorem clockGate_fault (on : Bool) (s : State) : (clockGate on s).fault = s.fault := rfl
@[simp] theorem clockGate_hist (on : Bool) (s : State) : (clockGate on s).hist = s.hist ++ [⟨.power, .clk on⟩] := rfl
@[simp] theorem clockGate_mem (on : Bool) (s : State) : (clockGate on s).mem = s.mem := rfl
@[simp] theorem clockGate_env (on : Bool) (s : State) : (clockGate on s).env = s.env := rfl

/-! ### engineEntry -/

@[simp] theorem engineEntry_params (m : XfMode) (s : State) : (engineEntry m s).params = s.params := rfl
@[simp] theorem engineEntry_portQ (m : XfMode) (s : State) : (engineEntry m s).portQ = s.portQ := rfl
@[simp] theorem engineEntry_portF (m : XfMode) (s : State) : (engineEntry m s).portF = s.portF := rfl
@[simp] theorem engineEntry_portP (m : XfMode) (s : State) : (engineEntry m s).portP = s.portP := rfl
@[simp] theorem engineEntry_seqQ (m : XfMode) (s : State) : (engineEntry m s).seqQ = s.seqQ := rfl
@[simp] theorem engineEntry_seqF (m : XfMode) (s : State) : (engineEntry m s).seqF = s.seqF := rfl
@[simp] theorem engineEntry_seqP (m : XfMode) (s : State) : (engineEntry m s).seqP = s.seqP := rfl
@[simp] theorem engineEntry_seqH (m : XfMode) (s : State) : (engineEntry m s).seqH = s.seqH := rfl
@[simp] theorem engineEntry_seqTx (m : XfMode) (s : State) : (engineEntry m s).seqTx = s.seqTx := rfl
@[simp] theorem engineEntry_seqRx (m : XfMode) (s : State) : (engineEntry m s).seqRx = s.seqRx := rfl
@[simp] theorem engineEntry_inUse (m : XfMode) (s : State) : (engineEntry m s).inUse = true := rfl
@[simp] theorem engineEntry_done (m : XfMode) (s : State) : (engineEntry m s).done = false := rfl
@[simp] theorem engineEntry_suspended (m : XfMode) (s : State) : (engineEntry m s).suspended = s.suspended := rfl
@[simp] theorem engineEntry_clkOn (m : XfMode) (s : State) : (engineEntry m s).clkOn = s.clkOn := rfl
@[simp] theorem engineEntry_clkRate (m : XfMode) (s : State) : (engineEntry m s).clkRate = s.clkRate := rfl
@[simp] theorem engineEntry_regrec (m : XfMode) (s : State) : (engineEntry m s).regrec = s.regrec := rfl
@[simp] theorem engineEntry_slave (m : XfMode) (s : State) : (engineEntry m s).slave = s.slave := rfl
@[simp] theorem engineEntry_dma (m : XfMode) (s : State) : (engineEntry m s).dma = s.dma := rfl
@[simp] theorem engineEntry_active (m : XfMode) (s : State) : (engineEntry m s).active = s.active := rfl
@[simp] theorem engineEntry_xf (m : XfMode) (s : State) : (engineEntry m s).xf = { s.xf with mode := m } := rfl
@[simp] theorem engineEntry_fault (m : XfMode) (s : State) : (engineEntry m s).fault = s.fault := rfl
@[simp] theorem engineEntry_hist (m : XfMode) (s : State) : (engineEntry m s).hist = s.hist := rfl
@[simp] theorem engineEntry_mem (m : XfMode) (s : State) : (engineEntry m s).mem = s.mem := rfl
@[simp] theorem engineEntry_env (m : XfMode) (s : State) : (engineEntry m s).env = s.env := rfl

/-! ### engineExit -/

@[simp] theorem engineExit_params (r : Word) (s : State) : (engineExit r s).params = s.params := rfl
@[simp] theorem engineExit_portQ (r : Word) (s : State) : (engineExit r s).portQ = { s.portQ with res := r, busy := false } := rfl
@[simp] theorem engineExit_portF (r : Word) (s : State) : (engineExit r s).portF = s.portF := rfl
@[simp] theorem engineExit_portP (r : Word) (s : State) : (engineExit r s).portP = s.portP := rfl
@[simp] theorem engineExit_seqQ (r : Word) (s : State) : (engineExit r s).seqQ = .idle := rfl
@[simp] theorem engineExit_seqF (r : Word) (s : State) : (engineExit r s).seqF = s.seqF := rfl
@[simp] theorem engineExit_seqP (r : Word) (s : State) : (engineExit r s).seqP = s.seqP := rfl
@[simp] theorem engineExit_seqH (r : Word) (s : State) : (engineExit r s).seqH = s.seqH := rfl
@[simp] theorem engineExit_seqTx (r : Word) (s : State) : (engineExit r s).seqTx = s.seqTx := rfl
@[simp] theorem engineExit_seqRx (r : Word) (s : State) : (engineExit r s).seqRx = s.seqRx := rfl
@[simp] theorem engineExit_inUse (r : Word) (s : State) : (engineExit r s).inUse = false := rfl
@[simp] theorem engineExit_done (r : Word) (s : State) : (engineExit r s).done = true := rfl
@[simp] theorem engineExit_suspended (r : Word) (s : State) : (engineExit r s).suspended = s.suspended := rfl
@[simp] theorem engineExit_clkOn (r : Word) (s : State) : (engineExit r s).clkOn = s.clkOn := rfl
@[simp] theorem engineExit_clkRate (r : Word) (s : State) : (engineExit r s).clkRate = s.clkRate := rfl
@[simp] theorem engineExit_regrec (r : Word) (s : State) : (engineExit r s).regrec = s.regrec := rfl
@[simp] theorem engineExit_slave (r : Word) (s : State) : (engineExit r s).slave = s.slave := rfl
@[simp] theorem engineExit_dma (r : Word) (s : State) : (engineExit r s).dma = s.dma := rfl
@[simp] theorem engineExit_active (r : Word) (s : State) : (engineExit r s).active = s.active := rfl
@[simp] theorem engineExit_xf (r : Word) (s : State) : (engineExit r s).xf = { s.xf with mode := .none } := rfl
@[simp] theorem engineExit_fault (r : Word) (s : State) : (engineExit r s).fault = s.fault := rfl
@[simp] theorem engineExit_hist (r : Word) (s : State) : (engineExit r s).hist = s.hist ++ [⟨.queue, .res .queue r⟩] := rfl
@[simp] theorem engineExit_mem (r : Word) (s : State) : (engineExit r s).mem = s.mem := rfl
@[simp] theorem engineExit_env (r : Word) (s : State) : (engineExit r s).env = s.env := rfl

/-! ### noteFloor -/

@[simp] theorem noteFloor_params (a : Agent) (cs : Cs) (b : Bool) (s : State) : (noteFloor a cs b s).params = s.params := by cases b <;> rfl
@[simp] theorem noteFloor_portQ (a : Agent) (cs : Cs) (b : Bool) (s : State) : (noteFloor a cs b s).portQ = s.portQ := by cases b <;> rfl
@[simp] theorem noteFloor_portF (a : Agent) (cs : Cs) (b : Bool) (s : State) : (noteFloor a cs b s).portF = s.portF := by cases b <;> rfl
@[simp] theorem noteFloor_portP (a : Agent) (cs : Cs) (b : Bool) (s : State) : (noteFloor a cs b s).portP = s.portP := by cases b <;> rfl
@[simp] theorem noteFloor_seqQ (a : Agent) (cs : Cs) (b : Bool) (s : State) : (noteFloor a cs b s).seqQ = s.seqQ := by cases b <;> rfl
@[simp] theorem noteFloor_seqF (a : Agent) (cs : Cs) (b : Bool) (s : State) : (noteFloor a cs b s).seqF = s.seqF := by cases b <;> rfl
@[simp] theorem noteFloor_seqP (a : Agent) (cs : Cs) (b : Bool) (s : State) : (noteFloor a cs b s).seqP = s.seqP := by cases b <;> rfl
@[simp] theorem noteFloor_seqH (a : Agent) (cs : Cs) (b : Bool) (s : State) : (noteFloor a cs b s).seqH = s.seqH := by cases b <;> rfl
@[simp] theorem noteFloor_seqTx (a : Agent) (cs : Cs) (b : Bool) (s : State) : (noteFloor a cs b s).seqTx = s.seqTx := by cases b <;> rfl
@[simp] theorem noteFloor_seqRx (a : Agent) (cs : Cs) (b : Bool) (s : State) : (noteFloor a cs b s).seqRx = s.seqRx := by cases b <;> rfl
@[simp] theorem noteFloor_inUse (a : Agent) (cs : Cs) (b : Bool) (s : State) : (noteFloor a cs b s).inUse = s.inUse := by cases b <;> rfl
@[simp] theorem noteFloor_done (a : Agent) (cs : Cs) (b : Bool) (s : State) : (noteFloor a cs b s).done = s.done := by cases b <;> rfl
@[simp] theorem noteFloor_suspended (a : Agent) (cs : Cs) (b : Bool) (s : State) : (noteFloor a cs b s).suspended = s.suspended := by cases b <;> rfl
@[simp] theorem noteFloor_clkOn (a : Agent) (cs : Cs) (b : Bool) (s : State) : (noteFloor a cs b s).clkOn = s.clkOn := by cases b <;> rfl
@[simp] theorem noteFloor_clkRate (a : Agent) (cs : Cs) (b : Bool) (s : State) : (noteFloor a cs b s).clkRate = s.clkRate := by cases b <;> rfl
@[simp] theorem noteFloor_regrec (a : Agent) (cs : Cs) (b : Bool) (s : State) : (noteFloor a cs b s).regrec = s.regrec := by cases b <;> rfl
@[simp] theorem noteFloor_slave (a : Agent) (cs : Cs) (b : Bool) (s : State) : (noteFloor a cs b s).slave = s.slave := by cases b <;> rfl
@[simp] theorem noteFloor_dma (a : Agent) (cs : Cs) (b : Bool) (s : State) : (noteFloor a cs b s).dma = s.dma := by cases b <;> rfl
@[simp] theorem noteFloor_active (a : Agent) (cs : Cs) (b : Bool) (s : State) : (noteFloor a cs b s).active = s.active := by cases b <;> rfl
@[simp] theorem noteFloor_xf (a : Agent) (cs : Cs) (b : Bool) (s : State) : (noteFloor a cs b s).xf = s.xf := by cases b <;> rfl
@[simp] theorem noteFloor_fault (a : Agent) (cs : Cs) (b : Bool) (s : State) : (noteFloor a cs b s).fault = s.fault := by cases b <;> rfl
@[simp] theorem noteFloor_mem (a : Agent) (cs : Cs) (b : Bool) (s : State) : (noteFloor a cs b s).mem = s.mem := by cases b <;> rfl
@[simp] theorem noteFloor_env (a : Agent) (cs : Cs) (b : Bool) (s : State) : (noteFloor a cs b s).env = s.env := by cases b <;> rfl

/-! ### The port registers and callback positions by their selectors -/

theorem portRegs_setPort (p q : Port) (r : PortRegs) (s : State) :
    portRegs q (setPort p r s) = if q = p then r else portRegs q s := by
  cases p <;> cases q <;> rfl

theorem portRegs_finish (p q : Port) (r : Word) (s : State) :
    portRegs q (finish p r s) = if q = p then { portRegs p s with res := r, busy := false } else portRegs q s := by
  cases p <;> cases q <;> rfl

theorem seqCb_goCb (d e : Dir) (l : CbSeq) (s : State) : seqCb e (goCb d l s) = if e = d then l else seqCb e s := by
  cases d <;> cases e <;> rfl

@[simp] theorem finish_queue_seqQ (r : Word) (s : State) : (finish .queue r s).seqQ = .idle := rfl
@[simp] theorem finish_queue_seqF (r : Word) (s : State) : (finish .queue r s).seqF = s.seqF := rfl
@[simp] theorem finish_queue_seqP (r : Word) (s : State) : (finish .queue r s).seqP = s.seqP := rfl
@[simp] theorem finish_queue_portQ (r : Word) (s : State) :
    (finish .queue r s).portQ = { s.portQ with res := r, busy := false } := rfl
@[simp] theorem finish_queue_portF (r : Word) (s : State) : (finish .queue r s).portF = s.portF := rfl
@[simp] theorem finish_queue_portP (r : Word) (s : State) : (finish .queue r s).portP = s.portP := rfl
@[simp] theorem finish_freq_seqQ (r : Word) (s : State) : (finish .freq r s).seqQ = s.seqQ := rfl
@[simp] theorem finish_freq_seqF (r : Word) (s : State) : (finish .freq r s).seqF = .idle := rfl
@[simp] theorem finish_freq_seqP (r : Word) (s : State) : (finish .freq r s).seqP = s.seqP := rfl
@[simp] theorem finish_freq_portQ (r : Word) (s : State) : (finish .freq r s).portQ = s.portQ := rfl
@[simp] theorem finish_freq_portF (r : Word) (s : State) :
    (finish .freq r s).portF = { s.portF with res := r, busy := false } := rfl
@[simp] theorem finish_freq_portP (r : Word) (s : State) : (finish .freq r s).portP = s.portP := rfl
@[simp] theorem finish_power_seqQ (r : Word) (s : State) : (finish .power r s).seqQ = s.seqQ := rfl
@[simp] theorem finish_power_seqF (r : Word) (s : State) : (finish .power r s).seqF = s.seqF := rfl
@[simp] theorem finish_power_seqP (r : Word) (s : State) : (finish .power r s).seqP = .idle := rfl
@[simp] theorem finish_power_portQ (r : Word) (s : State) : (finish .power r s).portQ = s.portQ := rfl
@[simp] theorem finish_power_portF (r : Word) (s : State) : (finish .power r s).portF = s.portF := rfl
@[simp] theorem finish_power_portP (r : Word) (s : State) :
    (finish .power r s).portP = { s.portP with res := r, busy := false } := rfl

/-! ### The whole-word write the engine makes -/

@[simp] theorem regWrite_dat (a : Agent) (v : Word) (s : State) : regWrite a .dat v s = writeDat a v s := rfl
@[simp] theorem regWrite_delay (a : Agent) (v : Word) (s : State) : regWrite a .delay v s = writeDelay a v s := rfl

/-! ### The per-chip-select tables -/

theorem csGet_csSet {α : Type} (t : Vector α 8) (c d : Cs) (x : α) :
    csGet (csSet t c x) d = if d = c then x else csGet t d := by
  unfold csGet csSet
  rw [Vector.getElem_set]
  by_cases h : d = c
  · subst h
    simp
  · have hn : c.toNat ≠ d.toNat := fun hc => h (BitVec.eq_of_toNat_eq hc.symm)
    simp [h, hn]

@[simp] theorem csGet_csSet_same {α : Type} (t : Vector α 8) (c : Cs) (x : α) : csGet (csSet t c x) c = x := by
  simp [csGet_csSet]

@[simp] theorem csSet_csSet {α : Type} (t : Vector α 8) (c : Cs) (x y : α) : csSet (csSet t c x) c y = csSet t c y := by
  simp [csSet]

theorem csGet_csSet_other {α : Type} (t : Vector α 8) {c d : Cs} (x : α) (h : d ≠ c) :
    csGet (csSet t c x) d = csGet t d := by
  simp [csGet_csSet, h]

theorem mem_allCs (c : Cs) : c ∈ allCs := by
  revert c
  decide

end Sys2Proof.Machine
end

