-- ==== Sys2Proof/Laws/Ops.lean ====
section
/-!
SUPPORT. For each shared operation with cases, what it can do: the cases it answers in, each with the state it leaves.
-/

namespace Sys2Proof.Machine

open Sys2Proof

/-! ### The divider and `Configure` (40_divider_config.md R130-R140) -/

/-- `Prescale` raises the fault of R134 on these operands and no others. -/
theorem prescale_none_iff (clk hz : Nat) : prescale clk hz = none ↔ hz = 0 ∨ clk < hz := by
  unfold prescale
  split
  · simp only [*]
  · split <;> simp only [reduceCtorEq, *]

/-- The read step of `WriteDivider` where a prescale exists. -/
theorem dividerRead_some {a : Agent} {cs : Cs} {hz p : Nat} {floored : Bool} {k : FmtRec → Nat → State → State} {s : State}
    (h : prescale s.clkRate hz = some (p, floored)) :
    dividerRead a cs hz k s = k (fmtRec cs s) p (readFmt a cs (noteFloor a cs floored s)) := by
  simp only [dividerRead, h]

/-- The read step of `WriteDivider` where none exists. -/
theorem dividerRead_none {a : Agent} {cs : Cs} {hz : Nat} {k : FmtRec → Nat → State → State} {s : State}
    (h : hz = 0 ∨ s.clkRate < hz) : dividerRead a cs hz k s = raise a .dividerDomain s := by
  simp only [dividerRead, (prescale_none_iff _ _).2 h]

/-- The first step of `Configure`, where it answers one: the record it leaves and the register it reads. -/
theorem configureStart_cases {cs : Cs} {bitsO hzO : Option Nat} {wrap : CfgSeq → QSeq} {s t : State}
    (h : configureStart cs bitsO hzO wrap s = some t) :
    ∃ sl, slaveOf cs s = some sl ∧ configOk (bitsO.getD sl.declBits) (hzO.getD sl.declHz) = true
      ∧ t = goQ (wrap (.lenW (fmtRec cs s) (bitsO.getD sl.declBits) (hzO.getD sl.declHz)))
          (readFmt .queue cs
            (setSlave cs
              (some { sl with
                        bits := bitsO.getD sl.declBits
                        bpw := bpwOf (bitsO.getD sl.declBits)
                        hz := hzO.getD sl.declHz }) s)) := by
  unfold configureStart at h
  split at h
  · cases h
  · rename_i sl hsl
    split at h
    · rename_i hok
      exact ⟨sl, hsl, hok, (Option.some.inj h).symm⟩
    · cases h

/-- `Configure` returns `E_INVAL` without a record, or with a width or a frequency out of range. -/
theorem configureStart_none_iff (cs : Cs) (bitsO hzO : Option Nat) (wrap : CfgSeq → QSeq) (s : State) :
    configureStart cs bitsO hzO wrap s = none ↔
      ∀ sl, slaveOf cs s = some sl → configOk (bitsO.getD sl.declBits) (hzO.getD sl.declHz) = false := by
  unfold configureStart
  cases slaveOf cs s with
  | none => simp
  | some sl => simp

/-- What `configOk` checks (40_divider_config.md R140). -/
theorem configOk_iff (bits hz : Nat) :
    configOk bits hz = true ↔ 2 ≤ bits ∧ bits ≤ 16 ∧ 600000 ≤ hz ∧ hz ≤ 50000000 := by
  simp only [configOk, Bool.and_eq_true, decide_eq_true_eq, and_assoc]
  rfl

/-- S6 and the first step of S7 on a width and a frequency in range: the record SETUP leaves (40_divider_config.md R150). -/
theorem setupConfigure_ok {cs : Cs} {mode : Byte} {bits maxHz : Nat} {s : State} (h : configOk bits maxHz = true) :
    setupConfigure cs mode bits maxHz s =
      goQ (.s7 (.lenW (fmtRec cs s) bits maxHz))
        (readFmt .queue cs
          (setSlave cs
            (some
              { declBits := bits
                declHz := maxHz
                mode := mode
                bits := bits
                bpw := bpwOf bits
                hz := maxHz
                cmdBase := (slaveOf cs s).bind Slave.cmdBase }) s)) := by
  unfold setupConfigure
  cases slaveOf cs s <;>
    simp only [configureStart, slaveOf, setSlave, csGet_csSet_same, csSet_csSet, setupRecord, fmtRec, Option.getD_none, h,
      if_true, Option.getD_some, Option.bind]

/-! ### Host-memory accesses (20_memory.md R70, R71) -/

/-- What an admitted access satisfies. -/
theorem admitted_bounds {s : State} {a n : Nat} (h : admitted s a n = true) : (n = 1 ∨ n = 2) ∧ a + n ≤ 2 ^ 32 := by
  simp only [admitted, Bool.and_eq_true, Bool.or_eq_true, beq_iff_eq, decide_eq_true_eq] at h
  exact ⟨h.1.1.imp id And.left, h.1.2⟩

/-- `RxStore` by Q, where it has a step (43_pio.md R215). -/
theorem rxStore_cases {i : Nat} {d : Half} {next : QSeq} {s t : State} (h : rxStore i d next s = some t) :
    ∃ a, s.xf.rx = some a ∧ admitted s (wordAddr a i s.xf.bpw) s.xf.bpw = true
      ∧ t = goQ next (hostWrite .queue (wordAddr a i s.xf.bpw) s.xf.bpw d s) := by
  unfold rxStore at h
  split at h
  · cases h
  · rename_i a ha
    split at h
    · rename_i had
      exact ⟨a, ha, had, (Option.some.inj h).symm⟩
    · cases h

/-- The head of the transmit-driven loop, where it has a step: `TxWord`'s read below the count, the status read at it. -/
theorem pioTxHead_cases {i : Nat} {s t : State} (h : pioTxHead i s = some t) :
    (i < s.xf.count ∧ ∃ a, s.xf.tx = some a ∧ admitted s (wordAddr a i s.xf.bpw) s.xf.bpw = true
        ∧ t = goQ (.pio (.l2 i (memRead s.mem (wordAddr a i s.xf.bpw) s.xf.bpw)))
            (hostRead .queue (wordAddr a i s.xf.bpw) s.xf.bpw s))
      ∨ (s.xf.count ≤ i ∧ t = statusRead s) := by
  unfold pioTxHead at h
  split at h
  · rename_i hi
    split at h
    · cases h
    · rename_i a ha
      split at h
      · rename_i had
        exact .inl ⟨hi, a, ha, had, (Option.some.inj h).symm⟩
      · cases h
  · exact .inr ⟨by omega, (Option.some.inj h).symm⟩

/-- One step of the scratch fill, where Q has one (44_dma.md R244). -/
theorem dmaFill_cases {k : Nat} {s t : State} (h : dmaFill k s = some t) :
    admitted s (wordAddr s.params.scratchAddr k s.xf.bpw) s.xf.bpw = true
      ∧ t = goQ (.dma (if k < s.xf.count then .g15 (k + 1) else .g16))
          (hostWrite .queue (wordAddr s.params.scratchAddr k s.xf.bpw) s.xf.bpw s.params.scratchFill s) := by
  unfold dmaFill at h
  split at h
  · rename_i had
    exact ⟨had, (Option.some.inj h).symm⟩
  · cases h

/-- The handler's store, where it has a step (60_exceptions.md R351). -/
theorem handlerStore_cases {d : Half} {s t : State} (h : handlerStore d s = some t) :
    admitted s s.xf.rxCur s.xf.bpw = true
      ∧ t = goH .h4 { hostWrite .handler s.xf.rxCur s.xf.bpw d s with
          xf := { s.xf with rxCur := s.xf.rxCur + s.xf.bpw } } := by
  unfold handlerStore at h
  split at h
  · rename_i had
    exact ⟨had, (Option.some.inj h).symm⟩
  · cases h

/-! ### DMA channels (10_state.md R30, 44_dma.md R240) -/

/-- `DmaProgram` on an active channel. -/
theorem dmaProgram_active {ch : ChanId} {src dst : Word} {u : DmaUnit} {n : Nat} {next : QSeq} {s : State}
    (h : isActive s ch = true) : dmaProgram ch src dst u n next s = raise .queue .dmaChannelBusy s := by
  simp only [dmaProgram, h, if_true]

/-- `DmaProgram` on an inactive channel. -/
theorem dmaProgram_inactive {ch : ChanId} {src dst : Word} {u : DmaUnit} {n : Nat} {next : QSeq} {s : State}
    (h : isActive s ch = false) :
    dmaProgram ch src dst u n next s = goQ next (record .queue (.dprog ch src dst u n) s) := by
  simp only [dmaProgram, h, Bool.false_eq_true, if_false]

/-- The channels of the list with one more. -/
theorem mem_insertChan (ch x : ChanId) (l : List ChanId) : x ∈ insertChan ch l ↔ x = ch ∨ x ∈ l := by
  induction l with
  | nil => simp [insertChan]
  | cons y l ih =>
    unfold insertChan
    split
    · simp
    · split
      · rename_i h
        simp [h]
      · simp only [List.mem_cons, ih]
        tauto

/-- An ascending list is one whose channels strictly rise. -/
theorem ascends_iff (l : List ChanId) : ascends l = true ↔ l.Pairwise (· < ·) := by
  induction l with
  | nil => simp [ascends]
  | cons a l ih =>
    cases l with
    | nil => simp [ascends]
    | cons b r =>
      simp only [ascends, Bool.and_eq_true, decide_eq_true_eq, ih, List.pairwise_cons, List.mem_cons]
      constructor
      · rintro ⟨hab, hb, hr⟩
        exact ⟨fun x hx => hx.elim (fun e => e ▸ hab) (fun hx => hab.trans (hb x hx)), hb, hr⟩
      · rintro ⟨ha, hb, hr⟩
        exact ⟨ha b (.inl rfl), hb, hr⟩

/-- Adding a channel keeps the list ascending. -/
theorem ascends_insertChan (ch : ChanId) {l : List ChanId} (h : ascends l = true) : ascends (insertChan ch l) = true := by
  rw [ascends_iff] at h ⊢
  induction l with
  | nil => simp [insertChan]
  | cons y l ih =>
    obtain ⟨hy, hl⟩ := List.pairwise_cons.1 h
    unfold insertChan
    split
    · rename_i hlt
      exact List.pairwise_cons.2 ⟨fun x hx => (List.mem_cons.1 hx).elim (fun e => e ▸ hlt) (fun hx => hlt.trans (hy x hx)), h⟩
    · rename_i hlt
      split
      · exact h
      · rename_i hne
        refine List.pairwise_cons.2 ⟨fun x hx => ?_, ih hl⟩
        exact ((mem_insertChan _ _ _).1 hx).elim
          (fun e => e ▸ Nat.lt_of_le_of_ne (Nat.le_of_not_lt hlt) (Ne.symm hne)) (hy x)

/-- Removing a channel keeps the list ascending. -/
theorem ascends_filter (f : ChanId → Bool) {l : List ChanId} (h : ascends l = true) : ascends (l.filter f) = true := by
  rw [ascends_iff] at h ⊢
  exact h.filter f

/-! ### The other agents -/

/-- What a handler step can be, with the position it starts from (60_exceptions.md R351). -/
theorem handlerStep_cases {s t : State} (h : handlerStep s = some t) :
    (s.seqH = .h1 ∧ t = handlerLook s) ∨ (∃ v, s.seqH = .h2 v ∧ t = handlerTake v s)
      ∨ (∃ d, s.seqH = .h3 d ∧ handlerStore d s = some t) ∨ (s.seqH = .h4 ∧ t = goH (.h5 s.regrec.int) (readInt .handler s))
      ∨ ∃ r, s.seqH = .h5 r ∧ t = goH .idle (writeInt .handler { r with ieRx := some false } s) := by
  unfold handlerStep at h
  split at h
  · cases h
  · rename_i hs
    exact .inl ⟨hs, (Option.some.inj h).symm⟩
  · rename_i v hs
    exact .inr (.inl ⟨v, hs, (Option.some.inj h).symm⟩)
  · rename_i d hs
    exact .inr (.inr (.inl ⟨d, hs, h⟩))
  · rename_i hs
    exact .inr (.inr (.inr (.inl ⟨hs, (Option.some.inj h).symm⟩)))
  · rename_i r hs
    exact .inr (.inr (.inr (.inr ⟨r, hs, (Option.some.inj h).symm⟩)))

/-- What the handler's step after the read of `FLG` can be (60_exceptions.md R351). -/
theorem handlerTake_cases (v : Word) (s : State) :
    (handlerArmed v s = false ∧ handlerTake v s = goH .idle s)
      ∨ (handlerArmed v s = true ∧ s.xf.mode ≠ .pioRxIrq ∧ handlerTake v s = raise .handler .strayReceive s)
      ∨ (handlerArmed v s = true ∧ s.xf.mode = .pioRxIrq ∧ s.xf.rxEnd < s.xf.rxCur + s.xf.bpw
          ∧ handlerTake v s = raise .handler .rxCursorOverflow s)
      ∨ (handlerArmed v s = true ∧ s.xf.mode = .pioRxIrq ∧ s.xf.rxCur + s.xf.bpw ≤ s.xf.rxEnd
          ∧ handlerTake v s = goH (.h3 (bufRxData s.params (nextWord s))) (readVolatile .handler .buf s)) := by
  unfold handlerTake
  split
  · exact .inl ⟨‹_›, rfl⟩
  · have ha := Bool.eq_true_of_not_eq_false ‹_›
    split
    · exact .inr (.inl ⟨ha, ‹_›, rfl⟩)
    · have hm := Decidable.not_not.1 ‹_›
      split
      · exact .inr (.inr (.inl ⟨ha, hm, ‹_›, rfl⟩))
      · exact .inr (.inr (.inr ⟨ha, hm, Nat.le_of_not_lt ‹_›, rfl⟩))

/-- What a callback step can be, with the position it starts from (44_dma.md R262). -/
theorem callbackStep_cases {d : Dir} {s t : State} (h : callbackStep d s = some t) :
    (∃ c ch, seqCb d s = .k1 c ch .clean ∧ t = goCb d (.k4 c) (dmaStop (.callback d) ch s))
      ∨ (∃ c ch, seqCb d s = .k1 c ch .error ∧ t = goCb d (.k2 c ch) (dmaStop (.callback d) ch s))
      ∨ (∃ c ch, seqCb d s = .k2 c ch ∧ t = goCb d (.k4 c) (dmaClean (.callback d) ch s))
      ∨ (∃ c, seqCb d s = .k4 c
          ∧ t = goCb d (.k5 s.regrec.int) (readInt (.callback d) (setDma c (withDone d (dmaOf c s)) s)))
      ∨ ∃ r, seqCb d s = .k5 r ∧ t = goCb d .idle (writeInt (.callback d) { r with dmareqen := some false } s) := by
  unfold callbackStep at h
  split at h
  · cases h
  · rename_i c ch hs
    exact .inl ⟨c, ch, hs, (Option.some.inj h).symm⟩
  · rename_i c ch hs
    exact .inr (.inl ⟨c, ch, hs, (Option.some.inj h).symm⟩)
  · rename_i c ch hs
    exact .inr (.inr (.inl ⟨c, ch, hs, (Option.some.inj h).symm⟩))
  · rename_i c hs
    exact .inr (.inr (.inr (.inl ⟨c, hs, (Option.some.inj h).symm⟩)))
  · rename_i r hs
    exact .inr (.inr (.inr (.inr ⟨r, hs, (Option.some.inj h).symm⟩)))

/-- The next configured chip-select: it is configured, in range, not below `k`, and every one between is not configured. -/
theorem nextConfigured_none {k : Nat} {s : State} (h : nextConfigured k s = none) (c : Cs) (hk : k ≤ c.toNat)
    (hc : c.toNat < s.params.numCs) : slaveOf c s = none := by
  simp only [nextConfigured, Option.bind_eq_none_iff] at h
  cases hf : allCs.find? (fun c => decide (k ≤ c.toNat) && decide (c.toNat < s.params.numCs) && (slaveOf c s).isSome) with
  | none =>
    have := List.find?_eq_none.1 hf c (mem_allCs c)
    simpa [hk, hc] using this
  | some d =>
    have h1 := List.find?_some hf
    have h2 := h d hf
    cases hd : slaveOf d s with
    | none => simp [hd] at h1
    | some sl => simp [hd] at h2

/-- The chip-select the loop of FREQ_POST takes next (46_coordination.md R305). -/
theorem nextConfigured_some {k : Nat} {s : State} {c : Cs} {hz : Nat} (h : nextConfigured k s = some (c, hz)) :
    k ≤ c.toNat ∧ c.toNat < s.params.numCs ∧ ∃ sl, slaveOf c s = some sl ∧ sl.hz = hz := by
  simp only [nextConfigured, Option.bind_eq_some_iff, Option.map_eq_some_iff] at h
  obtain ⟨d, hf, sl, hsl, he⟩ := h
  have h1 := List.find?_some hf
  obtain ⟨rfl, rfl⟩ := Prod.mk.inj he
  simp only [Bool.and_eq_true, decide_eq_true_eq] at h1
  exact ⟨h1.1.1, h1.1.2, sl, hsl, rfl⟩

/-- The chip-selects FREQ_POST rewrites below `n` (46_coordination.md R305). -/
theorem mem_configuredBelow (n : Nat) (c : Cs) (s : State) :
    c ∈ configuredBelow n s ↔ c.toNat < n ∧ c.toNat < s.params.numCs ∧ (slaveOf c s).isSome = true := by
  simp only [configuredBelow, List.mem_filter, mem_allCs, true_and, Bool.and_eq_true, decide_eq_true_eq, and_assoc]

end Sys2Proof.Machine
end

