-- ==== Sys2Proof/Laws/PerInstr.lean ====
section
/-!
SUPPORT. Per-instruction statements about the syntax: the family `TableRow` says that the command word an instruction encodes
to matches its row of opcode_table.json (30_encoding.md R106).
-/

namespace Sys2Proof.Laws

open Sys2Proof

/-- The command word of `i` matches the row of `i`: `CMD & mask = match`. -/
def TableRow.Statement (i : Instr) : Prop := (encode i).cmd &&& i.op.mask = i.op.pattern

/-- A command word matches its row where its flags have no reserved bit and its chip-select is 0 wherever that is reserved. -/
theorem cmdWord_matches (fl : BitVec 16) (cs : Cs) (o : Op) (mfl : BitVec 16) (mcs : Cs)
    (hm : o.mask = mfl ++ (0x1F : BitVec 5) ++ mcs ++ (0xFF : BitVec 8)) (hfl : fl &&& mfl = 0) (hcs : cs &&& mcs = 0) :
    cmdWord fl cs o &&& o.mask = o.pattern := by
  have hp : o.pattern = (0 : BitVec 16) ++ (0 : BitVec 5) ++ (0 : Cs) ++ o.code := by cases o <;> rfl
  rw [hm, hp, cmdWord, BitVec.and_append, BitVec.and_append, BitVec.and_append, hfl, hcs]
  cases o <;> rfl

theorem TableRow.setup (cs : Cs) (mode : Byte) (bits maxHz : Nat) : TableRow.Statement (.setup cs mode bits maxHz) :=
  cmdWord_matches _ cs .setup 0xFF00 0 rfl
    (by
      have h : (0xFF00 : BitVec 16) = (0xFF : BitVec 8) ++ (0 : BitVec 8) := rfl
      have hm : mode &&& 0 = 0 := BitVec.and_zero
      rw [h, BitVec.and_append, hm]
      rfl)
    BitVec.and_zero

/-- The flags of a TRANSFER have no reserved bit (30_encoding.md R93). -/
theorem transferFlags_reserved : ∀ txp rxp bpwOvr hzOvr : Bool, transferFlags txp rxp bpwOvr hzOvr &&& 0xFFF0 = 0 := by decide

theorem TableRow.transfer (cs : Cs) (tx rx : Option Word) (len : Nat) (bits hz : Option Nat) :
    TableRow.Statement (.transfer cs tx rx len bits hz) :=
  cmdWord_matches _ cs .transfer 0xFFF0 0 rfl
    (transferFlags_reserved _ _ _ _)
    BitVec.and_zero

theorem TableRow.cleanup (cs : Cs) : TableRow.Statement (.cleanup cs) :=
  cmdWord_matches _ cs .cleanup 0xFFFF 0 rfl rfl BitVec.and_zero

theorem TableRow.chipselect (cs : Cs) (act : Bool) : TableRow.Statement (.chipselect cs act) :=
  cmdWord_matches _ cs .chipselect 0xFFFE 0 rfl (by cases act <;> rfl) BitVec.and_zero

theorem TableRow.freqPre : TableRow.Statement .freqPre := rfl

theorem TableRow.freqPost (newClk : Nat) : TableRow.Statement (.freqPost newClk) :=
  cmdWord_matches _ 0 .freqPost 0xFFFF 7 rfl rfl rfl

theorem TableRow.suspend : TableRow.Statement .suspend := rfl

theorem TableRow.resume : TableRow.Statement .resume := rfl

end Sys2Proof.Laws
end

