-- ==== Sys2Proof/Laws/Runs.lean ====
section
/-!
SUPPORT. Runs of one command: what `execs` does step by step, the oracle's answers in order, and the poll of a volatile
register, once for every poll of the engine (00_scope.md R9, 43_pio.md R220).
-/

namespace Sys2Proof.Machine

open Sys2Proof

/-- A command's step always answers a next state. -/
theorem exec_next (i : Instr) (s : State) : ∃ t, exec i s = .next t := by
  cases i <;> exact ⟨_, rfl⟩

@[simp] theorem execs_zero (i : Instr) (s : State) : execs 0 i s = .next s := rfl

/-- A run from the state its first step leaves. -/
theorem execs_succ {k : Nat} {i : Instr} {s t : State} (h : exec i s = .next t) : execs (k + 1) i s = execs k i t := by
  simp only [execs, h]

/-- A run cut in two. -/
theorem execs_add {k n : Nat} {i : Instr} {s t : State} (h : execs k i s = .next t) :
    execs (k + n) i s = execs n i t := by
  induction k generalizing s with
  | zero => simp only [execs, Host.Outcome.next.injEq] at h; rw [h, Nat.zero_add]
  | succ k ih =>
    obtain ⟨u, hu⟩ := exec_next i s
    rw [execs_succ hu] at h
    rw [Nat.add_right_comm, execs_succ hu, ih h]

theorem nextWord_eq (s : State) : nextWord s = wordAt 0 s.env := rfl

theorem wordAt_succ (j : Nat) (e : Env) : wordAt j (envDropWord e) = wordAt (j + 1) e := rfl

theorem dropWords_succ (j : Nat) (e : Env) : dropWords j (envDropWord e) = dropWords (j + 1) e := rfl

theorem wordAt_dropWords (k j : Nat) (e : Env) : wordAt j (dropWords k e) = wordAt (k + j) e := by
  induction k generalizing e with
  | zero => rw [Nat.zero_add]; rfl
  | succ k ih => rw [Nat.add_right_comm]; exact ih (envDropWord e)

theorem dropWords_dropWords (k j : Nat) (e : Env) : dropWords j (dropWords k e) = dropWords (k + j) e := by
  induction k generalizing e with
  | zero => rw [Nat.zero_add]; rfl
  | succ k ih => rw [Nat.add_right_comm]; exact ih (envDropWord e)

theorem bufReads_dropWords (f k n : Nat) (e : Env) : bufReads f k (dropWords n e) = bufReads (n + f) k e := by
  unfold bufReads
  refine List.map_congr_left (fun j _ => ?_)
  rw [wordAt_dropWords, Nat.add_assoc]

theorem bufReads_one (f : Nat) (e : Env) : bufReads f 1 e = [.rd .buf (.word (wordAt f e))] := rfl

/-- The first read of a row of reads, and the rest from the data it leaves. -/
theorem bufReads_cons (k : Nat) (e : Env) :
    bufReads 0 (k + 1) e = .rd .buf (.word (wordAt 0 e)) :: bufReads 0 k (envDropWord e) := by
  unfold bufReads
  rw [List.range_succ_eq_map, List.map_cons, List.map_map]
  refine congrArg₂ _ rfl (List.map_congr_left (fun j _ => ?_))
  simp only [Function.comp, Nat.zero_add, wordAt_succ]

@[simp] theorem eventsBy_nil (a : Agent) : eventsBy a [] = [] := rfl

@[simp] theorem eventsBy_cons (a : Agent) (e : Ev) (es : List Ev) : eventsBy a (e :: es) = ⟨a, e⟩ :: eventsBy a es := rfl

@[simp] theorem eventsBy_append (a : Agent) (es fs : List Ev) : eventsBy a (es ++ fs) = eventsBy a es ++ eventsBy a fs :=
  List.map_append

/-- What a poll of `BUF` by port Q leaves: `n` reads, the position after it. -/
def afterPoll (dst : QSeq) (n : Nat) (s : State) : State :=
  { s with seqQ := dst, env := dropWords n s.env, hist := s.hist ++ eventsBy .queue (bufReads 0 n s.env) }

/-- A poll of `BUF` at position `pos`: `k` reads that do not meet the condition, one that does, and Q stands at `dst`. -/
theorem execs_poll {i : Instr} {pos dst : QSeq} {ready : Params → Word → Bool} {s : State} (k n : Nat)
    (hstep : ∀ u : State, u.seqQ = pos → u.params = s.params → u.xf = s.xf →
      exec i u = .next (goQ (if ready u.params (nextWord u) then dst else pos) (readVolatile .queue .buf u)))
    (hpos : s.seqQ = pos) (hwait : ∀ j, j < k → ready s.params (wordAt j s.env) = false)
    (hready : ready s.params (wordAt k s.env) = true) :
    execs (k + 1 + n) i s = execs n i (afterPoll dst (k + 1) s) := by
  induction k generalizing s with
  | zero =>
    have h0 : ready s.params (nextWord s) = true := hready
    have h1 := hstep s hpos rfl rfl
    rw [h0, if_pos rfl] at h1
    rw [Nat.zero_add, Nat.add_comm 1 n, execs_succ h1]
    rfl
  | succ k ih =>
    have h0 : ready s.params (nextWord s) = false := hwait 0 (Nat.succ_pos k)
    have h1 := hstep s hpos rfl rfl
    rw [h0, if_neg (by decide)] at h1
    rw [Nat.add_right_comm (k + 1) 1 n, execs_succ h1,
      ih (s := goQ pos (readVolatile .queue .buf s)) (fun u a b c => hstep u a b c) rfl
        (fun j hj => hwait (j + 1) (Nat.succ_lt_succ hj)) hready]
    have hb := bufReads_cons (k + 1) s.env
    simp only [afterPoll, goQ, readVolatile, record, dropWord, hb, eventsBy_cons, List.append_assoc,
      List.singleton_append, nextWord_eq, dropWords]

/-- The step of a TRANSFER at T7, reached at once or after `Configure` (42_transfer.md R190). -/
theorem exec_transferAtT7 {cs : Cs} {tx rx : Option Word} {len : Nat} {bits hz : Option Nat} {s : State} {sl : Slave}
    (h : transferAtT7 cs tx rx len bits hz s) (hs : slaveOf cs s = some sl) :
    exec (.transfer cs tx rx len bits hz) s = .next (transferEnter cs tx rx len s) := by
  rcases h with h | ⟨h, rfl, rfl, hcs, hsus, hbuf, hlen⟩
  · simp only [exec, execTransfer, transferStep, h, Option.getD_some]
  · simp only [exec, execTransfer, transferStep, h, Option.getD_some, transferFirst]
    rw [if_neg (by omega), hsus, if_neg (by simp), if_neg (by simp [hs]), if_neg (fun hn => hbuf.elim (· hn.1) (· hn.2)),
      if_neg (by omega), if_neg (by simp)]

end Sys2Proof.Machine
end

