-- ==== Sys2Proof/Laws/Steps.lean ====
section
/-!
SUPPORT. The step of a command at each position of its agent: one equation of `exec` for every position whose step is one
operation. The other positions (holds, host-memory accesses, DMA programming and starts) are unfolded at their own functions.
-/

namespace Sys2Proof.Machine

open Sys2Proof

/-! ### SETUP (40_divider_config.md R150, R151) -/

theorem setup_s1 (cs : Cs) (mode : Byte) (bits maxHz : Nat) (s : State) (h : s.seqQ = .s1) :
    exec (.setup cs mode bits maxHz) s = .next (setupFirst cs mode bits maxHz s) := by
  simp only [exec, execSetup, setupStep, h, Option.getD_some]

theorem setup_allocTx (cs : Cs) (mode : Byte) (bits maxHz : Nat) (s : State) (r : ChanId) (h : s.seqQ = .sAllocTx r) :
    exec (.setup cs mode bits maxHz) s = .next (setupAllocTx cs r s) := by
  simp only [exec, execSetup, setupStep, h, Option.getD_some]

theorem setup_free (cs : Cs) (mode : Byte) (bits maxHz : Nat) (s : State) (r : ChanId) (h : s.seqQ = .sFree r) :
    exec (.setup cs mode bits maxHz) s = .next (goQ .sNoDma (dmaFree r s)) := by
  simp only [exec, execSetup, setupStep, h, Option.getD_some]

theorem setup_noDma (cs : Cs) (mode : Byte) (bits maxHz : Nat) (s : State) (h : s.seqQ = .sNoDma) :
    exec (.setup cs mode bits maxHz) s = .next (finish .queue (errWord .resDma) s) := by
  simp only [exec, execSetup, setupStep, h, Option.getD_some]

theorem setup_s6 (cs : Cs) (mode : Byte) (bits maxHz : Nat) (s : State) (r t : ChanId) (h : s.seqQ = .s6 r t) :
    exec (.setup cs mode bits maxHz) s = .next (setupConfigure cs mode bits maxHz (setupChannels cs r t s)) := by
  simp only [exec, execSetup, setupStep, h, Option.getD_some]

theorem setup_lenW (cs : Cs) (mode : Byte) (bits maxHz : Nat) (s : State) (t : FmtRec) (b z : Nat) (h : s.seqQ = .s7 (.lenW t b z)) :
    exec (.setup cs mode bits maxHz) s = .next (goQ (.s7 (.divR z)) (writeFmt .queue cs { t with charlen := some (BitVec.ofNat 5 b) } s)) := by
  simp only [exec, execSetup, setupStep, configureStep, h, Option.getD_some]

theorem setup_divR (cs : Cs) (mode : Byte) (bits maxHz : Nat) (s : State) (z : Nat) (h : s.seqQ = .s7 (.divR z)) :
    exec (.setup cs mode bits maxHz) s = .next (dividerRead .queue cs z (fun t p s' => goQ (.s7 (.divW t p)) s') s) := by
  simp only [exec, execSetup, setupStep, configureStep, h, Option.getD_some]

theorem setup_divW (cs : Cs) (mode : Byte) (bits maxHz : Nat) (s : State) (t : FmtRec) (p : Nat) (h : s.seqQ = .s7 (.divW t p)) :
    exec (.setup cs mode bits maxHz) s = .next (goQ .s8 (dividerWrite .queue cs t p s)) := by
  simp only [exec, execSetup, setupStep, configureStep, h, Option.getD_some]

theorem setup_s8 (cs : Cs) (mode : Byte) (bits maxHz : Nat) (s : State) (h : s.seqQ = .s8) :
    exec (.setup cs mode bits maxHz) s = .next (setupFormatRead cs s) := by
  simp only [exec, execSetup, setupStep, h, Option.getD_some]

theorem setup_s8w (cs : Cs) (mode : Byte) (bits maxHz : Nat) (s : State) (t : FmtRec) (h : s.seqQ = .s8w t) :
    exec (.setup cs mode bits maxHz) s = .next (goQ .s9 (writeFmt .queue cs (withFormatBits s.params mode t) s)) := by
  simp only [exec, execSetup, setupStep, h, Option.getD_some]

theorem setup_s9 (cs : Cs) (mode : Byte) (bits maxHz : Nat) (s : State) (h : s.seqQ = .s9) :
    exec (.setup cs mode bits maxHz) s = .next (finish .queue 0 s) := by
  simp only [exec, execSetup, setupStep, h, Option.getD_some]

/-! ### TRANSFER: front end and exit (42_transfer.md) -/

theorem transfer_t1 (cs : Cs) (tx rx : Option Word) (len : Nat) (bits hz : Option Nat) (s : State) (h : s.seqQ = .t1) :
    exec (.transfer cs tx rx len bits hz) s = .next (transferFirst cs tx rx len bits hz s) := by
  simp only [exec, execTransfer, transferStep, h, Option.getD_some]

theorem transfer_lenW (cs : Cs) (tx rx : Option Word) (len : Nat) (bits hz : Option Nat) (s : State) (t : FmtRec) (b z : Nat) (h : s.seqQ = .t6 (.lenW t b z)) :
    exec (.transfer cs tx rx len bits hz) s = .next (goQ (.t6 (.divR z)) (writeFmt .queue cs { t with charlen := some (BitVec.ofNat 5 b) } s)) := by
  simp only [exec, execTransfer, transferStep, configureStep, h, Option.getD_some]

theorem transfer_divR (cs : Cs) (tx rx : Option Word) (len : Nat) (bits hz : Option Nat) (s : State) (z : Nat) (h : s.seqQ = .t6 (.divR z)) :
    exec (.transfer cs tx rx len bits hz) s = .next (dividerRead .queue cs z (fun t p s' => goQ (.t6 (.divW t p)) s') s) := by
  simp only [exec, execTransfer, transferStep, configureStep, h, Option.getD_some]

theorem transfer_divW (cs : Cs) (tx rx : Option Word) (len : Nat) (bits hz : Option Nat) (s : State) (t : FmtRec) (p : Nat) (h : s.seqQ = .t6 (.divW t p)) :
    exec (.transfer cs tx rx len bits hz) s = .next (goQ .t7 (dividerWrite .queue cs t p s)) := by
  simp only [exec, execTransfer, transferStep, configureStep, h, Option.getD_some]

theorem transfer_t7 (cs : Cs) (tx rx : Option Word) (len : Nat) (bits hz : Option Nat) (s : State) (h : s.seqQ = .t7) :
    exec (.transfer cs tx rx len bits hz) s = .next (transferEnter cs tx rx len s) := by
  simp only [exec, execTransfer, transferStep, h, Option.getD_some]

theorem transfer_x1 (cs : Cs) (tx rx : Option Word) (len : Nat) (bits hz : Option Nat) (s : State) (h : s.seqQ = .x1) :
    exec (.transfer cs tx rx len bits hz) s = .next (statusRead s) := by
  simp only [exec, execTransfer, transferStep, h, Option.getD_some]

theorem transfer_x2 (cs : Cs) (tx rx : Option Word) (len : Nat) (bits hz : Option Nat) (s : State) (v : Word) (h : s.seqQ = .x2 v) :
    exec (.transfer cs tx rx len bits hz) s = .next (engineExit (statusResult s.params s.xf v) s) := by
  simp only [exec, execTransfer, transferStep, h, Option.getD_some]

theorem transfer_exit (cs : Cs) (tx rx : Option Word) (len : Nat) (bits hz : Option Nat) (s : State) (r : Word) (h : s.seqQ = .exit r) :
    exec (.transfer cs tx rx len bits hz) s = .next (engineExit r s) := by
  simp only [exec, execTransfer, transferStep, h, Option.getD_some]

/-! ### TRANSFER: the PIO engine -/

theorem transfer_pio_m2 (cs : Cs) (tx rx : Option Word) (len : Nat) (bits hz : Option Nat) (s : State) (t : GcrRec) (h : s.seqQ = .pio (.mode (.m2 t))) :
    exec (.transfer cs tx rx len bits hz) s = .next (goQ (.pio (.mode .m3)) (writeGcr .queue { t with loopback := some (modeLoop (slaveMode s.xf.cs s)) } s)) := by
  simp only [exec, execTransfer, transferStep, pioStep, modeStep, h, Option.getD_some]

theorem transfer_pio_m3 (cs : Cs) (tx rx : Option Word) (len : Nat) (bits hz : Option Nat) (s : State) (h : s.seqQ = .pio (.mode .m3)) :
    exec (.transfer cs tx rx len bits hz) s = .next (goQ (.pio (.mode (.m4 s.regrec.pc))) (readPc .queue s)) := by
  simp only [exec, execTransfer, transferStep, pioStep, modeStep, h, Option.getD_some]

theorem transfer_pio_m4 (cs : Cs) (tx rx : Option Word) (len : Nat) (bits hz : Option Nat) (s : State) (t : PcRec) (h : s.seqQ = .pio (.mode (.m4 t))) :
    exec (.transfer cs tx rx len bits hz) s = .next (goQ (.pio .p5) (writePc .queue
      { t with handshake := some (modeReady (slaveMode s.xf.cs s)), threewire := some (modeThreeWire (slaveMode s.xf.cs s)) } s)) := by
  simp only [exec, execTransfer, transferStep, pioStep, modeStep, h, Option.getD_some]

theorem transfer_p5 (cs : Cs) (tx rx : Option Word) (len : Nat) (bits hz : Option Nat) (s : State) (h : s.seqQ = .pio .p5) :
    exec (.transfer cs tx rx len bits hz) s = .next (goQ (.pio .p6) (engineEntry (pioPolicy s.params s.xf) s)) := by
  simp only [exec, execTransfer, transferStep, pioStep, h, Option.getD_some]

theorem transfer_p6 (cs : Cs) (tx rx : Option Word) (len : Nat) (bits hz : Option Nat) (s : State) (h : s.seqQ = .pio .p6) :
    exec (.transfer cs tx rx len bits hz) s = .next (goQ (.pio (.p7 s.regrec.gcr)) (readGcr .queue s)) := by
  simp only [exec, execTransfer, transferStep, pioStep, h, Option.getD_some]

theorem transfer_p7 (cs : Cs) (tx rx : Option Word) (len : Nat) (bits hz : Option Nat) (s : State) (t : GcrRec) (h : s.seqQ = .pio (.p7 t)) :
    exec (.transfer cs tx rx len bits hz) s = .next (goQ (.pio .p8) (writeGcr .queue { t with enable := some true } s)) := by
  simp only [exec, execTransfer, transferStep, pioStep, h, Option.getD_some]

theorem transfer_p8 (cs : Cs) (tx rx : Option Word) (len : Nat) (bits hz : Option Nat) (s : State) (h : s.seqQ = .pio .p8) :
    exec (.transfer cs tx rx len bits hz) s = .next (goQ (.pio .p9) (writeDelay .queue s.params.delayWord s)) := by
  simp only [exec, execTransfer, transferStep, pioStep, regWrite, h, Option.getD_some]

theorem transfer_p9 (cs : Cs) (tx rx : Option Word) (len : Nat) (bits hz : Option Nat) (s : State) (h : s.seqQ = .pio .p9) :
    exec (.transfer cs tx rx len bits hz) s = .next (goQ (.pio (if bufRxEmpty s.params (nextWord s) then pioLoop s.xf.mode else .p9)) (readVolatile .queue .buf s)) := by
  simp only [exec, execTransfer, transferStep, pioStep, h, Option.getD_some]

theorem transfer_l2 (cs : Cs) (tx rx : Option Word) (len : Nat) (bits hz : Option Nat) (s : State) (i : Nat) (w : Half) (h : s.seqQ = .pio (.l2 i w)) :
    exec (.transfer cs tx rx len bits hz) s = .next (goQ (.pio (if bufTxFull s.params (nextWord s) then .l2 i w else .l3 i w)) (readVolatile .queue .buf s)) := by
  simp only [exec, execTransfer, transferStep, pioStep, h, Option.getD_some]

theorem transfer_l3 (cs : Cs) (tx rx : Option Word) (len : Nat) (bits hz : Option Nat) (s : State) (i : Nat) (w : Half) (h : s.seqQ = .pio (.l3 i w)) :
    exec (.transfer cs tx rx len bits hz) s = .next (goQ (.pio (.l4 i)) (writeDat .queue (withTxData s.params s.xf.cmd w) s)) := by
  simp only [exec, execTransfer, transferStep, pioStep, regWrite, h, Option.getD_some]

theorem transfer_l4 (cs : Cs) (tx rx : Option Word) (len : Nat) (bits hz : Option Nat) (s : State) (i : Nat) (h : s.seqQ = .pio (.l4 i)) :
    exec (.transfer cs tx rx len bits hz) s = .next (goQ (.pio (if bufRxEmpty s.params (nextWord s) then .l4 i else if s.xf.rx.isSome then .l5 i else .l0 (i + 1)))
      (readVolatile .queue .buf s)) := by
  simp only [exec, execTransfer, transferStep, pioStep, h, Option.getD_some]

theorem transfer_l5 (cs : Cs) (tx rx : Option Word) (len : Nat) (bits hz : Option Nat) (s : State) (i : Nat) (h : s.seqQ = .pio (.l5 i)) :
    exec (.transfer cs tx rx len bits hz) s = .next (goQ (.pio (.l5s i (bufRxData s.params (nextWord s)))) (readVolatile .queue .buf s)) := by
  simp only [exec, execTransfer, transferStep, pioStep, h, Option.getD_some]

theorem transfer_r0 (cs : Cs) (tx rx : Option Word) (len : Nat) (bits hz : Option Nat) (s : State) (i : Nat) (h : s.seqQ = .pio (.r0 i)) :
    exec (.transfer cs tx rx len bits hz) s = .next (pioPollHead i s) := by
  simp only [exec, execTransfer, transferStep, pioStep, h, Option.getD_some]

theorem transfer_r2 (cs : Cs) (tx rx : Option Word) (len : Nat) (bits hz : Option Nat) (s : State) (i : Nat) (h : s.seqQ = .pio (.r2 i)) :
    exec (.transfer cs tx rx len bits hz) s = .next (goQ (.pio (.r3 i)) (writeDat .queue s.xf.cmd s)) := by
  simp only [exec, execTransfer, transferStep, pioStep, regWrite, h, Option.getD_some]

theorem transfer_r3 (cs : Cs) (tx rx : Option Word) (len : Nat) (bits hz : Option Nat) (s : State) (i : Nat) (h : s.seqQ = .pio (.r3 i)) :
    exec (.transfer cs tx rx len bits hz) s = .next (goQ (.pio (if bufRxEmpty s.params (nextWord s) then .r3 i else .r4 i)) (readVolatile .queue .buf s)) := by
  simp only [exec, execTransfer, transferStep, pioStep, h, Option.getD_some]

theorem transfer_r4 (cs : Cs) (tx rx : Option Word) (len : Nat) (bits hz : Option Nat) (s : State) (i : Nat) (h : s.seqQ = .pio (.r4 i)) :
    exec (.transfer cs tx rx len bits hz) s = .next (goQ (.pio (.r5 i (bufRxData s.params (nextWord s)))) (readVolatile .queue .buf s)) := by
  simp only [exec, execTransfer, transferStep, pioStep, h, Option.getD_some]

theorem transfer_i0 (cs : Cs) (tx rx : Option Word) (len : Nat) (bits hz : Option Nat) (s : State) (i : Nat) (h : s.seqQ = .pio (.i0 i)) :
    exec (.transfer cs tx rx len bits hz) s = .next (pioIrqHead i s) := by
  simp only [exec, execTransfer, transferStep, pioStep, h, Option.getD_some]

theorem transfer_i2 (cs : Cs) (tx rx : Option Word) (len : Nat) (bits hz : Option Nat) (s : State) (i : Nat) (t : IntRec) (h : s.seqQ = .pio (.i2 i t)) :
    exec (.transfer cs tx rx len bits hz) s = .next (goQ (.pio (.i3 i)) (writeInt .queue (withRxArmed t) s)) := by
  simp only [exec, execTransfer, transferStep, pioStep, h, Option.getD_some]

theorem transfer_i3 (cs : Cs) (tx rx : Option Word) (len : Nat) (bits hz : Option Nat) (s : State) (i : Nat) (h : s.seqQ = .pio (.i3 i)) :
    exec (.transfer cs tx rx len bits hz) s = .next (goQ (.pio (.i4 i)) (writeDat .queue s.xf.cmd s)) := by
  simp only [exec, execTransfer, transferStep, pioStep, regWrite, h, Option.getD_some]

theorem transfer_i4 (cs : Cs) (tx rx : Option Word) (len : Nat) (bits hz : Option Nat) (s : State) (i : Nat) (h : s.seqQ = .pio (.i4 i)) :
    exec (.transfer cs tx rx len bits hz) s = .next (goQ (.pio (if s.regrec.int.ieRx = some false then .i0 (i + 1) else .i4 i)) (readInt .queue s)) := by
  simp only [exec, execTransfer, transferStep, pioStep, h, Option.getD_some]

/-! ### TRANSFER: the DMA engine -/

theorem transfer_dma_m2 (cs : Cs) (tx rx : Option Word) (len : Nat) (bits hz : Option Nat) (s : State) (t : GcrRec) (h : s.seqQ = .dma (.mode (.m2 t))) :
    exec (.transfer cs tx rx len bits hz) s = .next (goQ (.dma (.mode .m3)) (writeGcr .queue { t with loopback := some (modeLoop (slaveMode s.xf.cs s)) } s)) := by
  simp only [exec, execTransfer, transferStep, dmaStep, modeStep, h, Option.getD_some]

theorem transfer_dma_m3 (cs : Cs) (tx rx : Option Word) (len : Nat) (bits hz : Option Nat) (s : State) (h : s.seqQ = .dma (.mode .m3)) :
    exec (.transfer cs tx rx len bits hz) s = .next (goQ (.dma (.mode (.m4 s.regrec.pc))) (readPc .queue s)) := by
  simp only [exec, execTransfer, transferStep, dmaStep, modeStep, h, Option.getD_some]

theorem transfer_dma_m4 (cs : Cs) (tx rx : Option Word) (len : Nat) (bits hz : Option Nat) (s : State) (t : PcRec) (h : s.seqQ = .dma (.mode (.m4 t))) :
    exec (.transfer cs tx rx len bits hz) s = .next (goQ (.dma .g6) (writePc .queue
      { t with handshake := some (modeReady (slaveMode s.xf.cs s)), threewire := some (modeThreeWire (slaveMode s.xf.cs s)) } s)) := by
  simp only [exec, execTransfer, transferStep, dmaStep, modeStep, h, Option.getD_some]

theorem transfer_dma_m1 (cs : Cs) (tx rx : Option Word) (len : Nat) (bits hz : Option Nat) (s : State) (h : s.seqQ = .dma (.mode .m1)) :
    exec (.transfer cs tx rx len bits hz) s = .next (dmaModeRead s) := by
  simp only [exec, execTransfer, transferStep, dmaStep, h, Option.getD_some]

theorem transfer_g6 (cs : Cs) (tx rx : Option Word) (len : Nat) (bits hz : Option Nat) (s : State) (h : s.seqQ = .dma .g6) :
    exec (.transfer cs tx rx len bits hz) s = .next (goQ (.dma (.g7 s.regrec.int)) (readInt .queue s)) := by
  simp only [exec, execTransfer, transferStep, dmaStep, h, Option.getD_some]

theorem transfer_g7 (cs : Cs) (tx rx : Option Word) (len : Nat) (bits hz : Option Nat) (s : State) (t : IntRec) (h : s.seqQ = .dma (.g7 t)) :
    exec (.transfer cs tx rx len bits hz) s = .next (goQ (.dma .g8) (writeInt .queue (withSourcesOff t) s)) := by
  simp only [exec, execTransfer, transferStep, dmaStep, h, Option.getD_some]

theorem transfer_g8 (cs : Cs) (tx rx : Option Word) (len : Nat) (bits hz : Option Nat) (s : State) (h : s.seqQ = .dma .g8) :
    exec (.transfer cs tx rx len bits hz) s = .next (goQ (.dma (.g9 s.regrec.gcr)) (readGcr .queue s)) := by
  simp only [exec, execTransfer, transferStep, dmaStep, h, Option.getD_some]

theorem transfer_g9 (cs : Cs) (tx rx : Option Word) (len : Nat) (bits hz : Option Nat) (s : State) (t : GcrRec) (h : s.seqQ = .dma (.g9 t)) :
    exec (.transfer cs tx rx len bits hz) s = .next (goQ (.dma .g10) (writeGcr .queue { t with enable := some false } s)) := by
  simp only [exec, execTransfer, transferStep, dmaStep, h, Option.getD_some]

theorem transfer_g10 (cs : Cs) (tx rx : Option Word) (len : Nat) (bits hz : Option Nat) (s : State) (h : s.seqQ = .dma .g10) :
    exec (.transfer cs tx rx len bits hz) s = .next (goQ (.dma .g11) (writeDat .queue s.xf.cmd s)) := by
  simp only [exec, execTransfer, transferStep, dmaStep, regWrite, h, Option.getD_some]

theorem transfer_g11 (cs : Cs) (tx rx : Option Word) (len : Nat) (bits hz : Option Nat) (s : State) (h : s.seqQ = .dma .g11) :
    exec (.transfer cs tx rx len bits hz) s = .next (goQ (.dma (.g12 s.regrec.gcr)) (readGcr .queue s)) := by
  simp only [exec, execTransfer, transferStep, dmaStep, h, Option.getD_some]

theorem transfer_g12 (cs : Cs) (tx rx : Option Word) (len : Nat) (bits hz : Option Nat) (s : State) (t : GcrRec) (h : s.seqQ = .dma (.g12 t)) :
    exec (.transfer cs tx rx len bits hz) s = .next (goQ (.dma .g13) (writeGcr .queue { t with enable := some true } s)) := by
  simp only [exec, execTransfer, transferStep, dmaStep, h, Option.getD_some]

theorem transfer_g13 (cs : Cs) (tx rx : Option Word) (len : Nat) (bits hz : Option Nat) (s : State) (h : s.seqQ = .dma .g13) :
    exec (.transfer cs tx rx len bits hz) s = .next (goQ (.dma (if bufRxEmpty s.params (nextWord s) then dmaAfterPreload s.xf else .g13)) (readVolatile .queue .buf s)) := by
  simp only [exec, execTransfer, transferStep, dmaStep, h, Option.getD_some]

theorem transfer_g16 (cs : Cs) (tx rx : Option Word) (len : Nat) (bits hz : Option Nat) (s : State) (h : s.seqQ = .dma .g16) :
    exec (.transfer cs tx rx len bits hz) s = .next (dmaMapTx s) := by
  simp only [exec, execTransfer, transferStep, dmaStep, h, Option.getD_some]

theorem transfer_g18u (cs : Cs) (tx rx : Option Word) (len : Nat) (bits hz : Option Nat) (s : State) (h : s.seqQ = .dma .g18u) :
    exec (.transfer cs tx rx len bits hz) s = .next (goQ (.exit (errWord .resMap)) (unmapTx s.xf.txd s.xf.txn s)) := by
  simp only [exec, execTransfer, transferStep, dmaStep, h, Option.getD_some]

theorem transfer_g22 (cs : Cs) (tx rx : Option Word) (len : Nat) (bits hz : Option Nat) (s : State) (h : s.seqQ = .dma .g22) :
    exec (.transfer cs tx rx len bits hz) s = .next (goQ (.dma (.g23 s.regrec.int)) (readInt .queue s)) := by
  simp only [exec, execTransfer, transferStep, dmaStep, h, Option.getD_some]

theorem transfer_g23 (cs : Cs) (tx rx : Option Word) (len : Nat) (bits hz : Option Nat) (s : State) (t : IntRec) (h : s.seqQ = .dma (.g23 t)) :
    exec (.transfer cs tx rx len bits hz) s = .next (goQ (.dma (dmaFirstWait s.xf)) (writeInt .queue { t with dmareqen := some true } s)) := by
  simp only [exec, execTransfer, transferStep, dmaStep, h, Option.getD_some]

theorem transfer_g26 (cs : Cs) (tx rx : Option Word) (len : Nat) (bits hz : Option Nat) (s : State) (h : s.seqQ = .dma .g26) :
    exec (.transfer cs tx rx len bits hz) s = .next (goQ (if s.xf.rx.isSome then .dma .g27 else .x1) (unmapTx s.xf.txd s.xf.txn s)) := by
  simp only [exec, execTransfer, transferStep, dmaStep, h, Option.getD_some]

/-! ### CLEANUP, CHIPSELECT and the coordination commands -/

theorem cleanup_c1 (cs : Cs) (s : State) (h : s.seqQ = .c1) :
    exec (.cleanup cs) s = .next (cleanupFirst cs s) := by
  simp only [exec, execCleanup, cleanupStep, h, Option.getD_some]

theorem cleanup_c2 (cs : Cs) (s : State) (t : ChanId) (h : s.seqQ = .c2 t) :
    exec (.cleanup cs) s = .next (goQ .c3 (dmaFree t s)) := by
  simp only [exec, execCleanup, cleanupStep, h, Option.getD_some]

theorem cleanup_c3 (cs : Cs) (s : State) (h : s.seqQ = .c3) :
    exec (.cleanup cs) s = .next (cleanupLast cs s) := by
  simp only [exec, execCleanup, cleanupStep, h, Option.getD_some]

theorem chipselect_cs1 (cs : Cs) (act : Bool) (s : State) (h : s.seqQ = .cs1) :
    exec (.chipselect cs act) s = .next (chipselectFirst cs act s) := by
  simp only [exec, execChipselect, chipselectStep, h, Option.getD_some]

theorem chipselect_d2 (cs : Cs) (act : Bool) (s : State) (t : DefRec) (h : s.seqQ = .d2 t) :
    exec (.chipselect cs act) s = .next (goQ .d3 (writeDef .queue { t with csdef := some Config.csDefault } s)) := by
  simp only [exec, execChipselect, chipselectStep, h, Option.getD_some]

theorem chipselect_d3 (cs : Cs) (act : Bool) (s : State) (h : s.seqQ = .d3) :
    exec (.chipselect cs act) s = .next (goQ .d4 (writeDat .queue (deselectWord s.params) s)) := by
  simp only [exec, execChipselect, chipselectStep, regWrite, h, Option.getD_some]

theorem chipselect_d4 (cs : Cs) (act : Bool) (s : State) (h : s.seqQ = .d4) :
    exec (.chipselect cs act) s = .next (goQ (if bufRxEmpty s.params (nextWord s) then .cs5 else .d4) (readVolatile .queue .buf s)) := by
  simp only [exec, execChipselect, chipselectStep, h, Option.getD_some]

theorem chipselect_cs5 (cs : Cs) (act : Bool) (s : State) (h : s.seqQ = .cs5) :
    exec (.chipselect cs act) s = .next (finish .queue 0 s) := by
  simp only [exec, execChipselect, chipselectStep, h, Option.getD_some]

theorem freqPre_fp2 (s : State) (h : s.seqF = .fp2) :
    exec (.freqPre) s = .next (finish .freq 0 s) := by
  simp only [exec, execFreqPre, freqPreStep, h, Option.getD_some]

theorem freqPost_fq1 (newClk : Nat) (s : State) (h : s.seqF = .fq1) :
    exec (.freqPost newClk) s = .next (freqPostFrom 0 { s with clkRate := newClk }) := by
  simp only [exec, execFreqPost, freqPostStep, h, Option.getD_some]

theorem freqPost_fqW (newClk : Nat) (s : State) (cs : Cs) (t : FmtRec) (p : Nat) (h : s.seqF = .fqW cs t p) :
    exec (.freqPost newClk) s = .next (goF (.fqNext (cs.toNat + 1)) (dividerWrite .freq cs t p s)) := by
  simp only [exec, execFreqPost, freqPostStep, h, Option.getD_some]

theorem freqPost_fqNext (newClk : Nat) (s : State) (k : Nat) (h : s.seqF = .fqNext k) :
    exec (.freqPost newClk) s = .next (freqPostFrom k s) := by
  simp only [exec, execFreqPost, freqPostStep, h, Option.getD_some]

theorem suspend_timeout (s : State) (h : s.seqP = .spTimeout) :
    exec (.suspend) s = .next (finish .power (errWord .waitTimeout) s) := by
  simp only [exec, execSuspend, suspendStep, h, Option.getD_some]

theorem suspend_sp2 (s : State) (h : s.seqP = .sp2) :
    exec (.suspend) s = .next (goP (.sp3 s.regrec.gcr) (readGcr .power s)) := by
  simp only [exec, execSuspend, suspendStep, h, Option.getD_some]

theorem suspend_sp3 (s : State) (t : GcrRec) (h : s.seqP = .sp3 t) :
    exec (.suspend) s = .next (goP .sp4 (writeGcr .power { t with enable := some false } s)) := by
  simp only [exec, execSuspend, suspendStep, h, Option.getD_some]

theorem suspend_sp4 (s : State) (h : s.seqP = .sp4) :
    exec (.suspend) s = .next (goP .sp5 (clockGate false s)) := by
  simp only [exec, execSuspend, suspendStep, h, Option.getD_some]

theorem suspend_sp5 (s : State) (h : s.seqP = .sp5) :
    exec (.suspend) s = .next (finish .power 0 { s with suspended := true }) := by
  simp only [exec, execSuspend, suspendStep, h, Option.getD_some]

theorem resume_rs1 (s : State) (h : s.seqP = .rs1) :
    exec (.resume) s = .next (goP .rs2 (clockGate true s)) := by
  simp only [exec, execResume, resumeStep, h, Option.getD_some]

theorem resume_rs2 (s : State) (h : s.seqP = .rs2) :
    exec (.resume) s = .next (goP (.rs3 s.regrec.gcr) (readGcr .power s)) := by
  simp only [exec, execResume, resumeStep, h, Option.getD_some]

theorem resume_rs3 (s : State) (t : GcrRec) (h : s.seqP = .rs3 t) :
    exec (.resume) s = .next (goP .rs4 (writeGcr .power { t with enable := some true } s)) := by
  simp only [exec, execResume, resumeStep, h, Option.getD_some]

theorem resume_rs4 (s : State) (h : s.seqP = .rs4) :
    exec (.resume) s = .next (finish .power 0 { s with suspended := false }) := by
  simp only [exec, execResume, resumeStep, h, Option.getD_some]

end Sys2Proof.Machine
end

