-- ==== Sys2Proof/Tests/Slice0.lean ====
section
/-!
SUPPORT. Tests of the model on the spec's own examples (95_test_vectors.md and the table of opcode_table.json), and for every
statement with hypotheses a state and operands that meet them.
-/

namespace Sys2Proof.Machine

open Sys2Proof

/-! ### Well-formedness: one ill-formed term for each check (30_encoding.md R94) -/

theorem test_wf_setup_bits : Instr.wf (.setup 0 0 (2 ^ 32) 1000000) = false := by decide

theorem test_wf_setup_hz : Instr.wf (.setup 0 0 8 (2 ^ 32)) = false := by decide

theorem test_wf_transfer_len : Instr.wf (.transfer 0 (some 0x1000) none (2 ^ 32) none none) = false := by decide

theorem test_wf_transfer_bits : Instr.wf (.transfer 0 (some 0x1000) none 2 (some (2 ^ 32)) none) = false := by decide

theorem test_wf_transfer_hz : Instr.wf (.transfer 0 (some 0x1000) none 2 none (some (2 ^ 32))) = false := by decide

theorem test_wf_freqPost_clk : Instr.wf (.freqPost (2 ^ 32)) = false := by decide

theorem test_wf_accepts :
    Instr.wf (.setup 7 0xFF (2 ^ 32 - 1) (2 ^ 32 - 1)) = true
      ∧ Instr.wf (.transfer 0 none none (2 ^ 32 - 1) (some (2 ^ 32 - 1)) (some (2 ^ 32 - 1))) = true
      ∧ Instr.wf (.cleanup 3) = true ∧ Instr.wf (.chipselect 7 true) = true ∧ Instr.wf .freqPre = true
      ∧ Instr.wf (.freqPost (2 ^ 32 - 1)) = true ∧ Instr.wf .suspend = true ∧ Instr.wf .resume = true := by decide

/-! ### Decoding (30_encoding.md R91-R98, 95_test_vectors.md V13, opcode_table.json) -/

/-- Bits of R93: `MODE` 23..16 = 1010 0101, reserved 0, `CS` 10..8 = 101, `OP` 0000 0001. -/
theorem test_decode_setup :
    decode .queue 0b00000000101001010000010100000001 ⟨12, 600000, 9, 9, 9⟩ = .ok (.setup 5 0xA5 12 600000) := by decide

/-- V13-5: `HZ_OVR`, `BPW_OVR`, `RXP`, `TXP` all 1. -/
theorem test_decode_transfer :
    decode .queue 0b00000000000011110000000000000010 ⟨0x1000, 0x2000, 4, 16, 600000⟩
      = .ok (.transfer 0 (some 0x1000) (some 0x2000) 4 (some 16) (some 600000)) := by decide

/-- `RXP` and `BPW_OVR` only: `ARG[0]` and `ARG[4]` are not read. -/
theorem test_decode_transfer_partly :
    decode .queue 0b00000000000001100000000100000010 ⟨0x1000, 0x2000, 4, 16, 600000⟩
      = .ok (.transfer 1 none (some 0x2000) 4 (some 16) none) := by decide

theorem test_decode_cleanup : decode .queue 0b00000000000000000000001100000011 Args.zero = .ok (.cleanup 3) := by decide

theorem test_decode_chipselect :
    decode .queue 0b00000000000000010000000100000100 Args.zero = .ok (.chipselect 1 true)
      ∧ decode .queue 0b00000000000000000000001000000100 Args.zero = .ok (.chipselect 2 false) := by decide

theorem test_decode_freqPre : decode .freq 0b00000000000000000000000000010000 Args.zero = .ok .freqPre := by decide

theorem test_decode_freqPost :
    decode .freq 0b00000000000000000000000000010001 ⟨100000000, 1, 2, 3, 4⟩ = .ok (.freqPost 100000000) := by decide

theorem test_decode_suspend : decode .power 0b00000000000000000000000000100000 Args.zero = .ok .suspend := by decide

theorem test_decode_resume : decode .power 0b00000000000000000000000000100001 Args.zero = .ok .resume := by decide

/-- V13-3, V13-4, V13-6, V13-8, V13-9, V13-12: a reserved bit is 1. -/
theorem test_decode_reserved_bits :
    decode .queue 0x01000001 Args.zero = .error (.reservedBits 0x01)
      ∧ decode .queue 0x00000801 Args.zero = .error (.reservedBits 0x01)
      ∧ decode .queue 0x00100002 Args.zero = .error (.reservedBits 0x02)
      ∧ decode .queue 0x00020004 Args.zero = .error (.reservedBits 0x04)
      ∧ decode .queue 0x00010003 Args.zero = .error (.reservedBits 0x03)
      ∧ decode .freq 0x00000111 Args.zero = .error (.reservedBits 0x11) := by decide

/-- V13-10, V13-14: another port's operation code. -/
theorem test_decode_wrong_port :
    decode .queue 0x00000010 Args.zero = .error (.wrongPort 0x10)
      ∧ decode .power 0x00000002 Args.zero = .error (.wrongPort 0x02) := by decide

/-- V13-15: reserved operation codes. -/
theorem test_decode_reserved_op :
    decode .queue 0x00000000 Args.zero = .error (.reservedOp 0x00)
      ∧ decode .freq 0x00000005 Args.zero = .error (.reservedOp 0x05)
      ∧ decode .power 0x000000FF Args.zero = .error (.reservedOp 0xFF) := by decide

/-- The words of programs L3-1 and L3-5. -/
theorem test_encode :
    encode (.setup 0 0 8 1000000) = ⟨0x00000001, ⟨0x00000008, 0x000F4240, 0, 0, 0⟩⟩
      ∧ encode (.transfer 0 (some 0x1000) none 2 none (some 600000)) = ⟨0x00090002, ⟨0x1000, 0, 2, 0, 0x000927C0⟩⟩
      ∧ encode (.freqPost 100000000) = ⟨0x00000011, ⟨0x05F5E100, 0, 0, 0, 0⟩⟩
      ∧ (encode (.chipselect 1 true)).cmd = 0x00010104 := by decide

/-- The masks and matches of opcode_table.json. -/
theorem test_table_rows :
    Op.all.map (fun o => (o.mask, o.pattern)) =
      [(0xFF00F8FF, 0x01), (0xFFF0F8FF, 0x02), (0xFFFFF8FF, 0x03), (0xFFFEF8FF, 0x04), (0xFFFFFFFF, 0x10),
       (0xFFFFFFFF, 0x11), (0xFFFFFFFF, 0x20), (0xFFFFFFFF, 0x21)] := by decide

/-- A row's match alone, and with argument words after it: `CMD` is bits 31..0, `ARG[0]` bits 63..32, `ARG[1]` bits 95..64. -/
theorem test_decode_table_word :
    decodeTableWord 32 0x00000011 = some (.freqPost 0)
      ∧ decodeTableWord 96 0x000F4240_00000008_00A50101 = some (.setup 1 0xA5 8 1000000)
      ∧ decodeTableWord 32 0x00000801 = none := by decide

/-! ### The textual form (30_encoding.md R104, R105) -/

theorem test_assemble_setup :
    assemble "SETUP cs=0 mode=0x00 bits=8 hz=1000000" = some (.queue, ⟨0x00000001, ⟨8, 0x000F4240, 0, 0, 0⟩⟩) := by decide

theorem test_assemble_transfer :
    assemble "TRANSFER  cs=0 tx=0x1000 len=2 hz=600000" = some (.queue, ⟨0x00090002, ⟨0x1000, 0, 2, 0, 0x000927C0⟩⟩) := by
  decide

theorem test_assemble_others :
    assemble "CLEANUP cs=1" = some (.queue, ⟨0x00000103, Args.zero⟩)
      ∧ assemble "CHIPSELECT cs=0 active" = some (.queue, ⟨0x00010004, Args.zero⟩)
      ∧ assemble "FREQ_PRE" = some (.freq, ⟨0x00000010, Args.zero⟩)
      ∧ assemble "FREQ_POST clk=100000000" = some (.freq, ⟨0x00000011, ⟨0x05F5E100, 0, 0, 0, 0⟩⟩)
      ∧ assemble "SUSPEND" = some (.power, ⟨0x00000020, Args.zero⟩)
      ∧ assemble "RESUME" = some (.power, ⟨0x00000021, Args.zero⟩) := by decide

theorem test_assemble_pseudo :
    assemble "XFER cs=0 tx=0x1000 rx=0x2000 len=2" = some (.queue, ⟨0x00030002, ⟨0x1000, 0x2000, 2, 0, 0⟩⟩)
      ∧ assemble "TX cs=1 tx=16 len=1" = some (.queue, ⟨0x00010102, ⟨16, 0, 1, 0, 0⟩⟩)
      ∧ assemble "RX cs=1 rx=0x3000 len=4" = some (.queue, ⟨0x00020102, ⟨0, 0x3000, 4, 0, 0⟩⟩)
      ∧ assemble "DESELECT cs=2" = some (.queue, ⟨0x00000204, Args.zero⟩)
      ∧ assemble "SETUP cs=8 mode=0 bits=8 hz=1000000" = none := by decide

/-! ### Arithmetic and words (95_test_vectors.md V1, V4, V7, 30_encoding.md R97) -/

/-- V1. -/
theorem test_prescale :
    prescale 50000000 1000000 = some (49, false) ∧ prescale 150000000 600000 = some (249, false)
      ∧ prescale 150000000 50000000 = some (2, false) ∧ prescale 100000000 50000000 = some (2, true)
      ∧ prescale 100000000 30000000 = some (3, false) ∧ prescale 200000000 600000 = some (255, false)
      ∧ prescale 256500 1000 = some (255, false) ∧ prescale 10 3 = some (2, false)
      ∧ prescale 24000000 24000000 = some (2, true) ∧ prescale 153600000 600000 = some (255, false)
      ∧ prescale 75000000 20000000 = some (3, false) ∧ prescale 60000000 700000 = some (85, false)
      ∧ prescale 100000000 600000 = some (166, false) ∧ prescale 257 1 = some (255, false)
      ∧ prescale 1000 1 = some (255, false) ∧ prescale 2 1 = some (2, true)
      ∧ prescale 50000000 0 = none ∧ prescale 50000000 60000000 = none := by decide

/-- V1, column "achieved". -/
theorem test_achieved :
    achieved 200000000 255 = 781250 ∧ achieved 100000000 3 = 25000000 ∧ achieved 2 2 = 0 := by decide

/-- V4. -/
theorem test_chipselect_words :
    activePattern 0 = 0xFE ∧ activePattern 1 = 0xFD ∧ activePattern 2 = 0xFB ∧ activePattern 7 = 0x7F
      ∧ cmdBase Config.vectorParams 0 = 0x10FE0000 ∧ cmdBase Config.vectorParams 1 = 0x10FD0000
      ∧ cmdBase { Config.vectorParams with csHold := false } 0 = 0x00FE0000
      ∧ compose Config.vectorParams 0 0xAA = 0x10FE00AA ∧ compose Config.vectorParams 1 0x1234 = 0x10FD1234
      ∧ releaseWord Config.vectorParams 0 = 0x00FE0000 ∧ releaseWord Config.vectorParams 1 = 0x00FD0000
      ∧ deselectWord Config.vectorParams = 0x00FF0000 := by decide

/-- V7: on `V2`. -/
theorem test_status_v2 :
    [0x00000000, 0x00000002, 0x00000008, 0x00000010, 0x00000001, 0x00000004, 0x00000040, 0x00000200, 0x01000000, 0x00000100,
     0x00000012, 0x00000018, 0x00000015, 0x00000005, 0x00000044, 0x01000200, 0x01000140, 0xFFFFFFFF, 0xFFFFFFED,
     0xFEFFFCA0].map (fun v => (statusDecode Config.layoutGk .v2 v).map errCode) =
      [none, some (-2), some (-3), some (-4), some (-5), some (-6), some (-7), some (-8), some (-9), none, some (-2), some (-3),
       some (-4), some (-5), some (-6), some (-8), some (-7), some (-2), some (-3), none] := by decide

/-- V7: on `V1`. -/
theorem test_status_v1 :
    [0x00000002, 0x00000008, 0x00000010, 0x00000001, 0x01000000, 0x00000018, 0x00000015, 0xFFFFFFFF].map
        (fun v => (statusDecode Config.layoutGk .v1 v).map errCode) =
      [some (-2), some (-3), some (-4), none, none, some (-3), some (-4), some (-2)] := by decide

/-- V13, result words. -/
theorem test_result_words :
    errWord .inval = 0xFFFFFFFF ∧ errWord .hwBiterr = 0xFFFFFFFC ∧ errWord .waitTimeout = 0xFFFFFFF4
      ∧ errWord .badCmd = 0xFFFFFFF3 := by decide

/-- V2: the bytes per word. -/
theorem test_bpw : bpwOf 2 = 1 ∧ bpwOf 8 = 1 ∧ bpwOf 9 = 2 ∧ bpwOf 16 = 2 := by decide

/-- The word of V3's first row, unknown bits 0. -/
theorem test_format_word :
    fmtWord Config.layoutGk 0 (withFormatBits Config.vectorParams 0x00 ⟨some 49, some 8, none, none, none, none⟩) = 0x00013108
      ∧ fmtWord Config.layoutGk 0 (withFormatBits Config.vectorParams 0x03 ⟨some 49, some 8, none, none, none, none⟩)
        = 0x00023108
      ∧ fmtWord Config.layoutGk 0 (withFormatBits Config.vectorParams 0x08 ⟨some 49, some 8, none, none, none, none⟩)
        = 0x00113108 := by decide

/-- 20_memory.md R70: little-endian halves; the canonical form drops a byte that reads 0. -/
theorem test_memory :
    memWrite [] 0x3000 2 0x0ABC = [(0x3000, 0xBC), (0x3001, 0x0A)]
      ∧ memRead (memWrite [] 0x3000 2 0x0ABC) 0x3000 2 = 0x0ABC
      ∧ memWrite [(0x3000, 0xBC), (0x3001, 0x0A)] 0x3000 1 0 = [(0x3001, 0x0A)] := by decide

/-! ### Small states -/

/-- Reset with the parameters of the vectors. -/
def testBase : State := State.resetWith Config.vectorParams

/-- The record of L3-1's SETUP: 8 bits, 1 MHz, mode 0. -/
def testRec8 : Slave := ⟨8, 1000000, 0, 8, 1, 1000000, none⟩

/-- The record of L3-5's second SETUP: 16 bits, 50 MHz, mode 0. -/
def testRec16 : Slave := ⟨16, 50000000, 0, 16, 2, 50000000, none⟩

/-- Chip-select 0 configured with 8 bits and 1 with 16 bits. -/
def testSetUp : State := setSlave 1 (some testRec16) (setSlave 0 (some testRec8) testBase)

/-- As `testSetUp`, with the DMA strategy and channels 5 and 6 for chip-select 0, 7 and 8 for 1. -/
def testDma : State :=
  setDma 1 ⟨some 7, some 8, false, false⟩ (setDma 0 ⟨some 5, some 6, false, false⟩
    { testSetUp with params := { Config.vectorParams with useDma := true } })

/-- Port Q busy, Q at position `l`. -/
def testAt (l : QSeq) (s : State) : State := { s with seqQ := l, portQ := { s.portQ with busy := true } }

/-- Port F busy, F at position `l`. -/
def testAtF (l : FSeq) (s : State) : State := { s with seqF := l, portF := { s.portF with busy := true } }

/-- Port P busy, P at position `l`. -/
def testAtP (l : PSeq) (s : State) : State := { s with seqP := l, portP := { s.portP with busy := true } }

/-- The answers of the next volatile reads. -/
def testWords (ws : List Word) (s : State) : State := { s with env := { s.env with words := ws } }

/-- The environment's next moves. -/
def testTurns (ms : List Move) (s : State) : State := { s with env := { s.env with turns := ms } }

/-- A full-duplex context of two 1-byte words at chip-select 0 (L3-1): transmit at 0x1000, receive at 0x2000. -/
def testContext : Xfer := ⟨.pioTx, 0, 1, 2, 2, some 0x1000, some 0x2000, 0x2000, 0x2002, 0x10FE0000, 0, 0, 0, 0⟩

/-- Q at position `l` of the engine of `testContext`, host memory as at L3-1's start. -/
def testXfer (l : QSeq) : State :=
  testAt l { testSetUp with xf := testContext, inUse := true, done := false, mem := [(0x1000, 0xAA), (0x1001, 0x55)] }

/-- A receive-only context of two 2-byte words at chip-select 1 (L3-2): receive at 0x3000. -/
def testRxContext (m : XfMode) : Xfer := ⟨m, 1, 2, 2, 4, none, some 0x3000, 0x3000, 0x3004, 0x10FD0000, 0, 0, 0, 0⟩

/-- Q at position `l` of the engine of `testRxContext`. -/
def testRx (m : XfMode) (l : QSeq) : State :=
  testAt l { testSetUp with xf := testRxContext m, inUse := true, done := false }

/-- Q at position `l` of the DMA engine, receive-only, three 1-byte words at chip-select 0 (L3-3). -/
def testDmaRx (l : QSeq) : State :=
  testAt l { testDma with
    xf := ⟨.dma, 0, 1, 3, 3, none, some 0x2000, 0x2000, 0x2003, 0x10FE0000, 0xA0008000, 4, 0xA0002000, 3⟩
    inUse := true
    done := false }

/-- As `testDmaRx`, transmit-only. -/
def testDmaTx (l : QSeq) : State :=
  testAt l { testDma with
    xf := ⟨.dma, 0, 1, 3, 3, some 0x1000, none, 0, 3, 0x10FE0000, 0xA0001000, 3, 0, 0⟩
    inUse := true
    done := false }

/-! ### Single steps -/

/-- V2-2: S6 and the first step of `Configure` record the declared and effective values. -/
theorem test_setup_records :
    ∃ t, exec (.setup 0 0 2 1000000) (testAt .s1 testBase) = .next t
      ∧ slaveOf 0 t = some ⟨2, 1000000, 0, 2, 1, 1000000, none⟩ ∧ t.seqQ = .s7 (.lenW ⟨none, none, none, none, none, none⟩ 2 1000000)
      ∧ t.regrec = testBase.regrec := ⟨_, rfl, by decide⟩

/-- V2-19: S1 precedes S2. -/
theorem test_setup_range_before_suspended :
    ∃ t, exec (.setup 2 0 8 1000000) (testAt .s1 { testBase with suspended := true }) = .next t
      ∧ t.portQ.res = 0xFFFFFFFF ∧ t.portQ.busy = false ∧ t.fault = none := ⟨_, rfl, by decide⟩

/-- L3-1: the command word carries the byte transmitted. -/
theorem test_transfer_writes_data :
    ∃ t, exec (.transfer 0 (some 0x1000) (some 0x2000) 2 none none) (testXfer (.pio (.l3 0 0xAA))) = .next t
      ∧ t.regrec.dat = some 0x10FE00AA ∧ t.seqQ = .pio (.l4 0) := ⟨_, rfl, by decide⟩

/-- L3-2: a 12-bit word is stored little-endian at the word's address. -/
theorem test_transfer_stores_word :
    ∃ t, exec (.transfer 1 none (some 0x3000) 4 none none) (testRx .pioRxPoll (.pio (.r5 1 0x0123))) = .next t
      ∧ t.mem = [(0x3002, 0x23), (0x3003, 0x01)] ∧ t.seqQ = .pio (.r0 2) := ⟨_, rfl, by decide⟩

/-- V6-1: the receive channel is freed first. -/
theorem test_cleanup_frees :
    ∃ t, exec (.cleanup 0) (testAt .c1 testDma) = .next t ∧ t.hist = [⟨.queue, .dfree 5⟩] ∧ t.seqQ = .c2 6 :=
  ⟨_, rfl, by decide⟩

/-- V6-3: an active transmit channel. -/
theorem test_cleanup_busy :
    ∃ t, exec (.cleanup 0) (testAt .c1 { testDma with active := [6] }) = .next t
      ∧ t.fault = some .dmaChannelBusy ∧ (dmaOf 0 t).rxCh = some 5 := ⟨_, rfl, by decide⟩

/-- V5-1: the deselect word. -/
theorem test_chipselect_deselects :
    ∃ t, exec (.chipselect 0 false) (testAt .d3 testBase) = .next t
      ∧ t.hist = [⟨.queue, .wr .dat (.word 0x00FF0000)⟩] ∧ t.seqQ = .d4 := ⟨_, rfl, by decide⟩

/-- V5-2: activation has no downstream access. -/
theorem test_chipselect_activates :
    ∃ t, exec (.chipselect 1 true) (testAt .cs1 testBase) = .next t ∧ t.hist = [⟨.queue, .res .queue 0⟩] :=
  ⟨_, rfl, by decide⟩

/-- 46_coordination.md R300: F holds while a transfer runs. -/
theorem test_freqPre_holds :
    ∃ t, exec .freqPre (testAtF .fp1 { testBase with done := false }) = .next t ∧ t.seqF = .fp1 ∧ t.portF.busy = true :=
  ⟨_, rfl, by decide⟩

/-- L3-5: `PRESCALE(FMT[0]) := 99` after the change to 100 MHz. -/
theorem test_freqPost_first :
    ∃ t, exec (.freqPost 100000000) (testAtF .fq1 testSetUp) = .next t
      ∧ t.seqF = .fqW 0 ⟨none, none, none, none, none, none⟩ 99 ∧ t.clkRate = 100000000 := ⟨_, rfl, by decide⟩

/-- L3-5: the floored value of chip-select 1. -/
theorem test_freqPost_floor :
    ∃ t, exec (.freqPost 100000000) (testAtF (.fqNext 1) { testSetUp with clkRate := 100000000 }) = .next t
      ∧ t.hist = [⟨.freq, .prescaleFloor 1⟩, ⟨.freq, .rd (.fmt 1) (.fmt ⟨none, none, none, none, none, none⟩)⟩]
      ∧ t.seqF = .fqW 1 ⟨none, none, none, none, none, none⟩ 2 := ⟨_, rfl, by decide⟩

/-- V12-7: the clock goes off before `suspended` is set. -/
theorem test_suspend_clock :
    ∃ t, exec .suspend (testAtP .sp4 testBase) = .next t ∧ t.clkOn = false ∧ t.suspended = false := ⟨_, rfl, by decide⟩

/-- V12-10: the clock comes on first. -/
theorem test_resume_clock :
    ∃ t, exec .resume (testAtP .rs1 { testBase with clkOn := false, suspended := true }) = .next t
      ∧ t.clkOn = true ∧ t.suspended = true ∧ t.hist = [⟨.power, .clk true⟩] := ⟨_, rfl, by decide⟩

/-- 60_exceptions.md R351: armed after the read of `FLG`, as the step after it finds, the handler goes on. -/
theorem test_handler_armed_late :
    ∃ t, handlerStep { testWords [0x00000ABC] (testRx .pioRxIrq (.pio (.i3 0))) with
          seqH := .h2 0x00000100
          regrec := { RegRec.reset with int := withRxArmed RegRec.reset.int } } = some t
      ∧ t.seqH = .h3 0x0ABC := ⟨_, rfl, by decide⟩

/-- L3-2: the handler stores the word and advances the cursor. -/
theorem test_handler_stores :
    ∃ t, handlerStep { testRx .pioRxIrq (.pio (.i4 0)) with seqH := .h3 0x0ABC } = some t
      ∧ t.mem = [(0x3000, 0xBC), (0x3001, 0x0A)] ∧ t.xf.rxCur = 0x3002 := ⟨_, rfl, by decide⟩

/-- L3-3: the receive callback's read of `INT` sets `rx_done`. -/
theorem test_callback_latches :
    ∃ t, callbackStep .rx { testDmaRx (.dma .g25) with seqRx := .k4 0 } = some t
      ∧ (dmaOf 0 t).rxDone = true ∧ (dmaOf 0 t).txDone = false := ⟨_, rfl, by decide⟩

/-- A word laid down after reset runs in the very next step (opcode_table.json: FREQ_PRE and CLEANUP), whatever the parameters. -/
theorem test_fetch_freqPre :
    ∃ t, step (State.reset.withFetchWord 32 0x00000010) = .next t ∧ t.seqF = .fp2 ∧ t.portF.busy = true := ⟨_, rfl, by decide⟩

theorem test_fetch_reserved :
    ∃ t, step (State.reset.withFetchWord 32 0x00000801) = .next t ∧ t.portQ.res = 0xFFFFFFF3 ∧ t.seqQ = .idle :=
  ⟨_, rfl, by decide⟩

/-- The machine's core is its step and its reset. -/
theorem test_core : Sys2Proof.core.step = step ∧ Sys2Proof.core.reset = State.reset := ⟨rfl, rfl⟩

/-! ### Witnesses: commands and steps -/

theorem witness_DecodeEncode :
    Instr.wf (.transfer 0 (some 0x1001) none 0xFFFFFFFF (some 17) none) = true := by decide

theorem witness_DecodedCommandReencodes :
    decode .queue 0x000F0702 ⟨0xFFFFFFFF, 0xFFFFFFFF, 0xFFFFFFFF, 0xFFFFFFFF, 0xFFFFFFFF⟩
      = .ok (.transfer 7 (some 0xFFFFFFFF) (some 0xFFFFFFFF) 0xFFFFFFFF (some 0xFFFFFFFF) (some 0xFFFFFFFF)) := by decide

theorem witness_DecodeMatchesTableRow_matched :
    Op.transfer ∈ Op.all ∧ Op.transfer.port = .queue ∧ (0x000F0702 : Word) &&& Op.transfer.mask = Op.transfer.pattern := by decide

theorem witness_DecodeMatchesTableRow_unmatched :
    ¬ ∃ o ∈ Op.all, o.port = Port.power ∧ (0x000F0702 : Word) &&& o.mask = o.pattern := by decide

/-- Port `p` at its first step with the command word `cmd` in its registers, its agent's step laid down next. -/
def testIssued (p : Port) (cmd : Word) (a : Args) : State := testTurns [.port p] (loadCommand p cmd a testBase)

theorem witness_StepRunsDecodedCommand_queue :
    let s := testIssued .queue 0x00000001 ⟨8, 1000000, 0, 0, 0⟩
    s.fault = none ∧ nextTurn s = .port .queue ∧ portRunning .queue s = true
      ∧ portCommand .queue s = .ok (.setup 0 0 8 1000000) := by decide

theorem witness_StepRunsDecodedCommand_freq :
    let s := testIssued .freq 0x00000011 ⟨100000000, 0, 0, 0, 0⟩
    s.fault = none ∧ nextTurn s = .port .freq ∧ portRunning .freq s = true
      ∧ portCommand .freq s = .ok (.freqPost 100000000) := by decide

theorem witness_StepRunsDecodedCommand_power :
    let s := testIssued .power 0x00000020 Args.zero
    s.fault = none ∧ nextTurn s = .port .power ∧ portRunning .power s = true ∧ portCommand .power s = .ok .suspend := by decide

theorem witness_StepRunsDecodedCommand_not_decoded :
    let s := testIssued .queue 0x00000802 Args.zero
    let u := testTurns [.port .queue] testBase
    s.fault = none ∧ nextTurn s = .port .queue ∧ portRunning .queue s = true
      ∧ portCommand .queue s = .error (.reservedBits 0x02)
      ∧ nextTurn u = .port .queue ∧ portRunning .queue u = false ∧ testBase.env.turns = [] := by decide

/-- Each of the other moves, admitted in the first state and not in the second. -/
theorem witness_StepRunsDecodedCommand_other_moves :
    (let s := { testRx .pioRxIrq (.pio (.i4 0)) with seqH := .h1 }
     nextTurn (testTurns [.handler] s) = .handler ∧ (handlerStep (dropTurn (testTurns [.handler] s))).isSome
      ∧ handlerStep (dropTurn (testTurns [.handler] testBase)) = none)
    ∧ (let s := testTurns [.callback .tx] { testDma with seqTx := .k4 0 }
       nextTurn s = .callback .tx ∧ (callbackStep .tx (dropTurn s)).isSome
      ∧ callbackStep .tx (dropTurn (testTurns [.callback .tx] testBase)) = none)
    ∧ (let s := testTurns [.cmd .power 0x00000020 Args.zero] testBase
       nextTurn s = .cmd .power 0x00000020 Args.zero ∧ (envCmd .power 0x00000020 Args.zero (dropTurn s)).isSome
      ∧ envCmd .power 0x00000020 Args.zero (dropTurn (testTurns [.cmd .power 0x00000020 Args.zero] (testAtP .sp1 testBase))) = none)
    ∧ (let s := testTurns [.irq] testBase
       nextTurn s = .irq ∧ (envIrq (dropTurn s)).isSome ∧ envIrq (dropTurn (testTurns [.irq] { testBase with seqH := .h1 })) = none)
    ∧ (let s := testTurns [.dmaDone 6 .clean] { testDma with active := [6] }
       nextTurn s = .dmaDone 6 .clean ∧ (envDmaDone 6 .clean (dropTurn s)).isSome
      ∧ envDmaDone 6 .clean (dropTurn (testTurns [.dmaDone 6 .clean] testDma)) = none)
    ∧ (let s := testTurns [.intr] (testDmaTx (.dma .g24))
       nextTurn s = .intr ∧ (envIntr (dropTurn s)).isSome ∧ envIntr (dropTurn (testTurns [.intr] testBase)) = none)
    ∧ (let s := testTurns [.timeout] (testAtP .sp1 { testBase with done := false })
       nextTurn s = .timeout ∧ (envTimeout (dropTurn s)).isSome
      ∧ envTimeout (dropTurn (testTurns [.timeout] testBase)) = none)
    ∧ nextTurn (testTurns [.store 0xFFFFFFFF 0x55] testBase) = .store 0xFFFFFFFF 0x55 := by decide

theorem witness_ReservedEncodingRefused_reasons :
    (∀ o ∈ Op.all, o.code ≠ opField 0x00000005)
      ∧ (∃ o ∈ Op.all, o.code = opField 0x00000010 ∧ o.port ≠ Port.queue)
      ∧ ∃ o ∈ Op.all, o.code = opField 0x00000802 ∧ (0x00000802 : Word) &&& o.reserved ≠ 0 := by decide

theorem witness_ReservedEncodingRefused_queue :
    let s := testIssued .queue 0x00000802 Args.zero
    s.seqQ ≠ .idle ∧ decode .queue s.portQ.cmd s.portQ.arg = .error (.reservedBits 0x02) := by decide

theorem witness_ReservedEncodingRefused_freq :
    let s := testIssued .freq 0x00000020 Args.zero
    s.seqF ≠ .idle ∧ decode .freq s.portF.cmd s.portF.arg = .error (.wrongPort 0x20) := by decide

theorem witness_ReservedEncodingRefused_power :
    let s := testIssued .power 0x00000000 Args.zero
    s.seqP ≠ .idle ∧ decode .power s.portP.cmd s.portP.arg = .error (.reservedOp 0x00) := by decide

theorem witness_IssueProtocol :
    (portRegs .queue (testAt .s9 testBase)).busy = true ∧ testBase.portQ.busy = false ∧ testBase.portF.busy = false
      ∧ testBase.portP.busy = false := by decide

theorem witness_IssueProtocol_first :
    (∃ t, envCmd .power 0x00000020 Args.zero testBase = some t)
      ∧ decode .power 0x00000020 Args.zero = .ok .suspend
      ∧ (∃ t, envCmd .freq 0x00000020 Args.zero testBase = some t)
      ∧ decode .freq 0x00000020 Args.zero = .error (.wrongPort 0x20) := ⟨⟨_, rfl⟩, by decide, ⟨_, rfl⟩, by decide⟩

theorem witness_CommandEndsWithFinish :
    ∃ t, exec (.chipselect 0 false) (testAt .cs5 testBase) = .next t
      ∧ (portRegs .queue (testAt .cs5 testBase)).busy = true ∧ (portRegs .queue t).busy = false := ⟨_, rfl, by decide⟩

theorem witness_CommandRegistersNeverWritten :
    (∃ t, handlerStep { testBase with seqH := .h1 } = some t)
      ∧ ∃ t, callbackStep .tx { testDma with seqTx := .k1 0 6 .clean } = some t := ⟨⟨_, rfl⟩, ⟨_, rfl⟩⟩

theorem witness_FaultedMachineStops :
    let s := testTurns [.port .queue] { testBase with fault := some .misaligned }
    s.fault = some .misaligned ∧ nextTurn s ≠ .attach := by decide

theorem witness_AttachResets :
    nextTurn (testTurns [.attach] { testBase with fault := some .misaligned }) = .attach := by decide


/-! ### Witnesses: divider, SETUP, CLEANUP, CHIPSELECT, suspended port -/

theorem witness_PrescaleRange :
    prescale 100000000 50000000 = some (2, true) ∧ prescale 200000000 600000 = some (255, false) := by decide

theorem witness_PrescaleAchieved :
    (0 < 600000 ∧ 600000 ≤ 150000000 ∧ ¬ 600000 < 150000000 / 256) ∧ 0 < 600000 ∧ 600000 ≤ 200000000 ∧ 600000 < 200000000 / 256 := by decide

theorem witness_PrescaleAchieved_none : (0 = 0 ∨ 50000000 < 0) ∧ (50000001 = 0 ∨ 50000000 < 50000001) := by decide

theorem witness_DividerWritten :
    let s := testAt (.s7 (.divR 50000000)) testSetUp
    s.seqQ = .s7 (.divR 50000000) ∧ prescale s.clkRate 50000000 = some (2, true) := by decide

theorem witness_DividerWritten_transfer :
    let s := testAt (.t6 (.divR 50000000)) testSetUp
    s.seqQ = .t6 (.divR 50000000) ∧ prescale s.clkRate 50000000 = some (2, true)
      ∧ (testAt (.t6 (.divR 50000001)) testSetUp).seqQ = .t6 (.divR 50000001) ∧ s.clkRate < 50000001 := by decide

theorem witness_DividerWritten_domain :
    (testAt (.s7 (.divR 0)) testSetUp).seqQ = .s7 (.divR 0)
      ∧ (testAt (.s7 (.divR 50000001)) testSetUp).seqQ = .s7 (.divR 50000001) ∧ testSetUp.clkRate < 50000001 := by decide

theorem witness_SetupChecksInOrder :
    let s := testAt .s1 testBase
    s.seqQ = .s1 ∧ s.params.numCs ≤ (2 : Cs).toNat
      ∧ (1 : Cs).toNat < s.params.numCs ∧ s.suspended = false ∧ { s with suspended := true }.suspended = true
      ∧ 599999 < 600000 ∧ 50000000 < 50000001 ∧ 600000 ≤ 50000000 ∧ 1 < 2 ∧ 16 < 17 := by decide

theorem witness_SetupCompletes :
    let s := testAt .s1 testBase
    s.seqQ = .s1 ∧ (1 : Cs).toNat < s.params.numCs ∧ s.suspended = false
      ∧ (s.params.useDma = true → (dmaOf 1 s).rxCh ≠ none)
      ∧ prescale s.clkRate 600000 = some (83, false) ∧ prescale s.clkRate 50000000 = some (2, true) := by decide

theorem witness_SetupCompletes_dma :
    let s := testAt .s1 testDma
    s.seqQ = .s1 ∧ (0 : Cs).toNat < s.params.numCs ∧ s.suspended = false ∧ s.params.useDma = true
      ∧ (dmaOf 0 s).rxCh ≠ none ∧ prescale s.clkRate 1000000 = some (49, false) := by decide

theorem witness_SetupCompletes_last :
    (testAt .s9 testSetUp).seqQ = .s9 := by decide

/-- The DMA strategy without channels, and the answers of the next allocations. -/
def testAllocs (as : List (Option ChanId)) (l : QSeq) : State :=
  testAt l { testBase with params := { Config.vectorParams with useDma := true }, env := { Env.reset with allocs := as } }

theorem witness_SetupAllocatesAllOrNothing_first :
    let s := testAllocs [some 5] .s1
    s.seqQ = .s1 ∧ (0 : Cs).toNat < s.params.numCs ∧ s.suspended = false ∧ s.params.useDma = true
      ∧ (dmaOf 0 s).rxCh = none ∧ nextAlloc s = some 5 ∧ nextAlloc (testAllocs [none] .s1) = none := by decide

theorem witness_SetupAllocatesAllOrNothing_second :
    let s := testAllocs [none] (.sAllocTx 5)
    let u := testAllocs [some 6] (.sAllocTx 5)
    s.seqQ = .sAllocTx 5 ∧ nextAlloc s = none ∧ u.seqQ = .sAllocTx 5 ∧ nextAlloc u = some 6
      ∧ configOk 16 50000000 = true := by decide

theorem witness_SetupAllocatesAllOrNothing_both :
    let s := testAllocs [some 5, some 6] .s1
    s.seqQ = .s1 ∧ (0 : Cs).toNat < s.params.numCs ∧ s.suspended = false ∧ s.params.useDma = true
      ∧ (dmaOf 0 s).rxCh = none ∧ nextAlloc s = some 5
      ∧ nextAlloc { s with seqQ := .sAllocTx 5, env := envDropAlloc s.env } = some 6
      ∧ prescale s.clkRate 600000 = some (83, false) ∧ prescale s.clkRate 50000000 = some (2, true) := by decide

/-- An answer that names a channel of the table, one the SETUP in progress was given, and one that neither holds. -/
theorem witness_SetupAllocatesAllOrNothing_answers :
    let s := { testDma with env := { Env.reset with allocs := [some 8] } }
    let u := testAllocs [some 5] (.sAllocTx 5)
    let v := testAllocs [some 6] (.s6 5 7)
    s.env.allocs.head?.getD (Config.freeAlloc s.env.draws) = some 8 ∧ (dmaOf 1 s).txCh = some 8 ∧ nextAlloc s = none
      ∧ u.env.allocs.head?.getD (Config.freeAlloc u.env.draws) = some 5 ∧ u.seqQ = .sAllocTx 5 ∧ nextAlloc u = none
      ∧ v.env.allocs.head?.getD (Config.freeAlloc v.env.draws) = some 6 ∧ v.seqQ = .s6 5 7 ∧ nextAlloc v = some 6
      ∧ (testAllocs [none] .s1).env.allocs.head?.getD (Config.freeAlloc 0) = none ∧ testBase.env.allocs = [] := by decide

theorem witness_SetupIdempotent :
    let s := testAt .s1 testDma
    s.seqQ = .s1 ∧ (1 : Cs).toNat < s.params.numCs ∧ s.suspended = false
      ∧ (s.params.useDma = true → (dmaOf 1 s).rxCh ≠ none) ∧ 50000000 ≤ s.clkRate := by decide

theorem witness_CleanupFreesChannels :
    let s := testAt .c1 testDma
    s.seqQ = .c1 ∧ s.params.numCs ≤ (2 : Cs).toNat ∧ (1 : Cs).toNat < s.params.numCs
      ∧ (dmaOf 1 s).rxCh = some 7 ∧ (dmaOf 1 s).txCh = some 8 ∧ isActive s 7 = false ∧ isActive s 8 = false
      ∧ isActive { s with active := [8] } 8 = true ∧ (dmaOf 0 (testAt .c1 testBase)).rxCh = none := by decide

theorem witness_ChipselectEffect_invalid :
    (testAt .cs1 testBase).seqQ = .cs1 ∧ (testAt .cs1 testBase).params.numCs ≤ (2 : Cs).toNat := by decide

/-- V5-1. -/
theorem witness_ChipselectEffect :
    let s := testWords [0x00000000, 0x80000000] (testAt .cs1 testBase)
    s.seqQ = .cs1 ∧ (1 : Cs).toNat < s.params.numCs ∧ s.suspended = false
      ∧ (∀ j, j < 1 → bufRxEmpty s.params (wordAt j s.env) = false) ∧ bufRxEmpty s.params (wordAt 1 s.env) = true := by decide

theorem witness_SuspendedPortRefuses :
    let s := { testDma with suspended := true }
    s.suspended = true ∧ (1 : Cs).toNat < s.params.numCs ∧ (testAt .s1 s).seqQ = .s1 ∧ (testAt .t1 s).seqQ = .t1
      ∧ (testAt .cs1 s).seqQ = .cs1 ∧ (testAt .c1 s).seqQ = .c1 := by decide


/-! ### Witnesses: TRANSFER, front end -/

theorem witness_TransferChecksInOrder_early :
    let s := testAt .t1 testSetUp
    s.seqQ = .t1 ∧ s.params.numCs ≤ (2 : Cs).toNat ∧ (1 : Cs).toNat < s.params.numCs ∧ s.suspended = false
      ∧ { s with suspended := true }.suspended = true ∧ slaveOf 1 (testAt .t1 testBase) = none
      ∧ slaveOf 1 s = some testRec16 ∧ 0x7FFFFFFF < 0x80000000 := by decide

theorem witness_TransferChecksInOrder_after_override :
    transferAtT7 1 (some 0x1001) none 3 (some 16) none (testAt .t7 testSetUp) ∧ slaveOf 1 (testAt .t7 testSetUp) = some testRec16
      ∧ 3 % testRec16.bpw ≠ 0 ∧ (0x1001 : Word).toNat % 2 = 1 := ⟨.inl rfl, by decide⟩

theorem witness_TransferChecksInOrder_at_once :
    transferAtT7 1 none (some 0x3000) 3 none none (testAt .t1 testSetUp) :=
  .inr ⟨rfl, rfl, rfl, by decide, by decide, by decide, by decide⟩

theorem witness_TransferChecksInOrder_override :
    let s := testAt .t1 testSetUp
    s.seqQ = .t1 ∧ slaveOf 0 s = some testRec8 ∧ configOk ((some 17).getD testRec8.declBits) testRec8.declHz = false
      ∧ configOk testRec8.declBits ((some 599999).getD testRec8.declHz) = false := by decide

theorem witness_TransferChecksInOrder_widths :
    let s := testAt .t1 testSetUp
    s.seqQ = .t1 ∧ slaveOf 1 s = some testRec16 ∧ testRec16.bpw = 2 ∧ 3 % testRec16.bpw ≠ 0 ∧ 4 % testRec16.bpw = 0
      ∧ ∃ a : Word, (some (0x1001 : Word) = some a ∨ (none : Option Word) = some a) ∧ a.toNat % 2 = 1 := by
  refine ⟨by decide, by decide, by decide, by decide, by decide, 0x1001, ?_⟩
  decide

theorem witness_TransferChecksInOrder_dma :
    let s := testAt .t1 testDma
    let u := setDma 0 ⟨none, none, false, false⟩ s
    s.seqQ = .t1 ∧ slaveOf 0 s = some testRec8 ∧ s.params.useDma = true ∧ 64 % testRec8.bpw = 0
      ∧ (testRec8.bpw = 2 → False) ∧ (dmaOf 0 u).rxCh = none ∧ u.params.useDma = true
      ∧ (dmaOf 0 s).rxCh ≠ none ∧ 0 / testRec8.bpw = 0 ∧ 64 / testRec8.bpw ≠ 0
      ∧ s.params.scratchBytes < (64 / testRec8.bpw + 1) * testRec8.bpw := by decide

theorem witness_TransferReconfigures :
    let s := testAt .t1 testSetUp
    s.seqQ = .t1 ∧ (0 : Cs).toNat < s.params.numCs ∧ s.suspended = false ∧ slaveOf 0 s = some testRec8
      ∧ (some 0x1000 ≠ (none : Option Word)) ∧ (some 16 ≠ (none : Option Nat))
      ∧ (some 16).getD testRec8.declBits ≤ 16 ∧ 600000 ≤ (some 50000000).getD testRec8.declHz
      ∧ prescale s.clkRate ((some 50000000).getD testRec8.declHz) = some (2, true) := by decide


/-! ### Witnesses: TRANSFER, PIO -/

/-- An odd address is fine for 1-byte words (V8-10). -/
theorem witness_transferChecked_pio :
    transferChecked 0 (some 0x1001) (some 0x2000) 2 testRec8 (testAt .t1 testSetUp) := by
  refine ⟨⟨by decide, by decide, by decide, by decide⟩, by decide, by decide, ?_, by decide⟩
  intro h
  exact absurd h (by decide)

/-- A 2-byte receive at an even address (L3-2). -/
theorem witness_transferChecked_even :
    transferChecked 1 none (some 0x3000) 4 testRec16 (testAt .t1 testSetUp) := by
  refine ⟨⟨by decide, by decide, by decide, by decide⟩, by decide, by decide, ?_, by decide⟩
  refine fun _ => ⟨fun a h => by simp at h, fun a h => ?_⟩
  cases h
  decide

/-- The receive-only transfer of L3-3. -/
theorem witness_transferChecked_dma :
    transferChecked 0 none (some 0x2000) 3 testRec8 (testAt .t1 testDma) := by
  refine ⟨⟨by decide, by decide, by decide, by decide⟩, by decide, by decide, ?_, by decide⟩
  intro h
  exact absurd h (by decide)

theorem witness_PioEntrySequence :
    let s := testWords [0x00000000, 0x80000000] (testAt .t1 testSetUp)
    s.seqQ = .t1 ∧ s.params.useDma = false ∧ (∀ j, j < 1 → bufRxEmpty s.params (wordAt j s.env) = false)
      ∧ bufRxEmpty s.params (wordAt 1 s.env) = true := by decide

/-- L3-1's second word, each poll missing once. -/
theorem witness_TransmitWordExchanged :
    let s := testWords [0x20000000, 0x80000000, 0x80000000, 0x00000022, 0x00000022] (testXfer (.pio (.l0 1)))
    s.seqQ = .pio (.l0 1) ∧ 1 < s.xf.count ∧ s.xf.tx = some 0x1000 ∧ s.xf.rx = some 0x2000
      ∧ admitted s (wordAddr 0x1000 1 s.xf.bpw) s.xf.bpw = true ∧ admitted s (wordAddr 0x2000 1 s.xf.bpw) s.xf.bpw = true
      ∧ (∀ j, j < 1 → bufTxFull s.params (wordAt j s.env) = true) ∧ bufTxFull s.params (wordAt 1 s.env) = false
      ∧ (∀ j, j < 1 → bufRxEmpty s.params (wordAt (1 + 1 + j) s.env) = true)
      ∧ bufRxEmpty s.params (wordAt (1 + 1 + 1) s.env) = false := by decide

theorem witness_TransmitWordExchanged_transmit_only :
    let s := testWords [0x80000000, 0x00000022]
      { testXfer (.pio (.l0 1)) with xf := { testContext with rx := none } }
    s.seqQ = .pio (.l0 1) ∧ s.xf.rx = none ∧ 1 < s.xf.count ∧ s.xf.tx = some 0x1000
      ∧ admitted s (wordAddr 0x1000 1 s.xf.bpw) s.xf.bpw = true ∧ bufTxFull s.params (wordAt 0 s.env) = false
      ∧ bufRxEmpty s.params (wordAt (0 + 1 + 0) s.env) = false := by decide

/-- The last word of the transmit buffer; the words after the last of each buffer. -/
theorem witness_TransmitWordExchanged_admission :
    let s := { testXfer (.pio (.l0 2)) with xf := { testContext with count := 3 } }
    let u := testXfer (.pio (.l5s 2 0))
    s.xf.tx = some 0x1000 ∧ s.xf.bpw = 1 ∧ (1 + 1) * s.xf.bpw ≤ s.xf.len ∧ (0x1000 : Word).toNat + s.xf.len ≤ 2 ^ 32
      ∧ s.seqQ = .pio (.l0 2) ∧ 2 < s.xf.count ∧ admitted s (wordAddr 0x1000 2 s.xf.bpw) s.xf.bpw = false
      ∧ u.seqQ = .pio (.l5s 2 0) ∧ u.xf.rx = some 0x2000
      ∧ admitted u (wordAddr 0x2000 2 u.xf.bpw) u.xf.bpw = false := by decide

theorem witness_ReceiveWordPolled :
    let s := testWords [0x80000000, 0x80000000, 0x00000123, 0x00000123] (testRx .pioRxPoll (.pio (.r0 1)))
    s.seqQ = .pio (.r0 1) ∧ 1 < s.xf.count ∧ s.xf.rx = some 0x3000
      ∧ admitted s (wordAddr 0x3000 1 s.xf.bpw) s.xf.bpw = true
      ∧ (∀ j, j < 1 → bufRxEmpty s.params (wordAt (1 + j) s.env) = true)
      ∧ bufRxEmpty s.params (wordAt (1 + 1) s.env) = false ∧ bufTxFull s.params (wordAt 0 s.env) = false := by decide

theorem witness_ReceiveWordPolled_full :
    let s := testWords [0xA0000000, 0x00000123, 0x00000123] (testRx .pioRxPoll (.pio (.r0 1)))
    s.seqQ = .pio (.r0 1) ∧ 1 < s.xf.count ∧ s.xf.rx = some 0x3000
      ∧ admitted s (wordAddr 0x3000 1 s.xf.bpw) s.xf.bpw = true
      ∧ bufRxEmpty s.params (wordAt (1 + 0) s.env) = false ∧ bufTxFull s.params (wordAt 0 s.env) = true := by decide

/-- The last word of the receive buffer; the word after it; a buffer that ends at 2^32. -/
theorem witness_ReceiveWordPolled_admission :
    let s := testRx .pioRxPoll (.pio (.r5 2 0))
    s.xf.rx = some 0x3000 ∧ s.xf.bpw = 2 ∧ (0x3000 : Word).toNat % 2 = 0 ∧ (1 + 1) * s.xf.bpw ≤ s.xf.len
      ∧ (0xFFFFFFFC : Word).toNat + s.xf.len ≤ 2 ^ 32
      ∧ s.seqQ = .pio (.r5 2 0) ∧ admitted s (wordAddr 0x3000 2 s.xf.bpw) s.xf.bpw = false
      ∧ admitted s 0x3002 2 = true ∧ admitted s 0x3003 2 = false := by decide

theorem witness_ReceiveWordPolled_words :
    (testWords [0x80000000, 0x00000123] testBase).env.words = 0x80000000 :: [0x00000123] ∧ testBase.env.words = [] := by decide

theorem witness_ReceiveWordByInterrupt :
    (testRx .pioRxIrq (.pio (.i0 1))).seqQ = .pio (.i0 1) ∧ 1 < (testRx .pioRxIrq (.pio (.i0 1))).xf.count
      ∧ (testRx .pioRxIrq (.pio (.i4 1))).seqQ = .pio (.i4 1)
      ∧ (testRx .pioRxIrq (.pio (.i0 2))).seqQ = .pio (.i0 2) ∧ (testRx .pioRxIrq (.pio (.i0 2))).xf.count ≤ 2 := by decide

theorem witness_StatusCheckExits :
    (testRx .pioRxIrq .x1).seqQ = .x1 ∧ (testRx .pioRxIrq (.x2 0x00000100)).seqQ = .x2 0x00000100
      ∧ (testXfer (.pio (.l0 2))).xf.count ≤ 2 ∧ (testXfer (.pio (.l0 2))).seqQ = .pio (.l0 2)
      ∧ (testRx .pioRxPoll (.pio (.r0 2))).xf.count ≤ 2 ∧ (testRx .pioRxPoll (.pio (.r0 2))).seqQ = .pio (.r0 2) := by decide

/-- V9-1; the checks are met by `witness_TransmitOnlyTransfer_checked`. -/
theorem witness_TransmitOnlyTransfer :
    let s := testWords [0x80000000, 0x80000000, 0x00000000, 0x80000000, 0x00000000, 0x00000000] (testAt .t1 testSetUp)
    s.seqQ = .t1 ∧ s.params.useDma = false ∧ testRec8.bpw = 1 ∧ (0x1000 : Word).toNat + 2 ≤ 2 ^ 32
      ∧ bufRxEmpty s.params (wordAt 0 s.env) = true
      ∧ (∀ i, i < 2 / testRec8.bpw →
          bufTxFull s.params (wordAt (2 * i + 1) s.env) = false ∧ bufRxEmpty s.params (wordAt (2 * i + 2) s.env) = false)
      ∧ statusDecode s.params.layout s.params.rev (wordAt (2 * (2 / testRec8.bpw) + 1) s.env) = none := by decide

theorem witness_TransmitOnlyTransfer_checked :
    transferChecked 0 (some 0x1000) none 2 testRec8
      (testWords [0x80000000, 0x80000000, 0x00000000, 0x80000000, 0x00000000, 0x00000000] (testAt .t1 testSetUp)) := by
  refine ⟨⟨by decide, by decide, by decide, by decide⟩, by decide, by decide, ?_, by decide⟩
  intro h
  exact absurd h (by decide)

theorem witness_PioEntrySequence_after_override :
    transferAtT7 0 (some 0x1001) (some 0x2000) 2 (some 8) none (testAt .t7 testSetUp)
      ∧ transferFits 0 (some 0x1001) (some 0x2000) 2 testRec8 (testAt .t7 testSetUp)
      ∧ (testAt .t7 testSetUp).params.useDma = false :=
  ⟨.inl rfl, ⟨by decide, by decide, fun h => absurd h (by decide), by decide⟩, by decide⟩

theorem witness_PioEntrySequence_at_once :
    transferAtT7 0 (some 0x1000) (some 0x2000) 2 none none (testWords [0x00000000, 0x80000000] (testAt .t1 testSetUp)) :=
  .inr ⟨rfl, rfl, rfl, by decide, by decide, by decide, by decide⟩

theorem witness_PioEntrySequence_checked :
    transferChecked 0 (some 0x1000) (some 0x2000) 2 testRec8
      (testWords [0x00000000, 0x80000000] (testAt .t1 testSetUp)) := by
  refine ⟨⟨by decide, by decide, by decide, by decide⟩, by decide, by decide, ?_, by decide⟩
  intro h
  exact absurd h (by decide)


/-! ### Witnesses: TRANSFER, DMA -/

/-- The checks are met by `witness_transferChecked_dma`. -/
theorem witness_DmaEntrySequence_after_override :
    transferAtT7 0 none (some 0x2000) 3 (some 8) none (testAt .t7 testDma)
      ∧ transferFits 0 none (some 0x2000) 3 testRec8 (testAt .t7 testDma) ∧ (testAt .t7 testDma).params.useDma = true :=
  ⟨.inl rfl, ⟨by decide, by decide, fun h => absurd h (by decide), by decide⟩, by decide⟩

theorem witness_DmaEntrySequence_at_once : transferAtT7 0 none (some 0x2000) 3 none none (testAt .t1 testDma) :=
  .inr ⟨rfl, rfl, rfl, by decide, by decide, by decide, by decide⟩

theorem witness_DmaEntrySequence :
    (testAt .t1 testDma).seqQ = .t1 ∧ (testAt .t1 testDma).params.useDma = true ∧ testRec8.bpw = 1 := by decide

theorem witness_DmaPreloadOrder :
    let s := testWords [0x00000000, 0x80000000] (testDmaRx (.dma .g8))
    s.seqQ = .dma .g8 ∧ (∀ j, j < 1 → bufRxEmpty s.params (wordAt j s.env) = false)
      ∧ bufRxEmpty s.params (wordAt 1 s.env) = true := by decide

theorem witness_DmaScratchFill :
    let s := testDmaRx (.dma (.g15 0))
    s.seqQ = .dma (.g15 0) ∧ Memory.wf s.mem = true ∧ s.xf.bpw = 1 ∧ s.params.scratchAddr.toNat % 2 = 0
      ∧ (s.xf.count + 1) * s.xf.bpw ≤ s.params.scratchBytes
      ∧ s.params.scratchAddr.toNat + (s.xf.count + 1) * s.xf.bpw ≤ 2 ^ 32 := by decide

/-- The word after the end of the scratch buffer. -/
theorem witness_DmaScratchFill_stuck :
    let s := testDmaRx (.dma (.g15 64))
    s.seqQ = .dma (.g15 64) ∧ s.params.scratchBytes = 64
      ∧ admitted s (wordAddr s.params.scratchAddr 64 s.xf.bpw) s.xf.bpw = false := by decide

/-- The answer of the next `Map`. -/
def testMap (m : Option Word) (s : State) : State := { s with env := { s.env with maps := [m] } }

theorem witness_DmaTransmitProgrammed_map :
    (testMap none (testDmaRx (.dma .g16))).seqQ = .dma .g16 ∧ nextMap (testMap none (testDmaRx (.dma .g16))) = none
      ∧ nextMap (testMap (some 0xA0008000) (testDmaTx (.dma .g16))) = some 0xA0008000 := by decide

theorem witness_DmaTransmitProgrammed_answers :
    (testMap none testDma).env.maps = none :: [] ∧ testDma.env.maps = [] := by decide

theorem witness_DmaTransmitProgrammed_program :
    let s := testDmaRx (.dma (.g17 0xA0008000))
    s.seqQ = .dma (.g17 0xA0008000) ∧ (dmaOf s.xf.cs s).txCh = some 6 ∧ s.xf.bpw = 1
      ∧ isActive s 6 = false ∧ isActive { s with active := [6] } 6 = true := by decide

theorem witness_DmaReceiveProgrammed_map :
    (testDmaRx (.dma .g18)).xf.rx = some 0x2000 ∧ (testDmaRx (.dma .g18)).seqQ = .dma .g18
      ∧ nextMap (testMap none (testDmaRx (.dma .g18))) = none
      ∧ nextMap (testMap (some 0xA0002000) (testDmaRx (.dma .g18))) = some 0xA0002000 := by decide

theorem witness_DmaReceiveProgrammed_program :
    let s := testDmaRx (.dma (.g19 0xA0002000))
    s.xf.rx = some 0x2000 ∧ s.seqQ = .dma (.g19 0xA0002000) ∧ (dmaOf s.xf.cs s).rxCh = some 5
      ∧ s.xf.bpw = 1 ∧ isActive s 5 = false ∧ isActive { s with active := [5] } 5 = true := by decide

theorem witness_DmaStartOrder :
    (testDmaTx (.dma .g20)).seqQ = .dma .g20 ∧ (dmaOf 0 (testDmaTx (.dma .g20))).txCh = some 6
      ∧ (testDmaTx (.dma .g20)).xf.rx = none ∧ (testDmaRx (.dma .g20)).seqQ = .dma .g20
      ∧ (testDmaRx (.dma .g20)).xf.rx = some 0x2000 ∧ (dmaOf 0 (testDmaRx (.dma .g20))).txCh = some 6
      ∧ (dmaOf 0 (testDmaRx (.dma .g20))).rxCh = some 5 := by decide

theorem witness_DmaWaits :
    let s := testDmaTx (.dma .g24)
    let u := testDmaRx (.dma .g25)
    let done := DmaEntry.mk (some 5) (some 6) true true
    s.seqQ = .dma .g24 ∧ (dmaOf s.xf.cs s).txDone = false ∧ (dmaOf s.xf.cs (setDma 0 done s)).txDone = true
      ∧ u.seqQ = .dma .g25 ∧ (dmaOf u.xf.cs u).rxDone = false ∧ (dmaOf u.xf.cs (setDma 0 done u)).rxDone = true
      ∧ (testDmaRx (.dma .g26)).seqQ ≠ .dma .g24 ∧ (testDmaRx (.dma .g26)).seqQ ≠ .dma .g25 := by decide

theorem witness_DmaUnmaps :
    (testDmaTx (.dma .g26)).seqQ = .dma .g26 ∧ (testDmaTx (.dma .g26)).xf.rx = none
      ∧ (testDmaRx (.dma .g26)).seqQ = .dma .g26 ∧ (testDmaRx (.dma .g26)).xf.rx = some 0x2000 := by decide

/-- Two bytes laid down for the three of the receive buffer. -/
theorem witness_DmaUnmaps_bytes :
    let s := { testDmaRx (.dma .g26) with env := { Env.reset with bytes := [0x11, 0x22] } }
    s.env.bytes = 0x11 :: [0x22] ∧ s.seqQ = .dma .g26 ∧ s.xf.rx = some 0x2000 ∧ Memory.wf s.mem = true ∧ 1 < s.xf.rxn
      ∧ (0x2000 : Word).toNat + 1 < 2 ^ 32 ∧ byteAt 1 s.env = 0x22 ∧ (0x2000 : Word).toNat + s.xf.rxn ≤ 0x2003
      ∧ testBase.env.bytes = [] := by decide


/-! ### Witnesses: fields, coordination, handler, callbacks, events -/

theorem witness_FieldReadAfterWrite :
    24 + 8 ≤ 32 ∧ (24 + 8 ≤ 32 ∨ 32 + 0 ≤ 24) ∧ 0 + 24 ≤ 24
      ∧ Memory.wf [(0x1000, 0xAA), (0xFFFFFFFF, 0x55)] = true ∧ 0xFFFFFFFF + 1 ≤ 2 ^ 32 ∧ 0xFFFFFFFE + 2 ≤ 2 ^ 32 := by decide

theorem witness_CommandWordFields :
    Config.vectorParams.layout.wf Config.vectorParams.numCs = true := by decide

theorem witness_FreqPreWaits :
    (testAtF .fp1 testBase).seqF = .fp1 ∧ (testAtF .fp1 testBase).done = true
      ∧ (testAtF .fp1 { testBase with done := false }).done = false ∧ (testAtF .fp2 testBase).seqF = .fp2 := by decide

/-- L3-5, step 4. -/
theorem witness_FreqPostRewritesDividers :
    let s := testAtF .fq1 testSetUp
    s.seqF = .fq1 ∧ (∀ c ∈ allCs, c.toNat < s.params.numCs → ∀ sl ∈ slaveOf c s, prescale 100000000 sl.hz ≠ none)
      ∧ slaveOf 0 s = some testRec8 ∧ prescale 100000000 testRec8.hz = some (99, false)
      ∧ slaveOf 1 s = some testRec16 ∧ prescale 100000000 testRec16.hz = some (2, true) := by
  refine ⟨by decide, ?_, by decide, by decide, by decide, by decide⟩
  decide

theorem witness_FreqPostRewritesDividers_none :
    (testAtF .fq1 testBase).seqF = .fq1 ∧ ∀ c ∈ allCs, c.toNat < 2 → slaveOf c (testAtF .fq1 testBase) = none := by decide

/-- The lower chip-select is rewritten, the higher one is out of the divider's domain. -/
theorem witness_FreqPostRewritesDividers_later_domain :
    let s := testAtF .fq1 testSetUp
    s.seqF = .fq1 ∧ (1 : Cs).toNat < s.params.numCs ∧ slaveOf 1 s = some testRec16 ∧ 49999999 < testRec16.hz
      ∧ (∀ c' ∈ allCs, c'.toNat < (1 : Cs).toNat → ∀ sl' ∈ slaveOf c' s, prescale 49999999 sl'.hz ≠ none)
      ∧ configuredBelow (1 : Cs).toNat s = [0] := by decide

/-- V12-5. -/
theorem witness_FreqPostRewritesDividers_domain :
    let s := testAtF .fq1 (setSlave 1 (some testRec16) testBase)
    s.seqF = .fq1 ∧ (1 : Cs).toNat < s.params.numCs ∧ slaveOf 1 s = some testRec16
      ∧ (∀ c ∈ allCs, c.toNat < (1 : Cs).toNat → slaveOf c s = none) ∧ 49999999 < testRec16.hz := by decide

theorem witness_SuspendCompletes :
    (testAtP .sp1 testBase).seqP = .sp1 ∧ (testAtP .sp1 testBase).done = true
      ∧ (testAtP .sp1 { testBase with done := false }).done = false ∧ (testAtP .sp5 testBase).seqP = .sp5
      ∧ (testAtP .sp5 testBase).seqP ≠ .sp1 := by decide

theorem witness_ResumeCompletes :
    (testAtP .rs1 testBase).seqP = .rs1 ∧ (testAtP .rs4 testBase).seqP = .rs4 := by decide

/-- L3-2: the handler at position `l`, `IE_RX` known to be 1, `FLG` and `BUF` as read there. -/
def testHandler (l : HSeq) (x : Xfer) : State :=
  testWords [0x00000100, 0x00000ABC] { testRx .pioRxIrq (.pio (.i4 0)) with
    seqH := l
    xf := x
    regrec := { RegRec.reset with int := withRxArmed RegRec.reset.int } }

theorem witness_HandlerTakesOneWord :
    let s := testHandler .h1 (testRxContext .pioRxIrq)
    s.seqH = .h1 ∧ flgRxint s.params (wordAt 0 s.env) = true ∧ s.regrec.int.ieRx = some true ∧ s.xf.mode = .pioRxIrq
      ∧ s.xf.rxCur + s.xf.bpw ≤ s.xf.rxEnd ∧ admitted s s.xf.rxCur s.xf.bpw = true := by decide

theorem witness_HandlerTakesOneWord_returns :
    let s := testWords [0x00000000] (testHandler .h1 (testRxContext .pioRxIrq))
    s.seqH = .h1 ∧ flgRxint s.params (wordAt 0 s.env) = false
      ∧ { testBase with seqH := .h2 0x00000100 }.seqH = .h2 0x00000100 ∧ testBase.regrec.int.ieRx ≠ some true := by decide

theorem witness_HandlerTakesOneWord_guards :
    let s := testHandler (.h2 0x00000100) (testRxContext .dma)
    let u := testHandler (.h2 0x00000100) { testRxContext .pioRxIrq with rxCur := 0x3003 }
    s.seqH = .h2 0x00000100 ∧ flgRxint s.params 0x00000100 = true ∧ s.regrec.int.ieRx = some true ∧ s.xf.mode ≠ .pioRxIrq
      ∧ u.seqH = .h2 0x00000100 ∧ u.regrec.int.ieRx = some true ∧ u.xf.mode = .pioRxIrq ∧ u.xf.rxEnd < u.xf.rxCur + u.xf.bpw := by decide

/-- The cursor at the last word of the receive buffer, and after it. -/
theorem witness_HandlerTakesOneWord_admission :
    let s := testHandler (.h3 0) { testRxContext .pioRxIrq with rxCur := 0x3002 }
    let u := testHandler (.h3 0) { testRxContext .pioRxIrq with rxCur := 0x3004 }
    s.xf.rx = some 0x3000 ∧ (0x3000 : Word).toNat ≤ s.xf.rxCur ∧ s.xf.rxCur + s.xf.bpw ≤ (0x3000 : Word).toNat + s.xf.len
      ∧ (0x3000 : Word).toNat + s.xf.len ≤ 2 ^ 32 ∧ s.xf.bpw = 2 ∧ s.xf.rxCur % 2 = 0
      ∧ u.seqH = .h3 0 ∧ admitted u u.xf.rxCur u.xf.bpw = false := by decide

theorem witness_CallbackRuns :
    seqCb .tx { testDma with seqTx := .k1 0 6 .clean } = .k1 0 6 .clean
      ∧ seqCb .rx { testDma with seqRx := .k1 0 5 .error } = .k1 0 5 .error := by decide

theorem witness_CallbackPairInAnyOrder :
    let s := { testDma with active := [5, 6], seqTx := .k1 0 6 .clean, seqRx := .k1 0 5 .error }
    let order := [Dir.rx, .tx, .rx, .tx, .rx, .rx, .tx]
    s.seqTx = .k1 0 6 .clean ∧ s.seqRx = .k1 0 5 .error
      ∧ (callbackSchedule order s).seqTx = .idle ∧ (callbackSchedule order s).seqRx = .idle := by decide

theorem witness_EventAdmission_irq :
    testBase.seqH = .idle ∧ testBase.regrec.int.ieTx ≠ some false ∧ { testBase with seqH := .h1 }.seqH ≠ .idle
      ∧ lineEnabled (withSourcesOff testBase.regrec.int) = false := by decide

theorem witness_EventAdmission_one_holder :
    (dmaOf 0 testDma).rxCh = some 5 ∧ (∀ c ∈ allCs, (dmaOf c testDma).txCh ≠ some 5)
      ∧ (∀ c ∈ allCs, c ≠ 0 → (dmaOf c testDma).rxCh ≠ some 5)
      ∧ (dmaOf 1 testDma).txCh = some 8 ∧ (∀ c ∈ allCs, (dmaOf c testDma).rxCh ≠ some 8)
      ∧ (∀ c ∈ allCs, c ≠ 1 → (dmaOf c testDma).txCh ≠ some 8)
      ∧ ∀ c ∈ allCs, (dmaOf c testDma).rxCh ≠ some 9 ∧ (dmaOf c testDma).txCh ≠ some 9 := by decide

theorem witness_EventAdmission_dmaDone :
    let s := { testDma with active := [6] }
    channelOwner 6 s = some (0, .tx) ∧ isActive s 6 = true ∧ seqCb .tx s = .idle ∧ channelOwner 5 s = some (0, .rx)
      ∧ isActive s 5 = false ∧ seqCb .tx { s with seqTx := .k4 0 } ≠ .idle := by decide


/-! ### Witnesses: frames and invariants -/

theorem witness_frames :
    (1 : Cs) ≠ 0 ∧ (0 : Cs) ≠ (testRx .pioRxPoll (.pio (.r5 1 0))).xf.cs
      ∧ transferStores (testRx .pioRxPoll (.pio (.r5 1 0))) = some (0x3002, 2)
      ∧ transferStores (testXfer (.pio (.l5s 1 0))) = some (0x2001, 1)
      ∧ transferStores (testDmaRx (.dma (.g15 3))) = some (0x8003, 1)
      ∧ transferStores (testDmaRx (.dma .g27)) = some (0x2000, 3)
      ∧ transferStores (testXfer (.pio (.l3 0 0xAA))) = none
      ∧ (testAtF (.fqNext 1) testSetUp).seqF ≠ .fqW 1 ⟨none, none, none, none, none, none⟩ 2 := by decide

/-- A SETUP with the DMA strategy about to record both channels, its operands in the port's registers, `FMT[1]` known. -/
def testRecording : State :=
  { testDma with
    portQ := ⟨0x00000001, ⟨8, 1000000, 0, 0, 0⟩, 0, true⟩
    seqQ := .s6 9 10
    regrec := { RegRec.reset with fmt := csSet RegRec.reset.fmt 1 ⟨some 2, some 16, none, none, none, none⟩ }
    mem := [(0x1000, 0xAA), (0x1001, 0x55)]
    active := [5, 6]
    env := { Env.reset with turns := [.port .queue] } }

theorem witness_invariants :
    controlInv testRecording = true ∧ dmaInv testRecording = true ∧ slavesInv testRecording = true
      ∧ prescaleInv testRecording = true ∧ formsInv testRecording = true := by decide

theorem witness_invariants_step :
    ∃ t, step testRecording = .next t ∧ dmaOf 0 t = ⟨some 9, some 10, false, false⟩ := ⟨_, rfl, by decide⟩

end Sys2Proof.Machine
end

section
/-!
SUPPORT. What the decoder answers (30_encoding.md R98, R106): the row a decoded command comes from, and that its operands fit
their argument words.
-/

namespace Sys2Proof

/-- A command decodes exactly where its operation code has a row of this port and its reserved bits are 0; the operands are then
the ones that row assembles. -/
theorem decode_eq_ok_iff {p : Port} {cmd : Word} {a : Args} {i : Instr} :
    decode p cmd a = .ok i ↔
      ∃ o, opOf (opField cmd) = some o ∧ o.port = p ∧ cmd &&& o.reserved = 0 ∧ o.assemble cmd a = i := by
  unfold decode
  cases opOf (opField cmd) with
  | none => simp
  | some o =>
    by_cases hport : o.port = p
    · by_cases hres : cmd &&& o.reserved = 0#32 <;> simp [hport, hres]
    · simp [hport]

@[simp] theorem fitsWord_toNat (w : Word) : fitsWord w.toNat = true := decide_eq_true w.isLt

/-- An operand read from its argument word where a flag bit says so. -/
@[simp] theorem fitsWordIfAny_ite (b : Bool) (w : Word) : fitsWordIfAny (if b then some w.toNat else none) = true := by
  cases b
  · rfl
  · exact fitsWord_toNat w

theorem Op.assemble_wf (o : Op) (cmd : Word) (a : Args) : (o.assemble cmd a).wf = true := by
  cases o with
  | setup | transfer | freqPost => simp only [Op.assemble, Instr.wf, fitsWord_toNat, fitsWordIfAny_ite, Bool.and_self]
  | cleanup | chipselect | freqPre | suspend | resume => rfl

theorem decode_wf {p : Port} {cmd : Word} {a : Args} {i : Instr} (h : decode p cmd a = .ok i) : i.wf = true := by
  obtain ⟨o, -, -, -, rfl⟩ := decode_eq_ok_iff.mp h
  exact o.assemble_wf cmd a

end Sys2Proof
end

section
/-!
SUPPORT and PROOF. One step of the machine by the environment's next move (00_scope.md R12, 10_state.md R20, R24), and the
obligation O5.
-/

namespace Sys2Proof.Machine

open Sys2Proof

/-! ### The environment's next move -/

theorem nextTurn_of_turns_cons {s : State} {m : Move} {r : List Move} (h : s.env.turns = m :: r) : nextTurn s = m := by
  simp only [nextTurn, h, List.head?_cons, Option.getD_some]

theorem dropTurn_of_turns_cons {s : State} {m : Move} {r : List Move} (h : s.env.turns = m :: r) :
    dropTurn s = { s with env := { s.env with turns := r } } := by
  simp only [dropTurn, envDropTurn, h]

theorem nextTurn_of_turns_nil {s : State} (h : s.env.turns = []) : nextTurn s = Config.freeMove s.env.draws := by
  simp only [nextTurn, h, List.head?_nil, Option.getD_none]

theorem dropTurn_of_turns_nil {s : State} (h : s.env.turns = []) :
    dropTurn s = { s with env := { s.env with draws := s.env.draws + 1 } } := by
  simp only [dropTurn, envDropTurn, h]

/-! ### The step of a port's agent -/

@[simp] theorem portRunning_dropTurn (p : Port) (s : State) : portRunning p (dropTurn s) = portRunning p s := by
  cases p <;> rfl

@[simp] theorem portCommand_dropTurn (p : Port) (s : State) : portCommand p (dropTurn s) = portCommand p s := by
  cases p <;> rfl

theorem stepPort_of_ok {p : Port} {s : State} {i : Instr} (hrun : portRunning p s = true) (hcmd : portCommand p s = .ok i) :
    stepPort p s = exec i s := by
  simp only [stepPort, hrun, hcmd, if_true]

theorem stepPort_of_error {p : Port} {s : State} {e : DecodeError} (hrun : portRunning p s = true)
    (hcmd : portCommand p s = .error e) : stepPort p s = .next (refuseEncoding p s) := by
  simp only [stepPort, hrun, hcmd, if_true]

theorem stepPort_of_not_running {p : Port} {s : State} (h : portRunning p s = false) : stepPort p s = .next s := by
  simp [stepPort, h]

/-- The one step of a reserved encoding answers `E_BADCMD`. -/
theorem refuseEncoding_eq_finish (p : Port) (s : State) : refuseEncoding p s = finish p 0xFFFFFFF3 s := rfl

/-! ### The step of the machine -/

/-- Without a fault a step is the effect of the next move on the state with that move taken. -/
theorem step_of_nextTurn {s : State} {m : Move} (hf : s.fault = none) (hm : nextTurn s = m) :
    step s = applyMove m (dropTurn s) := by
  simp only [step, hf, hm]

/-- A move that may not be admitted: its effect where it is, else the state it was offered to. -/
theorem step_cases_of_getD {s u : State} {o : Option State} (h : step s = .next (o.getD u)) :
    (∀ t, o = some t → step s = .next t) ∧ (o = none → step s = .next u) := by
  constructor
  · rintro t rfl
    exact h
  · rintro rfl
    exact h

/-- A host store replaces the one byte at its address. -/
theorem envStore_eq_memWrite (addr : Word) (b : Byte) (s : State) :
    envStore addr b s = some { s with mem := memWrite s.mem addr.toNat 1 (b.zeroExtend 16) } := by
  have hb : (b.zeroExtend 16).extractLsb' 0 8 = b := by
    rw [← BitVec.setWidth_eq_extractLsb' (by decide)]
    exact (BitVec.setWidth_setWidth_of_le b (by decide)).trans (BitVec.setWidth_eq b)
  simp only [envStore, memWrite, if_true, hb]

/-- A step of a port's agent: the decoded command, the refusal of a reserved encoding, or the move alone where it is idle. -/
theorem step_of_nextTurn_port {s : State} {p : Port} (hf : s.fault = none) (hm : nextTurn s = .port p) :
    (∀ i, portRunning p s = true → portCommand p s = .ok i → i.wf = true ∧ step s = exec i (dropTurn s))
      ∧ (∀ e, portRunning p s = true → portCommand p s = .error e →
          step s = stepPort p (dropTurn s) ∧ step s = .next (finish p 0xFFFFFFF3 (dropTurn s)))
      ∧ (portRunning p s = false → step s = .next (dropTurn s)) := by
  have hstep : step s = stepPort p (dropTurn s) := step_of_nextTurn hf hm
  rw [← portRunning_dropTurn, ← portCommand_dropTurn]
  refine ⟨fun i hrun hcmd => ⟨decode_wf hcmd, ?_⟩, fun e hrun hcmd => ⟨hstep, ?_⟩, fun hidle => ?_⟩
  · rw [hstep, stepPort_of_ok hrun hcmd]
  · rw [hstep, stepPort_of_error hrun hcmd, refuseEncoding_eq_finish]
  · rw [hstep, stepPort_of_not_running hidle]

/-- A host store is always admitted: the move taken and one byte replaced. -/
theorem step_of_nextTurn_store {s : State} {addr : Word} {b : Byte} (hf : s.fault = none) (hm : nextTurn s = .store addr b) :
    step s = .next { dropTurn s with mem := memWrite s.mem addr.toNat 1 (b.zeroExtend 16) } := by
  have hstep : step s = .next ((envStore addr b (dropTurn s)).getD (dropTurn s)) := step_of_nextTurn hf hm
  rw [hstep, envStore_eq_memWrite, Option.getD_some, dropTurn_mem]

/-- Settles O5, one clause per move: the state without a fault applies the next move to the state with that move taken. -/
theorem stepRunsDecodedCommand : Obligations.StepRunsDecodedCommand := by
  unfold Obligations.StepRunsDecodedCommand
  refine ⟨fun s => ⟨fun m r h => ⟨nextTurn_of_turns_cons h, dropTurn_of_turns_cons h⟩,
    fun h => ⟨nextTurn_of_turns_nil h, dropTurn_of_turns_nil h⟩⟩, fun s hf => ?_⟩
  exact ⟨fun p hm => step_of_nextTurn_port hf hm,
    fun hm => step_cases_of_getD (step_of_nextTurn hf hm),
    fun d hm => step_cases_of_getD (step_of_nextTurn hf hm),
    fun p w a hm => step_cases_of_getD (step_of_nextTurn hf hm),
    fun hm => step_cases_of_getD (step_of_nextTurn hf hm),
    fun ch st hm => step_cases_of_getD (step_of_nextTurn hf hm),
    fun hm => step_cases_of_getD (step_of_nextTurn hf hm),
    fun hm => step_cases_of_getD (step_of_nextTurn hf hm),
    fun addr b hm => ⟨step_cases_of_getD (step_of_nextTurn hf hm), step_of_nextTurn_store hf hm⟩⟩

end Sys2Proof.Machine
end

section
/-!
SUPPORT. What one step of the machine may do to the data of the state, said once (10_state.md R20, R35): everything a step does
beside moving its agent. The invariants of 10_state.md R35 are read off from this and from the agents' moves.
-/

namespace Sys2Proof.Machine

open Sys2Proof

/-! ### The invariants, clause by clause -/

theorem all_allCs_iff (f : Cs → Bool) : allCs.all f = true ↔ ∀ c, f c = true := by
  rw [List.all_eq_true]
  exact ⟨fun h c => h c (mem_allCs c), fun h c _ => h c⟩

/-- The channels of the entry are both allocated or both not. -/
def channelsPaired (e : DmaEntry) : Prop := e.rxCh.isSome = e.txCh.isSome

theorem dmaInv_iff (s : State) : dmaInv s = true ↔ ∀ c, channelsPaired (dmaOf c s) := by
  simp only [dmaInv, all_allCs_iff, beq_iff_eq, channelsPaired]

/-- Every record of the table is in range. -/
def slavesOk (s : State) : Prop := ∀ c sl, slaveOf c s = some sl → slaveOk sl = true

/-- SETUP's checks S3 and S4 on the operands of the instruction (40_divider_config.md R150); other commands have none. -/
def operandsOk : Instr → Bool
  | .setup _ _ bits hz => configOk bits hz
  | _ => true

/-- `operandsOk` of the command in port Q's registers. -/
def commandOk (s : State) : Bool :=
  match portCommand .queue s with
  | .ok i => operandsOk i
  | .error _ => true

/-- The positions of SETUP at which a channel has been given (40_divider_config.md R151). -/
def allocating : QSeq → Bool
  | .sAllocTx _ => true
  | .s6 _ _ => true
  | _ => false

/-- `c`, which says that a command's operands are in range, holds where a channel has been given to a SETUP. -/
def checkedBy (c : Bool) (s : State) : Prop := allocating s.seqQ = true → c = true

theorem setupChecked_iff (s : State) : setupChecked s = true ↔ checkedBy (commandOk s) s := by
  unfold setupChecked checkedBy commandOk
  cases s.seqQ with
  | sAllocTx | s6 =>
    cases portCommand .queue s with
    | error e => exact ⟨fun _ _ => rfl, fun _ => rfl⟩
    | ok i => cases i <;> exact ⟨fun h _ => h, fun h => h rfl⟩
  | _ => exact ⟨fun _ => nofun, fun _ => rfl⟩

theorem slavesInv_iff (s : State) : slavesInv s = true ↔ checkedBy (commandOk s) s ∧ slavesOk s := by
  simp only [slavesInv, Bool.and_eq_true, setupChecked_iff, all_allCs_iff, Option.all_eq_true, slavesOk]

theorem prescaleInv_iff (s : State) :
    prescaleInv s = true ↔ (∀ c, fmtOk (fmtRec c s) = true) ∧ seqQOk s.seqQ = true ∧ seqFOk s.seqF = true := by
  simp only [prescaleInv, Bool.and_eq_true, all_allCs_iff, and_assoc]

theorem formsInv_iff (s : State) : formsInv s = true ↔ Memory.wf s.mem = true ∧ ascends s.active = true := by
  simp only [formsInv, Bool.and_eq_true]

theorem flagsInv_iff (s : State) :
    flagsInv s = true ↔
      s.inUse = !s.done ∧ s.inUse = engineRunning s.seqQ ∧ (s.xf.mode != .none) = engineRunning s.seqQ := by
  simp only [flagsInv, Bool.and_eq_true, beq_iff_eq, and_assoc]

theorem qKind_eq_idle_iff (l : QSeq) : qKind l = .idle ↔ l = .idle := by
  cases l <;> simp [qKind]

theorem fmtOk_fmtRec {s : State} (h : prescaleInv s = true) (c : Cs) : fmtOk (fmtRec c s) = true :=
  ((prescaleInv_iff s).1 h).1 c

theorem seqQOk_of_prescaleInv {s : State} {l : QSeq} (h : prescaleInv s = true) (hat : s.seqQ = l) : seqQOk l = true :=
  hat ▸ ((prescaleInv_iff s).1 h).2.1

theorem seqFOk_of_prescaleInv {s : State} {l : FSeq} (h : prescaleInv s = true) (hat : s.seqF = l) : seqFOk l = true :=
  hat ▸ ((prescaleInv_iff s).1 h).2.2

/-! ### What a step may do to the data -/

/-- What every step does before its agent moves: ports, positions, engine flags and parameters stay, the data keep their forms.
Where `ok` holds the records of the chip-selects stay in range too. -/
structure DataStep (ok : Prop) (s u : State) : Prop where
  params : u.params = s.params := by rfl
  portQ : u.portQ = s.portQ := by rfl
  portF : u.portF = s.portF := by rfl
  portP : u.portP = s.portP := by rfl
  seqQ : u.seqQ = s.seqQ := by rfl
  seqF : u.seqF = s.seqF := by rfl
  seqP : u.seqP = s.seqP := by rfl
  inUse : u.inUse = s.inUse := by rfl
  done : u.done = s.done := by rfl
  mode : u.xf.mode = s.xf.mode := by rfl
  mem : Memory.wf s.mem = true → Memory.wf u.mem = true := by exact id
  active : ascends s.active = true → ascends u.active = true := by exact id
  channels : (∀ c, channelsPaired (dmaOf c s)) → ∀ c, channelsPaired (dmaOf c u) := by exact id
  slaves : ok → slavesOk s → slavesOk u := by exact fun _ => id
  formats : prescaleInv s = true → ∀ c, fmtOk (fmtRec c u) = true := by exact fmtOk_fmtRec

section DataStep

variable {ok : Prop} {s u : State}

theorem DataStep.refl (ok : Prop) (s : State) : DataStep ok s s := {}

theorem DataStep.noteFloor (h : DataStep ok s u) (a : Agent) (cs : Cs) (floored : Bool) :
    DataStep ok s (noteFloor a cs floored u) := by
  cases floored <;> exact { h with }

theorem DataStep.setDma (h : DataStep ok s u) (cs : Cs) {x : DmaEntry}
    (hx : (∀ c, channelsPaired (dmaOf c u)) → channelsPaired x) : DataStep ok s (setDma cs x u) :=
  { h with
    channels := fun hs c => by
      simp only [dmaOf, setDma_dma, csGet_csSet]
      split
      · exact hx (h.channels hs)
      · exact h.channels hs c }

theorem DataStep.setSlave (h : DataStep ok s u) (cs : Cs) {x : Slave} (hx : ok → slavesOk s → slaveOk x = true) :
    DataStep ok s (setSlave cs (some x) u) :=
  { h with
    slaves := fun hok hs c sl hsl => by
      simp only [slaveOf, setSlave_slave, csGet_csSet] at hsl
      split at hsl
      · exact Option.some.inj hsl ▸ hx hok hs
      · exact h.slaves hok hs c sl hsl }

theorem DataStep.writeFmt (h : DataStep ok s u) (a : Agent) (cs : Cs) {t : FmtRec}
    (ht : prescaleInv s = true → fmtOk t = true) : DataStep ok s (writeFmt a cs t u) :=
  { h with
    formats := fun hs c => by
      simp only [fmtRec, writeFmt_regrec, csGet_csSet]
      split
      · exact ht hs
      · exact h.formats hs c }

theorem DataStep.dmaStart (h : DataStep ok s u) (ch : ChanId) : DataStep ok s (dmaStart ch u) :=
  { h with active := fun hs => ascends_insertChan ch (h.active hs) }

theorem DataStep.dmaStop (h : DataStep ok s u) (a : Agent) (ch : ChanId) : DataStep ok s (dmaStop a ch u) :=
  { h with active := fun hs => ascends_filter _ (h.active hs) }

theorem dataStep_hostWrite {a : Agent} {addr n : Nat} {v : Half} (had : admitted s addr n = true) :
    DataStep ok s (hostWrite a addr n v s) :=
  { mem := fun hm => by
      obtain ⟨hn, hle⟩ := admitted_bounds had
      exact memWrite_wf v hm (by omega) (by omega) }

theorem dataStep_unmapRx (dev : Word) (n a : Nat) : DataStep ok s (unmapRx dev n a s) :=
  { mem := scatter_wf n a s.env }

theorem dataStep_envStore (addr : Word) (b : Byte) : DataStep ok s { s with mem := memSet s.mem addr.toNat b } :=
  { mem := fun hm => memSet_wf b hm addr.isLt }

/-- A step that leaves positions, ports, flags and the data's forms alone keeps the control invariant. -/
theorem DataStep.controlInv_eq (h : DataStep ok s u) : controlInv u = controlInv s := by
  simp only [controlInv, positionInv, portsInv, flagsInv, portCommand, portRegs, h.portQ, h.portF, h.portP, h.seqQ, h.seqF,
    h.seqP, h.inUse, h.done, h.mode]

theorem DataStep.commandOk_eq (h : DataStep ok s u) : commandOk u = commandOk s := by
  simp only [commandOk, portCommand, portRegs, h.portQ]

theorem DataStep.checkedBy (h : DataStep ok s u) (hs : checkedBy (commandOk s) s) : checkedBy (commandOk u) u := by
  unfold Machine.checkedBy at hs ⊢
  rw [h.seqQ, h.commandOk_eq]
  exact hs

end DataStep

end Sys2Proof.Machine
end

section
/-!
SUPPORT. What one step of each agent can be: its agent stays, moves on, finishes, or enters or exits a transfer engine, on data
changed as a `DataStep` allows (10_state.md R24, R25; 30_encoding.md R96; 42_transfer.md R196, R198).
-/

namespace Sys2Proof.Machine

open Sys2Proof

/-! ### The steps of the ports' agents -/

/-- The position `l` of Q holds no format record, no prescale and no channel given to a SETUP, or what it holds is in range. `c`
says that the operands of the running command are. -/
structure PositionOk (c : Bool) (s : State) (l : QSeq) : Prop where
  formats : prescaleInv s = true → seqQOk l = true := by exact fun _ => rfl
  checked : allocating l = true → checkedBy c s → c = true := by exact nofun

/-- What a step of Q from position `l₀` may leave, `c` saying that the operands of the running command are in range: Q holds or
raises a fault, moves on inside its command, finishes outside a transfer engine, enters one (E0) or exits it. -/
inductive QStep (c : Bool) (s : State) : State → Prop
  | stays {u : State} (hu : DataStep (checkedBy c s) s u) : QStep c s u
  | moves {u : State} {l₀ l : QSeq} (hu : DataStep (checkedBy c s) s u) (hat : s.seqQ = l₀)
      (hkind : qKind l = qKind l₀ := by rfl) (hrun : engineRunning l = engineRunning l₀ := by rfl)
      (hl : PositionOk c s l := by exact {}) : QStep c s (goQ l u)
  | finishes {u : State} {l₀ : QSeq} (r : Word) (hu : DataStep (checkedBy c s) s u) (hat : s.seqQ = l₀)
      (hrun : positionInv s = true → engineRunning l₀ = false := by exact fun _ => rfl) : QStep c s (finish .queue r u)
  | enters {u : State} {l₀ l : QSeq} {m : XfMode} (hu : DataStep (checkedBy c s) s u)
      (hat : s.seqQ = l₀) (hm : m ≠ .none) (hkind : qKind l = qKind l₀ := by rfl)
      (hrun : engineRunning l = true := by rfl) (hl : PositionOk c s l := by exact {}) : QStep c s (goQ l (engineEntry m u))
  | exits {u : State} (r : Word) (hu : DataStep (checkedBy c s) s u) : QStep c s (engineExit r u)

/-- What a step of F may leave. -/
inductive FStep (s : State) : State → Prop
  | stays {u : State} (hu : DataStep True s u) : FStep s u
  | moves {u : State} {l₀ l : FSeq} (hu : DataStep True s u) (hat : s.seqF = l₀)
      (hrun : (l != .idle) = (l₀ != .idle) := by rfl)
      (hl : prescaleInv s = true → seqFOk l = true := by exact fun _ => rfl) : FStep s (goF l u)
  | finishes {u : State} (r : Word) (hu : DataStep True s u) : FStep s (finish .freq r u)

/-- What a step of P may leave. -/
inductive PStep (s : State) : State → Prop
  | stays {u : State} (hu : DataStep True s u) : PStep s u
  | moves {u : State} {l₀ l : PSeq} (hu : DataStep True s u) (hat : s.seqP = l₀)
      (hrun : (l != .idle) = (l₀ != .idle) := by rfl) : PStep s (goP l u)
  | finishes {u : State} (r : Word) (hu : DataStep True s u) : PStep s (finish .power r u)

/-- What holds of a state and of every state a step may leave holds of the state after the step, where there is one or not. -/
theorem getD_of_forall {P : State → Prop} {s : State} {o : Option State} (hs : P s) (ho : ∀ t, o = some t → P t) :
    P (o.getD s) := by
  cases o with
  | none => exact hs
  | some t => exact ho t rfl

/-! ### The divider (40_divider_config.md R130-R135) -/

theorem prescaleOk_of_prescale {clk hz p : Nat} {floored : Bool} (h : prescale clk hz = some (p, floored)) :
    prescaleOk p = true := by
  simp only [prescaleOk, Bool.and_eq_true, decide_eq_true_eq]
  unfold prescale at h
  split at h
  · cases h
  · split at h <;> cases h <;> omega

/-- A format record with a prescale the divider may write. -/
theorem fmtOk_withPrescale {t : FmtRec} {p : Nat} (h : prescaleOk p = true) :
    fmtOk { t with prescale := some (BitVec.ofNat 8 p) } = true := by
  simp only [prescaleOk, Bool.and_eq_true, decide_eq_true_eq] at h
  simp only [fmtOk, Option.all_some, decide_eq_true_eq, BitVec.toNat_ofNat]
  omega

/-- The read step of `WriteDivider`: the fault, or the agent moved on with the record read and a prescale in range. -/
theorem dividerRead_cases (a : Agent) (cs : Cs) (hz : Nat) (k : FmtRec → Nat → State → State) (s : State) :
    dividerRead a cs hz k s = raise a .dividerDomain s
      ∨ ∃ p floored, prescaleOk p = true
          ∧ dividerRead a cs hz k s = k (fmtRec cs s) p (readFmt a cs (noteFloor a cs floored s)) := by
  cases h : prescale s.clkRate hz with
  | none => exact .inl (dividerRead_none ((prescale_none_iff _ _).1 h))
  | some r => exact .inr ⟨r.1, r.2, prescaleOk_of_prescale h, dividerRead_some h⟩

/-- The read step of `WriteDivider` on the data. -/
theorem DataStep.dividerNote {ok : Prop} {s u : State} (h : DataStep ok s u) (a : Agent) (cs : Cs) (floored : Bool) :
    DataStep ok s (readFmt a cs (Machine.noteFloor a cs floored u)) :=
  { h.noteFloor a cs floored with }

theorem DataStep.dividerWrite {ok : Prop} {s u : State} (h : DataStep ok s u) (a : Agent) (cs : Cs) (t : FmtRec) {p : Nat}
    (hp : prescaleInv s = true → prescaleOk p = true) : DataStep ok s (dividerWrite a cs t p u) :=
  h.writeFmt a cs fun hs => fmtOk_withPrescale (hp hs)

/-! ### `Configure` (40_divider_config.md R140) -/

/-- The record `Configure` leaves is in range where the record before was. -/
theorem slaveOk_configured {sl : Slave} {bits hz : Nat} (hsl : slaveOk sl = true) (h : configOk bits hz = true) :
    slaveOk { sl with bits := bits, bpw := bpwOf bits, hz := hz } = true := by
  simp only [slaveOk, Bool.and_eq_true, beq_iff_eq] at hsl ⊢
  exact ⟨⟨hsl.1.1, h⟩, trivial⟩

/-- The later steps of `Configure`, inside SETUP and inside TRANSFER. -/
theorem configureStep_qStep {c : Bool} {cs : Cs} {x : CfgSeq} {wrap : CfgSeq → QSeq} {next : QSeq} {s : State}
    (hw : wrap = .s7 ∧ next = .s8 ∨ wrap = .t6 ∧ next = .t7) (hat : s.seqQ = wrap x) :
    QStep c s (configureStep cs x wrap next s) := by
  have hx : prescaleInv s = true → cfgOk x = true := fun hs => by
    have hl := seqQOk_of_prescaleInv hs hat
    obtain ⟨rfl, -⟩ | ⟨rfl, -⟩ := hw <;> exact hl
  have hmove {u : State} {y : CfgSeq} (hu : DataStep (checkedBy c s) s u)
      (hy : prescaleInv s = true → cfgOk y = true) : QStep c s (goQ (wrap y) u) := by
    obtain ⟨rfl, -⟩ | ⟨rfl, -⟩ := hw <;> exact .moves hu hat (hl := { formats := hy })
  cases x with
  | lenW t bits hz => exact hmove ((DataStep.refl _ s).writeFmt .queue cs hx) fun _ => rfl
  | divR hz =>
    obtain h | ⟨p, floored, hp, h⟩ := dividerRead_cases .queue cs hz (fun t p s' => goQ (wrap (.divW t p)) s') s
    · rw [configureStep, h]
      exact .stays {}
    · rw [configureStep, h]
      refine hmove ((DataStep.refl _ s).dividerNote .queue cs floored) fun hs => ?_
      simp only [cfgOk, fmtOk_fmtRec hs, hp, Bool.and_self]
  | divW t p =>
    have hu := (DataStep.refl (checkedBy c s) s).dividerWrite .queue cs t (p := p) fun hs => by
      have h := hx hs
      simp only [cfgOk, Bool.and_eq_true] at h
      exact h.2
    obtain ⟨rfl, rfl⟩ | ⟨rfl, rfl⟩ := hw <;> exact .moves hu hat

/-! ### SETUP (40_divider_config.md R150-R152) -/

theorem engineRunning_of_setup {l : QSeq} (h : qKind l = .setup) : engineRunning l = false := by
  revert h
  cases l <;> simp [qKind, engineRunning]

/-- S8's read, from a position of SETUP. -/
theorem setupFormatRead_qStep {c : Bool} {cs : Cs} {s u : State} (hu : DataStep (checkedBy c s) s u)
    (hkind : qKind s.seqQ = .setup) : QStep c s (setupFormatRead cs u) :=
  .moves { hu with } rfl hkind.symm (engineRunning_of_setup hkind).symm { formats := fun hs => hu.formats hs cs }

/-- S6 and the first step of S7, from a position of SETUP at which the checks S3 and S4 have passed. -/
theorem setupConfigure_qStep {c : Bool} {cs : Cs} {mode : Byte} {bits maxHz : Nat} {s u : State}
    (hu : DataStep (checkedBy c s) s u) (hkind : qKind s.seqQ = .setup)
    (hok : checkedBy c s → configOk bits maxHz = true) :
    QStep c s (setupConfigure cs mode bits maxHz u) := by
  cases h : configOk bits maxHz with
  | true =>
    rw [setupConfigure_ok h]
    refine .moves { hu.setSlave cs fun _ _ => ?_ with } rfl hkind.symm (engineRunning_of_setup hkind).symm
      { formats := fun hs => hu.formats hs cs }
    simp only [slaveOk, h, Bool.and_self, beq_self_eq_true]
  | false =>
    have hs6 := hu.setSlave cs (x := setupRecord mode bits maxHz (slaveOf cs u)) fun hc => absurd (hok hc) (by simp [h])
    have hnone : configureStart cs none none .s7
        (setSlave cs (some (setupRecord mode bits maxHz (slaveOf cs u))) u) = none := by
      rw [configureStart_none_iff]
      intro sl hsl
      rw [slaveOf, setSlave_slave, csGet_csSet_same] at hsl
      cases hsl
      cases slaveOf cs u <;> exact h
    simp only [setupConfigure, hnone, Option.getD_none]
    exact setupFormatRead_qStep hs6 hkind

theorem setupFirst_qStep {cs : Cs} {mode : Byte} {bits maxHz : Nat} {s : State} (hat : s.seqQ = .s1) :
    QStep (configOk bits maxHz) s (setupFirst cs mode bits maxHz s) := by
  unfold setupFirst
  split
  · exact .finishes _ {} hat
  split
  · exact .stays {}
  split
  · exact .finishes _ {} hat
  split
  · exact .finishes _ {} hat
  have hok : configOk bits maxHz = true := by
    simp only [configOk, Bool.and_eq_true, decide_eq_true_eq]
    omega
  split
  · split
    · exact .moves {} hat
    · exact .moves {} hat (hl := { checked := fun _ _ => hok })
  · exact setupConfigure_qStep {} (hat ▸ rfl) fun _ => hok

theorem setupAllocTx_qStep {c : Bool} {cs : Cs} {r : ChanId} {s : State} (hat : s.seqQ = .sAllocTx r) :
    QStep c s (setupAllocTx cs r s) := by
  unfold setupAllocTx
  split
  · exact .moves {} hat
  · exact .moves {} hat (hl := { checked := fun _ h => h (hat ▸ rfl) })

theorem setupStep_qStep {cs : Cs} {mode : Byte} {bits maxHz : Nat} {s t : State} (h : setupStep cs mode bits maxHz s = some t) :
    QStep (configOk bits maxHz) s t := by
  unfold setupStep at h
  split at h <;> cases h
  next hat => exact setupFirst_qStep hat
  next hat => exact setupAllocTx_qStep hat
  next hat => exact .moves {} hat
  next hat => exact .finishes _ {} hat
  next r t hat =>
    exact setupConfigure_qStep ((DataStep.refl _ s).setDma cs fun _ => rfl) (hat ▸ rfl) fun hc => hc (hat ▸ rfl)
  next x hat => exact configureStep_qStep (.inl ⟨rfl, rfl⟩) hat
  next hat => exact setupFormatRead_qStep {} (hat ▸ rfl)
  next t hat => exact .moves ((DataStep.refl _ s).writeFmt .queue cs fun hs => seqQOk_of_prescaleInv hs hat) hat
  next hat => exact .finishes _ {} hat

/-! ### TRANSFER: the mode configuration and the PIO engine (42_transfer.md R201, 43_pio.md) -/

/-- A step of `ModeConfig`: Q moved on, inside it or to the position after it. -/
theorem modeStep_cases (ok : Prop) (cs : Cs) (m : ModeSeq) (wrap : ModeSeq → QSeq) (next : QSeq) (s : State) :
    ∃ l u, modeStep cs m wrap next s = goQ l u ∧ ((∃ m', l = wrap m') ∨ l = next)
      ∧ ∀ s₀, DataStep ok s₀ s → DataStep ok s₀ u := by
  cases m with
  | m1 | m2 | m3 => exact ⟨_, _, rfl, .inl ⟨_, rfl⟩, fun _ h => { h with }⟩
  | m4 => exact ⟨_, _, rfl, .inr rfl, fun _ h => { h with }⟩

/-- Positions after `E0` of the PIO engine. -/
theorem pioEntered_pioLoop (m : XfMode) : pioEntered (pioLoop m) = true := by
  cases m <;> rfl

theorem pioPolicy_ne_none (c : Params) (x : Xfer) : pioPolicy c x ≠ .none := by
  unfold pioPolicy
  split
  · decide
  · split <;> decide

theorem rxStore_qStep {c : Bool} {i : Nat} {d : Half} {next l₀ : QSeq} {s t : State} (h : rxStore i d next s = some t)
    (hat : s.seqQ = l₀) (hkind : qKind next = qKind l₀) (hrun : engineRunning next = engineRunning l₀)
    (hl : PositionOk c s next) : QStep c s t := by
  obtain ⟨a, -, had, rfl⟩ := rxStore_cases h
  exact .moves (dataStep_hostWrite had) hat hkind hrun hl

theorem pioStep_qStep {c : Bool} {x : PioSeq} {s t : State} (h : pioStep x s = some t) (hat : s.seqQ = .pio x) :
    QStep c s t := by
  cases x with
  | mode m =>
    cases h
    obtain ⟨l, u, he, hl, hu⟩ := modeStep_cases _ s.xf.cs m (fun m' => .pio (.mode m')) (.pio .p5) s
    rw [he]
    obtain ⟨m', rfl⟩ | rfl := hl <;> exact .moves (hu s {}) hat
  | p5 => cases h; exact .enters {} hat (pioPolicy_ne_none _ _)
  | p6 | p7 | p8 | l3 | l5 | r2 | r4 | i2 | i3 => cases h; exact .moves {} hat
  | p9 =>
    cases h
    exact .moves {} hat (hrun := by simp only [engineRunning]; split; exacts [pioEntered_pioLoop _, rfl])
  | l2 | r3 | i4 => cases h; exact .moves {} hat (hrun := by simp only [engineRunning]; split <;> rfl)
  | l4 =>
    cases h
    exact .moves {} hat (hrun := by simp only [engineRunning]; split; rfl; split <;> rfl)
  | l0 i =>
    obtain ⟨-, a, -, -, rfl⟩ | ⟨-, rfl⟩ := pioTxHead_cases h <;> exact .moves {} hat
  | l5s i d => exact rxStore_qStep h hat rfl rfl {}
  | r5 i d => exact rxStore_qStep h hat rfl rfl {}
  | r0 i =>
    cases h
    unfold pioPollHead
    split
    · exact .moves {} hat (hrun := by simp only [engineRunning]; split <;> rfl)
    · exact .moves {} hat
  | i0 i =>
    cases h
    unfold pioIrqHead
    split <;> exact .moves {} hat

/-! ### TRANSFER: the DMA engine (44_dma.md) -/

/-- `DmaProgram` by Q: the busy fault, or Q moved on. -/
theorem dmaProgram_qStep {c : Bool} {ch : ChanId} {src dst : Word} {u : DmaUnit} {n : Nat} {l₀ next : QSeq} {s v : State}
    (hv : DataStep (checkedBy c s) s v) (hat : s.seqQ = l₀) (hkind : qKind next = qKind l₀)
    (hrun : engineRunning next = engineRunning l₀) (hl : PositionOk c s next) :
    QStep c s (dmaProgram ch src dst u n next v) := by
  unfold dmaProgram
  split
  · exact .stays { hv with }
  · exact .moves { hv with } hat hkind hrun hl


/-- The first step after `E0`: the exit of a width with no unit, or `ModeConfig` begun. -/
theorem dmaModeRead_qStep {c : Bool} {s : State} (hat : s.seqQ = .dma (.mode .m1)) : QStep c s (dmaModeRead s) := by
  unfold dmaModeRead
  split
  · exact .exits _ {}
  · exact .moves {} hat

theorem dmaProgTx_qStep {c : Bool} {m : Word} {s t : State} (h : dmaProgTx m s = some t) (hat : s.seqQ = .dma (.g17 m)) :
    QStep c s t := by
  unfold dmaProgTx at h
  split at h <;> cases h
  exact dmaProgram_qStep {} hat rfl rfl {}

theorem dmaMapRx_qStep {c : Bool} {s t : State} (h : dmaMapRx s = some t) (hat : s.seqQ = .dma .g18) : QStep c s t := by
  unfold dmaMapRx at h
  split at h <;> cases h
  split <;> exact .moves {} hat

theorem dmaProgRx_qStep {c : Bool} {r : Word} {s t : State} (h : dmaProgRx r s = some t) (hat : s.seqQ = .dma (.g19 r)) :
    QStep c s t := by
  unfold dmaProgRx at h
  split at h <;> cases h
  exact dmaProgram_qStep {} hat rfl rfl {}

theorem dmaStartTx_qStep {c : Bool} {s t : State} (h : dmaStartTx s = some t) (hat : s.seqQ = .dma .g20) : QStep c s t := by
  unfold dmaStartTx at h
  split at h <;> cases h
  refine .moves (.dmaStart (.setDma (.refl _ s) s.xf.cs ?_) _) hat
  exact fun hs => hs s.xf.cs

theorem dmaStartRx_qStep {c : Bool} {s t : State} (h : dmaStartRx s = some t) (hat : s.seqQ = .dma .g21) : QStep c s t := by
  unfold dmaStartRx at h
  split at h <;> cases h
  exact .moves ((DataStep.refl _ s).dmaStart _) hat

theorem dmaUnmapRx_qStep {c : Bool} {s t : State} (h : dmaUnmapRx s = some t) (hat : s.seqQ = .dma .g27) : QStep c s t := by
  unfold dmaUnmapRx at h
  split at h <;> cases h
  exact .moves (dataStep_unmapRx _ _ _) hat

theorem dmaStep_qStep {c : Bool} {x : DmaSeq} {s t : State} (h : dmaStep x s = some t) (hat : s.seqQ = .dma x) :
    QStep c s t := by
  cases x with
  | mode m =>
    cases m with
    | m1 => cases h; exact dmaModeRead_qStep hat
    | m2 | m3 | m4 => cases h; exact .moves {} hat
  | g6 | g7 | g8 | g9 | g10 | g11 | g12 | g13 | g18u | g22 | g23 => cases h; exact .moves {} hat
  | g15 k =>
    obtain ⟨had, rfl⟩ := dmaFill_cases h
    exact .moves (dataStep_hostWrite had) hat
  | g16 =>
    cases h
    unfold dmaMapTx
    dsimp only
    split <;> exact .moves {} hat
  | g17 m => exact dmaProgTx_qStep h hat
  | g18 => exact dmaMapRx_qStep h hat
  | g19 r => exact dmaProgRx_qStep h hat
  | g20 => exact dmaStartTx_qStep h hat
  | g21 => exact dmaStartRx_qStep h hat
  | g24 | g25 =>
    simp only [dmaStep] at h
    split at h <;> cases h
    exact .moves {} hat
  | g26 =>
    cases h
    split <;> exact .moves {} hat
  | g27 => exact dmaUnmapRx_qStep h hat

/-! ### TRANSFER: front end and exit (42_transfer.md) -/

/-- T9 adds the cached command word to the record, which is in range as it was. -/
theorem DataStep.transferContext {ok : Prop} {sl : Slave} {cs : Cs} {tx rx : Option Word} {len : Nat} {s : State}
    (h : slaveOf cs s = some sl) : DataStep ok s (transferContext sl cs tx rx len s) :=
  have hu := (DataStep.refl ok s).setSlave cs (x := { sl with cmdBase := some (cmdBase s.params cs) }) fun _ hs => hs cs sl h
  { hu with }

/-- T10 on the context T9 leaves: the DMA engine entered, or the PIO engine's `ModeConfig` begun. -/
theorem transferDispatch_qStep {c : Bool} {cs : Cs} {l₀ : QSeq} {s u : State}
    (hu : DataStep (checkedBy c s) s u) (hat : s.seqQ = l₀) (hkind : qKind l₀ = .transfer)
    (hrun : engineRunning l₀ = false) : QStep c s (transferDispatch cs u) := by
  unfold transferDispatch
  split
  · exact .enters hu hat (by decide) hkind.symm
  · exact .moves { hu with } hat hkind.symm hrun.symm

/-- T7 to T10: a fault, or an engine begun. -/
theorem transferEnter_qStep {c : Bool} {cs : Cs} {tx rx : Option Word} {len : Nat} {l₀ : QSeq} {s : State}
    (hat : s.seqQ = l₀) (hkind : qKind l₀ = .transfer) (hrun : engineRunning l₀ = false) :
    QStep c s (transferEnter cs tx rx len s) := by
  unfold transferEnter
  split
  · exact .stays {}
  next sl hsl =>
    split
    · exact .stays {}
    · exact transferDispatch_qStep (.transferContext hsl) hat hkind hrun

theorem transferFirst_qStep {c : Bool} {cs : Cs} {tx rx : Option Word} {len : Nat} {bits hz : Option Nat} {s : State}
    (hat : s.seqQ = .t1) : QStep c s (transferFirst cs tx rx len bits hz s) := by
  unfold transferFirst
  split
  · exact .finishes _ {} hat
  split
  · exact .stays {}
  split
  · exact .stays {}
  split
  · exact .stays {}
  split
  · exact .finishes _ {} hat
  split
  · cases h : configureStart cs bits hz .t6 s with
    | none => exact .finishes _ {} hat
    | some t =>
      obtain ⟨sl, hsl, hok, rfl⟩ := configureStart_cases h
      have hu := (DataStep.refl (checkedBy c s) s).setSlave cs fun _ hs =>
        slaveOk_configured (hs cs sl hsl) hok
      exact .moves { hu with } hat (hl := { formats := fun hs => fmtOk_fmtRec hs cs })
  · exact transferEnter_qStep hat rfl rfl

theorem transferStep_qStep {c : Bool} {cs : Cs} {tx rx : Option Word} {len : Nat} {bits hz : Option Nat} {s t : State}
    (h : transferStep cs tx rx len bits hz s = some t) : QStep c s t := by
  unfold transferStep at h
  split at h
  next hat => cases h; exact transferFirst_qStep hat
  next x hat => cases h; exact configureStep_qStep (.inr ⟨rfl, rfl⟩) hat
  next hat => cases h; exact transferEnter_qStep hat rfl rfl
  next x hat => exact pioStep_qStep h hat
  next x hat => exact dmaStep_qStep h hat
  next hat => cases h; exact .moves {} hat
  next v hat => cases h; exact .exits _ {}
  next r hat => cases h; exact .exits _ {}
  next => cases h

/-! ### CLEANUP and CHIPSELECT -/

theorem cleanupStep_qStep {c : Bool} {cs : Cs} {s t : State} (h : cleanupStep cs s = some t) : QStep c s t := by
  unfold cleanupStep at h
  split at h <;> cases h
  next hat =>
    unfold cleanupFirst
    split
    · exact .finishes _ {} hat
    split
    · split
      · exact .stays {}
      · exact .moves {} hat
    · exact .finishes _ {} hat
  next hat => exact .moves {} hat
  next hat => exact .finishes _ ((DataStep.refl _ s).setDma cs fun _ => rfl) hat

theorem chipselectStep_qStep {c : Bool} {cs : Cs} {act : Bool} {s t : State} (h : chipselectStep cs act s = some t) :
    QStep c s t := by
  unfold chipselectStep at h
  split at h <;> cases h
  next hat =>
    unfold chipselectFirst
    split
    · exact .finishes _ {} hat
    split
    · exact .stays {}
    split
    · exact .finishes _ {} hat
    · exact .moves {} hat
  next hat => exact .moves {} hat
  next hat => exact .moves {} hat
  next hat => split <;> exact .moves {} hat
  next hat => exact .finishes _ {} hat

/-! ### FREQ_PRE, FREQ_POST, SUSPEND and RESUME (46_coordination.md) -/

theorem freqPreStep_fStep {s t : State} (h : freqPreStep s = some t) : FStep s t := by
  unfold freqPreStep at h
  split at h
  next hat =>
    split at h <;> cases h
    exact .moves {} hat
  next => cases h; exact .finishes _ {}
  next => cases h

/-- The loop of FQ2 from a state whose clock rate may just have changed. -/
theorem freqPostFrom_fStep {k : Nat} {l₀ : FSeq} {s u : State} (hu : DataStep True s u) (hat : s.seqF = l₀)
    (hrun : (l₀ != .idle) = true) : FStep s (freqPostFrom k u) := by
  unfold freqPostFrom
  split
  · exact .finishes _ hu
  next cs hz _ =>
    obtain h | ⟨p, floored, hp, h⟩ := dividerRead_cases .freq cs hz (fun t p s' => goF (.fqW cs t p) s') u
    · rw [h]
      exact .stays { hu with }
    · rw [h]
      refine .moves (hu.dividerNote .freq cs floored) hat hrun.symm fun hs => ?_
      simp only [seqFOk, hu.formats hs cs, hp, Bool.and_self]

theorem freqPostStep_fStep {newClk : Nat} {s t : State} (h : freqPostStep newClk s = some t) : FStep s t := by
  unfold freqPostStep at h
  split at h <;> cases h
  next hat => exact freqPostFrom_fStep {} hat rfl
  next cs t p hat =>
    refine .moves ((DataStep.refl _ s).dividerWrite .freq cs t fun hs => ?_) hat
    have hl := seqFOk_of_prescaleInv hs hat
    simp only [seqFOk, Bool.and_eq_true] at hl
    exact hl.2
  next hat => exact freqPostFrom_fStep {} hat rfl

theorem suspendStep_pStep {s t : State} (h : suspendStep s = some t) : PStep s t := by
  unfold suspendStep at h
  split at h
  next hat =>
    split at h <;> cases h
    exact .moves {} hat
  next => cases h; exact .finishes _ {}
  next hat => cases h; exact .moves {} hat
  next hat => cases h; exact .moves {} hat
  next hat => cases h; exact .moves {} hat
  next => cases h; exact .finishes _ {}
  next => cases h

theorem resumeStep_pStep {s t : State} (h : resumeStep s = some t) : PStep s t := by
  unfold resumeStep at h
  split at h <;> cases h
  next hat => exact .moves {} hat
  next hat => exact .moves {} hat
  next hat => exact .moves {} hat
  next => exact .finishes _ {}

/-! ### The steps of the handler and of the callbacks -/

theorem handlerStep_dataStep {ok : Prop} {s t : State} (h : handlerStep s = some t) : DataStep ok s t := by
  obtain ⟨-, rfl⟩ | ⟨v, -, rfl⟩ | ⟨d, -, hd⟩ | ⟨-, rfl⟩ | ⟨r, -, rfl⟩ := handlerStep_cases h
  · exact {}
  · obtain ⟨-, he⟩ | ⟨-, -, he⟩ | ⟨-, -, -, he⟩ | ⟨-, -, -, he⟩ := handlerTake_cases v s <;> rw [he]
    all_goals exact {}
  · obtain ⟨had, rfl⟩ := handlerStore_cases hd
    have hu := dataStep_hostWrite (ok := ok) (a := .handler) (v := d) had
    exact { hu with }
  · exact {}
  · exact {}

/-- A callback's position is no part of what `DataStep` speaks of. -/
theorem DataStep.goCb {ok : Prop} {s u : State} (h : DataStep ok s u) (d : Dir) (l : CbSeq) : DataStep ok s (goCb d l u) := by
  cases d <;> exact { h with }

theorem channelsPaired_withDone {d : Dir} {e : DmaEntry} (h : channelsPaired e) : channelsPaired (withDone d e) := by
  cases d <;> exact h

theorem callbackStep_dataStep {ok : Prop} {d : Dir} {s t : State} (h : callbackStep d s = some t) : DataStep ok s t := by
  obtain ⟨c, ch, -, rfl⟩ | ⟨c, ch, -, rfl⟩ | ⟨c, ch, -, rfl⟩ | ⟨c, -, rfl⟩ | ⟨r, -, rfl⟩ := callbackStep_cases h
  · exact ((DataStep.refl _ s).dmaStop _ ch).goCb d _
  · exact ((DataStep.refl _ s).dmaStop _ ch).goCb d _
  · exact .goCb {} d _
  · have hu := (DataStep.refl ok s).setDma c fun hs => channelsPaired_withDone (d := d) (hs c)
    refine .goCb ?_ d _
    exact { hu with }
  · exact .goCb {} d _


end Sys2Proof.Machine
end

section
/-!
SUPPORT. The step of the machine by what it can do (10_state.md R20): one case for each agent, a host's issue, reset.
-/

namespace Sys2Proof.Machine

open Sys2Proof

theorem Op.assemble_port (o : Op) (cmd : Word) (a : Args) : (o.assemble cmd a).port = o.port := by
  cases o <;> rfl

/-- A command that decodes on a port is one that port accepts (30_encoding.md R92). -/
theorem decode_port {p : Port} {cmd : Word} {a : Args} {i : Instr} (h : decode p cmd a = .ok i) : i.port = p := by
  obtain ⟨o, -, hport, -, rfl⟩ := decode_eq_ok_iff.1 h
  rw [Op.assemble_port, hport]

/-- One atomic step of a command is a step of its port's agent. -/
theorem exec_cases {i : Instr} {s t : State} (h : exec i s = .next t) :
    (i.port = .queue ∧ QStep (operandsOk i) s t) ∨ (i.port = .freq ∧ FStep s t) ∨ (i.port = .power ∧ PStep s t) := by
  cases i with
  | setup => cases h; exact .inl ⟨rfl, getD_of_forall (.stays {}) fun _ => setupStep_qStep⟩
  | transfer => cases h; exact .inl ⟨rfl, getD_of_forall (.stays {}) fun _ => transferStep_qStep⟩
  | cleanup => cases h; exact .inl ⟨rfl, getD_of_forall (.stays {}) fun _ => cleanupStep_qStep⟩
  | chipselect => cases h; exact .inl ⟨rfl, getD_of_forall (.stays {}) fun _ => chipselectStep_qStep⟩
  | freqPre => cases h; exact .inr (.inl ⟨rfl, getD_of_forall (.stays {}) fun _ => freqPreStep_fStep⟩)
  | freqPost => cases h; exact .inr (.inl ⟨rfl, getD_of_forall (.stays {}) fun _ => freqPostStep_fStep⟩)
  | suspend => cases h; exact .inr (.inr ⟨rfl, getD_of_forall (.stays {}) fun _ => suspendStep_pStep⟩)
  | resume => cases h; exact .inr (.inr ⟨rfl, getD_of_forall (.stays {}) fun _ => resumeStep_pStep⟩)

/-- What a step of the machine may leave. -/
inductive MachineStep (s : State) : State → Prop
  | data {t : State} (h : DataStep True s t) : MachineStep s t
  | queue {t : State} (h : QStep (commandOk s) s t) : MachineStep s t
  | freq {t : State} (h : FStep s t) : MachineStep s t
  | power {t : State} (h : PStep s t) : MachineStep s t
  | issue (p : Port) (w : Word) (a : Args) (hidle : (portRegs p s).busy = false) : MachineStep s (issue p w a s)
  | reset : MachineStep s (attach s)

theorem refuseEncoding_machineStep {p : Port} {s : State} {e : DecodeError} (h : portCommand p s = .error e) :
    MachineStep s (refuseEncoding p s) := by
  cases p with
  | queue =>
    refine .queue (.finishes _ {} rfl fun hpos => ?_)
    simp only [positionInv, h, firstQ, Bool.or_eq_true, beq_iff_eq] at hpos
    cases hs : s.seqQ <;> simp_all [qKind, engineRunning]
  | freq => exact .freq (.finishes _ {})
  | power => exact .power (.finishes _ {})

theorem stepPort_machineStep {p : Port} {s t : State} (h : stepPort p s = .next t) : MachineStep s t := by
  unfold stepPort at h
  split at h
  · split at h
    next i hcmd =>
      have hport := decode_port hcmd
      obtain ⟨hi, hq⟩ | ⟨-, hf⟩ | ⟨-, hp⟩ := exec_cases h
      · obtain rfl : p = .queue := hport.symm.trans hi
        refine .queue ?_
        simpa only [commandOk, hcmd] using hq
      · exact .freq hf
      · exact .power hp
    next e hcmd =>
      cases h
      exact refuseEncoding_machineStep hcmd
  · cases h
    exact .data {}

theorem envCmd_machineStep {p : Port} {w : Word} {a : Args} {s t : State} (h : envCmd p w a s = some t) :
    MachineStep s t := by
  unfold envCmd at h
  split at h <;> cases h
  next hbusy => exact .issue p w a (Bool.eq_false_of_not_eq_true hbusy)

theorem envIrq_machineStep {s t : State} (h : envIrq s = some t) : MachineStep s t := by
  unfold envIrq at h
  split at h <;> cases h
  exact .data {}

theorem envDmaDone_machineStep {ch : ChanId} {st : Completion} {s t : State} (h : envDmaDone ch st s = some t) :
    MachineStep s t := by
  unfold envDmaDone at h
  split at h
  · cases h
  · split at h <;> cases h
    exact .data (.goCb {} _ _)

theorem envIntr_machineStep {s t : State} (h : envIntr s = some t) : MachineStep s t := by
  unfold envIntr at h
  split at h
  next hat =>
    split at h <;> cases h
    exact .queue (.moves {} hat)
  next hat =>
    split at h <;> cases h
    exact .queue (.moves {} hat)
  next => cases h

theorem envTimeout_machineStep {s t : State} (h : envTimeout s = some t) : MachineStep s t := by
  unfold envTimeout at h
  split at h
  next hat =>
    split at h <;> cases h
    exact .power (.moves {} hat)
  next => cases h

theorem applyMove_machineStep {m : Move} {s t : State} (h : applyMove m s = .next t) : MachineStep s t := by
  cases m with
  | port p => exact stepPort_machineStep h
  | handler => cases h; exact getD_of_forall (.data {}) fun _ h => .data (handlerStep_dataStep h)
  | callback d => cases h; exact getD_of_forall (.data {}) fun _ h => .data (callbackStep_dataStep h)
  | cmd p w a => cases h; exact getD_of_forall (.data {}) fun _ => envCmd_machineStep
  | irq => cases h; exact getD_of_forall (.data {}) fun _ => envIrq_machineStep
  | dmaDone ch st => cases h; exact getD_of_forall (.data {}) fun _ => envDmaDone_machineStep
  | intr => cases h; exact getD_of_forall (.data {}) fun _ => envIntr_machineStep
  | timeout => cases h; exact getD_of_forall (.data {}) fun _ => envTimeout_machineStep
  | store addr b => cases h; exact .data (dataStep_envStore addr b)
  | attach => cases h; exact .reset

/-- A step of the machine, from the state with the environment's move taken. -/
theorem machineStep_of_step {s t : State} (h : step s = .next t) : MachineStep (dropTurn s) t := by
  unfold step at h
  split at h
  · exact applyMove_machineStep h
  · split at h <;> cases h
    exact .reset

end Sys2Proof.Machine
end

section
/-!
PROOF. The invariants of every step (10_state.md R35), the command registers (R23) and the state after reset (R36).
-/

namespace Sys2Proof.Machine

open Sys2Proof

/-! ### The state after reset -/

theorem csGet_replicate {α : Type} (x : α) (c : Cs) : csGet (Vector.replicate 8 x) c = x :=
  Vector.getElem_replicate c.isLt

theorem slaveOf_resetWith (c : Params) (cs : Cs) : slaveOf cs (State.resetWith c) = none := csGet_replicate _ cs

theorem dmaOf_resetWith (c : Params) (cs : Cs) : dmaOf cs (State.resetWith c) = ⟨none, none, false, false⟩ :=
  csGet_replicate _ cs

theorem fmtRec_resetWith (c : Params) (cs : Cs) : fmtRec cs (State.resetWith c) = ⟨none, none, none, none, none, none⟩ :=
  csGet_replicate _ cs

theorem dmaInv_resetWith (c : Params) : dmaInv (State.resetWith c) = true := by
  rw [dmaInv_iff]
  intro cs
  rw [dmaOf_resetWith]
  rfl

theorem slavesInv_resetWith (c : Params) : slavesInv (State.resetWith c) = true := by
  rw [slavesInv_iff]
  refine ⟨nofun, fun cs sl h => ?_⟩
  rw [slaveOf_resetWith] at h
  cases h

theorem prescaleInv_resetWith (c : Params) : prescaleInv (State.resetWith c) = true := by
  rw [prescaleInv_iff]
  refine ⟨fun cs => ?_, rfl, rfl⟩
  rw [fmtRec_resetWith]
  rfl

/-! ### The control invariant: one rule for each way a position changes -/

theorem controlInv_iff (s : State) :
    controlInv s = true ↔
      (s.seqQ = .idle ∨ qKind s.seqQ = qKind (firstQ (portCommand .queue s)))
        ∧ (s.portQ.busy = (s.seqQ != .idle) ∧ s.portF.busy = (s.seqF != .idle) ∧ s.portP.busy = (s.seqP != .idle))
        ∧ flagsInv s = true := by
  simp only [controlInv, positionInv, portsInv, Bool.and_eq_true, Bool.or_eq_true, beq_iff_eq, and_assoc]

theorem positionInv_of_controlInv {s : State} (h : controlInv s = true) : positionInv s = true := by
  simp only [controlInv, Bool.and_eq_true] at h
  exact h.1.1

/-- Positions of one command are idle together. -/
theorem idle_of_qKind_eq {l m : QSeq} (h : qKind l = qKind m) : (l != .idle) = (m != .idle) := by
  rw [Bool.eq_iff_iff, bne_iff_ne, bne_iff_ne, Ne, Ne, ← qKind_eq_idle_iff, ← qKind_eq_idle_iff m, h]

theorem controlInv_goQ {s : State} {l : QSeq} (h : controlInv s = true) (hkind : qKind l = qKind s.seqQ)
    (hrun : engineRunning l = engineRunning s.seqQ) : controlInv (goQ l s) = true := by
  rw [controlInv_iff, flagsInv_iff] at h ⊢
  obtain ⟨hpos, ⟨hq, hf, hp⟩, hflags⟩ := h
  refine ⟨?_, ⟨hq.trans (idle_of_qKind_eq hkind).symm, hf, hp⟩, ?_⟩
  · rw [← qKind_eq_idle_iff, goQ_seqQ, hkind, qKind_eq_idle_iff]
    exact hpos
  · rw [goQ_seqQ, hrun]
    exact hflags

theorem controlInv_finish_queue {s : State} (r : Word) (h : controlInv s = true) (hrun : engineRunning s.seqQ = false) :
    controlInv (finish .queue r s) = true := by
  rw [controlInv_iff, flagsInv_iff] at h ⊢
  obtain ⟨-, ⟨-, hf, hp⟩, hflags⟩ := h
  rw [hrun] at hflags
  exact ⟨.inl rfl, ⟨rfl, hf, hp⟩, hflags⟩

theorem controlInv_enter {s : State} {l : QSeq} {m : XfMode} (h : controlInv s = true) (hm : m ≠ .none)
    (hkind : qKind l = qKind s.seqQ) (hrun : engineRunning l = true) : controlInv (goQ l (engineEntry m s)) = true := by
  rw [controlInv_iff, flagsInv_iff] at h ⊢
  obtain ⟨hpos, ⟨hq, hf, hp⟩, -⟩ := h
  refine ⟨?_, ⟨hq.trans (idle_of_qKind_eq hkind).symm, hf, hp⟩, rfl, hrun.symm, (bne_iff_ne.2 hm).trans hrun.symm⟩
  rw [← qKind_eq_idle_iff, goQ_seqQ, hkind, qKind_eq_idle_iff]
  exact hpos

theorem controlInv_engineExit {s : State} (r : Word) (h : controlInv s = true) : controlInv (engineExit r s) = true := by
  rw [controlInv_iff, flagsInv_iff] at h ⊢
  obtain ⟨-, ⟨-, hf, hp⟩, -⟩ := h
  exact ⟨.inl rfl, ⟨rfl, hf, hp⟩, rfl, rfl, rfl⟩

theorem controlInv_goF {s : State} {l : FSeq} (h : controlInv s = true) (hrun : (l != .idle) = (s.seqF != .idle)) :
    controlInv (goF l s) = true := by
  rw [controlInv_iff] at h ⊢
  obtain ⟨hpos, ⟨hq, hf, hp⟩, hflags⟩ := h
  exact ⟨hpos, ⟨hq, hf.trans hrun.symm, hp⟩, hflags⟩

theorem controlInv_finish_freq {s : State} (r : Word) (h : controlInv s = true) : controlInv (finish .freq r s) = true := by
  rw [controlInv_iff] at h ⊢
  obtain ⟨hpos, ⟨hq, -, hp⟩, hflags⟩ := h
  exact ⟨hpos, ⟨hq, rfl, hp⟩, hflags⟩

theorem controlInv_goP {s : State} {l : PSeq} (h : controlInv s = true) (hrun : (l != .idle) = (s.seqP != .idle)) :
    controlInv (goP l s) = true := by
  rw [controlInv_iff] at h ⊢
  obtain ⟨hpos, ⟨hq, hf, hp⟩, hflags⟩ := h
  exact ⟨hpos, ⟨hq, hf, hp.trans hrun.symm⟩, hflags⟩

theorem controlInv_finish_power {s : State} (r : Word) (h : controlInv s = true) :
    controlInv (finish .power r s) = true := by
  rw [controlInv_iff] at h ⊢
  obtain ⟨hpos, ⟨hq, hf, -⟩, hflags⟩ := h
  exact ⟨hpos, ⟨hq, hf, rfl⟩, hflags⟩

/-- The first position of a command is neither idle nor inside a transfer engine, and holds nothing. -/
theorem firstQ_plain (d : Except DecodeError Instr) :
    (firstQ d != .idle) = true ∧ engineRunning (firstQ d) = false ∧ allocating (firstQ d) = false
      ∧ seqQOk (firstQ d) = true := by
  cases d with
  | error e => exact ⟨rfl, rfl, rfl, rfl⟩
  | ok i => cases i <;> exact ⟨rfl, rfl, rfl, rfl⟩

theorem firstF_plain (d : Except DecodeError Instr) : (firstF d != .idle) = true ∧ seqFOk (firstF d) = true := by
  cases d with
  | error e => exact ⟨rfl, rfl⟩
  | ok i => cases i <;> exact ⟨rfl, rfl⟩

theorem firstP_ne_idle (d : Except DecodeError Instr) : (firstP d != .idle) = true := by
  cases d with
  | error e => rfl
  | ok i => cases i <;> rfl

/-- A host's issue on an idle port: the port is busy, its agent at the first step of the command in its registers. -/
theorem controlInv_issue {p : Port} {w : Word} {a : Args} {s : State} (h : controlInv s = true)
    (hidle : (portRegs p s).busy = false) : controlInv (issue p w a s) = true := by
  rw [controlInv_iff] at h ⊢
  obtain ⟨hpos, ⟨hq, hf, hp⟩, hflags⟩ := h
  cases p with
  | queue =>
    have hl : s.seqQ = .idle := by simpa [portRegs, hq] using hidle
    obtain ⟨hne, hrun, -, -⟩ := firstQ_plain (decode .queue w a)
    rw [flagsInv_iff, hl] at hflags
    obtain ⟨hdone, huse, hmode⟩ := hflags
    exact ⟨.inr rfl, ⟨hne.symm, hf, hp⟩, (flagsInv_iff _).2 ⟨hdone, huse.trans hrun.symm, hmode.trans hrun.symm⟩⟩
  | freq => exact ⟨hpos, ⟨hq, (firstF_plain (decode .freq w a)).1.symm, hp⟩, hflags⟩
  | power => exact ⟨hpos, ⟨hq, hf, (firstP_ne_idle (decode .power w a)).symm⟩, hflags⟩

theorem QStep.controlInv {c : Bool} {s t : State} (h : QStep c s t) (hs : controlInv s = true) : controlInv t = true := by
  cases h with
  | stays hu => exact hu.controlInv_eq.trans hs
  | moves hu hat hkind hrun =>
    exact controlInv_goQ (hu.controlInv_eq.trans hs) (by rw [hu.seqQ, hat, hkind]) (by rw [hu.seqQ, hat, hrun])
  | finishes r hu hat hrun =>
    exact controlInv_finish_queue r (hu.controlInv_eq.trans hs) (by rw [hu.seqQ, hat, hrun (positionInv_of_controlInv hs)])
  | enters hu hat hm hkind hrun => exact controlInv_enter (hu.controlInv_eq.trans hs) hm (by rw [hu.seqQ, hat, hkind]) hrun
  | exits r hu => exact controlInv_engineExit r (hu.controlInv_eq.trans hs)

theorem FStep.controlInv {s t : State} (h : FStep s t) (hs : controlInv s = true) : controlInv t = true := by
  cases h with
  | stays hu => exact hu.controlInv_eq.trans hs
  | moves hu hat hrun => exact controlInv_goF (hu.controlInv_eq.trans hs) (by rw [hu.seqF, hat, hrun])
  | finishes r hu => exact controlInv_finish_freq r (hu.controlInv_eq.trans hs)

theorem PStep.controlInv {s t : State} (h : PStep s t) (hs : controlInv s = true) : controlInv t = true := by
  cases h with
  | stays hu => exact hu.controlInv_eq.trans hs
  | moves hu hat hrun => exact controlInv_goP (hu.controlInv_eq.trans hs) (by rw [hu.seqP, hat, hrun])
  | finishes r hu => exact controlInv_finish_power r (hu.controlInv_eq.trans hs)

/-- Settles O56, one case for each agent, a host's issue and reset. -/
theorem controlInvariantKept : Obligations.ControlInvariantKept := by
  unfold Obligations.ControlInvariantKept
  intro s t hs hstep
  have hs' : controlInv (dropTurn s) = true := hs
  cases machineStep_of_step hstep with
  | data h => exact h.controlInv_eq.trans hs'
  | queue h => exact h.controlInv hs'
  | freq h => exact h.controlInv hs'
  | power h => exact h.controlInv hs'
  | issue p w a hidle => exact controlInv_issue hs' hidle
  | reset => rfl

/-! ### The data -/

theorem DataStep.of_true {ok : Prop} {s u : State} (h : DataStep True s u) : DataStep ok s u :=
  { h with slaves := fun _ => h.slaves trivial }

/-- The two states hold the same data: a change of position, ports and flags lies between them. -/
structure SameData (u t : State) : Prop where
  params : t.params = u.params := by rfl
  regrec : t.regrec = u.regrec := by rfl
  slave : t.slave = u.slave := by rfl
  dma : t.dma = u.dma := by rfl
  active : t.active = u.active := by rfl
  mem : t.mem = u.mem := by rfl

/-- Every step but reset leaves the data of a `DataStep`. -/
theorem MachineStep.data_cases {s t : State} (h : MachineStep s t) :
    t = attach s ∨ ∃ u, DataStep (checkedBy (commandOk s) s) s u ∧ SameData u t := by
  cases h with
  | data hu => exact .inr ⟨_, hu.of_true, {}⟩
  | queue h =>
    cases h with
    | stays hu | moves hu | finishes _ hu | enters hu | exits _ hu => exact .inr ⟨_, hu, {}⟩
  | freq h =>
    cases h with
    | stays hu | moves hu | finishes _ hu => exact .inr ⟨_, hu.of_true, {}⟩
  | power h =>
    cases h with
    | stays hu | moves hu | finishes _ hu => exact .inr ⟨_, hu.of_true, {}⟩
  | issue p => exact .inr ⟨s, {}, by cases p <;> exact {}⟩
  | reset => exact .inl rfl

/-- Settles O59: memory and the channel list are data, which every step but reset keeps in form. -/
theorem formsInvariantKept : Obligations.FormsInvariantKept := by
  unfold Obligations.FormsInvariantKept
  intro s t hs hstep
  rw [formsInv_iff] at hs ⊢
  obtain ⟨hmem, hactive⟩ := hs
  obtain rfl | ⟨u, hu, hd⟩ := (machineStep_of_step hstep).data_cases
  · exact ⟨⟨hmem, rfl⟩, rfl⟩
  · rw [hd.mem, hd.active, hd.params]
    exact ⟨⟨hu.mem hmem, hu.active hactive⟩, hu.params⟩

/-! ### The DMA and slave tables -/

theorem MachineStep.slavesOk {s t : State} (h : MachineStep s t) (hchecked : checkedBy (commandOk s) s)
    (hs : slavesOk s) : slavesOk t := by
  obtain rfl | ⟨u, hu, hd⟩ := h.data_cases
  · exact ((slavesInv_iff _).1 (slavesInv_resetWith s.params)).2
  · intro c sl hsl
    rw [slaveOf, hd.slave] at hsl
    exact hu.slaves hchecked hs c sl hsl

theorem MachineStep.dmaInv {s t : State} (h : MachineStep s t) (hs : dmaInv s = true) : dmaInv t = true := by
  rw [dmaInv_iff] at hs ⊢
  obtain rfl | ⟨u, hu, hd⟩ := h.data_cases
  · exact (dmaInv_iff _).1 (dmaInv_resetWith s.params)
  · intro c
    rw [dmaOf, hd.dma]
    exact hu.channels hs c

/-- Where a channel has been given to a SETUP, the operands in the registers have passed its checks. -/
theorem QStep.checkedBy {s t : State} (h : QStep (commandOk s) s t) (hs : checkedBy (commandOk s) s) :
    checkedBy (commandOk t) t := by
  cases h with
  | stays hu => exact hu.checkedBy hs
  | moves hu _ _ _ hl | enters hu _ _ _ _ hl => exact fun ht => hu.commandOk_eq.trans (hl.checked ht hs)
  | finishes | exits => exact nofun

theorem MachineStep.checkedBy {s t : State} (h : MachineStep s t) (hs : checkedBy (commandOk s) s) :
    checkedBy (commandOk t) t := by
  cases h with
  | data hu => exact hu.checkedBy hs
  | queue h => exact h.checkedBy hs
  | freq h =>
    cases h with
    | stays hu | moves hu | finishes _ hu => exact hu.checkedBy hs
  | power h =>
    cases h with
    | stays hu | moves hu | finishes _ hu => exact hu.checkedBy hs
  | issue p w a =>
    cases p with
    | queue =>
      obtain ⟨-, -, hfirst, -⟩ := firstQ_plain (decode .queue w a)
      exact fun ht => absurd (hfirst.symm.trans ht) (by decide)
    | freq | power => exact hs
  | reset => exact nofun

/-- Settles O57: a record or a channel pair is written only with operands that SETUP or `Configure` has checked. -/
theorem tablesInvariantKept : Obligations.TablesInvariantKept := by
  unfold Obligations.TablesInvariantKept
  intro s t hdma hslaves hstep
  have h := machineStep_of_step hstep
  rw [slavesInv_iff] at hslaves ⊢
  obtain ⟨hchecked, hrecords⟩ := hslaves
  exact ⟨h.dmaInv hdma, h.checkedBy hchecked, h.slavesOk hchecked hrecords⟩

/-! ### The prescale values -/

theorem MachineStep.fmtOk {s t : State} (h : MachineStep s t) (hs : prescaleInv s = true) (c : Cs) :
    fmtOk (fmtRec c t) = true := by
  obtain rfl | ⟨u, hu, hd⟩ := h.data_cases
  · exact fmtOk_fmtRec (prescaleInv_resetWith s.params) c
  · rw [fmtRec, hd.regrec]
    exact hu.formats hs c

theorem DataStep.seqOk {ok : Prop} {s u : State} (h : DataStep ok s u) (hs : prescaleInv s = true) :
    seqQOk u.seqQ = true ∧ seqFOk u.seqF = true := by
  rw [h.seqQ, h.seqF]
  exact ((prescaleInv_iff s).1 hs).2

/-- A host's issue leaves the agents at positions that hold no record. -/
theorem seqOk_issue {p : Port} {w : Word} {a : Args} {s : State} (hQ : seqQOk s.seqQ = true) (hF : seqFOk s.seqF = true) :
    seqQOk (issue p w a s).seqQ = true ∧ seqFOk (issue p w a s).seqF = true := by
  cases p with
  | queue =>
    obtain ⟨-, -, -, hfirst⟩ := firstQ_plain (decode .queue w a)
    exact ⟨hfirst, hF⟩
  | freq => exact ⟨hQ, (firstF_plain (decode .freq w a)).2⟩
  | power => exact ⟨hQ, hF⟩

theorem QStep.seqOk {c : Bool} {s t : State} (h : QStep c s t) (hs : prescaleInv s = true) :
    seqQOk t.seqQ = true ∧ seqFOk t.seqF = true := by
  cases h with
  | stays hu => exact hu.seqOk hs
  | moves hu _ _ _ hl | enters hu _ _ _ _ hl => exact ⟨hl.formats hs, (hu.seqOk hs).2⟩
  | finishes _ hu | exits _ hu => exact ⟨rfl, (hu.seqOk hs).2⟩

theorem FStep.seqOk {s t : State} (h : FStep s t) (hs : prescaleInv s = true) :
    seqQOk t.seqQ = true ∧ seqFOk t.seqF = true := by
  cases h with
  | stays hu => exact hu.seqOk hs
  | moves hu _ _ hl => exact ⟨(hu.seqOk hs).1, hl hs⟩
  | finishes _ hu => exact ⟨(hu.seqOk hs).1, rfl⟩

theorem PStep.seqOk {s t : State} (h : PStep s t) (hs : prescaleInv s = true) :
    seqQOk t.seqQ = true ∧ seqFOk t.seqF = true := by
  cases h with
  | stays hu | moves hu | finishes _ hu => exact hu.seqOk hs

/-- The records and prescales that Q and F hold come from registers and from the divider. -/
theorem MachineStep.seqOk {s t : State} (h : MachineStep s t) (hs : prescaleInv s = true) :
    seqQOk t.seqQ = true ∧ seqFOk t.seqF = true := by
  cases h with
  | data hu => exact hu.seqOk hs
  | queue h => exact h.seqOk hs
  | freq h => exact h.seqOk hs
  | power h => exact h.seqOk hs
  | issue p w a =>
    obtain ⟨-, hQ, hF⟩ := (prescaleInv_iff s).1 hs
    exact seqOk_issue hQ hF
  | reset => exact ⟨rfl, rfl⟩

/-- Settles O58: the registers' records and those that Q and F hold. -/
theorem prescaleInvariantKept : Obligations.PrescaleInvariantKept := by
  unfold Obligations.PrescaleInvariantKept
  intro s t hs hstep
  have h := machineStep_of_step hstep
  exact (prescaleInv_iff t).2 ⟨h.fmtOk hs, h.seqOk hs⟩

/-! ### The command registers -/

/-- The command and argument registers of every port are the same. -/
def commandsKept (s t : State) : Prop :=
  ∀ p, (portRegs p t).cmd = (portRegs p s).cmd ∧ (portRegs p t).arg = (portRegs p s).arg

theorem commandsKept_finish (p : Port) (r : Word) (s : State) : commandsKept s (finish p r s) := fun q => by
  rw [portRegs_finish]
  split
  next h => exact h ▸ ⟨rfl, rfl⟩
  · exact ⟨rfl, rfl⟩

theorem DataStep.portRegs_eq {ok : Prop} {s u : State} (h : DataStep ok s u) (p : Port) : portRegs p u = portRegs p s := by
  cases p with
  | queue => exact h.portQ
  | freq => exact h.portF
  | power => exact h.portP

/-- What follows a `DataStep` and keeps the registers keeps them from the state before it. -/
theorem DataStep.commandsKept {ok : Prop} {s u t : State} (h : DataStep ok s u) (ht : commandsKept u t) :
    commandsKept s t := fun p => h.portRegs_eq p ▸ ht p

theorem QStep.commandsKept {c : Bool} {s t : State} (h : QStep c s t) : commandsKept s t := by
  cases h with
  | stays hu | moves hu | enters hu => exact hu.commandsKept fun p => by cases p <;> exact ⟨rfl, rfl⟩
  | finishes r hu => exact hu.commandsKept (commandsKept_finish .queue r _)
  | exits r hu => exact hu.commandsKept (commandsKept_finish .queue r _)

theorem FStep.commandsKept {s t : State} (h : FStep s t) : commandsKept s t := by
  cases h with
  | stays hu | moves hu => exact hu.commandsKept fun p => by cases p <;> exact ⟨rfl, rfl⟩
  | finishes r hu => exact hu.commandsKept (commandsKept_finish .freq r _)

theorem PStep.commandsKept {s t : State} (h : PStep s t) : commandsKept s t := by
  cases h with
  | stays hu | moves hu => exact hu.commandsKept fun p => by cases p <;> exact ⟨rfl, rfl⟩
  | finishes r hu => exact hu.commandsKept (commandsKept_finish .power r _)

theorem exec_commandsKept {i : Instr} {s t : State} (h : exec i s = .next t) : commandsKept s t := by
  obtain ⟨-, h⟩ | ⟨-, h⟩ | ⟨-, h⟩ := exec_cases h
  · exact h.commandsKept
  · exact h.commandsKept
  · exact h.commandsKept

/-- Settles O9: an agent's step changes a port's registers only by `finish`, which writes `RES` and `BUSY`. -/
theorem commandRegistersNeverWritten : Obligations.CommandRegistersNeverWritten := by
  unfold Obligations.CommandRegistersNeverWritten
  have hself {u : State} : commandsKept u u := fun p => ⟨rfl, rfl⟩
  refine ⟨fun i s => ?_, fun s t h => ?_, fun d s t h => ?_⟩
  · obtain ⟨t, ht⟩ := exec_next i s
    exact ⟨t, ht, exec_commandsKept ht⟩
  · exact (handlerStep_dataStep (ok := True) h).commandsKept hself
  · exact (callbackStep_dataStep (ok := True) h).commandsKept hself

/-! ### The state after reset, written out -/

/-- Settles O12: the tables hold one entry throughout, the other fields are written out. -/
theorem resetState : Obligations.ResetState := by
  unfold Obligations.ResetState
  intro c
  exact ⟨rfl, rfl, rfl, rfl, rfl, rfl, rfl, rfl, rfl, rfl, rfl, rfl, rfl, rfl, rfl, rfl, rfl,
    slaveOf_resetWith c, dmaOf_resetWith c, fun _ => rfl, rfl, rfl, rfl, rfl, rfl, rfl, rfl, rfl, fmtRec_resetWith c, rfl⟩

/-- Settles O60: no chip-select is configured, no channel is allocated, no record is known. -/
theorem invariantsAtReset : Obligations.InvariantsAtReset := by
  unfold Obligations.InvariantsAtReset
  exact ⟨fun c => ⟨rfl, dmaInv_resetWith c, slavesInv_resetWith c, prescaleInv_resetWith c, rfl⟩, rfl⟩

end Sys2Proof.Machine
end

section
/-!
SUPPORT and PROOF. Fields of a register word bit by bit (30_encoding.md R102), words in host memory (20_memory.md R70), and the
obligation O41.
-/

namespace Sys2Proof.Machine

open Sys2Proof

/-! ### Fields, bit by bit -/

theorem getLsbD_getField (lo w : Nat) (v : Word) (i : Nat) :
    (getField lo w v).getLsbD i = (decide (i < w) && v.getLsbD (lo + i)) :=
  BitVec.getLsbD_extractLsb' ..

/-- The mask of a field that lies in the word covers the field's bits and no others. -/
theorem getLsbD_fieldMask {lo w : Nat} (h : lo + w ≤ 32) (i : Nat) :
    (fieldMask lo w).getLsbD i = decide (lo ≤ i ∧ i < lo + w) := by
  rw [Bool.eq_iff_iff]
  simp only [fieldMask, BitVec.truncate_eq_setWidth, BitVec.getLsbD_shiftLeft, BitVec.getLsbD_setWidth,
    BitVec.getLsbD_allOnes, Bool.and_eq_true, Bool.not_eq_true', decide_eq_true_eq, decide_eq_false_iff_not]
  omega

/-- A word with a field replaced: the value's bits inside the field, the word's own outside. -/
theorem getLsbD_setField {lo w : Nat} (h : lo + w ≤ 32) (x : BitVec w) (v : Word) (i : Nat) :
    (setField lo w x v).getLsbD i = if lo ≤ i ∧ i < lo + w then x.getLsbD (i - lo) else v.getLsbD i := by
  simp only [setField, BitVec.getLsbD_or, BitVec.getLsbD_and, BitVec.getLsbD_not, getLsbD_fieldMask h,
    BitVec.truncate_eq_setWidth, BitVec.getLsbD_shiftLeft, BitVec.getLsbD_setWidth]
  by_cases hin : lo ≤ i ∧ i < lo + w
  · have h32 : i < 32 := by omega
    have hlo : ¬ i < lo := by omega
    have hsub : i - lo < 32 := by omega
    simp [hin, h32, hlo, hsub]
  · by_cases h32 : i < 32
    · simp [hin, h32]
    · simp [hin, h32, BitVec.getLsbD_of_ge v i (by omega)]

theorem getField_eq_shift {lo w : Nat} (h : lo + w ≤ 32) (v : Word) :
    getField lo w v = ((v &&& fieldMask lo w) >>> lo).setWidth w := by
  refine BitVec.eq_of_getLsbD_eq fun i hi => ?_
  have hin : lo ≤ lo + i ∧ lo + i < lo + w := by omega
  simp only [getLsbD_getField, hi, decide_true, Bool.true_and, BitVec.getLsbD_setWidth, BitVec.getLsbD_ushiftRight,
    BitVec.getLsbD_and, getLsbD_fieldMask h, hin, and_self, Bool.and_true]

theorem getField_setField_same {lo w : Nat} (h : lo + w ≤ 32) (x : BitVec w) (v : Word) :
    getField lo w (setField lo w x v) = x := by
  refine BitVec.eq_of_getLsbD_eq fun i hi => ?_
  have hin : lo ≤ lo + i ∧ lo + i < lo + w := by omega
  rw [getLsbD_getField, getLsbD_setField h, if_pos hin, Nat.add_sub_cancel_left, decide_eq_true hi, Bool.true_and]

theorem getField_setField_disjoint {lo w lo' w' : Nat} (h : lo + w ≤ 32) (hd : lo + w ≤ lo' ∨ lo' + w' ≤ lo)
    (x : BitVec w) (v : Word) : getField lo' w' (setField lo w x v) = getField lo' w' v := by
  refine BitVec.eq_of_getLsbD_eq fun i hi => ?_
  have hout : ¬ (lo ≤ lo' + i ∧ lo' + i < lo + w) := by omega
  rw [getLsbD_getField, getLsbD_getField, getLsbD_setField h, if_neg hout]

/-! ### Words in host memory -/

theorem memGet_memWrite_one {m : Memory} (a : Nat) (v : Half) (h : Memory.wf m = true) :
    memGet (memWrite m a 1 v) a = v.extractLsb' 0 8 := by
  rw [memWrite, if_pos rfl, memGet_memSet_same a _ h]

theorem memGet_memWrite_two_low {m : Memory} (a : Nat) (v : Half) (h : Memory.wf m = true) :
    memGet (memWrite m a 2 v) a = v.extractLsb' 0 8 := by
  rw [memWrite, if_neg (by decide), memGet_memSet_other _ _ (Nat.ne_of_lt (Nat.lt_succ_self a)), memGet_memSet_same a _ h]

theorem memGet_memWrite_two_high {m : Memory} {a : Nat} (v : Half) (h : Memory.wf m = true) (ha : a < 2 ^ 32) :
    memGet (memWrite m a 2 v) (a + 1) = v.extractLsb' 8 8 := by
  rw [memWrite, if_neg (by decide), memGet_memSet_same (a + 1) _ (memSet_wf _ h ha)]

/-- Settles O41: a field's bits and every other bit of the word it is inserted in, a word's bytes and every other byte. -/
theorem fieldReadAfterWrite : Obligations.FieldReadAfterWrite := by
  unfold Obligations.FieldReadAfterWrite
  refine ⟨fun lo w v x h => ⟨getField_eq_shift h v, getField_setField_same h x v,
      fun lo' w' hd => getField_setField_disjoint h hd x v⟩,
    fun m a v hm => ⟨⟨rfl, rfl⟩, fun ha => ⟨?_, ?_, ?_, ?_⟩, fun ha => ⟨?_, ?_, ?_, ?_, ?_⟩⟩⟩
  · exact memWrite_wf v hm (Nat.le_refl 1) (.inl ⟨rfl, by omega⟩)
  · exact memGet_memWrite_one a v hm
  · exact memRead_memWrite_one a v hm
  · exact fun x hx => memGet_memWrite_other m v (.inl rfl) (by omega)
  · exact memWrite_wf v hm (Nat.le_succ 1) (.inr ha)
  · exact memGet_memWrite_two_low a v hm
  · exact memGet_memWrite_two_high v hm (by omega)
  · exact memRead_memWrite_two v hm (by omega)
  · exact fun x h0 h1 => memGet_memWrite_other m v (.inr rfl) (by omega)

end Sys2Proof.Machine
end

section
/-!
SUPPORT and PROOF. The receive interrupt handler (60_exceptions.md R350-R352), and the obligation O47.
-/

namespace Sys2Proof.Machine

open Sys2Proof

/-! ### Which accesses are admitted (20_memory.md R70, R71) -/

theorem withinBuffer_iff (a n : Nat) (base : Option Word) (len : Nat) :
    withinBuffer a n base len = true ↔ ∃ b, base = some b ∧ b.toNat ≤ a ∧ a + n ≤ b.toNat + len := by
  cases base with
  | none => simp [withinBuffer]
  | some b => simp [withinBuffer, within]

/-- An access is admitted exactly where its size and address are legal and it lies in one of the three regions. -/
theorem admitted_iff (a n : Nat) (s : State) :
    admitted s a n = true ↔
      (n = 1 ∨ (n = 2 ∧ a % 2 = 0)) ∧ a + n ≤ 2 ^ 32
        ∧ ((∃ b, s.xf.tx = some b ∧ b.toNat ≤ a ∧ a + n ≤ b.toNat + s.xf.len)
          ∨ (∃ b, s.xf.rx = some b ∧ b.toNat ≤ a ∧ a + n ≤ b.toNat + s.xf.len)
          ∨ (s.params.scratchAddr.toNat ≤ a ∧ a + n ≤ s.params.scratchAddr.toNat + s.params.scratchBytes)) := by
  simp only [admitted, Bool.and_eq_true, Bool.or_eq_true, beq_iff_eq, decide_eq_true_eq, withinBuffer_iff, within, and_assoc,
    or_assoc]

/-- Which accesses are admitted depends on the parameters and the transfer context alone. -/
theorem admitted_congr {s u : State} (hp : u.params = s.params) (hx : u.xf = s.xf) (a n : Nat) :
    admitted u a n = admitted s a n := by
  simp only [admitted, hp, hx]

/-- Word `i` of a buffer at `base` that holds it lies in the buffer, at an address legal for its size. -/
theorem wordAddr_bounds {base : Word} {i bpw len : Nat} (hbpw : bpw = 1 ∨ (bpw = 2 ∧ base.toNat % 2 = 0))
    (hlen : (i + 1) * bpw ≤ len) :
    (bpw = 1 ∨ (bpw = 2 ∧ wordAddr base i bpw % 2 = 0)) ∧ base.toNat ≤ wordAddr base i bpw
      ∧ wordAddr base i bpw + bpw ≤ base.toNat + len := by
  unfold wordAddr
  obtain rfl | ⟨rfl, heven⟩ := hbpw <;> omega

theorem admitted_txWord {i : Nat} {a : Word} {s : State} (htx : s.xf.tx = some a)
    (hbpw : s.xf.bpw = 1 ∨ (s.xf.bpw = 2 ∧ a.toNat % 2 = 0)) (hlen : (i + 1) * s.xf.bpw ≤ s.xf.len)
    (htop : a.toNat + s.xf.len ≤ 2 ^ 32) : admitted s (wordAddr a i s.xf.bpw) s.xf.bpw = true := by
  obtain ⟨hsize, hlow, hhigh⟩ := wordAddr_bounds hbpw hlen
  exact (admitted_iff _ _ s).2 ⟨hsize, hhigh.trans htop, .inl ⟨a, htx, hlow, hhigh⟩⟩

theorem admitted_rxWord {i : Nat} {b : Word} {s : State} (hrx : s.xf.rx = some b)
    (hbpw : s.xf.bpw = 1 ∨ (s.xf.bpw = 2 ∧ b.toNat % 2 = 0)) (hlen : (i + 1) * s.xf.bpw ≤ s.xf.len)
    (htop : b.toNat + s.xf.len ≤ 2 ^ 32) : admitted s (wordAddr b i s.xf.bpw) s.xf.bpw = true := by
  obtain ⟨hsize, hlow, hhigh⟩ := wordAddr_bounds hbpw hlen
  exact (admitted_iff _ _ s).2 ⟨hsize, hhigh.trans htop, .inr (.inl ⟨b, hrx, hlow, hhigh⟩)⟩

theorem admitted_scratchWord {i : Nat} {s : State}
    (hbpw : s.xf.bpw = 1 ∨ (s.xf.bpw = 2 ∧ s.params.scratchAddr.toNat % 2 = 0))
    (hlen : (i + 1) * s.xf.bpw ≤ s.params.scratchBytes) (htop : s.params.scratchAddr.toNat + (i + 1) * s.xf.bpw ≤ 2 ^ 32) :
    admitted s (wordAddr s.params.scratchAddr i s.xf.bpw) s.xf.bpw = true := by
  obtain ⟨hsize, hlow, hhigh⟩ := wordAddr_bounds hbpw hlen
  obtain ⟨-, -, hend⟩ := wordAddr_bounds hbpw (Nat.le_refl _)
  exact (admitted_iff _ _ s).2 ⟨hsize, hend.trans htop, .inr (.inr ⟨hlow, hhigh⟩)⟩

/-! ### The handler's step at each of its positions -/

section

variable {s : State}

theorem handlerStep_h1 (h : s.seqH = .h1) : handlerStep s = some (handlerLook s) := by
  simp only [handlerStep, h]

theorem handlerStep_h2 {v : Word} (h : s.seqH = .h2 v) : handlerStep s = some (handlerTake v s) := by
  simp only [handlerStep, h]

theorem handlerStep_h3 {d : Half} (h : s.seqH = .h3 d) : handlerStep s = handlerStore d s := by
  simp only [handlerStep, h]

theorem handlerStep_h4 (h : s.seqH = .h4) : handlerStep s = some (goH (.h5 s.regrec.int) (readInt .handler s)) := by
  simp only [handlerStep, h]

theorem handlerStep_h5 {t : IntRec} (h : s.seqH = .h5 t) :
    handlerStep s = some (goH .idle (writeInt .handler { t with ieRx := some false } s)) := by
  simp only [handlerStep, h]

/-- A run of the handler from the state its first step leaves. -/
theorem handlerSteps_succ {k : Nat} {t : State} (h : handlerStep s = some t) : handlerSteps (k + 1) s = handlerSteps k t := by
  simp only [handlerSteps, h, Option.bind_some]

theorem handlerArmed_eq_true_iff (v : Word) :
    handlerArmed v s = true ↔ flgRxint s.params v = true ∧ s.regrec.int.ieRx = some true := by
  simp only [handlerArmed, Bool.and_eq_true, beq_iff_eq]

theorem handlerArmed_eq_false_iff (v : Word) :
    handlerArmed v s = false ↔ flgRxint s.params v = false ∨ s.regrec.int.ieRx ≠ some true := by
  rw [← Bool.not_eq_true, handlerArmed_eq_true_iff, not_and_or, Bool.not_eq_true]

/-- Not armed: the handler returns. -/
theorem handlerTake_of_not_armed {v : Word} (h : flgRxint s.params v = false ∨ s.regrec.int.ieRx ≠ some true) :
    handlerTake v s = goH .idle s := by
  rw [handlerTake, if_pos ((handlerArmed_eq_false_iff v).2 h)]

theorem handlerTake_of_stray {v : Word} (harm : handlerArmed v s = true) (hmode : s.xf.mode ≠ .pioRxIrq) :
    handlerTake v s = raise .handler .strayReceive s := by
  rw [handlerTake, harm, if_neg (by decide), if_pos hmode]

theorem handlerTake_of_overflow {v : Word} (harm : handlerArmed v s = true) (hmode : s.xf.mode = .pioRxIrq)
    (hend : s.xf.rxEnd < s.xf.rxCur + s.xf.bpw) : handlerTake v s = raise .handler .rxCursorOverflow s := by
  rw [handlerTake, harm, if_neg (by decide), if_neg (not_not.2 hmode), if_pos hend]

theorem handlerTake_of_room {v : Word} (harm : handlerArmed v s = true) (hmode : s.xf.mode = .pioRxIrq)
    (hend : s.xf.rxCur + s.xf.bpw ≤ s.xf.rxEnd) :
    handlerTake v s = goH (.h3 (bufRxData s.params (nextWord s))) (readVolatile .handler .buf s) := by
  rw [handlerTake, harm, if_neg (by decide), if_neg (not_not.2 hmode), if_neg (Nat.not_lt.2 hend)]

theorem handlerStore_of_admitted {d : Half} (h : admitted s s.xf.rxCur s.xf.bpw = true) :
    handlerStore d s = some (goH .h4 { hostWrite .handler s.xf.rxCur s.xf.bpw d s with
      xf := { s.xf with rxCur := s.xf.rxCur + s.xf.bpw } }) := by
  rw [handlerStore, if_pos h]
  rfl

theorem handlerStore_of_not_admitted {d : Half} (h : admitted s s.xf.rxCur s.xf.bpw = false) : handlerStore d s = none := by
  rw [handlerStore, h, if_neg (by decide)]

/-- What the handler's two steps leave where it is not armed: the read of `FLG`, and its return. -/
theorem handlerSteps_return (h : s.seqH = .h1)
    (hoff : flgRxint s.params (wordAt 0 s.env) = false ∨ s.regrec.int.ieRx ≠ some true) :
    handlerSteps 2 s = some { s with
      seqH := .idle
      hist := s.hist ++ [⟨.handler, .rd .flg (.word (wordAt 0 s.env))⟩]
      env := dropWords 1 s.env } := by
  rw [handlerSteps_succ (handlerStep_h1 h), handlerSteps_succ (handlerStep_h2 rfl)]
  exact congrArg some (handlerTake_of_not_armed hoff)

/-- The handler's three steps from H3: the word stored at the cursor, the cursor advanced, `IE_RX` cleared. -/
theorem handlerSteps_store {d : Half} (h : s.seqH = .h3 d) (had : admitted s s.xf.rxCur s.xf.bpw = true) :
    handlerSteps 3 s = some { s with
      seqH := .idle
      mem := memWrite s.mem s.xf.rxCur s.xf.bpw d
      xf := { s.xf with rxCur := s.xf.rxCur + s.xf.bpw }
      regrec := { s.regrec with int := { s.regrec.int with ieRx := some false } }
      hist := s.hist ++ eventsBy .handler
        [.mwr s.xf.rxCur s.xf.bpw (lowBytes s.xf.bpw d), .rd .int (.int s.regrec.int),
         .wr .int (.int { s.regrec.int with ieRx := some false })] } := by
  rw [handlerSteps_succ ((handlerStep_h3 h).trans (handlerStore_of_admitted had)), handlerSteps_succ (handlerStep_h4 rfl),
    handlerSteps_succ (handlerStep_h5 rfl)]
  simp only [handlerSteps, goH, readInt, writeInt, hostWrite, record, eventsBy_cons, eventsBy_nil, List.append_assoc,
    List.cons_append, List.nil_append]

/-- The handler's five steps on an armed transfer with room for a word (60_exceptions.md R351). -/
theorem handlerSteps_take (h : s.seqH = .h1) (hint : flgRxint s.params (wordAt 0 s.env) = true)
    (hie : s.regrec.int.ieRx = some true) (hmode : s.xf.mode = .pioRxIrq) (hend : s.xf.rxCur + s.xf.bpw ≤ s.xf.rxEnd)
    (had : admitted s s.xf.rxCur s.xf.bpw = true) :
    handlerSteps 5 s = some { s with
      seqH := .idle
      mem := memWrite s.mem s.xf.rxCur s.xf.bpw (bufRxData s.params (wordAt 1 s.env))
      xf := { s.xf with rxCur := s.xf.rxCur + s.xf.bpw }
      regrec := { s.regrec with int := { s.regrec.int with ieRx := some false } }
      hist := s.hist ++ eventsBy .handler
        [.rd .flg (.word (wordAt 0 s.env)), .rd .buf (.word (wordAt 1 s.env)),
         .mwr s.xf.rxCur s.xf.bpw (lowBytes s.xf.bpw (bufRxData s.params (wordAt 1 s.env))),
         .rd .int (.int s.regrec.int), .wr .int (.int { s.regrec.int with ieRx := some false })]
      env := dropWords 2 s.env } := by
  have harm : handlerArmed (nextWord s) (handlerLook s) = true := (handlerArmed_eq_true_iff _).2 ⟨hint, hie⟩
  let u := goH (.h3 (bufRxData s.params (wordAt 1 s.env))) (readVolatile .handler .buf (handlerLook s))
  have htake : handlerStep (handlerLook s) = some u :=
    (handlerStep_h2 rfl).trans (congrArg some (handlerTake_of_room harm hmode hend))
  have hxf : u.xf = s.xf := by simp [u, handlerLook]
  have hadu : admitted u u.xf.rxCur u.xf.bpw = true := by
    rw [hxf, admitted_congr (s := s) (by simp [u, handlerLook]) hxf, had]
  rw [handlerSteps_succ (handlerStep_h1 h), handlerSteps_succ htake, handlerSteps_store rfl hadu]
  simp only [u, handlerLook, goH, readVolatile, record, dropWord, eventsBy_cons, eventsBy_nil, List.append_assoc,
    List.cons_append, List.nil_append, nextWord_eq, wordAt_succ, dropWords]

end

/-- Settles O47: the read of `FLG`, the return, the guards in their order, and the run of the five steps. -/
theorem handlerTakesOneWord : Obligations.HandlerTakesOneWord := by
  unfold Obligations.HandlerTakesOneWord
  intro s
  refine ⟨handlerStep_h1, fun v h hoff => ?_, handlerSteps_return, handlerSteps_take, fun b hrx hlow hhigh htop hsize => ?_,
    fun d h had => ?_, fun v h hint hie => ⟨fun hmode => ?_, fun hmode hend => ?_⟩⟩
  · rw [handlerStep_h2 h, handlerTake_of_not_armed hoff]
    rfl
  · exact (admitted_iff _ _ s).2 ⟨hsize, hhigh.trans htop, .inr (.inl ⟨b, hrx, hlow, hhigh⟩)⟩
  · rw [handlerStep_h3 h, handlerStore_of_not_admitted had]
  · rw [handlerStep_h2 h, handlerTake_of_stray ((handlerArmed_eq_true_iff v).2 ⟨hint, hie⟩) hmode]
  · rw [handlerStep_h2 h, handlerTake_of_overflow ((handlerArmed_eq_true_iff v).2 ⟨hint, hie⟩) hmode hend]

end Sys2Proof.Machine
end

section
/-!
SUPPORT and PROOF. The DMA engine's accesses to host memory and its mappings (44_dma.md R244, R245, R250; 20_memory.md R75),
and the obligations O34, O35 and O39.
-/

namespace Sys2Proof.Machine

open Sys2Proof

section

variable {cs : Cs} {tx rx : Option Word} {len : Nat} {bits hz : Option Nat} {s : State}

/-! ### Steps of the DMA engine that may not exist -/

theorem transfer_of_dmaStep_some {x : DmaSeq} {t : State} (h : s.seqQ = .dma x) (ht : dmaStep x s = some t) :
    exec (.transfer cs tx rx len bits hz) s = .next t := by
  simp only [exec, execTransfer, transferStep, h, ht, Option.getD_some]

theorem transfer_of_dmaStep_none {x : DmaSeq} (h : s.seqQ = .dma x) (hnone : dmaStep x s = none) :
    exec (.transfer cs tx rx len bits hz) s = .next s := by
  simp only [exec, execTransfer, transferStep, h, hnone, Option.getD_none]

theorem transfer_g15 {k : Nat} (h : s.seqQ = .dma (.g15 k))
    (had : admitted s (wordAddr s.params.scratchAddr k s.xf.bpw) s.xf.bpw = true) :
    exec (.transfer cs tx rx len bits hz) s = .next (goQ (.dma (if k < s.xf.count then .g15 (k + 1) else .g16))
      (hostWrite .queue (wordAddr s.params.scratchAddr k s.xf.bpw) s.xf.bpw s.params.scratchFill s)) :=
  transfer_of_dmaStep_some h (if_pos had)

/-- Q is stuck at a scratch word that is not admitted. -/
theorem transfer_g15_stuck {k : Nat} (h : s.seqQ = .dma (.g15 k))
    (had : admitted s (wordAddr s.params.scratchAddr k s.xf.bpw) s.xf.bpw = false) :
    exec (.transfer cs tx rx len bits hz) s = .next s :=
  transfer_of_dmaStep_none h (by simp only [dmaStep, dmaFill, had, Bool.false_eq_true, if_false])

/-! ### The scratch fill -/

/-- Host memory after `n` words `v` of `bpw` bytes from the address `base` on. -/
def fillWords (base bpw : Nat) (v : Half) : Nat → Memory → Memory
  | 0, m => m
  | n + 1, m => memWrite (fillWords base bpw v n m) (base + n * bpw) bpw v

/-- Q's position when `n` words of the scratch fill are written. -/
def fillPosition (count n : Nat) : DmaSeq := if n ≤ count then .g15 n else .g16

/-- `n` steps of the scratch fill: `n` words, and one event each. -/
theorem execs_scratchFill (h : s.seqQ = .dma (.g15 0)) {n : Nat} (hn : n ≤ s.xf.count + 1)
    (had : ∀ k, k ≤ s.xf.count → admitted s (wordAddr s.params.scratchAddr k s.xf.bpw) s.xf.bpw = true) :
    execs n (.transfer cs tx rx len bits hz) s = .next { s with
      seqQ := .dma (fillPosition s.xf.count n)
      mem := fillWords s.params.scratchAddr.toNat s.xf.bpw s.params.scratchFill n s.mem
      hist := s.hist ++ eventsBy .queue ((List.range n).map (fun k =>
        .mwr (s.params.scratchAddr.toNat + k * s.xf.bpw) s.xf.bpw (lowBytes s.xf.bpw s.params.scratchFill))) } := by
  induction n with
  | zero =>
    simp only [execs_zero, fillPosition, Nat.zero_le, if_true, ← h, fillWords, List.range_zero, List.map_nil, eventsBy_nil,
      List.append_nil]
  | succ n ih =>
    have hle : n ≤ s.xf.count := Nat.le_of_succ_le_succ hn
    rw [execs_add (ih (Nat.le_of_succ_le hn)), execs_succ (transfer_g15 (k := n) ?_ ?_)]
    · simp only [execs_zero, goQ, hostWrite, record, wordAddr, fillWords, fillPosition, List.range_succ, List.map_append,
        eventsBy_append, List.map_cons, List.map_nil, eventsBy_cons, eventsBy_nil, List.append_assoc, Nat.succ_le_iff]
    · simp only [fillPosition, hle, if_true]
    · exact (admitted_congr rfl rfl _ _).trans (had n hle)

section

variable {base bpw : Nat} {v : Half} {m : Memory}

theorem fillWords_wf (hbpw : bpw = 1 ∨ bpw = 2) {n : Nat} (htop : base + n * bpw ≤ 2 ^ 32) (hm : Memory.wf m = true) :
    Memory.wf (fillWords base bpw v n m) = true := by
  induction n with
  | zero => exact hm
  | succ n ih =>
    obtain rfl | rfl := hbpw <;> exact memWrite_wf v (ih (by omega)) (by decide) (by omega)

theorem memGet_fillWords_other (hbpw : bpw = 1 ∨ bpw = 2) {n x : Nat} (hx : x < base ∨ base + n * bpw ≤ x) :
    memGet (fillWords base bpw v n m) x = memGet m x := by
  induction n with
  | zero => rfl
  | succ n ih =>
    rw [Nat.succ_mul] at hx
    exact (memGet_memWrite_other _ v hbpw (by omega)).trans (ih (by omega))

/-- A word written reads back, cut to its size. -/
theorem memRead_memWrite_same {a : Nat} (hbpw : bpw = 1 ∨ bpw = 2) (hm : Memory.wf m = true) (ha : a < 2 ^ 32) :
    memRead (memWrite m a bpw v) a bpw = lowBytes bpw v := by
  obtain rfl | rfl := hbpw
  · exact memRead_memWrite_one a v hm
  · exact memRead_memWrite_two v hm ha

/-- A write leaves the words that share no byte with it. -/
theorem memRead_memWrite_disjoint {a b : Nat} (hbpw : bpw = 1 ∨ bpw = 2) (hab : b + bpw ≤ a) :
    memRead (memWrite m a bpw v) b bpw = memRead m b bpw := by
  unfold memRead
  split
  · rw [memGet_memWrite_other m v hbpw (.inl (by omega))]
  · rw [memGet_memWrite_other m v hbpw (.inl (by omega)), memGet_memWrite_other m v hbpw (.inl (by omega))]

/-- Every word of the fill reads as the fill value. -/
theorem memRead_fillWords (hbpw : bpw = 1 ∨ bpw = 2) {n k : Nat} (hk : k < n) (htop : base + n * bpw ≤ 2 ^ 32)
    (hm : Memory.wf m = true) : memRead (fillWords base bpw v n m) (base + k * bpw) bpw = lowBytes bpw v := by
  induction n with
  | zero => exact absurd hk (Nat.not_lt_zero k)
  | succ n ih =>
    have hpos : 0 < bpw := by omega
    have htop' : base + n * bpw < 2 ^ 32 := by rw [Nat.succ_mul] at htop; omega
    obtain hlt | rfl := Nat.lt_succ_iff_lt_or_eq.1 hk
    · have hdisj : base + k * bpw + bpw ≤ base + n * bpw := by
        rw [Nat.add_assoc, ← Nat.succ_mul]
        exact Nat.add_le_add_left (Nat.mul_le_mul_right bpw hlt) base
      exact (memRead_memWrite_disjoint hbpw hdisj).trans (ih hlt htop'.le)
    · exact memRead_memWrite_same hbpw (fillWords_wf hbpw htop'.le hm) htop'

end

end

/-- Settles O34, by induction on the words written; the fill's memory is read off `fillWords`. -/
theorem dmaScratchFill : Obligations.DmaScratchFill := by
  unfold Obligations.DmaScratchFill
  refine ⟨fun cs tx rx len bits hz s h hm hbpw heven hsize htop => ?_, fun cs tx rx len bits hz k s => transfer_g15_stuck⟩
  have had : ∀ k, k ≤ s.xf.count → admitted s (wordAddr s.params.scratchAddr k s.xf.bpw) s.xf.bpw = true := fun k hk =>
    have hword : (k + 1) * s.xf.bpw ≤ (s.xf.count + 1) * s.xf.bpw := Nat.mul_le_mul_right _ (Nat.succ_le_succ hk)
    admitted_scratchWord (hbpw.imp_right fun h2 => ⟨h2, heven⟩) (hword.trans hsize)
      ((Nat.add_le_add_left hword _).trans htop)
  refine ⟨_, execs_scratchFill h (Nat.le_refl _) had, ?_, fun k hk => ?_, fun x hx => ?_⟩
  · simp only [fillPosition, Nat.not_succ_le_self, if_false]
  · exact memRead_fillWords hbpw (Nat.lt_succ_of_le hk) htop hm
  · exact memGet_fillWords_other hbpw hx

section

variable {cs : Cs} {tx rx : Option Word} {len : Nat} {bits hz : Option Nat} {s : State}

/-! ### The transmit mapping and its channel (44_dma.md R244, R245) -/

theorem nextMap_of_maps_cons {x : Option Word} {r : List (Option Word)} (h : s.env.maps = x :: r) :
    nextMap s = x ∧ envDropMap s.env = { s.env with maps := r } := by
  simp only [nextMap, envDropMap, h, List.head?_cons, Option.getD_some, and_self]

theorem nextMap_of_maps_nil (h : s.env.maps = []) :
    nextMap s = Config.freeMap s.env.draws ∧ envDropMap s.env = { s.env with draws := s.env.draws + 1 } := by
  simp only [nextMap, envDropMap, h, List.head?_nil, Option.getD_none, and_self]

/-- The transmit mapping's source: the caller's buffer, or the scratch buffer with one extra word. -/
theorem dmaTxSource_eq (c : Params) (x : Xfer) :
    dmaTxSource c x = (if x.tx.isSome then x.tx.getD 0 else c.scratchAddr,
      if x.tx.isSome then x.count * x.bpw else (x.count + 1) * x.bpw) := by
  unfold dmaTxSource
  cases x.tx <;> rfl

/-- The step that maps the transmit buffer, `r` the mapping's answer. -/
theorem dmaMapTx_eq {r : Option Word} (h : nextMap s = r) :
    dmaMapTx s = { s with
      seqQ := r.elim (.exit (errWord .resMap)) (fun m => .dma (.g17 m))
      xf := { s.xf with txn := if s.xf.tx.isSome then s.xf.count * s.xf.bpw else (s.xf.count + 1) * s.xf.bpw }
      hist := s.hist ++ [⟨.queue, .mapping (if s.xf.tx.isSome then s.xf.tx.getD 0 else s.params.scratchAddr)
        (if s.xf.tx.isSome then s.xf.count * s.xf.bpw else (s.xf.count + 1) * s.xf.bpw) .tx r⟩]
      env := envDropMap s.env } := by
  simp only [dmaMapTx, mapBuffer, dropMap, record, goQ, dmaTxSource_eq]
  subst h
  cases hr : nextMap s <;> simp only [nextMap] at hr ⊢ <;> simp only [hr, Option.elim]

/-- `Exit(r)`: the port freed, the engine's flags and mode cleared (42_transfer.md R198). -/
theorem engineExit_eq (r : Word) (s : State) :
    engineExit r s = { s with
      portQ := { s.portQ with res := r, busy := false }
      seqQ := .idle
      inUse := false
      done := true
      xf := { s.xf with mode := .none }
      hist := s.hist ++ [⟨.queue, .res .queue r⟩] } := rfl

theorem dmaUnit_eq {b : Nat} {u : DmaUnit} (h : (b = 1 ∧ u = .u8) ∨ (b = 2 ∧ u = .u16) ∨ (b = 4 ∧ u = .u32)) :
    dmaUnit b = some u := by
  obtain ⟨rfl, rfl⟩ | ⟨rfl, rfl⟩ | ⟨rfl, rfl⟩ := h <;> rfl

/-- The step that programs the transmit channel, where the channel and the unit exist. -/
theorem transfer_g17 {m : Word} {ch : ChanId} {u : DmaUnit} (h : s.seqQ = .dma (.g17 m))
    (hch : (dmaOf s.xf.cs s).txCh = some ch) (hu : dmaUnit s.xf.bpw = some u) :
    exec (.transfer cs tx rx len bits hz) s =
      .next (dmaProgram ch m s.params.dmaTxAddr u (s.xf.txn / s.xf.bpw) (.dma (if s.xf.rx.isSome then .g18 else .g20))
        { s with xf := { s.xf with txd := m } }) :=
  transfer_of_dmaStep_some h (by simp only [dmaStep, dmaProgTx, hch, hu])

end

/-- Settles O35: the mapping's answer decides between `Exit(E_RES_MAP)` and the channel's programming. -/
theorem dmaTransmitProgrammed : Obligations.DmaTransmitProgrammed := by
  unfold Obligations.DmaTransmitProgrammed
  refine ⟨fun s => ⟨fun x r => nextMap_of_maps_cons, nextMap_of_maps_nil⟩, fun cs tx rx len bits hz s =>
    ⟨fun h => ⟨fun hnone => ?_, fun m hsome => ?_⟩, fun m ch u h hch hbpw => ⟨fun hact => ?_, fun hact => ?_⟩⟩⟩
  · rw [execs_succ (transfer_g16 cs tx rx len bits hz s h), dmaMapTx_eq hnone,
      execs_succ (transfer_exit cs tx rx len bits hz _ _ rfl), execs_zero, engineExit_eq]
    simp only [eventsBy_cons, eventsBy_nil, List.append_assoc, List.cons_append, List.nil_append]
    rfl
  · rw [transfer_g16 cs tx rx len bits hz s h, dmaMapTx_eq hsome]
    rfl
  · rw [transfer_g17 h hch (dmaUnit_eq hbpw), dmaProgram_active (by exact hact)]
  · rw [transfer_g17 h hch (dmaUnit_eq hbpw), dmaProgram_inactive (by exact hact)]
    rfl

/-! ### The bytes an unmapping draws (20_memory.md R75) -/

theorem byteAt_of_bytes_cons {e : Env} {x : Byte} {r : List Byte} (h : e.bytes = x :: r) :
    byteAt 0 e = x ∧ dropBytes 1 e = { e with bytes := r } := by
  simp only [byteAt, dropBytes, envDropByte, h, List.head?_cons, Option.getD_some, and_self]

theorem byteAt_of_bytes_nil {e : Env} (h : e.bytes = []) :
    byteAt 0 e = Config.freeByte e.draws ∧ dropBytes 1 e = { e with draws := e.draws + 1 } := by
  simp only [byteAt, dropBytes, envDropByte, h, List.head?_nil, Option.getD_none, and_self]

/-- `n` bytes are drawn, whether their addresses exist or not. -/
theorem scatter_env (n a : Nat) (m : Memory) (e : Env) : (scatter n a m e).2 = dropBytes n e := by
  induction n generalizing a m e with
  | zero => rfl
  | succ n ih => exact ih (a + 1) _ (envDropByte e)

/-- Each byte of the buffer below `2^32` holds the draw of its position. -/
theorem memGet_scatter {n a j : Nat} {m : Memory} (e : Env) (hm : Memory.wf m = true) (hj : j < n) (ha : a + j < 2 ^ 32) :
    memGet (scatter n a m e).1 (a + j) = byteAt j e := by
  induction n generalizing a j m e with
  | zero => exact absurd hj (Nat.not_lt_zero j)
  | succ n ih =>
    have hlt : a < 2 ^ 32 := by omega
    simp only [scatter, if_pos hlt]
    cases j with
    | zero =>
      exact (memGet_scatter_other n (a + 1) _ _ (.inl (Nat.lt_succ_self a))).trans (memGet_memSet_same a _ hm)
    | succ j =>
      have hnext : a + (j + 1) = a + 1 + j := by omega
      rw [hnext] at ha ⊢
      exact ih (envDropByte e) (memSet_wf _ hm hlt) (Nat.lt_of_succ_lt_succ hj) ha

/-- No address from `2^32` on, and none outside the buffer, is written. -/
theorem memGet_scatter_outside {n a x : Nat} (m : Memory) (e : Env) (hx : x < a ∨ a + n ≤ x ∨ 2 ^ 32 ≤ x) :
    memGet (scatter n a m e).1 x = memGet m x := by
  induction n generalizing a m e with
  | zero => rfl
  | succ n ih =>
    rw [scatter, ih _ _ (by omega)]
    split
    · exact memGet_memSet_other m _ (by omega)
    · rfl

/-- The step that unmaps the receive buffer. -/
theorem transfer_g27 {cs : Cs} {tx rx : Option Word} {len : Nat} {bits hz : Option Nat} {b : Word} {s : State}
    (h : s.seqQ = .dma .g27) (hrx : s.xf.rx = some b) :
    exec (.transfer cs tx rx len bits hz) s = .next (goQ .x1 (unmapRx s.xf.rxd s.xf.rxn b.toNat s)) :=
  transfer_of_dmaStep_some h (by simp only [dmaStep, dmaUnmapRx, hrx])

/-- Settles O39: the unmappings' sizes are those of the context, the bytes are those of `scatter`. -/
theorem dmaUnmaps : Obligations.DmaUnmaps := by
  unfold Obligations.DmaUnmaps
  refine ⟨fun e => ⟨fun x r => byteAt_of_bytes_cons, byteAt_of_bytes_nil, fun k => ⟨rfl, rfl⟩⟩,
    fun cs tx rx len bits hz s h => ⟨fun hnone => ?_, fun b hsome => ?_⟩⟩
  · rw [transfer_g26 cs tx rx len bits hz s h, hnone]
    rfl
  · refine ⟨_, ?_, rfl, scatter_env _ _ _ _, fun hm j => memGet_scatter s.env hm,
      fun x => memGet_scatter_outside s.mem s.env⟩
    rw [execs_succ (transfer_g26 cs tx rx len bits hz s h), hsome,
      execs_succ (transfer_g27 (b := b) (by rfl) (by exact hsome)), execs_zero]
    simp only [unmapRx, unmapTx, goQ, record, scatter_env, eventsBy_cons, eventsBy_nil, List.append_assoc, List.cons_append,
      List.nil_append]

end Sys2Proof.Machine
end

section
/-!
SUPPORT and PROOF. One word of the transmit-driven and of the polled receive loop (43_pio.md R213-R216), and the obligations O27
and O28.
-/

namespace Sys2Proof.Machine

open Sys2Proof

/-- A row of reads, the last of them apart. -/
theorem bufReads_snoc (f k : Nat) (e : Env) :
    bufReads f (k + 1) e = bufReads f k e ++ [.rd .buf (.word (wordAt (f + k) e))] := by
  simp only [bufReads, List.range_succ, List.map_append, List.map_cons, List.map_nil]

section

variable {cs : Cs} {tx rx : Option Word} {len : Nat} {bits hz : Option Nat} {s : State}

/-! ### Steps of the PIO engine that may not exist -/

theorem transfer_of_pioStep_some {x : PioSeq} {t : State} (h : s.seqQ = .pio x) (ht : pioStep x s = some t) :
    exec (.transfer cs tx rx len bits hz) s = .next t := by
  simp only [exec, execTransfer, transferStep, h, ht, Option.getD_some]

theorem transfer_of_pioStep_none {x : PioSeq} (h : s.seqQ = .pio x) (hnone : pioStep x s = none) :
    exec (.transfer cs tx rx len bits hz) s = .next s := by
  simp only [exec, execTransfer, transferStep, h, hnone, Option.getD_none]

/-- `TxWord(i)`: the transmit word read from host memory. -/
theorem transfer_l0 {i : Nat} {a : Word} (h : s.seqQ = .pio (.l0 i)) (hi : i < s.xf.count) (htx : s.xf.tx = some a)
    (had : admitted s (wordAddr a i s.xf.bpw) s.xf.bpw = true) :
    exec (.transfer cs tx rx len bits hz) s =
      .next (goQ (.pio (.l2 i (memRead s.mem (wordAddr a i s.xf.bpw) s.xf.bpw)))
        (hostRead .queue (wordAddr a i s.xf.bpw) s.xf.bpw s)) :=
  transfer_of_pioStep_some h (by simp only [pioStep, pioTxHead, hi, htx, had, if_true])

/-- Q is stuck at a transmit word that is not admitted. -/
theorem transfer_l0_stuck {i : Nat} {a : Word} (h : s.seqQ = .pio (.l0 i)) (hi : i < s.xf.count) (htx : s.xf.tx = some a)
    (had : admitted s (wordAddr a i s.xf.bpw) s.xf.bpw = false) : exec (.transfer cs tx rx len bits hz) s = .next s :=
  transfer_of_pioStep_none h (by simp only [pioStep, pioTxHead, hi, htx, had, if_true, Bool.false_eq_true, if_false])

/-- `RxStore(i, d)`, where the access is admitted. -/
theorem rxStore_of_admitted {i : Nat} {d : Half} {next : QSeq} {b : Word} (hrx : s.xf.rx = some b)
    (had : admitted s (wordAddr b i s.xf.bpw) s.xf.bpw = true) :
    rxStore i d next s = some (goQ next (hostWrite .queue (wordAddr b i s.xf.bpw) s.xf.bpw d s)) := by
  simp only [rxStore, hrx, had, if_true]

/-- `RxStore(i, d)` has no step where the access is not admitted. -/
theorem rxStore_of_not_admitted {i : Nat} {d : Half} {next : QSeq} {b : Word} (hrx : s.xf.rx = some b)
    (had : admitted s (wordAddr b i s.xf.bpw) s.xf.bpw = false) : rxStore i d next s = none := by
  simp only [rxStore, hrx, had, Bool.false_eq_true, if_false]

/-! ### The receive read and its store -/

/-- The state after the receive read and the store of the word read there, Q standing at `next`. -/
def afterReceive (next : QSeq) (i : Nat) (b : Word) (s : State) : State :=
  let d := bufRxData s.params (wordAt 0 s.env)
  { s with
    seqQ := next
    mem := memWrite s.mem (wordAddr b i s.xf.bpw) s.xf.bpw d
    hist := s.hist ++ eventsBy .queue
      [.rd .buf (.word (wordAt 0 s.env)), .mwr (wordAddr b i s.xf.bpw) s.xf.bpw (lowBytes s.xf.bpw d)]
    env := dropWords 1 s.env }

/-- The two steps of a receive: the read, and `RxStore` from the position the read leaves. -/
theorem execs_receive {i : Nat} {b : Word} {store : Half → PioSeq} {next : QSeq}
    (hread : exec (.transfer cs tx rx len bits hz) s =
      .next (goQ (.pio (store (bufRxData s.params (nextWord s)))) (readVolatile .queue .buf s)))
    (hstore : ∀ d u, pioStep (store d) u = rxStore i d next u) (hrx : s.xf.rx = some b)
    (had : admitted s (wordAddr b i s.xf.bpw) s.xf.bpw = true) :
    execs 2 (.transfer cs tx rx len bits hz) s = .next (afterReceive next i b s) := by
  let u := goQ (.pio (store (bufRxData s.params (nextWord s)))) (readVolatile .queue .buf s)
  have hxf : u.xf = s.xf := by simp only [u, goQ_xf, readVolatile_xf]
  have hadu : admitted u (wordAddr b i u.xf.bpw) u.xf.bpw = true := by
    rw [hxf, admitted_congr (s := s) (by simp only [u, goQ_params, readVolatile_params]) hxf, had]
  have hu : pioStep (store (bufRxData s.params (nextWord s))) u = _ :=
    (hstore _ u).trans (rxStore_of_admitted (hxf ▸ hrx) hadu)
  rw [execs_succ hread, execs_succ (transfer_of_pioStep_some rfl hu), execs_zero]
  simp only [u, afterReceive, goQ, readVolatile, hostWrite, record, dropWord, eventsBy_cons, eventsBy_nil, List.append_assoc,
    List.cons_append, List.nil_append, nextWord_eq, dropWords]

/-! ### The transmit-driven loop -/

/-- The events of a word sent: the host read, the reads of the first poll, the command word, the reads of the second. -/
def transmitEvents (a k m : Nat) (w : Half) (c : Word) (bpw : Nat) (e : Env) : List Ev :=
  [.mrd a bpw w] ++ bufReads 0 (k + 1) e ++ [.wr .dat (.word c)] ++ bufReads (k + 1) (m + 1) e

/-- The state after a word is sent and a received word is there, Q standing at the receive read or at the next word. -/
def afterTransmit (i k m : Nat) (a : Word) (s : State) : State :=
  let w := memRead s.mem (wordAddr a i s.xf.bpw) s.xf.bpw
  let c := withTxData s.params s.xf.cmd w
  { s with
    seqQ := .pio (if s.xf.rx.isSome then .l5 i else .l0 (i + 1))
    regrec := { s.regrec with dat := some c }
    hist := s.hist ++ eventsBy .queue (transmitEvents (wordAddr a i s.xf.bpw) k m w c s.xf.bpw s.env)
    env := dropWords (k + m + 2) s.env }

@[simp] theorem afterTransmit_params (i k m : Nat) (a : Word) (s : State) : (afterTransmit i k m a s).params = s.params := rfl
@[simp] theorem afterTransmit_xf (i k m : Nat) (a : Word) (s : State) : (afterTransmit i k m a s).xf = s.xf := rfl

theorem execs_transmit {i k m : Nat} {a : Word} (h : s.seqQ = .pio (.l0 i)) (hi : i < s.xf.count) (htx : s.xf.tx = some a)
    (had : admitted s (wordAddr a i s.xf.bpw) s.xf.bpw = true)
    (hfull : ∀ j, j < k → bufTxFull s.params (wordAt j s.env) = true) (hfree : bufTxFull s.params (wordAt k s.env) = false)
    (hempty : ∀ j, j < m → bufRxEmpty s.params (wordAt (k + 1 + j) s.env) = true)
    (hready : bufRxEmpty s.params (wordAt (k + 1 + m) s.env) = false) :
    execs (k + m + 4) (.transfer cs tx rx len bits hz) s = .next (afterTransmit i k m a s) := by
  let w := memRead s.mem (wordAddr a i s.xf.bpw) s.xf.bpw
  let s₁ := goQ (.pio (.l2 i w)) (hostRead .queue (wordAddr a i s.xf.bpw) s.xf.bpw s)
  let s₂ := afterPoll (.pio (.l3 i w)) (k + 1) s₁
  let s₃ := goQ (.pio (.l4 i)) (writeDat .queue (withTxData s.params s.xf.cmd w) s₂)
  have hsent : execs (k + 1 + (m + 2)) (.transfer cs tx rx len bits hz) s₁ = execs (m + 2) _ s₂ :=
    execs_poll (ready := fun c v => !bufTxFull c v) k (m + 2)
      (fun u hu _ _ => by
        rw [transfer_l2 cs tx rx len bits hz u i w hu]
        cases bufTxFull u.params (nextWord u) <;> rfl)
      rfl (fun j hj => congrArg not (hfull j hj)) (congrArg not hfree)
  have hword (j : Nat) : wordAt (k + 1 + j) s.env = wordAt j s₃.env := (wordAt_dropWords (k + 1) j s.env).symm
  have hcame : execs (m + 1 + 0) (.transfer cs tx rx len bits hz) s₃ =
      execs 0 _ (afterPoll (.pio (if s.xf.rx.isSome then .l5 i else .l0 (i + 1))) (m + 1) s₃) :=
    execs_poll (ready := fun c v => !bufRxEmpty c v) m 0
      (fun u hu _ hxf => by
        rw [transfer_l4 cs tx rx len bits hz u i hu, show u.xf = s.xf from hxf]
        cases bufRxEmpty u.params (nextWord u) <;> rfl)
      rfl (fun j hj => congrArg not (hword j ▸ hempty j hj)) (congrArg not (hword m ▸ hready))
  have hsum : k + m + 4 = k + 1 + (m + 2) + 1 := by omega
  rw [hsum, execs_succ (transfer_l0 h hi htx had), hsent, execs_succ (transfer_l3 cs tx rx len bits hz s₂ i w rfl)]
  refine hcame.trans ?_
  have hdrop : dropWords (m + 1) (dropWords (k + 1) s.env) = dropWords (k + m + 2) s.env := by
    rw [dropWords_dropWords]
    congr 1
    omega
  simp only [execs_zero, s₃, s₂, s₁, w, afterPoll, afterTransmit, transmitEvents, goQ, writeDat, hostRead, record, hdrop,
    bufReads_dropWords, eventsBy_append, eventsBy_cons, List.append_assoc, List.cons_append, List.nil_append, Nat.add_zero]

end

/-- Settles O27: the word sent as `execs_transmit` says, then the received word where there is a receive buffer. -/
theorem transmitWordExchanged : Obligations.TransmitWordExchanged := by
  unfold Obligations.TransmitWordExchanged
  refine ⟨fun cs tx rx len bits hz i k m a s h hi htx had hfull hfree hempty hready => ?_,
    fun i a s => admitted_txWord,
    fun cs tx rx len bits hz i a s => ⟨transfer_l0_stuck, fun d h hrx had => ?_⟩⟩
  · have hsent : execs (k + m + 4) (.transfer cs tx rx len bits hz) s = .next (afterTransmit i k m a s) :=
      execs_transmit h hi htx had hfull hfree hempty hready
    refine ⟨fun hnone => ?_, fun b hsome hadb => ?_⟩
    · rw [hsent, afterTransmit, hnone]
      rfl
    · have hpos : (afterTransmit i k m a s).seqQ = .pio (.l5 i) := by
        rw [afterTransmit, hsome]
        rfl
      have hrecv : execs 2 (.transfer cs tx rx len bits hz) (afterTransmit i k m a s) =
          .next (afterReceive (.pio (.l0 (i + 1))) i b (afterTransmit i k m a s)) :=
        execs_receive (store := PioSeq.l5s i) (transfer_l5 cs tx rx len bits hz _ i hpos) (fun d u => rfl) hsome
          ((admitted_congr (afterTransmit_params i k m a s) (afterTransmit_xf i k m a s) _ _).trans hadb)
      rw [show k + m + 6 = k + m + 4 + 2 from rfl, execs_add hsent, hrecv]
      simp only [afterReceive, afterTransmit, transmitEvents, withTxData, bufRxData, wordAt_dropWords,
        dropWords_dropWords, eventsBy_append, eventsBy_cons, eventsBy_nil, List.append_assoc, List.cons_append,
        List.nil_append, Nat.add_zero]
  · exact transfer_of_pioStep_none h (rxStore_of_not_admitted hrx had)

section

variable {cs : Cs} {tx rx : Option Word} {len : Nat} {bits hz : Option Nat} {s : State}

/-! ### The polled receive loop -/

/-- The one look at the transmit slot. -/
theorem transfer_r0_look {i : Nat} (h : s.seqQ = .pio (.r0 i)) (hi : i < s.xf.count) :
    exec (.transfer cs tx rx len bits hz) s =
      .next (afterPoll (.pio (if bufTxFull s.params (wordAt 0 s.env) then .r3 i else .r2 i)) 1 s) := by
  rw [transfer_r0 cs tx rx len bits hz s i h, pioPollHead, if_pos hi]
  rfl

/-- The state after a word is received at position R3, `m` reads of the poll missing. -/
def afterPolledReceive (i m : Nat) (b : Word) (s : State) : State :=
  let d := bufRxData s.params (wordAt (m + 1) s.env)
  { s with
    seqQ := .pio (.r0 (i + 1))
    mem := memWrite s.mem (wordAddr b i s.xf.bpw) s.xf.bpw d
    hist := s.hist ++ eventsBy .queue
      (bufReads 0 (m + 2) s.env ++ [.mwr (wordAddr b i s.xf.bpw) s.xf.bpw (lowBytes s.xf.bpw d)])
    env := dropWords (m + 2) s.env }

theorem execs_polledReceive {i m : Nat} {b : Word} (h : s.seqQ = .pio (.r3 i)) (hrx : s.xf.rx = some b)
    (had : admitted s (wordAddr b i s.xf.bpw) s.xf.bpw = true)
    (hempty : ∀ j, j < m → bufRxEmpty s.params (wordAt j s.env) = true)
    (hready : bufRxEmpty s.params (wordAt m s.env) = false) :
    execs (m + 3) (.transfer cs tx rx len bits hz) s = .next (afterPolledReceive i m b s) := by
  have hcame : execs (m + 1 + 2) (.transfer cs tx rx len bits hz) s = execs 2 _ (afterPoll (.pio (.r4 i)) (m + 1) s) :=
    execs_poll (ready := fun c v => !bufRxEmpty c v) m 2
      (fun u hu _ _ => by
        rw [transfer_r3 cs tx rx len bits hz u i hu]
        cases bufRxEmpty u.params (nextWord u) <;> rfl)
      h (fun j hj => congrArg not (hempty j hj)) (congrArg not hready)
  have hadu := (admitted_congr (u := afterPoll (.pio (.r4 i)) (m + 1) s) rfl rfl (wordAddr b i s.xf.bpw) s.xf.bpw).trans had
  rw [hcame, execs_receive (s := afterPoll (.pio (.r4 i)) (m + 1) s) (store := PioSeq.r5 i)
    (transfer_r4 cs tx rx len bits hz _ i rfl) (fun d u => rfl) hrx hadu]
  simp only [afterReceive, afterPoll, afterPolledReceive, bufReads_snoc 0 (m + 1), wordAt_dropWords, dropWords_dropWords,
    eventsBy_append, eventsBy_cons, eventsBy_nil, List.append_assoc, List.cons_append, List.nil_append, Nat.add_zero,
    Nat.zero_add]

/-- A polled receive after the `n` steps that look at the transmit slot: they read `BUF` once and change nothing the receive
looks at. -/
theorem execs_lookAndReceive {i m n : Nat} {b : Word} {u : State} (hlook : execs n (.transfer cs tx rx len bits hz) s = .next u)
    (hu : u.seqQ = .pio (.r3 i)) (hxf : u.xf = s.xf) (hparams : u.params = s.params) (henv : u.env = dropWords 1 s.env)
    (hrx : s.xf.rx = some b) (had : admitted s (wordAddr b i s.xf.bpw) s.xf.bpw = true)
    (hempty : ∀ j, j < m → bufRxEmpty s.params (wordAt (1 + j) s.env) = true)
    (hready : bufRxEmpty s.params (wordAt (1 + m) s.env) = false) :
    execs (n + (m + 3)) (.transfer cs tx rx len bits hz) s = .next (afterPolledReceive i m b u) := by
  refine (execs_add hlook).trans (execs_polledReceive hu (hxf ▸ hrx) ?_ (fun j hj => ?_) ?_)
  · rw [hxf, admitted_congr hparams hxf, had]
  · rw [hparams, henv, wordAt_dropWords, hempty j hj]
  · rw [hparams, henv, wordAt_dropWords, hready]

end

theorem wordAt_of_words_cons {e : Env} {w : Word} {r : List Word} (h : e.words = w :: r) :
    wordAt 0 e = w ∧ dropWords 1 e = { e with words := r } := by
  simp only [wordAt, dropWords, envDropWord, h, List.head?_cons, Option.getD_some, and_self]

theorem wordAt_of_words_nil {e : Env} (h : e.words = []) :
    wordAt 0 e = Config.freeWord e.draws ∧ dropWords 1 e = { e with draws := e.draws + 1 } := by
  simp only [wordAt, dropWords, envDropWord, h, List.head?_nil, Option.getD_none, and_self]

/-- Settles O28: one look, the held command word where the slot is free, then `execs_polledReceive`. -/
theorem receiveWordPolled : Obligations.ReceiveWordPolled := by
  unfold Obligations.ReceiveWordPolled
  have hread (m : Nat) : 1 + (m + 1) = m + 2 := Nat.add_comm 1 (m + 1)
  refine ⟨fun e => ⟨fun w r => wordAt_of_words_cons, wordAt_of_words_nil, fun k => ⟨rfl, rfl⟩⟩,
    fun cs tx rx len bits hz i m b s h hi hrx had hempty hready => ⟨fun hfree => ?_, fun hfull => ?_⟩,
    fun a n s => admitted_iff a n s, fun i b s => admitted_rxWord,
    fun cs tx rx len bits hz i d b s h hrx had => transfer_of_pioStep_none h (rxStore_of_not_admitted hrx had)⟩
  · have hlook : execs 2 (.transfer cs tx rx len bits hz) s =
        .next (goQ (.pio (.r3 i)) (writeDat .queue s.xf.cmd (afterPoll (.pio (.r2 i)) 1 s))) := by
      rw [execs_succ (transfer_r0_look h hi), hfree, execs_succ (transfer_r2 cs tx rx len bits hz _ i rfl)]
      rfl
    rw [show m + 5 = 2 + (m + 3) by omega, execs_lookAndReceive hlook rfl rfl rfl rfl hrx had hempty hready]
    simp only [afterPolledReceive, afterPoll, bufRxData, wordAt_dropWords, dropWords_dropWords, bufReads_dropWords,
      eventsBy_append, eventsBy_cons, eventsBy_nil, List.append_assoc, Nat.add_zero, hread, goQ, writeDat, record,
      List.cons_append, List.nil_append]

  · have hlook : execs 1 (.transfer cs tx rx len bits hz) s = .next (afterPoll (.pio (.r3 i)) 1 s) := by
      rw [execs_succ (transfer_r0_look h hi), hfull]
      rfl
    rw [show m + 4 = 1 + (m + 3) by omega, execs_lookAndReceive hlook rfl rfl rfl rfl hrx had hempty hready]
    simp only [afterPolledReceive, afterPoll, bufRxData, wordAt_dropWords, dropWords_dropWords, bufReads_dropWords,
      eventsBy_append, eventsBy_cons, eventsBy_nil, List.append_assoc, Nat.add_zero, hread]

end Sys2Proof.Machine
end

section
/-!
SUPPORT and PROOF. SETUP with the DMA strategy (40_divider_config.md R140, R150-R152; 44_dma.md R240), and the obligation O19.
-/

namespace Sys2Proof.Machine

open Sys2Proof

/-! ### The answer to `DmaAlloc` -/

theorem mem_heldInSetup (l : QSeq) (ch : ChanId) :
    ch ∈ heldInSetup l ↔ l = .sAllocTx ch ∨ l = .sFree ch ∨ ∃ r t, l = .s6 r t ∧ (ch = r ∨ ch = t) := by
  cases l with
  | sAllocTx | sFree | s6 => simp [heldInSetup, eq_comm]
  | _ => simp [heldInSetup]

theorem held_iff (s : State) (ch : ChanId) :
    held s ch = true ↔ (∃ c, (dmaOf c s).rxCh = some ch ∨ (dmaOf c s).txCh = some ch)
      ∨ s.seqQ = .sAllocTx ch ∨ s.seqQ = .sFree ch ∨ ∃ r t, s.seqQ = .s6 r t ∧ (ch = r ∨ ch = t) := by
  rw [← mem_heldInSetup, or_comm]
  simp only [held, Bool.or_eq_true, List.contains_iff_mem, List.any_eq_true, mem_allCs, true_and, beq_iff_eq, dmaOf]

/-- The answer given is the next answer, where that names a channel the engine does not hold. -/
theorem nextAlloc_eq_some_iff (s : State) (ch : ChanId) :
    nextAlloc s = some ch ↔ s.env.allocs.head?.getD (Config.freeAlloc s.env.draws) = some ch ∧ ¬ held s ch = true := by
  simp only [nextAlloc, Option.filter_eq_some_iff, Bool.not_eq_true', Bool.not_eq_true]

theorem nextAlloc_eq_none_of_held {s : State} {ch : ChanId}
    (h : s.env.allocs.head?.getD (Config.freeAlloc s.env.draws) = some ch) (hheld : held s ch = true) : nextAlloc s = none := by
  simp only [nextAlloc, h, Option.filter_some, hheld, Bool.not_true, Bool.false_eq_true, if_false]

theorem nextAlloc_eq_none_of_none {s : State} (h : s.env.allocs.head?.getD (Config.freeAlloc s.env.draws) = none) :
    nextAlloc s = none := by
  simp only [nextAlloc, h, Option.filter_none]

theorem envDropAlloc_of_allocs_cons {e : Env} {x : Option ChanId} {r : List (Option ChanId)} (h : e.allocs = x :: r) :
    envDropAlloc e = { e with allocs := r } := by
  simp only [envDropAlloc, h]

theorem envDropAlloc_of_allocs_nil {e : Env} (h : e.allocs = []) : envDropAlloc e = { e with draws := e.draws + 1 } := by
  simp only [envDropAlloc, h]

/-- The answer depends on the table, the SETUP in progress and the environment's data alone. -/
theorem nextAlloc_congr {s u : State} (hseq : u.seqQ = s.seqQ) (hdma : u.dma = s.dma) (henv : u.env = s.env) :
    nextAlloc u = nextAlloc s := by
  simp only [nextAlloc, held, hseq, hdma, henv]

/-! ### The steps of the allocation -/

/-- A first SETUP with the DMA strategy, its checks S1 to S4 passing: no receive channel is recorded yet. -/
structure AllocatingSetup (cs : Cs) (bits maxHz : Nat) (s : State) : Prop where
  pos : s.seqQ = .s1
  csOk : cs.toNat < s.params.numCs
  running : s.suspended = false
  hzLow : 600000 ≤ maxHz
  hzHigh : maxHz ≤ 50000000
  bitsLow : 2 ≤ bits
  bitsHigh : bits ≤ 16
  useDma : s.params.useDma = true
  unallocated : (dmaOf cs s).rxCh = none

/-- What an allocation leaves: the answer `r` taken and recorded, Q at `l`. -/
def afterAlloc (d : Dir) (cs : Cs) (r : Option ChanId) (l : QSeq) (s : State) : State :=
  { s with seqQ := l, hist := s.hist ++ [⟨.queue, .dalloc d cs r⟩], env := envDropAlloc s.env }

section

variable {cs : Cs} {mode : Byte} {bits maxHz : Nat} {s : State}

theorem AllocatingSetup.configOk (h : AllocatingSetup cs bits maxHz s) : configOk bits maxHz = true :=
  (configOk_iff bits maxHz).2 ⟨h.bitsLow, h.bitsHigh, h.hzLow, h.hzHigh⟩

/-- S5: the receive channel is asked for. -/
theorem setup_s1_alloc (h : AllocatingSetup cs bits maxHz s) :
    exec (.setup cs mode bits maxHz) s =
      .next (afterAlloc .rx cs (nextAlloc s) ((nextAlloc s).elim .sNoDma .sAllocTx) s) := by
  have hhz : ¬ (maxHz < Config.minHz ∨ Config.maxHz < maxHz) := by
    have := h.hzLow
    have := h.hzHigh
    simp only [Config.minHz, Config.maxHz]
    omega
  have hbits : ¬ (bits < 2 ∨ 16 < bits) := by
    have := h.bitsLow
    have := h.bitsHigh
    omega
  rw [setup_s1 cs mode bits maxHz s h.pos, setupFirst, if_neg (Nat.not_le.2 h.csOk), h.running, if_neg (by decide), if_neg hhz,
    if_neg hbits, if_pos ⟨h.useDma, h.unallocated⟩]
  cases hr : nextAlloc s <;> simp only [afterAlloc, dmaAlloc, dropAlloc, goQ, record, hr, Option.elim]

/-- A3: the transmit channel is asked for. -/
theorem setup_allocTx_alloc {r : ChanId} (h : s.seqQ = .sAllocTx r) :
    exec (.setup cs mode bits maxHz) s =
      .next (afterAlloc .tx cs (nextAlloc s) ((nextAlloc s).elim (.sFree r) (.s6 r)) s) := by
  rw [setup_allocTx cs mode bits maxHz s r h, setupAllocTx]
  cases hr : nextAlloc s <;> simp only [afterAlloc, dmaAlloc, dropAlloc, goQ, record, hr, Option.elim]

/-- The end of an allocation that failed: `finish(E_RES_DMA)`. -/
theorem setup_noDma_finish (h : s.seqQ = .sNoDma) :
    exec (.setup cs mode bits maxHz) s = .next { s with
      portQ := { s.portQ with res := 0xFFFFFFF6, busy := false }
      seqQ := .idle
      hist := s.hist ++ [⟨.queue, .res .queue 0xFFFFFFF6⟩] } :=
  setup_noDma cs mode bits maxHz s h

/-- The record SETUP leaves on a width and a frequency in range. -/
def setupSlave (cs : Cs) (mode : Byte) (bits maxHz : Nat) (s : State) : Slave :=
  { declBits := bits
    declHz := maxHz
    mode := mode
    bits := bits
    bpw := if bits ≤ 8 then 1 else 2
    hz := maxHz
    cmdBase := (slaveOf cs s).bind Slave.cmdBase }

/-- A5, S6 and the first read of `Configure`: both channels and the chip-select's record. -/
theorem setup_s6_record {r t : ChanId} (h : s.seqQ = .s6 r t) (hok : configOk bits maxHz = true) :
    exec (.setup cs mode bits maxHz) s = .next { s with
      seqQ := .s7 (.lenW (fmtRec cs s) bits maxHz)
      slave := csSet s.slave cs (some (setupSlave cs mode bits maxHz s))
      dma := csSet s.dma cs { dmaOf cs s with rxCh := some r, txCh := some t }
      hist := s.hist ++ [⟨.queue, .rd (.fmt cs) (.fmt (fmtRec cs s))⟩] } := by
  rw [setup_s6 cs mode bits maxHz s r t h, setupConfigure_ok hok]
  rfl

/-- The state with both channels and the chip-select's record, at the first write of `Configure`. -/
def afterRecord (cs : Cs) (mode : Byte) (bits maxHz : Nat) (r t : ChanId) (s : State) : State :=
  { s with
    seqQ := .s7 (.lenW (fmtRec cs s) bits maxHz)
    slave := csSet s.slave cs (some (setupSlave cs mode bits maxHz s))
    dma := csSet s.dma cs { dmaOf cs s with rxCh := some r, txCh := some t }
    hist := s.hist ++ [⟨.queue, .dalloc .tx cs (some t)⟩, ⟨.queue, .rd (.fmt cs) (.fmt (fmtRec cs s))⟩]
    env := envDropAlloc s.env }

/-- A3 with a channel given, then A5, S6 and the first read of `Configure`. -/
theorem execs_setupRecord {r t : ChanId} (h : s.seqQ = .sAllocTx r) (ht : nextAlloc s = some t)
    (hok : configOk bits maxHz = true) :
    execs 2 (.setup cs mode bits maxHz) s = .next (afterRecord cs mode bits maxHz r t s) := by
  have hask : exec (.setup cs mode bits maxHz) s = .next (afterAlloc .tx cs (some t) (.s6 r t) s) := by
    rw [setup_allocTx_alloc h, ht]
    rfl
  rw [execs_succ hask, execs_succ (setup_s6_record rfl hok)]
  simp only [execs_zero, afterAlloc, afterRecord, setupSlave, fmtRec, slaveOf, dmaOf, List.append_assoc, List.cons_append,
    List.nil_append]

/-! ### `Configure`, the format bits and the end of SETUP -/

/-- The six steps of SETUP from `Configure`'s first write on, `t` the record read before it. -/
theorem execs_setupFormat {t : FmtRec} {b z p : Nat} {floored : Bool} (h : s.seqQ = .s7 (.lenW t b z))
    (hp : prescale s.clkRate z = some (p, floored)) :
    let f1 := { t with charlen := some (BitVec.ofNat 5 b) }
    let f2 := { f1 with prescale := some (BitVec.ofNat 8 p) }
    let f3 := withFormatBits s.params mode f2
    execs 6 (.setup cs mode bits maxHz) s = .next { s with
      portQ := { s.portQ with res := 0, busy := false }
      seqQ := .idle
      regrec := { s.regrec with fmt := csSet s.regrec.fmt cs f3 }
      hist := s.hist ++ eventsBy .queue
        ([.wr (.fmt cs) (.fmt f1)] ++ (if floored then [.prescaleFloor cs] else [])
          ++ [.rd (.fmt cs) (.fmt f1), .wr (.fmt cs) (.fmt f2), .rd (.fmt cs) (.fmt f2), .wr (.fmt cs) (.fmt f3),
              .res .queue 0]) } := by
  intro f1 f2 f3
  let s₁ := goQ (.s7 (.divR z)) (writeFmt .queue cs f1 s)
  let s₂ := goQ (.s7 (.divW f1 p)) (readFmt .queue cs (noteFloor .queue cs floored s₁))
  have hfmt : fmtRec cs s₁ = f1 := by simp only [s₁, fmtRec, goQ_regrec, writeFmt_regrec, csGet_csSet_same]
  have hread : exec (.setup cs mode bits maxHz) s₁ = .next s₂ := by
    rw [setup_divR cs mode bits maxHz s₁ z rfl, dividerRead_some (by exact hp), hfmt]
  rw [execs_succ (setup_lenW cs mode bits maxHz s t b z h), execs_succ hread,
    execs_succ (setup_divW cs mode bits maxHz s₂ f1 p rfl), execs_succ (setup_s8 cs mode bits maxHz _ rfl),
    execs_succ (setup_s8w cs mode bits maxHz _ _ rfl), execs_succ (setup_s9 cs mode bits maxHz _ rfl), execs_zero]
  cases floored <;>
    simp [s₂, s₁, f3, f2, f1, setupFormatRead, dividerWrite, writeFmt, readFmt, noteFloor, fmtRec, goQ, record, finish,
      idlePort, setPort, portRegs, portAgent]

end

/-- Settles O19: the answer as `nextAlloc_eq_some_iff` says, then one clause per pair of answers. -/
theorem setupAllocatesAllOrNothing : Obligations.SetupAllocatesAllOrNothing := by
  unfold Obligations.SetupAllocatesAllOrNothing
  refine ⟨fun s => ?_, fun cs mode bits maxHz s => ⟨fun h1 h2 h3 h4 h5 h6 h7 h8 h9 => ?_, fun r h hnone => ?_,
    fun r t h hsome hok => ?_, fun r t p floored h1 h2 h3 h4 h5 h6 h7 h8 h9 hrx htx hp => ?_⟩⟩
  · simp only [← held_iff]
    exact ⟨fun ch h => (nextAlloc_eq_some_iff s ch).1 h,
      fun ch h => ⟨nextAlloc_eq_none_of_held h, fun hfree => (nextAlloc_eq_some_iff s ch).2 ⟨h, hfree⟩⟩,
      nextAlloc_eq_none_of_none, fun x r => envDropAlloc_of_allocs_cons, envDropAlloc_of_allocs_nil⟩
  · have hs : AllocatingSetup cs bits maxHz s := ⟨h1, h2, h3, h4, h5, h6, h7, h8, h9⟩
    have hask := setup_s1_alloc (mode := mode) hs
    refine ⟨fun r hr => ?_, fun hr => ?_⟩
    · rw [hask, hr]
      rfl
    · rw [hr] at hask
      rw [execs_succ hask, execs_succ (setup_noDma_finish (by rfl))]
      simp only [execs_zero, afterAlloc, List.append_assoc, List.cons_append, List.nil_append]
  · have hask : exec (.setup cs mode bits maxHz) s = .next (afterAlloc .tx cs none (.sFree r) s) := by
      rw [setup_allocTx_alloc h, hnone]
      rfl
    rw [execs_succ hask, execs_succ (setup_free cs mode bits maxHz _ r rfl), execs_succ (setup_noDma_finish (by rfl))]
    simp only [execs_zero, afterAlloc, dmaFree, goQ, record, List.append_assoc, List.cons_append, List.nil_append]
  · exact execs_setupRecord h hsome hok
  · have hs : AllocatingSetup cs bits maxHz s := ⟨h1, h2, h3, h4, h5, h6, h7, h8, h9⟩
    let u := afterAlloc .rx cs (some r) (.sAllocTx r) s
    have hask : exec (.setup cs mode bits maxHz) s = .next u := by
      rw [setup_s1_alloc hs, hrx]
      rfl
    have hgiven : nextAlloc u = some t := (nextAlloc_congr rfl rfl rfl).trans htx
    have hrec : execs 2 (.setup cs mode bits maxHz) u = .next (afterRecord cs mode bits maxHz r t u) :=
      execs_setupRecord rfl hgiven hs.configOk
    refine (execs_succ hask).trans ((execs_add (n := 6) hrec).trans ((execs_setupFormat rfl (by exact hp)).trans ?_))
    simp only [u, afterAlloc, afterRecord, setupSlave, withFormatBits, fmtRec, slaveOf, dmaOf, modeCpol, modeCpha, modeLsbFirst,
      eventsBy_append, eventsBy_cons, eventsBy_nil, List.append_assoc, List.cons_append, List.nil_append]

end Sys2Proof.Machine
end

section
/-!
SUPPORT and PROOF. No step of a command reads the history (20_memory.md R80), and the obligation O10: events put before the
history of a state stay before the history of the state after the step, and change nothing else.
-/

namespace Sys2Proof.Machine

open Sys2Proof

/-- The state with the events `h` before its history. -/
def withPast (h : List Event) (s : State) : State := { s with hist := h ++ s.hist }

section

variable (h : List Event) (s : State)

/-! ### What a step reads of a state with a longer past -/

@[simp] theorem withPast_params : (withPast h s).params = s.params := rfl
@[simp] theorem withPast_seqQ : (withPast h s).seqQ = s.seqQ := rfl
@[simp] theorem withPast_seqF : (withPast h s).seqF = s.seqF := rfl
@[simp] theorem withPast_seqP : (withPast h s).seqP = s.seqP := rfl
@[simp] theorem withPast_done : (withPast h s).done = s.done := rfl
@[simp] theorem withPast_suspended : (withPast h s).suspended = s.suspended := rfl
@[simp] theorem withPast_clkRate : (withPast h s).clkRate = s.clkRate := rfl
@[simp] theorem withPast_regrec : (withPast h s).regrec = s.regrec := rfl
@[simp] theorem withPast_xf : (withPast h s).xf = s.xf := rfl
@[simp] theorem withPast_mem : (withPast h s).mem = s.mem := rfl

@[simp] theorem nextWord_withPast : nextWord (withPast h s) = nextWord s := rfl
@[simp] theorem nextMap_withPast : nextMap (withPast h s) = nextMap s := rfl
@[simp] theorem nextAlloc_withPast : nextAlloc (withPast h s) = nextAlloc s := rfl
@[simp] theorem slaveOf_withPast (cs : Cs) : slaveOf cs (withPast h s) = slaveOf cs s := rfl
@[simp] theorem slaveMode_withPast (cs : Cs) : slaveMode cs (withPast h s) = slaveMode cs s := rfl
@[simp] theorem dmaOf_withPast (cs : Cs) : dmaOf cs (withPast h s) = dmaOf cs s := rfl
@[simp] theorem fmtRec_withPast (cs : Cs) : fmtRec cs (withPast h s) = fmtRec cs s := rfl
@[simp] theorem isActive_withPast (ch : ChanId) : isActive (withPast h s) ch = isActive s ch := rfl
@[simp] theorem admitted_withPast (a n : Nat) : admitted (withPast h s) a n = admitted s a n := rfl
@[simp] theorem nextConfigured_withPast (k : Nat) : nextConfigured k (withPast h s) = nextConfigured k s := rfl
@[simp] theorem transferFault_withPast (sl : Slave) (cs : Cs) (tx rx : Option Word) (len : Nat) :
    transferFault sl cs tx rx len (withPast h s) = transferFault sl cs tx rx len s := rfl

/-! ### The operations -/

@[simp] theorem goQ_withPast (l : QSeq) : goQ l (withPast h s) = withPast h (goQ l s) := rfl
@[simp] theorem goF_withPast (l : FSeq) : goF l (withPast h s) = withPast h (goF l s) := rfl
@[simp] theorem goP_withPast (l : PSeq) : goP l (withPast h s) = withPast h (goP l s) := rfl
@[simp] theorem setSlave_withPast (cs : Cs) (x : Option Slave) :
    setSlave cs x (withPast h s) = withPast h (setSlave cs x s) := rfl
@[simp] theorem setDma_withPast (cs : Cs) (x : DmaEntry) : setDma cs x (withPast h s) = withPast h (setDma cs x s) := rfl
@[simp] theorem engineEntry_withPast (m : XfMode) : engineEntry m (withPast h s) = withPast h (engineEntry m s) := rfl

/-- An event is put after the history, whatever was put before it. -/
@[simp] theorem record_withPast (a : Agent) (e : Ev) : record a e (withPast h s) = withPast h (record a e s) := by
  simp only [record, withPast, List.append_assoc]

@[simp] theorem portRegs_withPast (p : Port) : portRegs p (withPast h s) = portRegs p s := by cases p <;> rfl
@[simp] theorem setPort_withPast (p : Port) (r : PortRegs) : setPort p r (withPast h s) = withPast h (setPort p r s) := by
  cases p <;> rfl
@[simp] theorem idlePort_withPast (p : Port) : idlePort p (withPast h s) = withPast h (idlePort p s) := by cases p <;> rfl

@[simp] theorem finish_withPast (p : Port) (r : Word) : finish p r (withPast h s) = withPast h (finish p r s) := by
  simp only [finish, portRegs_withPast, setPort_withPast, idlePort_withPast, record_withPast]

@[simp] theorem engineExit_withPast (r : Word) : engineExit r (withPast h s) = withPast h (engineExit r s) :=
  finish_withPast h { s with inUse := false, done := true, xf := { s.xf with mode := .none } } .queue r

@[simp] theorem raise_withPast (a : Agent) (r : FaultReason) : raise a r (withPast h s) = withPast h (raise a r s) :=
  record_withPast h { s with fault := some r } a _

@[simp] theorem readGcr_withPast (a : Agent) : readGcr a (withPast h s) = withPast h (readGcr a s) := record_withPast h s a _
@[simp] theorem readInt_withPast (a : Agent) : readInt a (withPast h s) = withPast h (readInt a s) := record_withPast h s a _
@[simp] theorem readPc_withPast (a : Agent) : readPc a (withPast h s) = withPast h (readPc a s) := record_withPast h s a _
@[simp] theorem readDef_withPast (a : Agent) : readDef a (withPast h s) = withPast h (readDef a s) := record_withPast h s a _
@[simp] theorem readFmt_withPast (a : Agent) (cs : Cs) : readFmt a cs (withPast h s) = withPast h (readFmt a cs s) :=
  record_withPast h s a _
@[simp] theorem readVolatile_withPast (a : Agent) (r : Reg) :
    readVolatile a r (withPast h s) = withPast h (readVolatile a r s) := record_withPast h (dropWord s) a _

@[simp] theorem writeGcr_withPast (a : Agent) (v : GcrRec) : writeGcr a v (withPast h s) = withPast h (writeGcr a v s) :=
  record_withPast h { s with regrec := { s.regrec with gcr := v } } a _
@[simp] theorem writeInt_withPast (a : Agent) (v : IntRec) : writeInt a v (withPast h s) = withPast h (writeInt a v s) :=
  record_withPast h { s with regrec := { s.regrec with int := v } } a _
@[simp] theorem writePc_withPast (a : Agent) (v : PcRec) : writePc a v (withPast h s) = withPast h (writePc a v s) :=
  record_withPast h { s with regrec := { s.regrec with pc := v } } a _
@[simp] theorem writeDef_withPast (a : Agent) (v : DefRec) : writeDef a v (withPast h s) = withPast h (writeDef a v s) :=
  record_withPast h { s with regrec := { s.regrec with dflt := v } } a _
@[simp] theorem writeFmt_withPast (a : Agent) (cs : Cs) (v : FmtRec) :
    writeFmt a cs v (withPast h s) = withPast h (writeFmt a cs v s) :=
  record_withPast h { s with regrec := { s.regrec with fmt := csSet s.regrec.fmt cs v } } a _
@[simp] theorem writeDelay_withPast (a : Agent) (v : Word) : writeDelay a v (withPast h s) = withPast h (writeDelay a v s) :=
  record_withPast h { s with regrec := { s.regrec with delay := some v } } a _
@[simp] theorem writeDat_withPast (a : Agent) (v : Word) : writeDat a v (withPast h s) = withPast h (writeDat a v s) :=
  record_withPast h { s with regrec := { s.regrec with dat := some v } } a _

@[simp] theorem hostRead_withPast (a : Agent) (addr n : Nat) :
    hostRead a addr n (withPast h s) = withPast h (hostRead a addr n s) := record_withPast h s a _
@[simp] theorem hostWrite_withPast (a : Agent) (addr n : Nat) (v : Half) :
    hostWrite a addr n v (withPast h s) = withPast h (hostWrite a addr n v s) :=
  record_withPast h { s with mem := memWrite s.mem addr n v } a _

@[simp] theorem dmaAlloc_withPast (d : Dir) (cs : Cs) : dmaAlloc d cs (withPast h s) = withPast h (dmaAlloc d cs s) :=
  record_withPast h (dropAlloc s) .queue _
@[simp] theorem dmaFree_withPast (ch : ChanId) : dmaFree ch (withPast h s) = withPast h (dmaFree ch s) :=
  record_withPast h s .queue _
@[simp] theorem dmaStart_withPast (ch : ChanId) : dmaStart ch (withPast h s) = withPast h (dmaStart ch s) :=
  record_withPast h { s with active := insertChan ch s.active } .queue _
@[simp] theorem mapBuffer_withPast (a : Word) (n : Nat) (d : Dir) :
    mapBuffer a n d (withPast h s) = withPast h (mapBuffer a n d s) := record_withPast h (dropMap s) .queue _
@[simp] theorem unmapTx_withPast (dev : Word) (n : Nat) : unmapTx dev n (withPast h s) = withPast h (unmapTx dev n s) :=
  record_withPast h s .queue _
@[simp] theorem unmapRx_withPast (dev : Word) (n a : Nat) : unmapRx dev n a (withPast h s) = withPast h (unmapRx dev n a s) :=
  record_withPast h { s with mem := (scatter n a s.mem s.env).1, env := (scatter n a s.mem s.env).2 } .queue _
@[simp] theorem clockGate_withPast (on : Bool) : clockGate on (withPast h s) = withPast h (clockGate on s) :=
  record_withPast h { s with clkOn := on } .power _

@[simp] theorem dmaProgram_withPast (ch : ChanId) (src dst : Word) (u : DmaUnit) (n : Nat) (next : QSeq) :
    dmaProgram ch src dst u n next (withPast h s) = withPast h (dmaProgram ch src dst u n next s) := by
  unfold dmaProgram
  rw [isActive_withPast]
  split <;> simp

/-- A step that moves Q after an operation that does not read the past. -/
theorem map_goQ_withPast {u v : State} (l : QSeq) (huv : u = withPast h v) :
    some (goQ l u) = (some (goQ l v)).map (withPast h) := congrArg (fun u => some (goQ l u)) huv

/-- A wait of Q: it passes or has no step, whatever the past. -/
theorem map_ite_withPast (b : Bool) (l : QSeq) :
    (if b then some (goQ l (withPast h s)) else none) = (if b then some (goQ l s) else none).map (withPast h) := by
  cases b <;> rfl

/-! ### The divider and `Configure` -/

@[simp] theorem noteFloor_withPast (a : Agent) (cs : Cs) (floored : Bool) :
    noteFloor a cs floored (withPast h s) = withPast h (noteFloor a cs floored s) := by
  cases floored
  · rfl
  · exact record_withPast h s a _

@[simp] theorem dividerWrite_withPast (a : Agent) (cs : Cs) (t : FmtRec) (p : Nat) :
    dividerWrite a cs t p (withPast h s) = withPast h (dividerWrite a cs t p s) := writeFmt_withPast h s a cs _

theorem dividerRead_withPast (a : Agent) (cs : Cs) (hz : Nat) {k : FmtRec → Nat → State → State}
    (hk : ∀ t p u, k t p (withPast h u) = withPast h (k t p u)) :
    dividerRead a cs hz k (withPast h s) = withPast h (dividerRead a cs hz k s) := by
  unfold dividerRead
  rw [withPast_clkRate]
  split
  · exact raise_withPast h s a _
  · rw [noteFloor_withPast, readFmt_withPast, fmtRec_withPast, hk]

theorem configureStart_withPast (cs : Cs) (bitsO hzO : Option Nat) (wrap : CfgSeq → QSeq) :
    configureStart cs bitsO hzO wrap (withPast h s) = (configureStart cs bitsO hzO wrap s).map (withPast h) := by
  unfold configureStart
  rw [slaveOf_withPast]
  split
  · rfl
  · split <;> simp

theorem configureStep_withPast (cs : Cs) (c : CfgSeq) (wrap : CfgSeq → QSeq) (next : QSeq) :
    configureStep cs c wrap next (withPast h s) = withPast h (configureStep cs c wrap next s) := by
  cases c with
  | lenW t bits hz => simp [configureStep]
  | divR hz => exact dividerRead_withPast h s .queue cs hz fun t p u => goQ_withPast h u (wrap (.divW t p))
  | divW t p => simp [configureStep]

theorem modeStep_withPast (cs : Cs) (m : ModeSeq) (wrap : ModeSeq → QSeq) (next : QSeq) :
    modeStep cs m wrap next (withPast h s) = withPast h (modeStep cs m wrap next s) := by
  cases m <;> simp [modeStep]

/-! ### The commands: a step from a state with a longer past -/

theorem setupFormatRead_withPast (cs : Cs) : setupFormatRead cs (withPast h s) = withPast h (setupFormatRead cs s) := by
  simp only [setupFormatRead, fmtRec_withPast, readFmt_withPast, goQ_withPast]

theorem setupConfigure_withPast (cs : Cs) (mode : Byte) (bits maxHz : Nat) :
    setupConfigure cs mode bits maxHz (withPast h s) = withPast h (setupConfigure cs mode bits maxHz s) := by
  simp only [setupConfigure, slaveOf_withPast, setSlave_withPast, configureStart_withPast, setupFormatRead_withPast,
    Option.getD_map]

theorem setupFirst_withPast (cs : Cs) (mode : Byte) (bits maxHz : Nat) :
    setupFirst cs mode bits maxHz (withPast h s) = withPast h (setupFirst cs mode bits maxHz s) := by
  simp only [setupFirst, withPast_params, withPast_suspended, dmaOf_withPast, nextAlloc_withPast, finish_withPast,
    raise_withPast, dmaAlloc_withPast, goQ_withPast, setupConfigure_withPast, apply_ite (withPast h)]
  cases nextAlloc s <;> rfl

theorem setupAllocTx_withPast (cs : Cs) (r : ChanId) :
    setupAllocTx cs r (withPast h s) = withPast h (setupAllocTx cs r s) := by
  unfold setupAllocTx
  rw [nextAlloc_withPast]
  split <;> simp

theorem setupStep_withPast (cs : Cs) (mode : Byte) (bits maxHz : Nat) :
    setupStep cs mode bits maxHz (withPast h s) = (setupStep cs mode bits maxHz s).map (withPast h) := by
  unfold setupStep
  rw [withPast_seqQ]
  cases s.seqQ with
  | s1 => exact congrArg some (setupFirst_withPast h s cs mode bits maxHz)
  | sAllocTx r => exact congrArg some (setupAllocTx_withPast h s cs r)
  | s6 r t => exact congrArg some (setupConfigure_withPast h (setupChannels cs r t s) cs mode bits maxHz)
  | s7 c => exact congrArg some (configureStep_withPast h s cs c .s7 .s8)
  | s8 => exact congrArg some (setupFormatRead_withPast h s cs)
  | _ => simp

theorem rxStore_withPast (i : Nat) (d : Half) (next : QSeq) :
    rxStore i d next (withPast h s) = (rxStore i d next s).map (withPast h) := by
  unfold rxStore
  rw [withPast_xf]
  split
  · rfl
  · rw [admitted_withPast]
    split <;> simp

theorem statusRead_withPast : statusRead (withPast h s) = withPast h (statusRead s) := by
  simp only [statusRead, nextWord_withPast, readVolatile_withPast, goQ_withPast]

theorem pioTxHead_withPast (i : Nat) : pioTxHead i (withPast h s) = (pioTxHead i s).map (withPast h) := by
  unfold pioTxHead
  rw [withPast_xf]
  split
  · split
    · rfl
    · rw [admitted_withPast]
      split <;> simp
  · simp [statusRead_withPast]

theorem pioPollHead_withPast (i : Nat) : pioPollHead i (withPast h s) = withPast h (pioPollHead i s) := by
  unfold pioPollHead
  rw [withPast_xf]
  split
  · exact congrArg (goQ _) (readVolatile_withPast h s .queue .buf)
  · exact statusRead_withPast h s

theorem pioIrqHead_withPast (i : Nat) : pioIrqHead i (withPast h s) = withPast h (pioIrqHead i s) := by
  unfold pioIrqHead
  rw [withPast_xf]
  split <;> simp

theorem pioStep_withPast (x : PioSeq) : pioStep x (withPast h s) = (pioStep x s).map (withPast h) := by
  cases x with
  | mode m => simp [pioStep, modeStep_withPast]
  | l0 i => exact pioTxHead_withPast h s i
  | l5s i d => exact rxStore_withPast h s i d _
  | r0 i => exact congrArg some (pioPollHead_withPast h s i)
  | r5 i d => exact rxStore_withPast h s i d _
  | i0 i => exact congrArg some (pioIrqHead_withPast h s i)
  | p9 | l2 | l4 | r3 => exact map_goQ_withPast h _ (readVolatile_withPast h s .queue .buf)
  | i4 => exact map_goQ_withPast h _ (readInt_withPast h s .queue)
  | _ => simp [pioStep]

theorem dmaModeRead_withPast : dmaModeRead (withPast h s) = withPast h (dmaModeRead s) := by
  unfold dmaModeRead
  rw [withPast_xf]
  split
  · exact engineExit_withPast h s _
  · exact modeStep_withPast h s _ _ _ _

theorem dmaFill_withPast (k : Nat) : dmaFill k (withPast h s) = (dmaFill k s).map (withPast h) := by
  unfold dmaFill
  rw [withPast_xf, withPast_params, admitted_withPast]
  split <;> simp

theorem dmaMapTx_withPast : dmaMapTx (withPast h s) = withPast h (dmaMapTx s) :=
  congrArg (goQ _) (mapBuffer_withPast h { s with xf := { s.xf with txn := (dmaTxSource s.params s.xf).2 } } _ _ _)

theorem dmaProgTx_withPast (m : Word) : dmaProgTx m (withPast h s) = (dmaProgTx m s).map (withPast h) := by
  unfold dmaProgTx
  rw [withPast_xf, dmaOf_withPast]
  split
  · exact congrArg some (dmaProgram_withPast h { s with xf := { s.xf with txd := m } } _ _ _ _ _ _)
  · rfl

theorem dmaMapRx_withPast : dmaMapRx (withPast h s) = (dmaMapRx s).map (withPast h) := by
  unfold dmaMapRx
  rw [withPast_xf]
  split <;> simp

theorem dmaProgRx_withPast (r : Word) : dmaProgRx r (withPast h s) = (dmaProgRx r s).map (withPast h) := by
  unfold dmaProgRx
  rw [withPast_xf, dmaOf_withPast]
  split
  · exact congrArg some
      (dmaProgram_withPast h { s with xf := { s.xf with rxd := r, rxn := s.xf.count * s.xf.bpw } } _ _ _ _ _ _)
  · rfl

theorem dmaStartTx_withPast : dmaStartTx (withPast h s) = (dmaStartTx s).map (withPast h) := by
  unfold dmaStartTx
  rw [withPast_xf, dmaOf_withPast]
  split <;> simp

theorem dmaStartRx_withPast : dmaStartRx (withPast h s) = (dmaStartRx s).map (withPast h) := by
  unfold dmaStartRx
  rw [withPast_xf, dmaOf_withPast]
  split <;> simp

theorem dmaUnmapRx_withPast : dmaUnmapRx (withPast h s) = (dmaUnmapRx s).map (withPast h) := by
  unfold dmaUnmapRx
  rw [withPast_xf]
  split <;> simp

theorem dmaStep_withPast (x : DmaSeq) : dmaStep x (withPast h s) = (dmaStep x s).map (withPast h) := by
  cases x with
  | mode m =>
    cases m with
    | m1 => exact congrArg some (dmaModeRead_withPast h s)
    | _ => exact congrArg some (modeStep_withPast h s _ _ _ _)
  | g15 k => exact dmaFill_withPast h s k
  | g16 => exact congrArg some (dmaMapTx_withPast h s)
  | g17 m => exact dmaProgTx_withPast h s m
  | g18 => exact dmaMapRx_withPast h s
  | g19 r => exact dmaProgRx_withPast h s r
  | g20 => exact dmaStartTx_withPast h s
  | g21 => exact dmaStartRx_withPast h s
  | g13 => exact map_goQ_withPast h _ (readVolatile_withPast h s .queue .buf)
  | g24 => exact map_ite_withPast h s _ _
  | g25 => exact map_ite_withPast h s _ _
  | g26 => exact map_goQ_withPast h _ (unmapTx_withPast h s _ _)
  | g27 => exact dmaUnmapRx_withPast h s
  | _ => simp [dmaStep]

theorem transferDispatch_withPast (cs : Cs) : transferDispatch cs (withPast h s) = withPast h (transferDispatch cs s) := by
  unfold transferDispatch
  rw [withPast_params]
  split
  · simp
  · exact modeStep_withPast h s _ _ _ _

theorem transferEnter_withPast (cs : Cs) (tx rx : Option Word) (len : Nat) :
    transferEnter cs tx rx len (withPast h s) = withPast h (transferEnter cs tx rx len s) := by
  unfold transferEnter
  rw [slaveOf_withPast]
  split
  · simp
  · rw [transferFault_withPast]
    split
    · simp
    · exact transferDispatch_withPast h (transferContext _ cs tx rx len s) cs

theorem transferFirst_withPast (cs : Cs) (tx rx : Option Word) (len : Nat) (bits hz : Option Nat) :
    transferFirst cs tx rx len bits hz (withPast h s) = withPast h (transferFirst cs tx rx len bits hz s) := by
  simp only [transferFirst, withPast_params, withPast_suspended, slaveOf_withPast, finish_withPast, raise_withPast,
    configureStart_withPast, Option.getD_map, transferEnter_withPast, apply_ite (withPast h)]

theorem transferStep_withPast (cs : Cs) (tx rx : Option Word) (len : Nat) (bits hz : Option Nat) :
    transferStep cs tx rx len bits hz (withPast h s) = (transferStep cs tx rx len bits hz s).map (withPast h) := by
  unfold transferStep
  rw [withPast_seqQ]
  cases s.seqQ with
  | t1 => exact congrArg some (transferFirst_withPast h s cs tx rx len bits hz)
  | t6 c => exact congrArg some (configureStep_withPast h s cs c .t6 .t7)
  | t7 => exact congrArg some (transferEnter_withPast h s cs tx rx len)
  | pio x => exact pioStep_withPast h s x
  | dma x => exact dmaStep_withPast h s x
  | x1 => exact congrArg some (statusRead_withPast h s)
  | _ => simp

theorem cleanupFirst_withPast (cs : Cs) : cleanupFirst cs (withPast h s) = withPast h (cleanupFirst cs s) := by
  unfold cleanupFirst
  rw [withPast_params, dmaOf_withPast]
  split
  · simp
  · split
    · rw [isActive_withPast, isActive_withPast]
      split <;> simp
    · simp

theorem cleanupStep_withPast (cs : Cs) : cleanupStep cs (withPast h s) = (cleanupStep cs s).map (withPast h) := by
  unfold cleanupStep
  rw [withPast_seqQ]
  cases s.seqQ with
  | c1 => exact congrArg some (cleanupFirst_withPast h s cs)
  | c3 => simp [cleanupLast]
  | _ => simp

theorem chipselectFirst_withPast (cs : Cs) (act : Bool) :
    chipselectFirst cs act (withPast h s) = withPast h (chipselectFirst cs act s) := by
  simp only [chipselectFirst, withPast_params, withPast_suspended, withPast_regrec, finish_withPast, raise_withPast,
    readDef_withPast, goQ_withPast, apply_ite (withPast h)]

theorem chipselectStep_withPast (cs : Cs) (act : Bool) :
    chipselectStep cs act (withPast h s) = (chipselectStep cs act s).map (withPast h) := by
  unfold chipselectStep
  rw [withPast_seqQ]
  cases s.seqQ with
  | cs1 => exact congrArg some (chipselectFirst_withPast h s cs act)
  | d4 => exact map_goQ_withPast h _ (readVolatile_withPast h s .queue .buf)
  | _ => simp

theorem freqPreStep_withPast : freqPreStep (withPast h s) = (freqPreStep s).map (withPast h) := by
  unfold freqPreStep
  rw [withPast_seqF, withPast_done]
  cases s.seqF with
  | fp1 => cases s.done <;> rfl
  | _ => simp

theorem freqPostFrom_withPast (k : Nat) : freqPostFrom k (withPast h s) = withPast h (freqPostFrom k s) := by
  unfold freqPostFrom
  rw [nextConfigured_withPast]
  split
  · simp
  · exact dividerRead_withPast h s .freq _ _ fun t p u => goF_withPast h u _

theorem freqPostStep_withPast (newClk : Nat) :
    freqPostStep newClk (withPast h s) = (freqPostStep newClk s).map (withPast h) := by
  unfold freqPostStep
  rw [withPast_seqF]
  cases s.seqF with
  | fq1 => exact congrArg some (freqPostFrom_withPast h { s with seqF := .fq1, clkRate := newClk } 0)
  | fqNext k => exact congrArg some (freqPostFrom_withPast h s k)
  | _ => simp

theorem suspendStep_withPast : suspendStep (withPast h s) = (suspendStep s).map (withPast h) := by
  unfold suspendStep
  rw [withPast_seqP, withPast_done]
  cases s.seqP with
  | sp1 => cases s.done <;> rfl
  | sp5 => exact congrArg some (finish_withPast h { s with suspended := true } .power 0)
  | _ => simp

theorem resumeStep_withPast : resumeStep (withPast h s) = (resumeStep s).map (withPast h) := by
  unfold resumeStep
  rw [withPast_seqP]
  cases s.seqP with
  | rs4 => exact congrArg some (finish_withPast h { s with suspended := false } .power 0)
  | _ => simp

end

/-- A command's step from a state with a longer past is the step from the state, with that past. -/
theorem exec_withPast {i : Instr} {s t : State} (h : List Event) (ht : exec i s = .next t) :
    exec i (withPast h s) = .next (withPast h t) := by
  have hstep {f : State → Option State} (hf : f (withPast h s) = (f s).map (withPast h))
      (hi : exec i s = .next ((f s).getD s)) :
      Host.Outcome.next (φ := Fault) (ρ := Refusal) ((f (withPast h s)).getD (withPast h s)) = .next (withPast h t) := by
    rw [hf, Option.getD_map, Host.Outcome.next.inj (hi.symm.trans ht)]
  cases i with
  | setup cs mode bits maxHz => exact hstep (setupStep_withPast h s cs mode bits maxHz) rfl
  | transfer cs tx rx len bits hz => exact hstep (transferStep_withPast h s cs tx rx len bits hz) rfl
  | cleanup cs => exact hstep (cleanupStep_withPast h s cs) rfl
  | chipselect cs act => exact hstep (chipselectStep_withPast h s cs act) rfl
  | freqPre => exact hstep (freqPreStep_withPast h s) rfl
  | freqPost newClk => exact hstep (freqPostStep_withPast h s newClk) rfl
  | suspend => exact hstep (suspendStep_withPast h s) rfl
  | resume => exact hstep (resumeStep_withPast h s) rfl

/-- A state with the history `h` is the state without a history, with the past `h`. -/
theorem withPast_of_empty (h : List Event) (s : State) : withPast h { s with hist := [] } = { s with hist := h } := by
  simp only [withPast, List.append_nil]

/-- Settles O10: the events added are the history of the step from the state without a history. -/
theorem historyIsReadForNoDecision : Obligations.HistoryIsReadForNoDecision := by
  unfold Obligations.HistoryIsReadForNoDecision
  intro i s
  obtain ⟨t, ht⟩ := exec_next i { s with hist := [] }
  have hany (h : List Event) : exec i { s with hist := h } = .next (withPast h t) := by
    rw [← withPast_of_empty]
    exact exec_withPast h ht
  exact ⟨withPast s.hist t, t.hist, hany s.hist, rfl, hany⟩

end Sys2Proof.Machine
end

section
/-!
SUPPORT and PROOF. The command word by its fields (30_encoding.md R91-R93): every word is its four fields, a row of the table
fixes some of them, and an encoded word has the fields it was made of; and the obligations O1, O2 and O3.
-/

namespace Sys2Proof

/-! ### The fields of a command word -/

/-- The field `FL = CMD[31:16]` (30_encoding.md R91). -/
def flField (cmd : Word) : BitVec 16 := cmd.extractLsb' 16 16

/-- The reserved bits `CMD[15:11]` between `FL` and `CS` (30_encoding.md R93). -/
def midField (cmd : Word) : BitVec 5 := cmd.extractLsb' 11 5

/-- A command word is its fields, in the order of 30_encoding.md R91. -/
theorem append_fields (cmd : Word) : flField cmd ++ midField cmd ++ csField cmd ++ opField cmd = cmd := by
  simp only [flField, midField, csField, opField]
  rw [BitVec.extractLsb'_append_extractLsb'_eq_extractLsb' (by decide),
    BitVec.extractLsb'_append_extractLsb'_eq_extractLsb' (by decide),
    BitVec.extractLsb'_append_extractLsb'_eq_extractLsb' (by decide)]
  exact BitVec.extractLsb'_eq_self

theorem append_eq_append_iff {m n : Nat} {x x' : BitVec m} {y y' : BitVec n} : x ++ y = x' ++ y' ↔ x = x' ∧ y = y' := by
  constructor
  · intro h
    constructor
    · simpa only [BitVec.extractLsb'_append_eq_left] using congrArg (BitVec.extractLsb' n m) h
    · simpa only [BitVec.extractLsb'_append_eq_right] using congrArg (BitVec.extractLsb' 0 n) h
  · rintro ⟨rfl, rfl⟩
    rfl

/-- The fields of a command word are the parts it is composed of. -/
theorem fields_cmdWord (fl : BitVec 16) (cs : Cs) (o : Op) :
    flField (cmdWord fl cs o) = fl ∧ csField (cmdWord fl cs o) = cs ∧ opField (cmdWord fl cs o) = o.code := by
  have h := append_fields (cmdWord fl cs o)
  conv_rhs at h => rw [cmdWord]
  rw [append_eq_append_iff, append_eq_append_iff, append_eq_append_iff] at h
  obtain ⟨⟨⟨hfl, -⟩, hcs⟩, hop⟩ := h
  exact ⟨hfl, hcs, hop⟩

/-- A word without a bit in `[15:11]` is composed of its other fields. -/
theorem cmdWord_fields {cmd : Word} {o : Op} (hop : opField cmd = o.code) (hmid : midField cmd = 0) :
    cmdWord (flField cmd) (csField cmd) o = cmd := by
  rw [cmdWord, ← hop, ← hmid, append_fields]

/-- `MODE` and the flag bits are bits of `FL`. -/
theorem modeField_eq (cmd : Word) : modeField cmd = (flField cmd).extractLsb' 0 8 := by
  refine BitVec.eq_of_getLsbD_eq fun i hi => ?_
  have h16 : i < 16 := by omega
  simp only [modeField, flField, BitVec.getLsbD_extractLsb', hi, h16, Nat.zero_add, decide_true, Bool.true_and]

theorem getLsbD_flField (cmd : Word) {i : Nat} (hi : i < 16) : (flField cmd).getLsbD i = cmd.getLsbD (16 + i) := by
  rw [flField, BitVec.getLsbD_extractLsb', decide_eq_true hi, Bool.true_and]

/-! ### The rows of the table (30_encoding.md R92, R93) -/

/-- The reserved bits of a row inside `FL`. -/
def Op.flReserved : Op → BitVec 16
  | .setup => 0xFF00
  | .transfer => 0xFFF0
  | .chipselect => 0xFFFE
  | .cleanup | .freqPre | .freqPost | .suspend | .resume => 0xFFFF

/-- The reserved bits of a row inside `CS`. -/
def Op.csReserved : Op → Cs
  | .setup | .transfer | .cleanup | .chipselect => 0
  | .freqPre | .freqPost | .suspend | .resume => 7

/-- A word masked field by field. -/
theorem and_append_fields (cmd : Word) (fl : BitVec 16) (mid : BitVec 5) (cs : Cs) (op : Byte) :
    cmd &&& (fl ++ mid ++ cs ++ op) =
      (flField cmd &&& fl) ++ (midField cmd &&& mid) ++ (csField cmd &&& cs) ++ (opField cmd &&& op) := by
  conv_lhs => rw [← append_fields cmd, BitVec.and_append, BitVec.and_append, BitVec.and_append]

/-- The reserved bits of a command word are 0 where those of each field are. -/
theorem and_reserved_eq_zero_iff (cmd : Word) (o : Op) :
    cmd &&& o.reserved = 0 ↔
      flField cmd &&& o.flReserved = 0 ∧ midField cmd = 0 ∧ csField cmd &&& o.csReserved = 0 := by
  have hmask : o.reserved = o.flReserved ++ BitVec.allOnes 5 ++ o.csReserved ++ 0#8 := by cases o <;> rfl
  have hzero : (0 : Word) = (0 : BitVec 16) ++ (0 : BitVec 5) ++ (0 : Cs) ++ 0#8 := rfl
  rw [hmask, hzero, and_append_fields, BitVec.and_allOnes, BitVec.and_zero, append_eq_append_iff,
    append_eq_append_iff, append_eq_append_iff]
  simp only [and_true, and_assoc]

/-- A command word matches a row where its operation code is the row's and no reserved bit is 1. -/
theorem and_mask_eq_pattern_iff (cmd : Word) (o : Op) :
    cmd &&& o.mask = o.pattern ↔ opField cmd = o.code ∧ cmd &&& o.reserved = 0 := by
  have hmask : o.mask = o.flReserved ++ BitVec.allOnes 5 ++ o.csReserved ++ BitVec.allOnes 8 := by cases o <;> rfl
  have hpattern : o.pattern = (0 : BitVec 16) ++ (0 : BitVec 5) ++ (0 : Cs) ++ o.code := by cases o <;> rfl
  rw [and_reserved_eq_zero_iff, hmask, hpattern, and_append_fields, BitVec.and_allOnes, BitVec.and_allOnes,
    append_eq_append_iff, append_eq_append_iff, append_eq_append_iff]
  tauto

theorem Op.mem_all (o : Op) : o ∈ Op.all := by
  cases o <;> decide

theorem opOf_eq_some_iff {op : Byte} {o : Op} : opOf op = some o ↔ o.code = op := by
  constructor
  · intro h
    exact eq_of_beq (List.find?_some (p := fun o : Op => o.code == op) h)
  · rintro rfl
    cases o <;> rfl

theorem opOf_eq_none_iff {op : Byte} : opOf op = none ↔ ∀ o ∈ Op.all, o.code ≠ op := by
  simp only [opOf, List.find?_eq_none, beq_iff_eq, ne_eq]

theorem Op.code_injective {o o' : Op} (h : o.code = o'.code) : o = o' :=
  Option.some.inj ((opOf_eq_some_iff.2 h).symm.trans (opOf_eq_some_iff.2 rfl))

/-- A command decodes exactly where its word matches a row of its port; that row assembles the operands. -/
theorem decode_eq_ok_iff_matches {p : Port} {cmd : Word} {a : Args} {i : Instr} :
    decode p cmd a = .ok i ↔ ∃ o : Op, o.port = p ∧ cmd &&& o.mask = o.pattern ∧ i = o.assemble cmd a := by
  rw [decode_eq_ok_iff]
  refine exists_congr fun o => ?_
  rw [opOf_eq_some_iff, and_mask_eq_pattern_iff, eq_comm (a := o.code), eq_comm (a := i)]
  tauto

/-- Settles O3: a word decodes by the row it matches, and a row is known by its operation code. -/
theorem decodeMatchesTableRow : Obligations.DecodeMatchesTableRow := by
  unfold Obligations.DecodeMatchesTableRow
  refine ⟨fun p cmd a i => ?_, fun p cmd a hno => ?_, fun cmd o o' h h' => ?_⟩
  · simp only [decode_eq_ok_iff_matches, Op.mem_all, true_and]
  · cases hd : decode p cmd a with
    | error e => exact ⟨e, rfl⟩
    | ok i =>
      obtain ⟨o, hport, hmatch, -⟩ := decode_eq_ok_iff_matches.1 hd
      exact absurd ⟨o, o.mem_all, hport, hmatch⟩ hno
  · rw [and_mask_eq_pattern_iff] at h h'
    exact Op.code_injective (h.1.symm.trans h'.1)

/-! ### Decoding an encoded instruction -/

theorem Instr.port_op (i : Instr) : i.op.port = i.port := by
  cases i <;> rfl

/-- The command word of every instruction matches the row of the instruction. -/
theorem encode_matches (i : Instr) : (encode i).cmd &&& i.op.mask = i.op.pattern := by
  cases i with
  | setup cs mode bits maxHz => exact Laws.TableRow.setup cs mode bits maxHz
  | transfer cs tx rx len bits hz => exact Laws.TableRow.transfer cs tx rx len bits hz
  | cleanup cs => exact Laws.TableRow.cleanup cs
  | chipselect cs act => exact Laws.TableRow.chipselect cs act
  | freqPre => exact Laws.TableRow.freqPre
  | freqPost newClk => exact Laws.TableRow.freqPost newClk
  | suspend => exact Laws.TableRow.suspend
  | resume => exact Laws.TableRow.resume

/-- An argument word carries a number that fits it. -/
theorem toNat_argWord {n : Nat} (h : fitsWord n = true) : (argWord (some n)).toNat = n :=
  Nat.mod_eq_of_lt (of_decide_eq_true h)

/-- The operand read back from an argument word where its flag says that it is there. -/
theorem ite_isSome_argWord {n : Option Nat} (h : fitsWordIfAny n = true) :
    (if n.isSome then some (argWord n).toNat else none) = n := by
  cases n with
  | none => rfl
  | some n => exact congrArg some (toNat_argWord h)

theorem ite_isSome_getD (b : Option Word) : (if b.isSome then some (b.getD 0) else none) = b := by
  cases b <;> rfl

/-- The flags of a TRANSFER, bit by bit (30_encoding.md R93). -/
theorem getLsbD_transferFlags : ∀ txp rxp bpwOvr hzOvr : Bool,
    (transferFlags txp rxp bpwOvr hzOvr).getLsbD 0 = txp ∧ (transferFlags txp rxp bpwOvr hzOvr).getLsbD 1 = rxp
      ∧ (transferFlags txp rxp bpwOvr hzOvr).getLsbD 2 = bpwOvr
      ∧ (transferFlags txp rxp bpwOvr hzOvr).getLsbD 3 = hzOvr := by decide

/-- A flag of a composed command word is a bit of its flags. -/
theorem getLsbD_cmdWord (fl : BitVec 16) (cs : Cs) (o : Op) {i : Nat} (hi : i < 16) :
    (cmdWord fl cs o).getLsbD (16 + i) = fl.getLsbD i := by
  rw [← getLsbD_flField _ hi, (fields_cmdWord fl cs o).1]

theorem csField_cmdWord (fl : BitVec 16) (cs : Cs) (o : Op) : csField (cmdWord fl cs o) = cs := (fields_cmdWord fl cs o).2.1

theorem modeField_cmdWord (mode : Byte) (cs : Cs) (o : Op) : modeField (cmdWord ((0 : BitVec 8) ++ mode) cs o) = mode := by
  rw [modeField_eq, (fields_cmdWord _ cs o).1, BitVec.extractLsb'_append_eq_right]

/-- The operands assembled from the words of a well-formed instruction are the instruction's own. -/
theorem assemble_encode {i : Instr} (h : i.wf = true) : i.op.assemble (encode i).cmd (encode i).args = i := by
  cases i with
  | setup cs mode bits maxHz =>
    simp only [Instr.wf, Bool.and_eq_true] at h
    simp only [Instr.op, encode, Op.assemble, csField_cmdWord, modeField_cmdWord, toNat_argWord h.1, toNat_argWord h.2]
  | transfer cs tx rx len bits hz =>
    simp only [Instr.wf, Bool.and_eq_true] at h
    obtain ⟨⟨hlen, hbits⟩, hhz⟩ := h
    obtain ⟨htx, hrx, hbpw, hovr⟩ := getLsbD_transferFlags tx.isSome rx.isSome bits.isSome hz.isSome
    have hflag {i : Nat} (hi : i < 16) := getLsbD_cmdWord
      (transferFlags tx.isSome rx.isSome bits.isSome hz.isSome) cs .transfer hi
    simp only [Instr.op, encode, Op.assemble, csField_cmdWord, hflag (i := 0) (by decide), hflag (i := 1) (by decide),
      hflag (i := 2) (by decide), hflag (i := 3) (by decide), htx, hrx, hbpw, hovr, ite_isSome_getD, toNat_argWord hlen,
      ite_isSome_argWord hbits, ite_isSome_argWord hhz]
  | cleanup cs => exact congrArg Instr.cleanup (csField_cmdWord _ cs _)
  | chipselect cs act =>
    have hact : (cmdWord ((0 : BitVec 15) ++ BitVec.ofBool act) cs .chipselect).getLsbD 16 = act := by
      rw [getLsbD_cmdWord _ cs .chipselect (i := 0) (by decide)]
      cases act <;> rfl
    simp only [Instr.op, encode, Op.assemble, csField_cmdWord, hact]
  | freqPost newClk => exact congrArg Instr.freqPost (toNat_argWord h)
  | freqPre | suspend | resume => rfl

/-- Settles O1: the command word matches the row of the instruction, and that row reads the operands back. -/
theorem decodeEncode : Obligations.DecodeEncode := by
  unfold Obligations.DecodeEncode
  intro i h
  exact decode_eq_ok_iff_matches.2 ⟨i.op, i.port_op, encode_matches i, (assemble_encode h).symm⟩

/-! ### Encoding a decoded instruction -/

/-- Flags whose upper `m` bits are reserved and 0 are their lower `n` bits. -/
theorem zero_append_extractLsb' {m n : Nat} {fl : BitVec (m + n)} (h : fl &&& (BitVec.allOnes m ++ 0#n) = 0#(m + n)) :
    0#m ++ fl.extractLsb' 0 n = fl := by
  rw [← BitVec.extractLsb'_append_extractLsb' (x := fl), BitVec.and_append, ← BitVec.zero_append_zero, append_eq_append_iff,
    BitVec.and_allOnes] at h
  conv_rhs => rw [← BitVec.extractLsb'_append_extractLsb' (x := fl), h.1]

theorem getLsbD_extractLsb'_zero {m n i : Nat} (fl : BitVec m) (hi : i < n) :
    (fl.extractLsb' 0 n).getLsbD i = fl.getLsbD i := by
  rw [BitVec.getLsbD_extractLsb', decide_eq_true hi, Bool.true_and, Nat.zero_add]

/-- The flags of a TRANSFER are its four flag bits, the others being 0. -/
theorem transferFlags_of_reserved {fl : BitVec 16} (h : fl &&& Op.transfer.flReserved = 0) :
    transferFlags (fl.getLsbD 0) (fl.getLsbD 1) (fl.getLsbD 2) (fl.getLsbD 3) = fl := by
  have hbits : ∀ n : BitVec 4,
      transferFlags (n.getLsbD 0) (n.getLsbD 1) (n.getLsbD 2) (n.getLsbD 3) = 0#12 ++ n := by decide
  have hfl := hbits (fl.extractLsb' 0 4)
  rw [getLsbD_extractLsb'_zero fl (by decide), getLsbD_extractLsb'_zero fl (by decide),
    getLsbD_extractLsb'_zero fl (by decide), getLsbD_extractLsb'_zero fl (by decide)] at hfl
  exact hfl.trans (zero_append_extractLsb' (m := 12) (n := 4) h)

/-- The flags of a CHIPSELECT are its one flag bit, the others being 0. -/
theorem chipselectFlags_of_reserved {fl : BitVec 16} (h : fl &&& Op.chipselect.flReserved = 0) :
    (0 : BitVec 15) ++ BitVec.ofBool (fl.getLsbD 0) = fl := by
  have hbit : ∀ n : BitVec 1, BitVec.ofBool (n.getLsbD 0) = n := by decide
  have hfl := hbit (fl.extractLsb' 0 1)
  rw [getLsbD_extractLsb'_zero fl (by decide)] at hfl
  rw [hfl]
  exact zero_append_extractLsb' (m := 15) (n := 1) h

theorem isSome_ite_some {α : Type} (b : Bool) (x : α) : (if b then some x else none).isSome = b := by
  cases b <;> rfl

/-- The word a row's operands encode to has the flags and the chip-select of the word they were assembled from. -/
theorem cmd_encode_assemble {cmd : Word} {a : Args} {o : Op} (hfl : flField cmd &&& o.flReserved = 0)
    (hcs : csField cmd &&& o.csReserved = 0) :
    (encode (o.assemble cmd a)).cmd = cmdWord (flField cmd) (csField cmd) o := by
  have hfl0 (h : o.flReserved = BitVec.allOnes 16) : flField cmd = 0#16 := by rwa [h, BitVec.and_allOnes] at hfl
  have hcs0 (h : o.csReserved = BitVec.allOnes 3) : csField cmd = 0#3 := by rwa [h, BitVec.and_allOnes] at hcs
  cases o with
  | setup =>
    simp only [Op.assemble, encode, modeField_eq]
    exact congrArg (cmdWord · _ _) (zero_append_extractLsb' (m := 8) (n := 8) hfl)
  | transfer =>
    have hbits := transferFlags_of_reserved hfl
    rw [getLsbD_flField cmd (by decide), getLsbD_flField cmd (by decide), getLsbD_flField cmd (by decide),
      getLsbD_flField cmd (by decide)] at hbits
    simp only [Op.assemble, encode, isSome_ite_some]
    exact congrArg (cmdWord · _ _) hbits
  | chipselect =>
    have hbit := chipselectFlags_of_reserved hfl
    rw [getLsbD_flField cmd (by decide)] at hbit
    exact congrArg (cmdWord · _ _) hbit
  | cleanup =>
    rw [hfl0 rfl]
    rfl
  | freqPre | freqPost | suspend | resume =>
    rw [hfl0 rfl, hcs0 rfl]
    rfl

/-- Settles O2: a row's reserved bits are 0, so the word is composed of the fields the operands keep. -/
theorem decodedCommandReencodes : Obligations.DecodedCommandReencodes := by
  unfold Obligations.DecodedCommandReencodes
  intro p cmd a i h
  refine ⟨decode_wf h, Machine.decode_port h, ?_⟩
  obtain ⟨o, -, hmatch, rfl⟩ := decode_eq_ok_iff_matches.1 h
  obtain ⟨hop, hres⟩ := (and_mask_eq_pattern_iff cmd o).1 hmatch
  obtain ⟨hfl, hmid, hcs⟩ := (and_reserved_eq_zero_iff cmd o).1 hres
  rw [cmd_encode_assemble hfl hcs, cmdWord_fields hop hmid]

end Sys2Proof
end

section
/-!
SUPPORT and PROOF. The issue of a command and its refusal (30_encoding.md R95, R98), the words of the spec's vectors, and the
obligations O4, O6 and O7.
-/

namespace Sys2Proof.Machine

open Sys2Proof

/-! ### Refusal (30_encoding.md R98) -/

/-- A command is refused where its operation code has no row, or has one of another port or with a reserved bit that is 1. -/
theorem decode_error_iff (p : Port) (cmd : Word) (a : Args) :
    (∃ e, decode p cmd a = .error e) ↔
      opOf (opField cmd) = none ∨ (∃ o, opOf (opField cmd) = some o ∧ o.port ≠ p)
        ∨ ∃ o, opOf (opField cmd) = some o ∧ cmd &&& o.reserved ≠ 0 := by
  unfold decode
  cases opOf (opField cmd) with
  | none => simp
  | some o =>
    by_cases hport : o.port = p
    · by_cases hres : cmd &&& o.reserved = 0#32 <;> simp [hport, hres]
    · simp [hport]

/-- The step of a port whose command is refused. -/
theorem stepPort_of_refused {p : Port} {s : State} {e : DecodeError} (hrun : portRunning p s = true)
    (he : decode p (portRegs p s).cmd (portRegs p s).arg = .error e) : stepPort p s = .next (finish p 0xFFFFFFF3 s) :=
  stepPort_of_error hrun he

/-- Settles O6: the reasons are those of the decoder, one step is `finish(E_BADCMD)` written out on each port. -/
theorem reservedEncodingRefused : Obligations.ReservedEncodingRefused := by
  unfold Obligations.ReservedEncodingRefused
  refine ⟨fun p cmd a => ?_, fun s e hs he => ?_, fun s e hs he => ?_, fun s e hs he => ?_⟩
  · rw [decode_error_iff, opOf_eq_none_iff]
    simp only [opOf_eq_some_iff, Op.mem_all, true_and]
  · exact stepPort_of_refused (p := .queue) (bne_iff_ne.2 hs) he
  · exact stepPort_of_refused (p := .freq) (bne_iff_ne.2 hs) he
  · exact stepPort_of_refused (p := .power) (bne_iff_ne.2 hs) he

/-! ### Issue (30_encoding.md R95) -/

theorem envCmd_of_busy {p : Port} {w : Word} {a : Args} {s : State} (h : (portRegs p s).busy = true) : envCmd p w a s = none :=
  if_pos h

theorem envCmd_of_idle {p : Port} {w : Word} {a : Args} {s : State} (h : (portRegs p s).busy = false) :
    envCmd p w a s = some (issue p w a s) :=
  if_neg (by rw [h]; decide)

/-- A command that is taken is issued. -/
theorem eq_issue_of_envCmd {p : Port} {w : Word} {a : Args} {s t : State} (h : envCmd p w a s = some t) : t = issue p w a s := by
  cases hb : (portRegs p s).busy with
  | true => rw [envCmd_of_busy hb] at h; cases h
  | false => rw [envCmd_of_idle hb] at h; exact (Option.some.inj h).symm

theorem issue_queue_seqQ (w : Word) (a : Args) (s : State) : (issue .queue w a s).seqQ = firstQ (decode .queue w a) := rfl

theorem issue_freq_seqF (w : Word) (a : Args) (s : State) : (issue .freq w a s).seqF = firstF (decode .freq w a) := rfl

theorem issue_power_seqP (w : Word) (a : Args) (s : State) : (issue .power w a s).seqP = firstP (decode .power w a) := rfl

/-- Settles O7: the state `issue` leaves on each port, and the first position of each command on the port that accepts it. -/
theorem issueProtocol : Obligations.IssueProtocol := by
  unfold Obligations.IssueProtocol
  refine ⟨fun p w a s => envCmd_of_busy, fun w a s h => envCmd_of_idle (p := .queue) h,
    fun w a s h => envCmd_of_idle (p := .freq) h, fun w a s h => envCmd_of_idle (p := .power) h,
    fun p w a i s t hd h => ?_, fun p w a e s t hd h => ?_⟩
  · obtain rfl := eq_issue_of_envCmd h
    obtain rfl := decode_port hd
    cases i with
    | setup | transfer | cleanup | chipselect => exact (issue_queue_seqQ w a s).trans (congrArg firstQ hd)
    | freqPre | freqPost => exact (issue_freq_seqF w a s).trans (congrArg firstF hd)
    | suspend | resume => exact (issue_power_seqP w a s).trans (congrArg firstP hd)
  · obtain rfl := eq_issue_of_envCmd h
    cases p with
    | queue => exact (issue_queue_seqQ w a s).trans (congrArg firstQ hd)
    | freq => exact (issue_freq_seqF w a s).trans (congrArg firstF hd)
    | power => exact (issue_power_seqP w a s).trans (congrArg firstP hd)

/-- Settles O4 by evaluating the decoder on each word. -/
theorem knownCommandWords : Obligations.KnownCommandWords := by
  unfold Obligations.KnownCommandWords
  decide

end Sys2Proof.Machine
end

section
/-!
SUPPORT and PROOF. The end of a TRANSFER's data phase (42_transfer.md R198-R200), and the obligation O30.
-/

namespace Sys2Proof.Machine

open Sys2Proof

/-- `Exit(r)` after the status read: two events, one answer taken. -/
theorem engineExit_statusRead (r : Word) (s : State) :
    engineExit r (statusRead s) = { s with
      portQ := { s.portQ with res := r, busy := false }
      seqQ := .idle
      inUse := false
      done := true
      xf := { s.xf with mode := .none }
      hist := s.hist ++ eventsBy .queue [.rd .flg (.word (wordAt 0 s.env)), .res .queue r]
      env := dropWords 1 s.env } := by
  simp only [engineExit_eq, statusRead, readVolatile, record, dropWord, goQ, List.append_assoc]
  rfl

section

variable {cs : Cs} {tx rx : Option Word} {len : Nat} {bits hz : Option Nat} {s : State}

/-- The positions at which the data phase is over and the status-flag register is read next: X1, or the head of a PIO loop whose
count is reached (43_pio.md R213, R216). -/
def dataPhaseOver (s : State) : Prop :=
  s.seqQ = .x1 ∨ ∃ i, s.xf.count ≤ i ∧ (s.seqQ = .pio (.l0 i) ∨ s.seqQ = .pio (.r0 i))

theorem transfer_statusRead (h : dataPhaseOver s) : exec (.transfer cs tx rx len bits hz) s = .next (statusRead s) := by
  obtain h | ⟨i, hi, h | h⟩ := h
  · exact transfer_x1 _ _ _ _ _ _ _ h
  · refine transfer_of_pioStep_some h ?_
    simp only [pioStep, pioTxHead, Nat.not_lt.2 hi, if_false]
  · rw [transfer_r0 _ _ _ _ _ _ _ _ h]
    simp only [pioPollHead, Nat.not_lt.2 hi, if_false]

/-- `StatusCheck`'s read and `Exit` with what it decodes to. -/
theorem execs_statusCheck (h : dataPhaseOver s) :
    execs 2 (.transfer cs tx rx len bits hz) s =
      .next (engineExit (statusResult s.params s.xf (nextWord s)) (statusRead s)) := by
  rw [execs_succ (transfer_statusRead h), execs_succ (transfer_x2 _ _ _ _ _ _ _ _ rfl)]
  rfl

end

/-- Settles O30: the codes by evaluation, the status read and its decoding, then `Exit`. -/
theorem statusCheckExits : Obligations.StatusCheckExits := by
  unfold Obligations.StatusCheckExits
  refine ⟨by decide, fun cs tx rx len bits hz s => ⟨fun h => ?_, fun v h => ?_⟩⟩
  · rw [execs_statusCheck h, engineExit_statusRead]
    rfl
  · exact transfer_x2 _ _ _ _ _ _ _ _ h

end Sys2Proof.Machine
end

section
/-!
SUPPORT and PROOF. The fields of the command words (41_chipselect.md R170-R174), and the obligation O42.
-/

namespace Sys2Proof.Machine

open Sys2Proof

/-! ### One-bit fields -/

theorem getFlag_setFlag_same {lo : Nat} (h : lo + 1 ≤ 32) (x : Bool) (v : Word) : getFlag lo (setFlag lo x v) = x := by
  have hin : lo ≤ lo ∧ lo < lo + 1 := by omega
  rw [getFlag, setFlag, getLsbD_setField h, if_pos hin, Nat.sub_self]
  cases x <;> rfl

theorem getFlag_setField_disjoint {lo w lo' : Nat} (h : lo + w ≤ 32) (hd : lo + w ≤ lo' ∨ lo' + 1 ≤ lo) (x : BitVec w)
    (v : Word) : getFlag lo' (setField lo w x v) = getFlag lo' v := by
  have hout : ¬ (lo ≤ lo' ∧ lo' < lo + w) := by omega
  rw [getFlag, getFlag, getLsbD_setField h, if_neg hout]

theorem getField_setFlag_disjoint {lo lo' w' : Nat} (h : lo + 1 ≤ 32) (hd : lo + 1 ≤ lo' ∨ lo' + w' ≤ lo) (x : Bool) (v : Word) :
    getField lo' w' (setFlag lo x v) = getField lo' w' v :=
  getField_setField_disjoint h hd _ v

@[simp] theorem getField_zero (lo w : Nat) : getField lo w 0 = 0 := BitVec.extractLsb'_zero

@[simp] theorem getFlag_zero (lo : Nat) : getFlag lo 0 = false := BitVec.getLsbD_zero

/-- Inserting into a field leaves the bits of a mask that has none of the field's bits. -/
theorem setField_and {lo w : Nat} (x : BitVec w) (v : Word) {m : Word} (h : fieldMask lo w &&& m = 0) :
    setField lo w x v &&& m = v &&& m := by
  refine BitVec.eq_of_getLsbD_eq fun i hi => ?_
  have hbit : ((fieldMask lo w).getLsbD i && m.getLsbD i) = false := by
    rw [← BitVec.getLsbD_and, h]
    exact BitVec.getLsbD_zero
  simp only [setField, BitVec.getLsbD_and, BitVec.getLsbD_or, BitVec.getLsbD_not, decide_eq_true hi, Bool.true_and]
  cases hm : m.getLsbD i with
  | false => simp only [Bool.and_false]
  | true =>
    rw [hm, Bool.and_true] at hbit
    simp only [hbit, Bool.not_false, Bool.and_true, Bool.and_false, Bool.or_false]

/-! ### The layout of `DAT` -/

/-- The three fields of a command word lie in the word and share no bit (30_encoding.md R102). -/
structure DatFields (L : Layout) : Prop where
  data_le : L.loTxdata + 16 ≤ 32
  csnr_le : L.loCsnr + 8 ≤ 32
  hold_le : L.loHold + 1 ≤ 32
  data_csnr : L.loTxdata + 16 ≤ L.loCsnr ∨ L.loCsnr + 8 ≤ L.loTxdata
  data_hold : L.loTxdata + 16 ≤ L.loHold ∨ L.loHold + 1 ≤ L.loTxdata
  csnr_hold : L.loCsnr + 8 ≤ L.loHold ∨ L.loHold + 1 ≤ L.loCsnr

theorem datFields_of_wf {L : Layout} {n : Nat} (h : L.wf n = true) : DatFields L := by
  simp only [Layout.wf, Bool.and_eq_true, List.all_eq_true] at h
  obtain ⟨⟨⟨hfields, -⟩, -⟩, -⟩ := h
  have hdat := hfields [(L.loTxdata, 16), (L.loCsnr, 8), (L.loHold, 1)] (by simp [Layout.fields])
  simp only [rangesWf, rangesDisjoint, List.all_cons, List.all_nil, Bool.and_eq_true, Bool.or_eq_true, decide_eq_true_eq] at hdat
  constructor <;> omega

theorem and_not_or_self (x y : Word) : x &&& ~~~(x ||| y) = 0 := by
  rw [BitVec.not_or, ← BitVec.and_assoc, BitVec.and_not_self]
  exact BitVec.zero_and

/-- The bits of a command word outside its three fields. -/
def datOutside (L : Layout) : Word := ~~~(fieldMask L.loTxdata 16 ||| fieldMask L.loCsnr 8 ||| fieldMask L.loHold 1)

theorem fieldMask_and_datOutside (L : Layout) :
    fieldMask L.loTxdata 16 &&& datOutside L = 0 ∧ fieldMask L.loCsnr 8 &&& datOutside L = 0
      ∧ fieldMask L.loHold 1 &&& datOutside L = 0 := by
  refine ⟨?_, ?_, ?_⟩
  · rw [datOutside, BitVec.or_assoc, and_not_or_self]
  · rw [datOutside, BitVec.or_comm (fieldMask L.loTxdata 16), BitVec.or_assoc, and_not_or_self]
  · rw [datOutside, BitVec.or_comm _ (fieldMask L.loHold 1), and_not_or_self]

/-! ### The chip-select pattern (41_chipselect.md R170) -/

/-- The active pattern asserts line `cs` and no other. -/
theorem getLsbD_activePattern : ∀ (cs : Cs) (i : Nat), i < 8 → (activePattern cs).getLsbD i = !decide (i = cs.toNat) := by
  decide

/-! ### The command words -/

section

variable {c : Params} (h : DatFields c.layout) (cs : Cs) (d : Half)

include h

theorem txdata_compose : getField c.layout.loTxdata 16 (compose c cs d) = d := by
  rw [compose, getField_setFlag_disjoint h.hold_le h.data_hold.symm, getField_setField_disjoint h.csnr_le h.data_csnr.symm,
    getField_setField_same h.data_le]

theorem csnr_compose : getField c.layout.loCsnr 8 (compose c cs d) = activePattern cs := by
  rw [compose, getField_setFlag_disjoint h.hold_le h.csnr_hold.symm, getField_setField_same h.csnr_le]

theorem hold_compose : getFlag c.layout.loHold (compose c cs d) = c.csHold :=
  getFlag_setFlag_same h.hold_le _ _

theorem txdata_deselectWord : getField c.layout.loTxdata 16 (deselectWord c) = 0 := by
  rw [deselectWord, getField_setField_disjoint h.csnr_le h.data_csnr.symm, getField_zero]

theorem csnr_deselectWord : getField c.layout.loCsnr 8 (deselectWord c) = Config.csDefault :=
  getField_setField_same h.csnr_le _ _

theorem hold_deselectWord : getFlag c.layout.loHold (deselectWord c) = false := by
  rw [deselectWord, getFlag_setField_disjoint h.csnr_le h.csnr_hold, getFlag_zero]

theorem txdata_releaseWord : getField c.layout.loTxdata 16 (releaseWord c cs) = 0 := by
  rw [releaseWord, getField_setFlag_disjoint h.hold_le h.data_hold.symm, cmdBase, txdata_compose h]

theorem csnr_releaseWord : getField c.layout.loCsnr 8 (releaseWord c cs) = activePattern cs := by
  rw [releaseWord, getField_setFlag_disjoint h.hold_le h.csnr_hold.symm, cmdBase, csnr_compose h]

theorem hold_releaseWord : getFlag c.layout.loHold (releaseWord c cs) = false :=
  getFlag_setFlag_same h.hold_le _ _

end

theorem compose_and_datOutside (c : Params) (cs : Cs) (d : Half) : compose c cs d &&& datOutside c.layout = 0 := by
  obtain ⟨hdata, hcsnr, hhold⟩ := fieldMask_and_datOutside c.layout
  rw [compose, setFlag, setField_and _ _ hhold, setField_and _ _ hcsnr, setField_and _ _ hdata]
  exact BitVec.zero_and

theorem deselectWord_and_datOutside (c : Params) : deselectWord c &&& datOutside c.layout = 0 := by
  obtain ⟨-, hcsnr, -⟩ := fieldMask_and_datOutside c.layout
  rw [deselectWord, setField_and _ _ hcsnr]
  exact BitVec.zero_and

/-- Settles O42: the fields one by one, each read from the word it was inserted in last. -/
theorem commandWordFields : Obligations.CommandWordFields := by
  unfold Obligations.CommandWordFields
  refine ⟨fun c v => ⟨rfl, rfl, rfl⟩, fun c cs d hwf => ?_⟩
  have h := datFields_of_wf hwf
  refine ⟨rfl, ⟨txdata_compose h cs d, fun i hi => ?_, hold_compose h cs d, compose_and_datOutside c cs d⟩,
    ⟨txdata_deselectWord h, csnr_deselectWord h, hold_deselectWord h, deselectWord_and_datOutside c⟩,
    rfl, hold_releaseWord h cs, txdata_releaseWord h cs, ?_⟩
  · rw [csnr_compose h, getLsbD_activePattern cs i hi]
  · rw [csnr_releaseWord h, csnr_compose h]

end Sys2Proof.Machine
end

section
/-!
SUPPORT and PROOF. How a command frees its port (30_encoding.md R96): a step of a port's agent leaves the port's registers as
they were, or it is `finish` with no event before it; and the obligation O8.
-/

namespace Sys2Proof.Machine

open Sys2Proof

/-- What a step of the agent of port `p` may do to its port: it keeps the registers, or ends the command by `finish`, whose event
is then the step's only one. -/
inductive PortStep (p : Port) (s : State) : State → Prop
  | keeps {t : State} (hregs : portRegs p t = portRegs p s := by rfl) : PortStep p s t
  | finishes {u : State} (r : Word) (hhist : u.hist = s.hist := by rfl) : PortStep p s (finish p r u)

theorem PortStep.exits {s : State} (r : Word) : PortStep .queue s (engineExit r s) :=
  .finishes (u := { s with inUse := false, done := true, xf := { s.xf with mode := .none } }) r

/-- The read step of `WriteDivider` keeps a port's registers where the agent's move after it does. -/
theorem portRegs_dividerRead {p : Port} {k : FmtRec → Nat → State → State} (a : Agent) (cs : Cs) (hz : Nat) (s : State)
    (hk : ∀ t n u, portRegs p (k t n u) = portRegs p u) : portRegs p (dividerRead a cs hz k s) = portRegs p s := by
  obtain h | ⟨n, floored, -, h⟩ := dividerRead_cases a cs hz k s
  · rw [h]
    cases p <;> rfl
  · rw [h, hk]
    exact ((DataStep.refl True s).dividerNote a cs floored).portRegs_eq p

theorem configureStep_portStep {cs : Cs} {x : CfgSeq} {wrap : CfgSeq → QSeq} {next : QSeq} {s : State} :
    PortStep .queue s (configureStep cs x wrap next s) := by
  cases x with
  | lenW | divW => exact .keeps
  | divR hz =>
    have hread := portRegs_dividerRead (k := fun t n u => goQ (wrap (.divW t n)) u) (p := .queue) .queue cs hz s
      fun _ _ _ => rfl
    exact .keeps hread

/-! ### SETUP -/

theorem setupConfigure_portStep {cs : Cs} {mode : Byte} {bits maxHz : Nat} {s u : State}
    (hu : portRegs .queue u = portRegs .queue s) : PortStep .queue s (setupConfigure cs mode bits maxHz u) := by
  unfold setupConfigure
  dsimp only
  refine getD_of_forall (.keeps hu) fun t h => ?_
  obtain ⟨sl, -, -, rfl⟩ := configureStart_cases h
  exact .keeps hu

theorem setupFirst_portStep {cs : Cs} {mode : Byte} {bits maxHz : Nat} {s : State} :
    PortStep .queue s (setupFirst cs mode bits maxHz s) := by
  unfold setupFirst
  split
  · exact .finishes _
  split
  · exact .keeps
  split
  · exact .finishes _
  split
  · exact .finishes _
  split
  · split <;> exact .keeps
  · exact setupConfigure_portStep rfl

theorem setupStep_portStep {cs : Cs} {mode : Byte} {bits maxHz : Nat} {s t : State}
    (h : setupStep cs mode bits maxHz s = some t) : PortStep .queue s t := by
  unfold setupStep at h
  split at h <;> cases h
  next => exact setupFirst_portStep
  next => unfold setupAllocTx; split <;> exact .keeps
  next => exact .keeps
  next => exact .finishes _
  next => exact setupConfigure_portStep rfl
  next => exact configureStep_portStep
  next => exact .keeps
  next => exact .keeps
  next => exact .finishes _

/-! ### TRANSFER -/

theorem modeStep_portStep {cs : Cs} {m : ModeSeq} {wrap : ModeSeq → QSeq} {next : QSeq} {s u : State}
    (hu : portRegs .queue u = portRegs .queue s) : PortStep .queue s (modeStep cs m wrap next u) := by
  cases m <;> exact .keeps hu

theorem rxStore_portStep {i : Nat} {d : Half} {next : QSeq} {s t : State} (h : rxStore i d next s = some t) :
    PortStep .queue s t := by
  obtain ⟨a, -, -, rfl⟩ := rxStore_cases h
  exact .keeps

theorem pioStep_portStep {x : PioSeq} {s t : State} (h : pioStep x s = some t) : PortStep .queue s t := by
  cases x with
  | mode m => cases h; exact modeStep_portStep rfl
  | p5 | p6 | p7 | p8 | p9 | l2 | l3 | l4 | l5 | r2 | r3 | r4 | i2 | i3 | i4 => cases h; exact .keeps
  | l0 i => obtain ⟨-, a, -, -, rfl⟩ | ⟨-, rfl⟩ := pioTxHead_cases h <;> exact .keeps
  | l5s i d => exact rxStore_portStep h
  | r5 i d => exact rxStore_portStep h
  | r0 i => cases h; unfold pioPollHead; split <;> exact .keeps
  | i0 i => cases h; unfold pioIrqHead; split <;> exact .keeps

theorem dmaProgram_portStep {ch : ChanId} {src dst : Word} {u : DmaUnit} {n : Nat} {next : QSeq} {s v : State}
    (hv : portRegs .queue v = portRegs .queue s) : PortStep .queue s (dmaProgram ch src dst u n next v) := by
  unfold dmaProgram
  split <;> exact .keeps hv

theorem dmaStep_portStep {x : DmaSeq} {s t : State} (h : dmaStep x s = some t) : PortStep .queue s t := by
  cases x with
  | mode m =>
    cases m with
    | m1 =>
      cases h
      unfold dmaModeRead
      split
      · exact .exits _
      · exact .keeps
    | m2 | m3 | m4 => cases h; exact .keeps
  | g6 | g7 | g8 | g9 | g10 | g11 | g12 | g13 | g16 | g18u | g22 | g23 | g26 => cases h; exact .keeps
  | g15 k =>
    obtain ⟨-, rfl⟩ := dmaFill_cases h
    exact .keeps
  | g17 m =>
    simp only [dmaStep, dmaProgTx] at h
    split at h <;> cases h
    exact dmaProgram_portStep rfl
  | g19 r =>
    simp only [dmaStep, dmaProgRx] at h
    split at h <;> cases h
    exact dmaProgram_portStep rfl
  | g18 | g20 | g21 | g24 | g25 | g27 =>
    simp only [dmaStep, dmaMapRx, dmaStartTx, dmaStartRx, dmaUnmapRx] at h
    split at h <;> cases h
    exact .keeps

theorem transferEnter_portStep {cs : Cs} {tx rx : Option Word} {len : Nat} {s : State} :
    PortStep .queue s (transferEnter cs tx rx len s) := by
  unfold transferEnter
  split
  · exact .keeps
  split
  · exact .keeps
  unfold transferDispatch
  split
  · exact .keeps
  · exact modeStep_portStep rfl

theorem transferFirst_portStep {cs : Cs} {tx rx : Option Word} {len : Nat} {bits hz : Option Nat} {s : State} :
    PortStep .queue s (transferFirst cs tx rx len bits hz s) := by
  unfold transferFirst
  split
  · exact .finishes _
  split
  · exact .keeps
  split
  · exact .keeps
  split
  · exact .keeps
  split
  · exact .finishes _
  split
  · cases h : configureStart cs bits hz .t6 s with
    | none => exact .finishes _
    | some t =>
      obtain ⟨sl, -, -, rfl⟩ := configureStart_cases h
      exact .keeps
  · exact transferEnter_portStep

theorem transferStep_portStep {cs : Cs} {tx rx : Option Word} {len : Nat} {bits hz : Option Nat} {s t : State}
    (h : transferStep cs tx rx len bits hz s = some t) : PortStep .queue s t := by
  unfold transferStep at h
  split at h
  next => cases h; exact transferFirst_portStep
  next => cases h; exact configureStep_portStep
  next => cases h; exact transferEnter_portStep
  next => exact pioStep_portStep h
  next => exact dmaStep_portStep h
  next => cases h; exact .keeps
  next => cases h; exact .exits _
  next => cases h; exact .exits _
  next => cases h

/-! ### CLEANUP and CHIPSELECT -/

theorem cleanupStep_portStep {cs : Cs} {s t : State} (h : cleanupStep cs s = some t) : PortStep .queue s t := by
  unfold cleanupStep at h
  split at h <;> cases h
  next =>
    unfold cleanupFirst
    split
    · exact .finishes _
    split
    · split <;> exact .keeps
    · exact .finishes _
  next => exact .keeps
  next => exact .finishes _

theorem chipselectStep_portStep {cs : Cs} {act : Bool} {s t : State} (h : chipselectStep cs act s = some t) :
    PortStep .queue s t := by
  unfold chipselectStep at h
  split at h <;> cases h
  next =>
    unfold chipselectFirst
    split
    · exact .finishes _
    split
    · exact .keeps
    split
    · exact .finishes _
    · exact .keeps
  next => exact .keeps
  next => exact .keeps
  next => exact .keeps
  next => exact .finishes _

/-! ### FREQ_PRE, FREQ_POST, SUSPEND and RESUME -/

theorem freqPreStep_portStep {s t : State} (h : freqPreStep s = some t) : PortStep .freq s t := by
  unfold freqPreStep at h
  split at h
  next =>
    split at h <;> cases h
    exact .keeps
  next => cases h; exact .finishes _
  next => cases h

theorem freqPostFrom_portStep {k : Nat} {s u : State} (hregs : portRegs .freq u = portRegs .freq s) (hhist : u.hist = s.hist) :
    PortStep .freq s (freqPostFrom k u) := by
  unfold freqPostFrom
  split
  · exact .finishes _ hhist
  next cs hz _ =>
    have hread := portRegs_dividerRead (k := fun t n v => goF (.fqW cs t n) v) (p := .freq) .freq cs hz u fun _ _ _ => rfl
    exact .keeps (hread.trans hregs)

theorem freqPostStep_portStep {newClk : Nat} {s t : State} (h : freqPostStep newClk s = some t) : PortStep .freq s t := by
  unfold freqPostStep at h
  split at h <;> cases h
  next => exact freqPostFrom_portStep rfl rfl
  next => exact .keeps
  next => exact freqPostFrom_portStep rfl rfl

theorem suspendStep_portStep {s t : State} (h : suspendStep s = some t) : PortStep .power s t := by
  unfold suspendStep at h
  split at h
  next =>
    split at h <;> cases h
    exact .keeps
  next => cases h; exact .finishes _
  next => cases h; exact .keeps
  next => cases h; exact .keeps
  next => cases h; exact .keeps
  next => cases h; exact .finishes _
  next => cases h

theorem resumeStep_portStep {s t : State} (h : resumeStep s = some t) : PortStep .power s t := by
  unfold resumeStep at h
  split at h <;> cases h
  next => exact .keeps
  next => exact .keeps
  next => exact .keeps
  next => exact .finishes _

/-! ### Every command -/

theorem exec_portStep {i : Instr} {s t : State} (h : exec i s = .next t) : PortStep i.port s t := by
  cases i with
  | setup => cases h; exact getD_of_forall .keeps fun _ => setupStep_portStep
  | transfer => cases h; exact getD_of_forall .keeps fun _ => transferStep_portStep
  | cleanup => cases h; exact getD_of_forall .keeps fun _ => cleanupStep_portStep
  | chipselect => cases h; exact getD_of_forall .keeps fun _ => chipselectStep_portStep
  | freqPre => cases h; exact getD_of_forall .keeps fun _ => freqPreStep_portStep
  | freqPost => cases h; exact getD_of_forall .keeps fun _ => freqPostStep_portStep
  | suspend => cases h; exact getD_of_forall .keeps fun _ => suspendStep_portStep
  | resume => cases h; exact getD_of_forall .keeps fun _ => resumeStep_portStep

theorem portRunning_finish (p : Port) (r : Word) (s : State) : portRunning p (finish p r s) = false := by
  cases p <;> rfl

/-- Settles O8: a step that frees the port does not keep its registers, so it is `finish`. -/
theorem commandEndsWithFinish : Obligations.CommandEndsWithFinish := by
  unfold Obligations.CommandEndsWithFinish
  intro i s t h hbusy hfree
  cases exec_portStep h with
  | keeps hregs => rw [hregs, hbusy] at hfree; cases hfree
  | finishes r hhist =>
    refine ⟨?_, portRunning_finish _ _ _⟩
    rw [portRegs_finish, if_pos rfl, finish_hist, hhist]

end Sys2Proof.Machine
end

section
/-!
SUPPORT and PROOF. The value of the clock divider (40_divider_config.md R130-R132), and the obligations O14 and O15.
-/

namespace Sys2Proof.Machine

open Sys2Proof

/-- Settles O14: the range that every prescale the divider may write has. -/
theorem prescaleRange : Obligations.PrescaleRange := by
  unfold Obligations.PrescaleRange
  intro clk hz p floored h
  simpa only [prescaleOk, Bool.and_eq_true, decide_eq_true_eq] using prescaleOk_of_prescale h

section

variable {clk hz : Nat}

/-- A larger prescale value gives no higher frequency. -/
theorem achieved_le_achieved {p q : Nat} (h : p ≤ q) : achieved clk q ≤ achieved clk p :=
  Nat.div_le_div_left (Nat.succ_le_succ h) (Nat.succ_pos p)

/-- The prescale value one above the quotient less one gives no frequency above the one asked for. -/
theorem achieved_quotient_le (hhz : 0 < hz) : achieved clk (clk / hz) ≤ hz := by
  refine Nat.le_of_lt ((Nat.div_lt_iff_lt_mul (Nat.succ_pos _)).2 ?_)
  exact Nat.lt_mul_div_succ clk hhz

/-- Where the clamps to 255 do not bite, the value before the floor meets the request. -/
theorem achieved_prescaleRaised_le (hhz : 0 < hz) (hclk : hz ≤ clk) (h : prescaleRaised clk hz ≤ 255) :
    achieved clk (prescaleRaised clk hz) ≤ hz := by
  have hquot : 0 < clk / hz := Nat.div_pos hclk hhz
  unfold prescaleRaised at h ⊢
  split
  next habove =>
    rw [if_pos habove] at h
    have hp : prescaleClamped clk hz + 1 = clk / hz := by
      unfold prescaleClamped at h ⊢
      omega
    rw [hp]
    exact achieved_quotient_le hhz
  next hmeets => exact Nat.le_of_not_lt hmeets

/-- `Prescale` in its domain: the value before the floor, raised to 2 and clamped to 255 again; floored exactly where raised. -/
theorem prescale_of_le (hhz : 0 < hz) (hclk : hz ≤ clk) :
    prescale clk hz = some (min (max (prescaleRaised clk hz) 2) 255, decide (prescaleRaised clk hz < 2)) := by
  unfold prescale
  rw [if_neg (by omega)]
  split
  next h => rw [max_eq_right (Nat.le_of_lt h), decide_eq_true h]; rfl
  next h => rw [max_eq_left (Nat.le_of_not_lt h), decide_eq_false h]

/-- A prescale value is 255, or the frequency it gives is at most the one asked for. -/
theorem achieved_le_or_eq_255 {p : Nat} {floored : Bool} (h : prescale clk hz = some (p, floored)) :
    p = 255 ∨ achieved clk p ≤ hz := by
  have hdom : ¬ (hz = 0 ∨ clk < hz) := fun hn => by
    rw [(prescale_none_iff clk hz).2 hn] at h
    cases h
  have hhz : 0 < hz := by omega
  have hclk : hz ≤ clk := by omega
  rw [prescale_of_le hhz hclk] at h
  cases h
  obtain hbig | hsmall := Nat.lt_or_ge 255 (prescaleRaised clk hz)
  · left
    omega
  · right
    have hle : prescaleRaised clk hz ≤ min (max (prescaleRaised clk hz) 2) 255 := by omega
    exact (achieved_le_achieved hle).trans (achieved_prescaleRaised_le hhz hclk hsmall)

/-- The frequency of a prescale value is at most the one asked for exactly where that of the value 255 is. -/
theorem achieved_le_iff {p : Nat} {floored : Bool} (h : prescale clk hz = some (p, floored)) :
    achieved clk p ≤ hz ↔ clk / 256 ≤ hz := by
  obtain rfl | hmeets := achieved_le_or_eq_255 h
  · exact Iff.rfl
  · have hp : p ≤ 255 := (prescaleRange clk hz p floored h).2
    exact iff_of_true hmeets ((achieved_le_achieved hp).trans hmeets)

/-- Where even the value 255 gives more than the frequency asked for, it is the value taken. -/
theorem eq_255_of_lt {p : Nat} {floored : Bool} (h : prescale clk hz = some (p, floored)) (hslow : hz < clk / 256) : p = 255 :=
  (achieved_le_or_eq_255 h).resolve_right fun hmeets => Nat.not_le.2 hslow ((achieved_le_iff h).1 hmeets)

end

/-- Settles O15: the value by `prescale_of_le`, what it achieves by `achieved_le_iff`. -/
theorem prescaleAchieved : Obligations.PrescaleAchieved := by
  unfold Obligations.PrescaleAchieved
  refine ⟨fun clk hz h => (prescale_none_iff clk hz).2 h, fun clk hz hhz hclk => ?_⟩
  intro p0 p1 p2 p3 p
  have hfloor : p3 = max (prescaleRaised clk hz) 2 := by
    change (if prescaleRaised clk hz < 2 then 2 else prescaleRaised clk hz) = _
    split <;> omega
  have hvalue : prescale clk hz = some (p, decide (p2 < 2)) := by
    change _ = some (min p3 255, decide (prescaleRaised clk hz < 2))
    rw [hfloor]
    exact prescale_of_le hhz hclk
  refine ⟨hvalue, rfl, achieved_le_iff hvalue, fun hslow => ?_⟩
  have hp : p = 255 := eq_255_of_lt hvalue hslow
  exact ⟨hp, by rw [hp]; rfl⟩

end Sys2Proof.Machine
end

section
/-!
SUPPORT and PROOF. `Configure` inside SETUP and inside TRANSFER (40_divider_config.md R133-R140, 42_transfer.md R193), and the
obligations O16 and O25.
-/

namespace Sys2Proof.Machine

open Sys2Proof

/-- The record of `FMT[cs]` replaced in the table of registers, Q at `l`, the events `es` of Q in the history: what a stretch of
`Configure` leaves. -/
def withFmt (cs : Cs) (v : FmtRec) (l : QSeq) (es : List Ev) (s : State) : State :=
  { s with
    seqQ := l
    regrec := { s.regrec with fmt := csSet s.regrec.fmt cs v }
    hist := s.hist ++ eventsBy .queue es }

@[simp] theorem fmtRec_withFmt (cs : Cs) (v : FmtRec) (l : QSeq) (es : List Ev) (s : State) :
    fmtRec cs (withFmt cs v l es s) = v := csGet_csSet_same _ _ _

theorem withFmt_withFmt (cs : Cs) (v w : FmtRec) (l m : QSeq) (es fs : List Ev) (s : State) :
    withFmt cs w m fs (withFmt cs v l es s) = withFmt cs w m (es ++ fs) s := by
  simp only [withFmt, csSet_csSet, eventsBy_append, List.append_assoc]

/-- The events of `WriteDivider` on the record `t` (40_divider_config.md R133, R135). -/
def dividerEvents (cs : Cs) (t : FmtRec) (p : Nat) (floored : Bool) : List Ev :=
  (if floored then [Ev.prescaleFloor cs] else [])
    ++ [Ev.rd (.fmt cs) (.fmt t), Ev.wr (.fmt cs) (.fmt { t with prescale := some (BitVec.ofNat 8 p) })]

/-- The two steps of `WriteDivider` on the state. -/
theorem dividerWrite_read {cs : Cs} {p : Nat} {floored : Bool} {l m : QSeq} {s : State} :
    goQ m (dividerWrite .queue cs (fmtRec cs s) p (goQ l (readFmt .queue cs (noteFloor .queue cs floored s)))) =
      withFmt cs { fmtRec cs s with prescale := some (BitVec.ofNat 8 p) } m (dividerEvents cs (fmtRec cs s) p floored) s := by
  cases floored <;>
    simp [withFmt, dividerEvents, dividerWrite, writeFmt, readFmt, noteFloor, fmtRec, goQ, record]

/-- Where Q stands at a position of `Configure`, wrapped by `wrap`, command `i` runs `Configure` of `cs` and goes on at `next`. -/
def RunsConfigure (i : Instr) (cs : Cs) (wrap : CfgSeq → QSeq) (next : QSeq) : Prop :=
  ∀ (c : CfgSeq) (u : State), u.seqQ = wrap c → exec i u = .next (configureStep cs c wrap next u)

theorem setup_runsConfigure (cs : Cs) (mode : Byte) (bits maxHz : Nat) :
    RunsConfigure (.setup cs mode bits maxHz) cs .s7 .s8 := fun c u h => by
  simp only [exec, execSetup, setupStep, h, Option.getD_some]

theorem transfer_runsConfigure (cs : Cs) (tx rx : Option Word) (len : Nat) (bits hz : Option Nat) :
    RunsConfigure (.transfer cs tx rx len bits hz) cs .t6 .t7 := fun c u h => by
  simp only [exec, execTransfer, transferStep, h, Option.getD_some]

section

variable {i : Instr} {cs : Cs} {wrap : CfgSeq → QSeq} {next : QSeq} {hz p : Nat} {floored : Bool} {s : State}

/-- `WriteDivider` inside `Configure`, in the divider's domain. -/
theorem RunsConfigure.execs_divider (hi : RunsConfigure i cs wrap next) (hat : s.seqQ = wrap (.divR hz))
    (hp : prescale s.clkRate hz = some (p, floored)) :
    execs 2 i s = .next (withFmt cs { fmtRec cs s with prescale := some (BitVec.ofNat 8 p) } next
      (dividerEvents cs (fmtRec cs s) p floored) s) := by
  have hread : exec i s =
      .next (goQ (wrap (.divW (fmtRec cs s) p)) (readFmt .queue cs (noteFloor .queue cs floored s))) := by
    rw [hi _ s hat, configureStep, dividerRead_some hp]
  rw [execs_succ hread, execs_succ (hi _ _ rfl), execs_zero, configureStep, dividerWrite_read]

/-- `WriteDivider` inside `Configure`, outside the divider's domain (40_divider_config.md R134). -/
theorem RunsConfigure.exec_divider_domain (hi : RunsConfigure i cs wrap next) (hat : s.seqQ = wrap (.divR hz))
    (hdom : hz = 0 ∨ s.clkRate < hz) : exec i s = .next (raise .queue .dividerDomain s) := by
  rw [hi _ s hat, configureStep, dividerRead_none hdom]

/-- `Configure` from its first write on, `t` the record read before it. -/
theorem RunsConfigure.execs_configure {t : FmtRec} {bits : Nat} (hi : RunsConfigure i cs wrap next)
    (hat : s.seqQ = wrap (.lenW t bits hz)) (hp : prescale s.clkRate hz = some (p, floored)) :
    let f1 := { t with charlen := some (BitVec.ofNat 5 bits) }
    execs 3 i s = .next (withFmt cs { f1 with prescale := some (BitVec.ofNat 8 p) } next
      (.wr (.fmt cs) (.fmt f1) :: dividerEvents cs f1 p floored) s) := by
  intro f1
  have hlen : exec i s = .next (withFmt cs f1 (wrap (.divR hz)) [.wr (.fmt cs) (.fmt f1)] s) := hi _ s hat
  refine (execs_succ hlen).trans ((hi.execs_divider rfl (by exact hp)).trans ?_)
  rw [withFmt_withFmt, fmtRec_withFmt]
  rfl

end

/-- Settles O16: `WriteDivider` inside any command that runs `Configure`. -/
theorem dividerWritten : Obligations.DividerWritten := by
  unfold Obligations.DividerWritten
  refine fun cs hz s => ⟨fun p floored hp => ⟨fun mode bits maxHz hat => ?_, fun tx rx len bits hzO hat => ?_⟩,
    fun hdom => ⟨fun mode bits maxHz hat => ?_, fun tx rx len bits hzO hat => ?_⟩⟩
  · exact (setup_runsConfigure cs mode bits maxHz).execs_divider hat hp
  · exact (transfer_runsConfigure cs tx rx len bits hzO).execs_divider hat hp
  · exact (setup_runsConfigure cs mode bits maxHz).exec_divider_domain hat hdom
  · exact (transfer_runsConfigure cs tx rx len bits hzO).exec_divider_domain hat hdom

/-- The record `Configure` leaves, its first read in the history, Q at the first write. -/
def afterConfigureRead (cs : Cs) (bits hz : Nat) (sl : Slave) (l : QSeq) (s : State) : State :=
  { s with
    seqQ := l
    slave := csSet s.slave cs (some { sl with bits := bits, bpw := bpwOf bits, hz := hz })
    hist := s.hist ++ [⟨.queue, .rd (.fmt cs) (.fmt (fmtRec cs s))⟩] }

/-- The first step of a TRANSFER with an override, its checks T1 to T5 and those of `Configure` passing. -/
theorem transfer_t1_configure {cs : Cs} {tx rx : Option Word} {len : Nat} {bits hz : Option Nat} {sl : Slave} {s : State}
    (hat : s.seqQ = .t1) (hacc : transferAccepted cs tx rx len s) (hsl : slaveOf cs s = some sl)
    (hov : bits ≠ none ∨ hz ≠ none) (hok : configOk (bits.getD sl.declBits) (hz.getD sl.declHz) = true) :
    exec (.transfer cs tx rx len bits hz) s =
      .next (afterConfigureRead cs (bits.getD sl.declBits) (hz.getD sl.declHz) sl
        (.t6 (.lenW (fmtRec cs s) (bits.getD sl.declBits) (hz.getD sl.declHz))) s) := by
  obtain ⟨hcs, hsus, hbuf, hlen⟩ := hacc
  have hover : bits.isSome ∨ hz.isSome := by simpa only [Option.isSome_iff_ne_none] using hov
  rw [transfer_t1 cs tx rx len bits hz s hat, transferFirst, if_neg (Nat.not_le.2 hcs), hsus, if_neg (by decide),
    if_neg (by rw [hsl]; exact nofun), if_neg (fun hn => hbuf.elim (· hn.1) (· hn.2)), if_neg (Nat.not_lt.2 hlen), if_pos hover]
  simp only [configureStart, hsl, hok, if_true, Option.getD_some]
  rfl

/-- Settles O25: the first step, then `Configure` as inside any command. -/
theorem transferReconfigures : Obligations.TransferReconfigures := by
  unfold Obligations.TransferReconfigures
  intro cs tx rx len bits hz p floored sl s hat hcs hsus hsl hbuf hlen hov hb2 hb16 hzlo hzhi hp f0 f1 f2
  have hok : configOk (bits.getD sl.declBits) (hz.getD sl.declHz) = true := (configOk_iff _ _).2 ⟨hb2, hb16, hzlo, hzhi⟩
  have hfirst := transfer_t1_configure hat ⟨hcs, hsus, hbuf, hlen⟩ hsl hov hok
  have hconf := transfer_runsConfigure cs tx rx len bits hz
  refine (execs_succ hfirst).trans ((hconf.execs_configure rfl (by exact hp)).trans ?_)
  simp only [withFmt, afterConfigureRead, dividerEvents, bpwOf, eventsBy_append, eventsBy_cons, eventsBy_nil, List.append_assoc,
    List.cons_append, List.nil_append]
  rfl

end Sys2Proof.Machine
end

section
/-!
SUPPORT and PROOF. SETUP of a chip-select that allocates no channel (40_divider_config.md R142, R150, R152), and the obligations
O17, O18 and O20.
-/

namespace Sys2Proof.Machine

open Sys2Proof

/-- Settles O17: the checks of the first step, each reached where those before it pass. -/
theorem setupChecksInOrder : Obligations.SetupChecksInOrder := by
  unfold Obligations.SetupChecksInOrder
  intro cs mode bits maxHz s hat
  rw [setup_s1 cs mode bits maxHz s hat, setupFirst]
  refine ⟨fun hcs => ?_, fun hcs hsus => ?_, fun hcs hsus hhz => ?_, fun hcs hsus hlo hhi hbits => ?_⟩
  · rw [if_pos hcs]
  · rw [if_neg (Nat.not_le.2 hcs), if_pos hsus]
  · have hrange : maxHz < Config.minHz ∨ Config.maxHz < maxHz := hhz
    rw [if_neg (Nat.not_le.2 hcs), hsus, if_neg (by decide), if_pos hrange]
  · have hrange : ¬ (maxHz < Config.minHz ∨ Config.maxHz < maxHz) := not_or.2 ⟨Nat.not_lt.2 hlo, Nat.not_lt.2 hhi⟩
    rw [if_neg (Nat.not_le.2 hcs), hsus, if_neg (by decide), if_neg hrange, if_pos hbits]

/-- A SETUP whose checks S1 to S4 pass and that allocates no channel: the strategy is not DMA, or the chip-select has its
channels. -/
structure PlainSetup (cs : Cs) (bits maxHz : Nat) (s : State) : Prop where
  pos : s.seqQ = .s1
  csOk : cs.toNat < s.params.numCs
  running : s.suspended = false
  hzLow : 600000 ≤ maxHz
  hzHigh : maxHz ≤ 50000000
  bitsLow : 2 ≤ bits
  bitsHigh : bits ≤ 16
  allocated : s.params.useDma = true → (dmaOf cs s).rxCh ≠ none

section

variable {cs : Cs} {mode : Byte} {bits maxHz p : Nat} {floored : Bool} {s : State}

theorem PlainSetup.configOk (h : PlainSetup cs bits maxHz s) : configOk bits maxHz = true :=
  (configOk_iff bits maxHz).2 ⟨h.bitsLow, h.bitsHigh, h.hzLow, h.hzHigh⟩

/-- S6 and the first read of `Configure`: the chip-select's record. -/
theorem setup_s1_record (h : PlainSetup cs bits maxHz s) :
    exec (.setup cs mode bits maxHz) s =
      .next (afterConfigureRead cs bits maxHz (setupSlave cs mode bits maxHz s) (.s7 (.lenW (fmtRec cs s) bits maxHz)) s) := by
  have hhz : ¬ (maxHz < Config.minHz ∨ Config.maxHz < maxHz) := not_or.2 ⟨Nat.not_lt.2 h.hzLow, Nat.not_lt.2 h.hzHigh⟩
  have hbits : ¬ (bits < 2 ∨ 16 < bits) := not_or.2 ⟨Nat.not_lt.2 h.bitsLow, Nat.not_lt.2 h.bitsHigh⟩
  have halloc : ¬ (s.params.useDma = true ∧ (dmaOf cs s).rxCh = none) := fun hn => h.allocated hn.1 hn.2
  have hrun : ¬ s.suspended = true := by rw [h.running]; decide
  rw [setup_s1 cs mode bits maxHz s h.pos, setupFirst, if_neg (Nat.not_le.2 h.csOk), if_neg hrun, if_neg hhz, if_neg hbits,
    if_neg halloc, setupConfigure_ok h.configOk]
  rfl

/-- The format record a SETUP leaves of the record `t` (40_divider_config.md R133, R140, R152). -/
def setupFormat (c : Params) (mode : Byte) (bits p : Nat) (t : FmtRec) : FmtRec :=
  withFormatBits c mode { t with charlen := some (BitVec.ofNat 5 bits), prescale := some (BitVec.ofNat 8 p) }

/-- The events of a SETUP that allocates nothing, on the format record `t`. -/
def setupEvents (cs : Cs) (c : Params) (mode : Byte) (bits p : Nat) (floored : Bool) (t : FmtRec) : List Ev :=
  let f1 := { t with charlen := some (BitVec.ofNat 5 bits) }
  let f2 := { f1 with prescale := some (BitVec.ofNat 8 p) }
  [Ev.rd (.fmt cs) (.fmt t), Ev.wr (.fmt cs) (.fmt f1)]
    ++ (if floored then [Ev.prescaleFloor cs] else [])
    ++ [Ev.rd (.fmt cs) (.fmt f1), Ev.wr (.fmt cs) (.fmt f2),
        Ev.rd (.fmt cs) (.fmt f2), Ev.wr (.fmt cs) (.fmt (setupFormat c mode bits p t)), Ev.res .queue 0]

/-- The state that a SETUP which allocates nothing leaves. -/
def afterSetup (cs : Cs) (mode : Byte) (bits maxHz p : Nat) (floored : Bool) (s : State) : State :=
  { s with
    portQ := { s.portQ with res := 0, busy := false }
    seqQ := .idle
    slave := csSet s.slave cs (some (setupSlave cs mode bits maxHz s))
    regrec := { s.regrec with fmt := csSet s.regrec.fmt cs (setupFormat s.params mode bits p (fmtRec cs s)) }
    hist := s.hist ++ eventsBy .queue (setupEvents cs s.params mode bits p floored (fmtRec cs s)) }

/-- The whole run: the record's step, then `Configure`, the format bits and `finish(0)`. -/
theorem execs_setup (h : PlainSetup cs bits maxHz s) (hp : prescale s.clkRate maxHz = some (p, floored)) :
    execs 7 (.setup cs mode bits maxHz) s = .next (afterSetup cs mode bits maxHz p floored s) := by
  refine (execs_succ (setup_s1_record h)).trans ((execs_setupFormat rfl (by exact hp)).trans ?_)
  simp only [afterConfigureRead, afterSetup, setupSlave, bpwOf, setupEvents, setupFormat, eventsBy_append, eventsBy_cons,
    eventsBy_nil, List.append_assoc, List.cons_append, List.nil_append]

/-- The state a SETUP leaves, issued again. -/
def reissued (s : State) : State := { s with seqQ := .s1 }

/-- A second SETUP leaves the first's records. -/
theorem slave_afterSetup_again :
    (afterSetup cs mode bits maxHz p floored (reissued (afterSetup cs mode bits maxHz p floored s))).slave =
      (afterSetup cs mode bits maxHz p floored s).slave := by
  simp only [afterSetup, reissued, setupSlave, slaveOf, csGet_csSet_same, csSet_csSet, Option.bind_some]

/-- A second SETUP leaves the first's registers. -/
theorem regrec_afterSetup_again :
    (afterSetup cs mode bits maxHz p floored (reissued (afterSetup cs mode bits maxHz p floored s))).regrec =
      (afterSetup cs mode bits maxHz p floored s).regrec := by
  simp only [afterSetup, reissued, setupFormat, withFormatBits, fmtRec, csGet_csSet_same, csSet_csSet]

/-- No event of a SETUP without an allocation is one. -/
theorem dalloc_not_mem_setupEvents (c : Params) (t : FmtRec) (d : Dir) (x : Cs) (r : Option ChanId) :
    (⟨.queue, .dalloc d x r⟩ : Event) ∉ eventsBy .queue (setupEvents cs c mode bits p floored t) := by
  cases floored <;> simp [setupEvents]

/-- Issued again, a SETUP that allocated nothing allocates nothing. -/
theorem PlainSetup.again (h : PlainSetup cs bits maxHz s) :
    PlainSetup cs bits maxHz (reissued (afterSetup cs mode bits maxHz p floored s)) :=
  { h with pos := rfl }

end

/-- Settles O18: the whole run by `execs_setup`, the last step by itself. -/
theorem setupCompletes : Obligations.SetupCompletes := by
  unfold Obligations.SetupCompletes
  refine ⟨fun cs mode bits maxHz p floored s h1 h2 h3 h4 h5 h6 h7 h8 hp => ?_, fun cs mode bits maxHz s hat => ?_⟩
  · exact execs_setup ⟨h1, h2, h3, h4, h5, h6, h7, h8⟩ hp
  · exact setup_s9 cs mode bits maxHz s hat

/-- Settles O20: the second run starts where the first left off and finds its own record and format. -/
theorem setupIdempotent : Obligations.SetupIdempotent := by
  unfold Obligations.SetupIdempotent
  intro cs mode bits maxHz s h1 h2 h3 h4 h5 h6 h7 h8 hclk
  have hs : PlainSetup cs bits maxHz s := ⟨h1, h2, h3, h4, h5, h6, h7, h8⟩
  have hp := prescale_of_le (by omega : 0 < maxHz) hclk
  refine ⟨_, _, execs_setup hs hp, execs_setup hs.again (by exact hp), slave_afterSetup_again,
    regrec_afterSetup_again, rfl, fun d c r hmem => ?_⟩
  simp only [afterSetup, List.mem_append, dalloc_not_mem_setupEvents, or_false] at hmem
  exact hmem

end Sys2Proof.Machine
end

section
/-!
SUPPORT and PROOF. CLEANUP's effect (40_divider_config.md R155), what a step of SETUP and of CLEANUP leaves unchanged, and the
obligations O21, O51 and O53.
-/

namespace Sys2Proof.Machine

open Sys2Proof

/-! ### CLEANUP -/

section

variable {cs : Cs} {s : State} {r t : ChanId}

/-- C1 of a valid chip-select with both channels. -/
theorem cleanupFirst_channels (hcs : cs.toNat < s.params.numCs) (hr : (dmaOf cs s).rxCh = some r)
    (ht : (dmaOf cs s).txCh = some t) :
    cleanupFirst cs s =
      if isActive s r || isActive s t then raise .queue .dmaChannelBusy s else goQ (.c2 t) (dmaFree r s) := by
  simp only [cleanupFirst, Nat.not_le.2 hcs, if_false, hr, ht]

/-- C1 of a valid chip-select without both channels. -/
theorem cleanupFirst_no_channels (hcs : cs.toNat < s.params.numCs)
    (h : (dmaOf cs s).rxCh = none ∨ (dmaOf cs s).txCh = none) : cleanupFirst cs s = finish .queue 0 s := by
  unfold cleanupFirst
  rw [if_neg (Nat.not_le.2 hcs)]
  split
  next r t hr ht =>
    rw [hr, ht] at h
    exact h.elim nofun nofun
  next => rfl

end

/-- Settles O21: the first step decides; where it frees the receive channel, the transmit channel and the end follow. -/
theorem cleanupFreesChannels : Obligations.CleanupFreesChannels := by
  unfold Obligations.CleanupFreesChannels
  intro cs s hat
  have hfirst := cleanup_c1 cs s hat
  refine ⟨fun hcs => ?_, fun r t hcs hr ht => ⟨fun hact => ?_, fun hidleR hidleT => ?_⟩, fun hcs hnone => ?_⟩
  · rw [hfirst, cleanupFirst, if_pos hcs]
  · rw [hfirst, cleanupFirst_channels hcs hr ht, if_pos (by simpa only [Bool.or_eq_true] using hact)]
  · rw [cleanupFirst_channels hcs hr ht, hidleR, hidleT, if_neg (by decide)] at hfirst
    rw [execs_succ hfirst, execs_succ (cleanup_c2 cs _ t rfl), execs_succ (cleanup_c3 cs _ rfl)]
    simp only [execs_zero, cleanupLast, dmaFree, goQ, record, finish, idlePort, setPort, portRegs, portAgent, setDma, dmaOf,
      eventsBy_cons, eventsBy_nil, List.append_assoc, List.cons_append, List.nil_append]
  · rw [hfirst, cleanupFirst_no_channels hcs hnone]

/-! ### The frame of CLEANUP -/

/-- A step of CLEANUP of `cs`: it differs in port Q's `RES` and `BUSY`, Q's position, the channels of `cs`, the fault and the
history alone. -/
structure CleanupKeeps (cs : Cs) (s t : State) : Prop where
  rest : t = { s with
    portQ := { s.portQ with res := t.portQ.res, busy := t.portQ.busy }
    seqQ := t.seqQ
    dma := t.dma
    fault := t.fault
    hist := t.hist } := by rfl
  others : ∀ c, c ≠ cs → dmaOf c t = dmaOf c s := by exact fun _ _ => rfl
  txDone : (dmaOf cs t).txDone = (dmaOf cs s).txDone := by rfl
  rxDone : (dmaOf cs t).rxDone = (dmaOf cs s).rxDone := by rfl

theorem cleanupFirst_keeps (cs : Cs) (s : State) : CleanupKeeps cs s (cleanupFirst cs s) := by
  unfold cleanupFirst
  split
  · exact {}
  split
  · split <;> exact {}
  · exact {}

theorem dmaOf_cleanupLast (cs c : Cs) (s : State) :
    dmaOf c (cleanupLast cs s) = if c = cs then { dmaOf cs s with rxCh := none, txCh := none } else dmaOf c s :=
  csGet_csSet _ _ _ _

theorem cleanupLast_keeps (cs : Cs) (s : State) : CleanupKeeps cs s (cleanupLast cs s) where
  others c hc := by rw [dmaOf_cleanupLast, if_neg hc]
  txDone := by rw [dmaOf_cleanupLast, if_pos rfl]
  rxDone := by rw [dmaOf_cleanupLast, if_pos rfl]

theorem cleanupStep_keeps {cs : Cs} {s t : State} (h : cleanupStep cs s = some t) : CleanupKeeps cs s t := by
  unfold cleanupStep at h
  split at h <;> cases h
  next => exact cleanupFirst_keeps cs s
  next => exact {}
  next => exact cleanupLast_keeps cs s

/-- Settles O53: each step of CLEANUP, and the state left as it is where it has none. -/
theorem cleanupFrame : Obligations.CleanupFrame := by
  unfold Obligations.CleanupFrame
  intro cs s
  have h : CleanupKeeps cs s ((cleanupStep cs s).getD s) := getD_of_forall {} fun _ => cleanupStep_keeps
  exact ⟨_, rfl, h.rest, h.others, h.txDone, h.rxDone, fun a => by rw [h.rest]⟩

/-! ### The frame of SETUP -/

/-- What a step of SETUP of `cs` may do: it differs in port Q's `RES` and `BUSY`, Q's position, the record, the channels and the
format register of `cs`, the fault, the history and the answers taken alone. -/
structure SetupKeeps (cs : Cs) (s t : State) : Prop where
  rest : t = { s with
    portQ := { s.portQ with res := t.portQ.res, busy := t.portQ.busy }
    seqQ := t.seqQ
    regrec := { s.regrec with fmt := t.regrec.fmt }
    slave := t.slave
    dma := t.dma
    fault := t.fault
    hist := t.hist
    env := { s.env with allocs := t.env.allocs, draws := t.env.draws } } := by rfl
  others : ∀ c, c ≠ cs → slaveOf c t = slaveOf c s ∧ dmaOf c t = dmaOf c s ∧ fmtRec c t = fmtRec c s := by
    exact fun _ _ => ⟨rfl, rfl, rfl⟩
  txDone : (dmaOf cs t).txDone = (dmaOf cs s).txDone := by rfl
  rxDone : (dmaOf cs t).rxDone = (dmaOf cs s).rxDone := by rfl

section

variable {cs : Cs} {s u : State}

theorem SetupKeeps.goQ (h : SetupKeeps cs s u) (l : QSeq) : SetupKeeps cs s (goQ l u) :=
  { h with rest := congrArg (Machine.goQ l) h.rest }

theorem SetupKeeps.record (h : SetupKeeps cs s u) (e : Ev) : SetupKeeps cs s (record .queue e u) :=
  { h with rest := congrArg (Machine.record .queue e) h.rest }

theorem SetupKeeps.setSlave (h : SetupKeeps cs s u) (x : Option Slave) : SetupKeeps cs s (setSlave cs x u) :=
  { h with
    rest := congrArg (Machine.setSlave cs x) h.rest
    others := fun c hc => by
      obtain ⟨hslave, hdma, hfmt⟩ := h.others c hc
      exact ⟨(csGet_csSet_other _ _ hc).trans hslave, hdma, hfmt⟩ }

theorem SetupKeeps.writeFmt (h : SetupKeeps cs s u) (v : FmtRec) : SetupKeeps cs s (writeFmt .queue cs v u) :=
  { h with
    rest := congrArg (Machine.writeFmt .queue cs v) h.rest
    others := fun c hc => by
      obtain ⟨hslave, hdma, hfmt⟩ := h.others c hc
      exact ⟨hslave, hdma, (csGet_csSet_other _ _ hc).trans hfmt⟩ }

theorem setupChannels_keeps (r t : ChanId) : SetupKeeps cs s (setupChannels cs r t s) := by
  have hdma (c : Cs) : dmaOf c (setupChannels cs r t s) =
      if c = cs then { dmaOf cs s with rxCh := some r, txCh := some t } else dmaOf c s := csGet_csSet _ _ _ _
  exact
    { others := fun c hc => ⟨rfl, by rw [hdma, if_neg hc], rfl⟩
      txDone := by rw [hdma, if_pos rfl]
      rxDone := by rw [hdma, if_pos rfl] }

/-- Taking an answer to `DmaAlloc` touches the answers laid down for it and the counter of free values alone. -/
theorem envDropAlloc_rest (e : Env) :
    envDropAlloc e = { e with allocs := (envDropAlloc e).allocs, draws := (envDropAlloc e).draws } := by
  unfold envDropAlloc
  split <;> rfl

theorem dmaAlloc_keeps (d : Dir) : SetupKeeps cs s (dmaAlloc d cs s) where
  rest := congrArg (fun e => Machine.record .queue (.dalloc d cs (nextAlloc s)) { s with env := e }) (envDropAlloc_rest s.env)

theorem noteFloor_keeps (floored : Bool) : SetupKeeps cs s (noteFloor .queue cs floored s) := by
  cases floored <;> exact {}

theorem setupConfigure_keeps {mode : Byte} {bits maxHz : Nat} (h : SetupKeeps cs s u) :
    SetupKeeps cs s (setupConfigure cs mode bits maxHz u) := by
  have hs6 := h.setSlave (some (setupRecord mode bits maxHz (slaveOf cs u)))
  refine getD_of_forall ((hs6.record _).goQ _) fun t ht => ?_
  obtain ⟨sl, -, -, rfl⟩ := configureStart_cases ht
  exact ((hs6.setSlave _).record _).goQ _

theorem setupFirst_keeps {mode : Byte} {bits maxHz : Nat} : SetupKeeps cs s (setupFirst cs mode bits maxHz s) := by
  unfold setupFirst
  split
  · exact {}
  split
  · exact {}
  split
  · exact {}
  split
  · exact {}
  split
  · split <;> exact (dmaAlloc_keeps .rx).goQ _
  · exact setupConfigure_keeps {}

theorem configureStep_keeps (x : CfgSeq) (wrap : CfgSeq → QSeq) (next : QSeq) :
    SetupKeeps cs s (configureStep cs x wrap next s) := by
  have hs : SetupKeeps cs s s := {}
  cases x with
  | lenW t bits hz => exact (hs.writeFmt _).goQ _
  | divR hz =>
    rw [configureStep]
    obtain h | ⟨p, floored, -, h⟩ := dividerRead_cases .queue cs hz (fun t p s' => Machine.goQ (wrap (.divW t p)) s') s
    · rw [h]
      exact {}
    · rw [h]
      exact ((noteFloor_keeps floored).record _).goQ _
  | divW t p => exact (hs.writeFmt _).goQ _

theorem setupStep_keeps {mode : Byte} {bits maxHz : Nat} {t : State} (h : setupStep cs mode bits maxHz s = some t) :
    SetupKeeps cs s t := by
  have hs : SetupKeeps cs s s := {}
  unfold setupStep at h
  split at h <;> cases h
  next => exact setupFirst_keeps
  next => unfold setupAllocTx; split <;> exact (dmaAlloc_keeps .tx).goQ _
  next => exact {}
  next => exact {}
  next r t _ => exact setupConfigure_keeps (setupChannels_keeps r t)
  next x _ => exact configureStep_keeps x .s7 .s8
  next => exact {}
  next => exact (hs.writeFmt _).goQ _
  next => exact {}

end

/-- Settles O51: each step of SETUP, and the state left as it is where it has none. -/
theorem setupFrame : Obligations.SetupFrame := by
  unfold Obligations.SetupFrame
  intro cs mode bits maxHz s
  have h : SetupKeeps cs s ((setupStep cs mode bits maxHz s).getD s) := getD_of_forall {} fun _ => setupStep_keeps
  exact ⟨_, rfl, h.rest, h.others, h.txDone, h.rxDone, fun a => by rw [h.rest]⟩

end Sys2Proof.Machine
end

section
/-!
SUPPORT and PROOF. FREQ_POST (46_coordination.md R305, R306; 60_exceptions.md R357): the loop over the configured chip-selects in
ascending order, and the obligation O44.
-/

namespace Sys2Proof.Machine

open Sys2Proof

/-! ### The configured chip-selects, ascending -/

/-- Chip-select `c` is one FREQ_POST visits: configured, below `P_NUM_CS`. -/
def isConfigured (s : State) (c : Cs) : Bool := decide (c.toNat < s.params.numCs) && (slaveOf c s).isSome

/-- The configured chip-selects from `k` on, ascending. -/
def configuredFrom (k : Nat) (s : State) : List Cs := allCs.filter (fun c => decide (k ≤ c.toNat) && isConfigured s c)

theorem isConfigured_iff {s : State} {c : Cs} :
    isConfigured s c = true ↔ c.toNat < s.params.numCs ∧ ∃ sl, slaveOf c s = some sl := by
  simp only [isConfigured, Bool.and_eq_true, decide_eq_true_eq, Option.isSome_iff_exists]

theorem allCs_pairwise : allCs.Pairwise (fun a b => a.toNat < b.toNat) := by decide

/-- `allCs` cut at a chip-select. -/
theorem allCs_eq_append (c : Cs) :
    allCs = allCs.filter (fun x => decide (x.toNat < c.toNat))
      ++ c :: allCs.filter (fun x => decide (c.toNat + 1 ≤ x.toNat)) := by
  revert c
  decide

theorem configuredBelow_eq (n : Nat) (s : State) :
    configuredBelow n s = (allCs.filter (fun c => decide (c.toNat < n))).filter (isConfigured s) := by
  simp only [configuredBelow, isConfigured, List.filter_filter, Bool.and_assoc, Bool.and_comm]

theorem configuredFrom_eq (k : Nat) (s : State) :
    configuredFrom k s = (allCs.filter (fun c => decide (k ≤ c.toNat))).filter (isConfigured s) := by
  simp only [configuredFrom, List.filter_filter, Bool.and_comm]

/-- Every chip-select index is below 8. -/
theorem configuredFrom_zero (s : State) : configuredFrom 0 s = configuredBelow 8 s := by
  rw [configuredFrom_eq, configuredBelow_eq]
  rfl

/-- The configured chip-selects, cut at one of them. -/
theorem configuredFrom_zero_eq_append {s : State} {c : Cs} (h : isConfigured s c = true) :
    configuredFrom 0 s = configuredBelow c.toNat s ++ c :: configuredFrom (c.toNat + 1) s := by
  rw [configuredBelow_eq, configuredFrom_eq (c.toNat + 1), ← List.filter_cons_of_pos h, ← List.filter_append,
    ← allCs_eq_append]
  simp only [configuredFrom, Nat.zero_le, decide_true, Bool.true_and]

/-- The configured chip-selects after the first from `k` on. -/
theorem configuredFrom_succ {k : Nat} {s : State} {c : Cs} {rest : List Cs} (h : configuredFrom k s = c :: rest) :
    configuredFrom (c.toNat + 1) s = rest := by
  have hk : k ≤ c.toNat := by
    have hc : c ∈ configuredFrom k s := h ▸ List.mem_cons_self
    simp only [configuredFrom, List.mem_filter, Bool.and_eq_true, decide_eq_true_eq] at hc
    exact hc.2.1
  have hrest : ∀ d ∈ rest, c.toNat < d.toNat := by
    have hpair : (c :: rest).Pairwise (fun a b => a.toNat < b.toNat) := h ▸ allCs_pairwise.filter _
    exact (List.pairwise_cons.1 hpair).1
  calc configuredFrom (c.toNat + 1) s
      = (configuredFrom k s).filter (fun d => decide (c.toNat + 1 ≤ d.toNat)) := by
        rw [configuredFrom, configuredFrom, List.filter_filter]
        refine List.filter_congr fun d _ => ?_
        rw [Bool.eq_iff_iff]
        simp only [Bool.and_eq_true, decide_eq_true_eq]
        exact ⟨fun ⟨hd, hconf⟩ => ⟨hd, by omega, hconf⟩, fun ⟨hd, _, hconf⟩ => ⟨hd, hconf⟩⟩
    _ = rest := by
        rw [h, List.filter_cons_of_neg (by simp)]
        exact List.filter_eq_self.2 fun d hd => decide_eq_true (hrest d hd)

theorem nodup_configuredBelow (n : Nat) (s : State) : (configuredBelow n s).Nodup :=
  List.Nodup.filter _ (by decide)

theorem configuredBelow_eq_nil {n : Nat} {s : State}
    (h : ∀ c : Cs, c.toNat < n → c.toNat < s.params.numCs → slaveOf c s = none) : configuredBelow n s = [] := by
  refine List.eq_nil_iff_forall_not_mem.2 fun c hc => ?_
  obtain ⟨hn, hcs, hsome⟩ := (mem_configuredBelow n c s).1 hc
  rw [h c hn hcs] at hsome
  cases hsome

/-- FQ2 visits the head of the configured chip-selects from `k` on. -/
theorem nextConfigured_eq (k : Nat) (s : State) :
    nextConfigured k s = (configuredFrom k s).head?.bind (fun c => (slaveOf c s).map (fun sl => (c, sl.hz))) := by
  simp only [nextConfigured, configuredFrom, isConfigured, List.head?_filter, Bool.and_assoc]

theorem nextConfigured_of_nil {k : Nat} {s : State} (h : configuredFrom k s = []) : nextConfigured k s = none := by
  rw [nextConfigured_eq, h]
  rfl

theorem nextConfigured_of_cons {k : Nat} {s : State} {c : Cs} {rest : List Cs} {sl : Slave}
    (h : configuredFrom k s = c :: rest) (hsl : slaveOf c s = some sl) : nextConfigured k s = some (c, sl.hz) := by
  simp only [nextConfigured_eq, h, List.head?_cons, Option.bind_some, hsl, Option.map_some]

/-! ### One chip-select's prescale rewritten -/

/-- `WriteDivider` of chip-select `c` by F against the clock rate `clk`, F at the loop of FQ2 after `c`. -/
def rewriteDivider (clk : Nat) (c : Cs) (s : State) : State :=
  { s with
    seqF := .fqNext (c.toNat + 1)
    regrec := { s.regrec with fmt := csSet s.regrec.fmt c (dividerEffect clk c s).1 }
    hist := s.hist ++ eventsBy .freq (dividerEffect clk c s).2 }

/-- The prescales of the chip-selects of a list rewritten, in its order. -/
def rewriteDividers (clk : Nat) : List Cs → State → State
  | [], s => s
  | c :: cs, s => rewriteDividers clk cs (rewriteDivider clk c s)

theorem dividerEffect_of_prescale {clk : Nat} {c : Cs} {s : State} {sl : Slave} {p : Nat} {floored : Bool}
    (hsl : slaveOf c s = some sl) (hp : prescale clk sl.hz = some (p, floored)) :
    dividerEffect clk c s =
      ({ fmtRec c s with prescale := some (BitVec.ofNat 8 p) },
        (if floored then [.prescaleFloor c] else [])
          ++ [.rd (.fmt c) (.fmt (fmtRec c s)),
              .wr (.fmt c) (.fmt { fmtRec c s with prescale := some (BitVec.ofNat 8 p) })]) := by
  simp only [dividerEffect, hsl, Option.bind_some, hp]

/-- The effect on a chip-select does not depend on another's rewriting. -/
theorem dividerEffect_rewriteDivider {clk : Nat} {c d : Cs} (s : State) (h : d ≠ c) :
    dividerEffect clk d (rewriteDivider clk c s) = dividerEffect clk d s := by
  have hfmt : fmtRec d (rewriteDivider clk c s) = fmtRec d s := csGet_csSet_other _ _ h
  simp only [dividerEffect, hfmt]
  rfl

/-- What the rewriting leaves beside the format registers: F's position and the history. -/
theorem rewriteDividers_rest {clk : Nat} {L : List Cs} (hL : L.Nodup) (s : State) :
    rewriteDividers clk L s = { s with
      seqF := (rewriteDividers clk L s).seqF
      regrec := { s.regrec with fmt := (rewriteDividers clk L s).regrec.fmt }
      hist := s.hist ++ eventsBy .freq (L.flatMap fun c => (dividerEffect clk c s).2) } := by
  induction L generalizing s with
  | nil => simp [rewriteDividers]
  | cons c L ih =>
    obtain ⟨hc, hL⟩ := List.nodup_cons.1 hL
    have heffect : L.flatMap (fun d => (dividerEffect clk d (rewriteDivider clk c s)).2) =
        L.flatMap (fun d => (dividerEffect clk d s).2) :=
      List.flatMap_congr fun d hd => by rw [dividerEffect_rewriteDivider s (ne_of_mem_of_not_mem hd hc)]
    rw [rewriteDividers, ih hL, heffect]
    simp only [rewriteDivider, List.flatMap_cons, eventsBy_append, List.append_assoc]

/-- What the rewriting leaves in the format registers. -/
theorem fmtRec_rewriteDividers {clk : Nat} {L : List Cs} (hL : L.Nodup) (s : State) (c : Cs) :
    fmtRec c (rewriteDividers clk L s) = if c ∈ L then (dividerEffect clk c s).1 else fmtRec c s := by
  induction L generalizing s with
  | nil => rfl
  | cons d L ih =>
    obtain ⟨hd, hL⟩ := List.nodup_cons.1 hL
    have hfmt : fmtRec c (rewriteDivider clk d s) = if c = d then (dividerEffect clk d s).1 else fmtRec c s :=
      csGet_csSet _ _ _ _
    rw [rewriteDividers, ih hL, hfmt]
    by_cases h : c = d
    · subst h
      rw [if_neg hd, if_pos rfl, if_pos List.mem_cons_self]
    · simp only [dividerEffect_rewriteDivider s h, h, List.mem_cons, false_or, if_false]

/-! ### The loop of FQ2 -/

/-- F stands at the loop of FQ2, chip-select `k` the first it looks at, the new clock rate `clk` in place. -/
structure AtLoop (clk k : Nat) (s : State) : Prop where
  rate : s.clkRate = clk
  step : exec (.freqPost clk) s = .next (freqPostFrom k s)

section

variable {clk k : Nat} {s : State} {c : Cs} {sl : Slave} {rest : List Cs}

theorem atLoop_fqNext (hrate : s.clkRate = clk) (hat : s.seqF = .fqNext k) : AtLoop clk k s :=
  ⟨hrate, freqPost_fqNext clk s k hat⟩

/-- FQ3. -/
theorem AtLoop.finishes (h : AtLoop clk k s) (hnil : configuredFrom k s = []) :
    exec (.freqPost clk) s = .next (finish .freq 0 s) := by
  rw [h.step, freqPostFrom, nextConfigured_of_nil hnil]

/-- FQ2 at a chip-select whose frequency is out of the divider's domain. -/
theorem AtLoop.raises (h : AtLoop clk k s) (hc : configuredFrom k s = c :: rest) (hsl : slaveOf c s = some sl)
    (hdom : sl.hz = 0 ∨ clk < sl.hz) : exec (.freqPost clk) s = .next (raise .freq .dividerDomain s) := by
  rw [h.step, freqPostFrom, nextConfigured_of_cons hc hsl]
  exact congrArg _ (dividerRead_none (h.rate.symm ▸ hdom))

/-- FQ2 at a chip-select whose frequency is in the divider's domain. -/
theorem AtLoop.rewrites (h : AtLoop clk k s) (hc : configuredFrom k s = c :: rest) (hsl : slaveOf c s = some sl)
    (hp : prescale clk sl.hz ≠ none) : execs 2 (.freqPost clk) s = .next (rewriteDivider clk c s) := by
  obtain ⟨⟨p, floored⟩, hp⟩ := Option.ne_none_iff_exists'.1 hp
  have hread : exec (.freqPost clk) s =
      .next (goF (.fqW c (fmtRec c s) p) (readFmt .freq c (noteFloor .freq c floored s))) := by
    rw [h.step, freqPostFrom, nextConfigured_of_cons hc hsl]
    exact congrArg _ (dividerRead_some (h.rate.symm ▸ hp))
  rw [execs_succ hread, execs_succ (freqPost_fqW clk _ c _ p rfl), execs_zero, rewriteDivider, dividerEffect_of_prescale hsl hp]
  cases floored <;> simp [dividerWrite, writeFmt, readFmt, noteFloor, fmtRec, goF, record]

/-- The loop over a stretch of chip-selects whose frequencies are in the divider's domain. -/
theorem AtLoop.run {pre : List Cs} (h : AtLoop clk k s) (hL : configuredFrom k s = pre ++ rest)
    (hp : ∀ c ∈ pre, ∀ sl, slaveOf c s = some sl → prescale clk sl.hz ≠ none) :
    ∃ k', AtLoop clk k' (rewriteDividers clk pre s) ∧ configuredFrom k' (rewriteDividers clk pre s) = rest
      ∧ execs (2 * pre.length) (.freqPost clk) s = .next (rewriteDividers clk pre s) := by
  induction pre generalizing k s with
  | nil => exact ⟨k, h, hL, rfl⟩
  | cons c pre ih =>
    have hc : c ∈ configuredFrom k s := hL ▸ List.mem_cons_self
    simp only [configuredFrom, List.mem_filter, Bool.and_eq_true, isConfigured_iff] at hc
    obtain ⟨-, -, -, sl, hsl⟩ := hc
    have hstep := h.rewrites hL hsl (hp c List.mem_cons_self sl hsl)
    have hnext : AtLoop clk (c.toNat + 1) (rewriteDivider clk c s) := atLoop_fqNext h.rate rfl
    obtain ⟨k', hk', hrest, hrun⟩ := ih hnext (configuredFrom_succ hL) fun d hd => hp d (List.mem_cons_of_mem c hd)
    refine ⟨k', hk', hrest, ?_⟩
    rw [List.length_cons, Nat.mul_succ, Nat.add_comm, execs_add hstep, hrun]
    rfl

end

/-- FQ1: the new clock rate in place. -/
def withClkRate (clk : Nat) (s : State) : State := { s with clkRate := clk }

/-- From FQ1, F goes on as from the loop with the new clock rate in place. -/
theorem exec_withClkRate (clk : Nat) {s : State} (hat : s.seqF = .fq1) :
    exec (.freqPost clk) (withClkRate clk s) = exec (.freqPost clk) s := by
  rw [freqPost_fq1 clk s hat, freqPost_fq1 clk (withClkRate clk s) hat]
  rfl

theorem atLoop_fq1 (clk : Nat) {s : State} (hat : s.seqF = .fq1) : AtLoop clk 0 (withClkRate clk s) :=
  ⟨rfl, freqPost_fq1 clk (withClkRate clk s) hat⟩

/-- The chip-selects before the cut rewritten, then the loop's next step. -/
theorem execs_freqPost {clk : Nat} {s t : State} {pre rest : List Cs} (hat : s.seqF = .fq1)
    (hL : configuredFrom 0 s = pre ++ rest) (hp : ∀ c ∈ pre, ∀ sl, slaveOf c s = some sl → prescale clk sl.hz ≠ none)
    (hlast : ∀ k u, AtLoop clk k u → configuredFrom k u = rest → u = rewriteDividers clk pre (withClkRate clk s) →
      exec (.freqPost clk) u = .next t) :
    execs (2 * pre.length + 1) (.freqPost clk) s = .next t := by
  obtain ⟨k, hk, hrest, hrun⟩ := (atLoop_fq1 clk hat).run hL hp
  have hstart : execs (2 * pre.length + 1) (.freqPost clk) s =
      execs (2 * pre.length + 1) (.freqPost clk) (withClkRate clk s) := by
    simp only [execs, exec_withClkRate clk hat]
  rw [hstart, execs_add hrun, execs_succ (hlast k _ hk hrest rfl), execs_zero]

/-- Settles O44: the loop cut at its end or at the chip-select that raises the fault; what the rewriting leaves. -/
theorem freqPostRewritesDividers : Obligations.FreqPostRewritesDividers := by
  unfold Obligations.FreqPostRewritesDividers
  intro clk s hat rewritten
  refine ⟨fun hp => ?_, fun c sl p floored => dividerEffect_of_prescale, fun hnone => ?_, fun c sl hcs hsl hdom hp => ?_,
    fun c sl hcs hsl hnone hdom => ?_⟩
  · have hL : configuredFrom 0 s = configuredBelow 8 s ++ [] := by rw [configuredFrom_zero, List.append_nil]
    refine ⟨finish .freq 0 (rewriteDividers clk (configuredBelow 8 s) (withClkRate clk s)), ?_, ?_, ?_⟩
    · refine execs_freqPost hat hL (fun c hc sl hsl => hp c sl ((mem_configuredBelow 8 c s).1 hc).2.1 hsl) ?_
      rintro k u hk hnil rfl
      exact hk.finishes hnil
    · refine (congrArg (finish .freq 0) (rewriteDividers_rest (nodup_configuredBelow 8 s) (withClkRate clk s))).trans ?_
      rw [eventsBy_append, ← List.append_assoc]
      rfl
    · exact fmtRec_rewriteDividers (nodup_configuredBelow 8 s) (withClkRate clk s)
  · have hnil : configuredFrom 0 s = [] := by
      rw [configuredFrom_zero]
      exact configuredBelow_eq_nil fun c _ => hnone c
    rw [← exec_withClkRate clk hat]
    exact (atLoop_fq1 clk hat).finishes hnil
  · have hL := configuredFrom_zero_eq_append (isConfigured_iff.2 ⟨hcs, sl, hsl⟩)
    refine ⟨raise .freq .dividerDomain (rewriteDividers clk (configuredBelow c.toNat s) (withClkRate clk s)), ?_, ?_, ?_⟩
    · refine execs_freqPost hat hL (fun d hd sl' => hp d sl' ((mem_configuredBelow c.toNat d s).1 hd).1) ?_
      rintro k u hk hrest rfl
      refine hk.raises hrest ?_ hdom
      rw [rewriteDividers_rest (nodup_configuredBelow c.toNat s)]
      exact hsl
    · refine (congrArg (raise .freq .dividerDomain)
        (rewriteDividers_rest (nodup_configuredBelow c.toNat s) (withClkRate clk s))).trans ?_
      rw [eventsBy_append, ← List.append_assoc]
      rfl
    · exact fmtRec_rewriteDividers (nodup_configuredBelow c.toNat s) (withClkRate clk s)
  · have hL := configuredFrom_zero_eq_append (isConfigured_iff.2 ⟨hcs, sl, hsl⟩)
    rw [configuredBelow_eq_nil fun d hd _ => hnone d hd, List.nil_append] at hL
    rw [← exec_withClkRate clk hat]
    exact (atLoop_fq1 clk hat).raises hL hsl hdom

end Sys2Proof.Machine
end

section
/-!
SUPPORT and PROOF. CHIPSELECT's effect (41_chipselect.md R175-R177), what a step of it leaves unchanged, and the obligations O22
and O54.
-/

namespace Sys2Proof.Machine

open Sys2Proof

/-! ### The effect of CHIPSELECT -/

/-- CS1 of a valid chip-select while the port is not suspended: the end on activation, D1 on deactivation. -/
theorem chipselectFirst_valid {cs : Cs} {s : State} (act : Bool) (hcs : cs.toNat < s.params.numCs)
    (hrun : s.suspended = false) :
    chipselectFirst cs act s =
      if act then finish .queue 0 s else goQ (.d2 s.regrec.dflt) (readDef .queue s) := by
  rw [chipselectFirst, if_neg (Nat.not_le.2 hcs), hrun, if_neg (by decide)]

/-- What D1 to D3 leave: `DEF.CSDEF` and the deselect word written, Q at the poll. -/
def afterDeselectWrites (s : State) : State :=
  let d := { s.regrec.dflt with csdef := some Config.csDefault }
  { s with
    seqQ := .d4
    regrec := { s.regrec with dflt := d, dat := some (deselectWord s.params) }
    hist := s.hist ++ eventsBy .queue
      [.rd .dflt (.dflt s.regrec.dflt), .wr .dflt (.dflt d), .wr .dat (.word (deselectWord s.params))] }

theorem execs_deselectWrites {cs : Cs} {s : State} (hat : s.seqQ = .cs1) (hcs : cs.toNat < s.params.numCs)
    (hrun : s.suspended = false) : execs 3 (.chipselect cs false) s = .next (afterDeselectWrites s) := by
  have hfirst := chipselect_cs1 cs false s hat
  rw [chipselectFirst_valid false hcs hrun, if_neg (by decide)] at hfirst
  rw [execs_succ hfirst, execs_succ (chipselect_d2 cs false _ _ rfl), execs_succ (chipselect_d3 cs false _ rfl)]
  simp only [execs_zero, afterDeselectWrites, goQ, readDef, writeDef, writeDat, record, eventsBy_cons, eventsBy_nil,
    List.append_assoc, List.cons_append, List.nil_append]

/-- D4 until `BUF` reads `RXEMPTY = 1`, then the end. -/
theorem execs_deselectPoll {cs : Cs} {act : Bool} {k : Nat} {s : State} (hat : s.seqQ = .d4)
    (hwait : ∀ j, j < k → bufRxEmpty s.params (wordAt j s.env) = false)
    (hready : bufRxEmpty s.params (wordAt k s.env) = true) :
    execs (k + 2) (.chipselect cs act) s = .next (finish .queue 0 (afterPoll .cs5 (k + 1) s)) := by
  have hpoll : execs (k + 1 + 1) (.chipselect cs act) s = execs 1 _ (afterPoll .cs5 (k + 1) s) :=
    execs_poll k 1 (fun u hu _ _ => chipselect_d4 cs act u hu) hat hwait hready
  rw [hpoll, execs_succ (chipselect_cs5 cs act _ rfl), execs_zero]

/-- Settles O22: the first step decides; on deactivation the two writes, the poll and the end follow. -/
theorem chipselectEffect : Obligations.ChipselectEffect := by
  unfold Obligations.ChipselectEffect
  intro cs s hat
  refine ⟨fun hcs act => ?_, fun hcs hrun => ?_, fun k hcs hrun hwait hready => ?_⟩
  · rw [chipselect_cs1 cs act s hat, chipselectFirst, if_pos hcs]
  · rw [chipselect_cs1 cs true s hat, chipselectFirst_valid true hcs hrun, if_pos rfl]
    rfl
  · have hpoll := execs_deselectPoll (cs := cs) (act := false) (s := afterDeselectWrites s) rfl hwait hready
    have hlen : k + 5 = 3 + (k + 2) := by omega
    rw [hlen, execs_add (execs_deselectWrites hat hcs hrun), hpoll]
    simp only [eventsBy_append, ← List.append_assoc]
    rfl

/-! ### The frame of CHIPSELECT -/

/-- What a step of CHIPSELECT may do: the state differs in port Q's `RES` and `BUSY`, Q's position, `DEF`, `DAT`, the fault, the
history and the answers taken alone. -/
def ChipselectKeeps (s t : State) : Prop :=
  t = { s with
    portQ := { s.portQ with res := t.portQ.res, busy := t.portQ.busy }
    seqQ := t.seqQ
    regrec := { s.regrec with dflt := t.regrec.dflt, dat := t.regrec.dat }
    fault := t.fault
    hist := t.hist
    env := { s.env with words := t.env.words, draws := t.env.draws } }

theorem chipselectFirst_keeps (cs : Cs) (act : Bool) (s : State) : ChipselectKeeps s (chipselectFirst cs act s) := by
  unfold chipselectFirst
  split
  · rfl
  split
  · rfl
  split <;> rfl

/-- Taking the answer to a volatile read touches the answers laid down for it and the counter of free values alone. -/
theorem envDropWord_rest (e : Env) :
    envDropWord e = { e with words := (envDropWord e).words, draws := (envDropWord e).draws } := by
  unfold envDropWord
  split <;> rfl

theorem chipselectKeeps_readVolatile (r : Reg) (l : QSeq) (s : State) : ChipselectKeeps s (goQ l (readVolatile .queue r s)) :=
  congrArg (fun e => goQ l (record .queue (.rd r (.word (nextWord s))) { s with env := e })) (envDropWord_rest s.env)

theorem chipselectStep_keeps {cs : Cs} {act : Bool} {s t : State} (h : chipselectStep cs act s = some t) :
    ChipselectKeeps s t := by
  unfold chipselectStep at h
  split at h <;> cases h
  next => exact chipselectFirst_keeps cs act s
  next => rfl
  next => rfl
  next => exact chipselectKeeps_readVolatile .buf _ s
  next => rfl

/-- Settles O54: each step of CHIPSELECT, and the state left as it is where it has none. -/
theorem chipselectFrame : Obligations.ChipselectFrame := by
  unfold Obligations.ChipselectFrame
  intro cs act s
  have h : ChipselectKeeps s ((chipselectStep cs act s).getD s) := getD_of_forall rfl fun _ => chipselectStep_keeps
  exact ⟨_, rfl, h, fun a => by rw [h]⟩

end Sys2Proof.Machine
end

section
/-!
SUPPORT and PROOF. TRANSFER's checks (42_transfer.md R190-R192), and the obligation O24.
-/

namespace Sys2Proof.Machine

open Sys2Proof

/-! ### T7 and T8 -/

theorem oddBuffer_iff (b : Option Word) : oddBuffer b = true ↔ ∃ a, b = some a ∧ a.toNat % 2 = 1 := by
  cases b <;> simp [oddBuffer]

/-- A buffer of the transfer is at an odd address. -/
theorem oddBuffers_iff (tx rx : Option Word) :
    (oddBuffer tx = true ∨ oddBuffer rx = true) ↔ ∃ a, (tx = some a ∨ rx = some a) ∧ a.toNat % 2 = 1 := by
  simp only [oddBuffer_iff, or_and_right, exists_or]

section

variable {cs : Cs} {tx rx : Option Word} {len : Nat} {bits hz : Option Nat} {sl : Slave} {s : State}

theorem transferFault_of_remainder (h : len % sl.bpw ≠ 0) : transferFault sl cs tx rx len s = some .lenNotMultiple :=
  if_pos h

theorem transferFault_of_odd (hlen : len % sl.bpw = 0) (hbpw : sl.bpw = 2)
    (hodd : ∃ a, (tx = some a ∨ rx = some a) ∧ a.toNat % 2 = 1) : transferFault sl cs tx rx len s = some .misaligned := by
  rw [transferFault, if_neg (not_not.2 hlen), if_pos ⟨hbpw, (oddBuffers_iff tx rx).2 hodd⟩]

/-- Where T7 passes, T8 decides, with the DMA strategy alone. -/
theorem transferFault_of_aligned (hlen : len % sl.bpw = 0)
    (heven : sl.bpw = 2 → ∀ a, (tx = some a ∨ rx = some a) → a.toNat % 2 = 0) :
    transferFault sl cs tx rx len s =
      if s.params.useDma then
        if (dmaOf cs s).rxCh = none then some .dmaUnallocated
        else if len / sl.bpw = 0 then some .dmaZeroCount
        else if tx = none ∧ s.params.scratchBytes < (len / sl.bpw + 1) * sl.bpw then some .scratchTooSmall
        else none
      else none := by
  have hodd : ¬ (sl.bpw = 2 ∧ (oddBuffer tx = true ∨ oddBuffer rx = true)) := by
    rintro ⟨hbpw, h⟩
    obtain ⟨a, ha, hone⟩ := (oddBuffers_iff tx rx).1 h
    have := heven hbpw a ha
    omega
  rw [transferFault, if_neg (not_not.2 hlen), if_neg hodd]

theorem transferFault_eq_none (h : transferFits cs tx rx len sl s) : transferFault sl cs tx rx len s = none := by
  obtain ⟨-, hlen, heven, hdma⟩ := h
  rw [transferFault_of_aligned hlen fun hbpw a ha => ha.elim ((heven hbpw).1 a) ((heven hbpw).2 a)]
  split
  next huse =>
    obtain ⟨hch, hcount, hscratch⟩ := hdma huse
    rw [if_neg hch, if_neg hcount, if_neg fun hn => Nat.not_lt.2 (hscratch hn.1) hn.2]
  next => rfl

/-- T7 or T8 refuses: the step raises the fault. -/
theorem exec_transfer_of_fault {r : FaultReason} (h : transferAtT7 cs tx rx len bits hz s) (hsl : slaveOf cs s = some sl)
    (hf : transferFault sl cs tx rx len s = some r) :
    exec (.transfer cs tx rx len bits hz) s = .next (raise .queue r s) := by
  rw [exec_transferAtT7 h hsl, transferEnter, hsl]
  simp only [hf]

/-- T7 and T8 pass: the step goes on to the engine of the strategy on the context T9 prepares. -/
theorem exec_transfer_of_fits (h : transferAtT7 cs tx rx len bits hz s) (hfits : transferFits cs tx rx len sl s) :
    exec (.transfer cs tx rx len bits hz) s = .next (transferDispatch cs (transferContext sl cs tx rx len s)) := by
  rw [exec_transferAtT7 h hfits.1, transferEnter, hfits.1]
  simp only [transferFault_eq_none hfits]

/-! ### T1 to T5 -/

/-- T1 to T3 pass: T4 and T5, the checks of `Configure` where an override is present, else T7. -/
theorem transferFirst_of_configured (hcs : cs.toNat < s.params.numCs) (hrun : s.suspended = false)
    (hsl : slaveOf cs s = some sl) :
    transferFirst cs tx rx len bits hz s =
      if tx = none ∧ rx = none then raise .queue .noBuffers s
      else if 0x7FFFFFFF < len then finish .queue (errWord .inval) s
      else if bits.isSome ∨ hz.isSome then
        (configureStart cs bits hz .t6 s).getD (finish .queue (errWord .inval) s)
      else transferEnter cs tx rx len s := by
  rw [transferFirst, if_neg (Nat.not_le.2 hcs), hrun, if_neg (by decide), if_neg (by rw [hsl]; exact nofun)]

end

/-- Settles O24: the checks of the first step, each reached where those before it pass, then those of T7 and T8. -/
theorem transferChecksInOrder : Obligations.TransferChecksInOrder := by
  unfold Obligations.TransferChecksInOrder
  intro cs tx rx len bits hz s
  refine ⟨fun hat => ?_, fun hat sl hsl => ?_⟩
  · rw [transfer_t1 cs tx rx len bits hz s hat]
    refine ⟨fun hcs => ?_, fun hcs hsus => ?_, fun hcs hrun hsl => ?_, fun sl hcs hrun hsl => ?_⟩
    · rw [transferFirst, if_pos hcs]
    · rw [transferFirst, if_neg (Nat.not_le.2 hcs), if_pos hsus]
    · rw [transferFirst, if_neg (Nat.not_le.2 hcs), hrun, if_neg (by decide), if_pos hsl]
    · have hbuf (h : tx ≠ none ∨ rx ≠ none) : ¬ (tx = none ∧ rx = none) := not_and_or.2 h
      rw [transferFirst_of_configured hcs hrun hsl]
      refine ⟨fun htx hrx => ?_, fun h hlen => ?_, fun h hlen hov hbad => ?_⟩
      · rw [if_pos ⟨htx, hrx⟩]
      · rw [if_neg (hbuf h), if_pos hlen]
      · have hover : bits.isSome ∨ hz.isSome := by simpa only [Option.isSome_iff_ne_none] using hov
        have hnone : configureStart cs bits hz .t6 s = none := by
          rw [configureStart_none_iff]
          intro sl' hsl'
          cases hsl.symm.trans hsl'
          exact hbad
        rw [if_neg (hbuf h), if_neg (Nat.not_lt.2 hlen), if_pos hover, hnone, Option.getD_none]
  · refine ⟨fun hrem => ?_, fun hlen hbpw hodd => ?_, fun hlen heven huse => ?_⟩
    · exact exec_transfer_of_fault hat hsl (transferFault_of_remainder hrem)
    · exact exec_transfer_of_fault hat hsl (transferFault_of_odd hlen hbpw hodd)
    · have hfault := transferFault_of_aligned (cs := cs) (s := s) hlen heven
      rw [if_pos huse] at hfault
      refine ⟨fun hch => ?_, fun hch hcount => ?_, fun hch hcount htx hsmall => ?_⟩
      · rw [if_pos hch] at hfault
        exact exec_transfer_of_fault hat hsl hfault
      · rw [if_neg hch, if_pos hcount] at hfault
        exact exec_transfer_of_fault hat hsl hfault
      · rw [if_neg hch, if_neg hcount, if_pos ⟨htx, hsmall⟩] at hfault
        exact exec_transfer_of_fault hat hsl hfault

end Sys2Proof.Machine
end

section
/-!
SUPPORT and PROOF. `ModeConfig` inside both transfer engines (42_transfer.md R201), the engines' entries (42_transfer.md R195,
R196; 43_pio.md R210, R212; 44_dma.md R241), and the obligations O26 and O32.
-/

namespace Sys2Proof.Machine

open Sys2Proof

/-! ### `ModeConfig` (42_transfer.md R201) -/

/-- `GCR` with `LOOPBACK` as the mode flags say. -/
def modeGcr (mode : Byte) (t : GcrRec) : GcrRec := { t with loopback := some (modeLoop mode) }

/-- `PC` as the mode flags say. -/
def modePc (mode : Byte) (t : PcRec) : PcRec :=
  { t with handshake := some (modeReady mode), threewire := some (modeThreeWire mode) }

/-- The events of `ModeConfig` on the registers `r`. -/
def modeEvents (mode : Byte) (r : RegRec) : List Ev :=
  [.rd .gcr (.gcr r.gcr), .wr .gcr (.gcr (modeGcr mode r.gcr)), .rd .pc (.pc r.pc), .wr .pc (.pc (modePc mode r.pc))]

/-- What `ModeConfig` with the mode flags `mode` leaves, Q at `l` after it. -/
def afterMode (mode : Byte) (l : QSeq) (s : State) : State :=
  { s with
    seqQ := l
    regrec := { s.regrec with gcr := modeGcr mode s.regrec.gcr, pc := modePc mode s.regrec.pc }
    hist := s.hist ++ eventsBy .queue (modeEvents mode s.regrec) }

/-- Where Q stands inside `ModeConfig`, wrapped by `wrap`, command `i` goes on with it and then at `next`. -/
def RunsMode (i : Instr) (wrap : ModeSeq → QSeq) (next : QSeq) : Prop :=
  ∀ (m : ModeSeq) (u : State), m ≠ .m1 → u.seqQ = wrap m → exec i u = .next (modeStep u.xf.cs m wrap next u)

/-- The engine flags of two states agree (10_state.md R25, R31). -/
structure SameFlags (s t : State) : Prop where
  inUse : t.inUse = s.inUse := by rfl
  done : t.done = s.done := by rfl
  mode : t.xf.mode = s.xf.mode := by rfl

theorem SameFlags.trans {s t u : State} (h : SameFlags s t) (h' : SameFlags t u) : SameFlags s u :=
  ⟨h'.inUse.trans h.inUse, h'.done.trans h.done, h'.mode.trans h.mode⟩

section

variable {i : Instr} {wrap : ModeSeq → QSeq} {next : QSeq} {s u : State}

/-- The states `ModeConfig` passes through, from the state `s` whose step is M1 on `u`. -/
theorem RunsMode.steps (hi : RunsMode i wrap next) (hread : exec i s = .next (modeStep u.xf.cs .m1 wrap next u)) :
    ∃ u₁ u₂ u₃, exec i s = .next u₁ ∧ exec i u₁ = .next u₂ ∧ exec i u₂ = .next u₃
      ∧ exec i u₃ = .next (afterMode (slaveMode u.xf.cs u) next u)
      ∧ SameFlags u u₁ ∧ SameFlags u u₂ ∧ SameFlags u u₃ := by
  refine ⟨_, _, _, hread, hi (.m2 _) _ nofun rfl, hi .m3 _ nofun rfl, (hi (.m4 _) _ nofun rfl).trans ?_, {}, {}, {}⟩
  simp [modeStep, afterMode, modeEvents, modeGcr, modePc, goQ, writePc, readPc, writeGcr, readGcr, record, slaveMode, slaveOf]

theorem RunsMode.execs_mode (hi : RunsMode i wrap next) (hread : exec i s = .next (modeStep u.xf.cs .m1 wrap next u)) :
    execs 4 i s = .next (afterMode (slaveMode u.xf.cs u) next u) := by
  obtain ⟨u₁, u₂, u₃, h₁, h₂, h₃, h₄, -⟩ := hi.steps hread
  rw [execs_succ h₁, execs_succ h₂, execs_succ h₃, execs_succ h₄, execs_zero]

/-- No step of `ModeConfig` touches the engine flags. -/
theorem RunsMode.keeps_flags (hi : RunsMode i wrap next) (hread : exec i s = .next (modeStep u.xf.cs .m1 wrap next u))
    (hu : SameFlags s u) {j : Nat} (hj : j ≤ 4) : ∃ t, execs j i s = .next t ∧ SameFlags s t := by
  obtain ⟨u₁, u₂, u₃, h₁, h₂, h₃, h₄, f₁, f₂, f₃⟩ := hi.steps hread
  interval_cases j
  · exact ⟨s, rfl, {}⟩
  · exact ⟨u₁, by rw [execs_succ h₁, execs_zero], hu.trans f₁⟩
  · exact ⟨u₂, by rw [execs_succ h₁, execs_succ h₂, execs_zero], hu.trans f₂⟩
  · exact ⟨u₃, by rw [execs_succ h₁, execs_succ h₂, execs_succ h₃, execs_zero], hu.trans f₃⟩
  · exact ⟨_, hi.execs_mode hread, hu.trans {}⟩

end

section

variable {cs : Cs} {tx rx : Option Word} {len : Nat} {bits hz : Option Nat} {sl : Slave} {s : State}

theorem pio_runsMode : RunsMode (.transfer cs tx rx len bits hz) (fun m => .pio (.mode m)) (.pio .p5) :=
  fun m u _ h => by simp only [exec, execTransfer, transferStep, pioStep, h, Option.getD_some]

theorem dma_runsMode : RunsMode (.transfer cs tx rx len bits hz) (fun m => .dma (.mode m)) (.dma .g6) :=
  fun m u hm h => by
    cases m with
    | m1 => exact absurd rfl hm
    | m2 | m3 | m4 => simp only [exec, execTransfer, transferStep, dmaStep, h, Option.getD_some]

/-! ### T9 (42_transfer.md R190, R195) -/

/-- The context T9 prepares, written out. -/
theorem transferContext_eq : transferContext sl cs tx rx len s = { s with
    slave := csSet s.slave cs (some { sl with cmdBase := some (cmdBase s.params cs) })
    xf := checkedContext cs tx rx len sl s } := rfl

/-- The mode flags `ModeConfig` reads are those of the record T9 leaves. -/
theorem slaveMode_transferContext :
    slaveMode (transferContext sl cs tx rx len s).xf.cs (transferContext sl cs tx rx len s) = sl.mode := by
  simp only [slaveMode, slaveOf, transferContext_eq, checkedContext, csGet_csSet_same, Option.map_some, Option.getD_some]

/-! ### The PIO engine's entry (43_pio.md R210, R212) -/

/-- A TRANSFER at T7 with the PIO strategy: the first step is T9 and M1. -/
theorem exec_pioEntry (hat : transferAtT7 cs tx rx len bits hz s) (hfits : transferFits cs tx rx len sl s)
    (hpio : s.params.useDma = false) :
    exec (.transfer cs tx rx len bits hz) s =
      .next (modeStep cs .m1 (fun m => .pio (.mode m)) (.pio .p5) (transferContext sl cs tx rx len s)) := by
  rw [exec_transfer_of_fits hat hfits, transferDispatch, if_neg]
  exact Bool.eq_false_iff.1 hpio

/-- The first four steps: the context and `ModeConfig`. -/
theorem execs_pioMode (hat : transferAtT7 cs tx rx len bits hz s) (hfits : transferFits cs tx rx len sl s)
    (hpio : s.params.useDma = false) :
    execs 4 (.transfer cs tx rx len bits hz) s =
      .next (afterMode sl.mode (.pio .p5) (transferContext sl cs tx rx len s)) := by
  have h := pio_runsMode.execs_mode (exec_pioEntry hat hfits hpio)
  rwa [slaveMode_transferContext] at h

/-- The fifth: `E0` alone. -/
theorem execs_pioE0 (hat : transferAtT7 cs tx rx len bits hz s) (hfits : transferFits cs tx rx len sl s)
    (hpio : s.params.useDma = false) :
    execs 5 (.transfer cs tx rx len bits hz) s =
      .next (goQ (.pio .p6) (engineEntry (pioPolicy s.params (checkedContext cs tx rx len sl s))
        (afterMode sl.mode (.pio .p5) (transferContext sl cs tx rx len s)))) := by
  rw [execs_add (n := 1) (execs_pioMode hat hfits hpio), execs_succ (transfer_p5 cs tx rx len bits hz _ rfl), execs_zero]
  rfl

/-- What P6 to P8 leave: the controller enabled and `DELAY` written, Q at the poll P9. -/
def afterEnable (s : State) : State :=
  let g := { s.regrec.gcr with enable := some true }
  { s with
    seqQ := .pio .p9
    regrec := { s.regrec with gcr := g, delay := some s.params.delayWord }
    hist := s.hist ++ eventsBy .queue
      [.rd .gcr (.gcr s.regrec.gcr), .wr .gcr (.gcr g), .wr .delay (.delay (some s.params.delayWord))] }

theorem execs_enable (hat : s.seqQ = .pio .p6) :
    execs 3 (.transfer cs tx rx len bits hz) s = .next (afterEnable s) := by
  rw [execs_succ (transfer_p6 cs tx rx len bits hz s hat), execs_succ (transfer_p7 cs tx rx len bits hz _ _ rfl),
    execs_succ (transfer_p8 cs tx rx len bits hz _ rfl), execs_zero]
  simp only [afterEnable, goQ, writeDelay, writeGcr, readGcr, record, eventsBy_cons, eventsBy_nil, List.append_assoc,
    List.cons_append, List.nil_append]

/-- P9 until `BUF` reads `RXEMPTY = 1`, then the head of the mode's loop. -/
theorem execs_pioPoll {k : Nat} (hat : s.seqQ = .pio .p9) (hwait : ∀ j, j < k → bufRxEmpty s.params (wordAt j s.env) = false)
    (hready : bufRxEmpty s.params (wordAt k s.env) = true) :
    execs (k + 1) (.transfer cs tx rx len bits hz) s = .next (afterPoll (.pio (pioLoop s.xf.mode)) (k + 1) s) := by
  refine execs_poll k 0 (fun u hu _ hxf => ?_) hat hwait hready
  rw [transfer_p9 cs tx rx len bits hz u hu, hxf]
  cases bufRxEmpty u.params (nextWord u) <;> rfl

/-- `GCR` as the PIO engine's entry leaves it. -/
def enabledGcr (mode : Byte) (t : GcrRec) : GcrRec := { modeGcr mode t with enable := some true }

/-- The events of the PIO engine's entry, with `k` reads of `RXEMPTY = 0`. -/
def pioEntryEvents (mode : Byte) (k : Nat) (s : State) : List Ev :=
  modeEvents mode s.regrec
    ++ [.rd .gcr (.gcr (modeGcr mode s.regrec.gcr)), .wr .gcr (.gcr (enabledGcr mode s.regrec.gcr)),
        .wr .delay (.delay (some s.params.delayWord))]
    ++ bufReads 0 (k + 1) s.env

/-- The state at the head of the policy's loop after `k` reads with `RXEMPTY = 0`. -/
def afterPioEntry (cs : Cs) (tx rx : Option Word) (len : Nat) (sl : Slave) (k : Nat) (s : State) : State :=
  let policy := pioPolicy s.params (checkedContext cs tx rx len sl s)
  { s with
    seqQ := .pio (pioLoop policy)
    inUse := true
    done := false
    slave := csSet s.slave cs (some { sl with cmdBase := some (cmdBase s.params cs) })
    xf := { checkedContext cs tx rx len sl s with mode := policy }
    regrec := { s.regrec with
      gcr := enabledGcr sl.mode s.regrec.gcr
      pc := modePc sl.mode s.regrec.pc
      delay := some s.params.delayWord }
    hist := s.hist ++ eventsBy .queue (pioEntryEvents sl.mode k s)
    env := dropWords (k + 1) s.env }

theorem execs_pioEntry {k : Nat} (hat : transferAtT7 cs tx rx len bits hz s) (hfits : transferFits cs tx rx len sl s)
    (hpio : s.params.useDma = false) (hwait : ∀ j, j < k → bufRxEmpty s.params (wordAt j s.env) = false)
    (hready : bufRxEmpty s.params (wordAt k s.env) = true) :
    execs (k + 9) (.transfer cs tx rx len bits hz) s = .next (afterPioEntry cs tx rx len sl k s) := by
  have hsum : k + 9 = 5 + (3 + (k + 1)) := by omega
  rw [hsum, execs_add (execs_pioE0 hat hfits hpio), execs_add (execs_enable rfl)]
  refine (execs_pioPoll rfl (by exact hwait) (by exact hready)).trans ?_
  simp only [afterPoll, afterEnable, afterMode, afterPioEntry, pioEntryEvents, enabledGcr, transferContext_eq, engineEntry,
    goQ, eventsBy_append, List.append_assoc]

/-- The head of the policy's loop (43_pio.md R212). -/
theorem pioLoop_pioPolicy (c : Params) (x : Xfer) :
    pioLoop (pioPolicy c x) = if x.tx.isSome then .l0 0 else if c.pollMode then .r0 0 else .i0 0 := by
  unfold pioPolicy
  split
  · rfl
  · split <;> rfl

/-! ### The DMA engine's entry (44_dma.md R241) -/

/-- A TRANSFER at T7 with the DMA strategy: the first step is T9 and `E0`. -/
theorem exec_dmaEntry (hat : transferAtT7 cs tx rx len bits hz s) (hfits : transferFits cs tx rx len sl s)
    (hdma : s.params.useDma = true) :
    exec (.transfer cs tx rx len bits hz) s =
      .next (goQ (.dma (.mode .m1)) (engineEntry .dma (transferContext sl cs tx rx len s))) := by
  rw [exec_transfer_of_fits hat hfits, transferDispatch, if_pos]
  exact hdma

/-- M1 of a width that has a transfer unit (44_dma.md R242). -/
theorem dmaModeRead_of_bpw (h : s.xf.bpw = 1 ∨ s.xf.bpw = 2) :
    dmaModeRead s = modeStep s.xf.cs .m1 (fun m => .dma (.mode m)) (.dma .g6) s := by
  unfold dmaModeRead
  obtain h | h := h <;> simp only [h, dmaUnit]

theorem execs_dmaMode (hat : s.seqQ = .dma (.mode .m1)) (hbpw : s.xf.bpw = 1 ∨ s.xf.bpw = 2) :
    execs 4 (.transfer cs tx rx len bits hz) s = .next (afterMode (slaveMode s.xf.cs s) (.dma .g6) s) :=
  dma_runsMode.execs_mode ((transfer_dma_m1 cs tx rx len bits hz s hat).trans (congrArg _ (dmaModeRead_of_bpw hbpw)))

/-- G6 and G7: all interrupt sources off. -/
theorem execs_sourcesOff (hat : s.seqQ = .dma .g6) :
    execs 2 (.transfer cs tx rx len bits hz) s = .next { s with
      seqQ := .dma .g8
      regrec := { s.regrec with int := withSourcesOff s.regrec.int }
      hist := s.hist ++ eventsBy .queue [.rd .int (.int s.regrec.int), .wr .int (.int (withSourcesOff s.regrec.int))] } := by
  rw [execs_succ (transfer_g6 cs tx rx len bits hz s hat), execs_succ (transfer_g7 cs tx rx len bits hz _ _ rfl), execs_zero]
  simp only [goQ, writeInt, readInt, record, eventsBy_cons, eventsBy_nil, List.append_assoc, List.cons_append, List.nil_append]

end

/-- Settles O26: the context and `ModeConfig`, `E0`, then the controller enabled and the poll. -/
theorem pioEntrySequence : Obligations.PioEntrySequence := by
  unfold Obligations.PioEntrySequence
  intro cs tx rx len bits hz sl s hat hfits hpio g1 g2 p1 policy prepared events
  refine ⟨fun j hj => ?_, execs_pioMode hat hfits hpio, execs_pioE0 hat hfits hpio, fun k hwait hready => ?_⟩
  · obtain ⟨t, ht, hflags⟩ := pio_runsMode.keeps_flags (exec_pioEntry hat hfits hpio) {} hj
    exact ⟨t, ht, hflags.inUse, hflags.done, hflags.mode⟩
  · rw [execs_pioEntry hat hfits hpio hwait hready, afterPioEntry, pioLoop_pioPolicy]
    rfl

/-- Settles O32: `E0` on the context of T9, then `ModeConfig` and the interrupt sources off. -/
theorem dmaEntrySequence : Obligations.DmaEntrySequence := by
  unfold Obligations.DmaEntrySequence
  intro cs tx rx len bits hz sl s hat hfits hdma hbpw g1 p1 off prepared
  have hentry := exec_dmaEntry hat hfits hdma
  let u := goQ (.dma (.mode .m1)) (engineEntry .dma (transferContext sl cs tx rx len s))
  have hmode : slaveMode u.xf.cs u = sl.mode := slaveMode_transferContext
  refine ⟨hentry, ?_⟩
  rw [execs_succ hentry, execs_add (n := 2) (execs_dmaMode (s := u) rfl hbpw), hmode, execs_sourcesOff rfl]
  simp only [u, afterMode, transferContext_eq, engineEntry, goQ, List.append_assoc, ← eventsBy_append]
  rfl

end Sys2Proof.Machine
end

section
/-!
SUPPORT and PROOF. A transmit-only PIO transfer from its issue to its end (42_transfer.md R198-R202, 43_pio.md R213), and the
obligation O31.
-/

namespace Sys2Proof.Machine

open Sys2Proof

/-! ### Stretches of a run that store nothing -/

/-- The event is no write of host memory. -/
def isNoStore : Ev → Bool
  | .mwr _ _ _ => false
  | _ => true

/-- No event of the row is a write of host memory. -/
def storeFree (es : List Ev) : Bool := es.all isNoStore

@[simp] theorem storeFree_nil : storeFree [] = true := rfl

@[simp] theorem storeFree_cons (e : Ev) (es : List Ev) : storeFree (e :: es) = (isNoStore e && storeFree es) := rfl

@[simp] theorem storeFree_append (es fs : List Ev) : storeFree (es ++ fs) = (storeFree es && storeFree fs) := List.all_append

@[simp] theorem storeFree_bufReads (f k : Nat) (e : Env) : storeFree (bufReads f k e) = true := by
  simp only [storeFree, bufReads, List.all_map, List.all_eq_true, Function.comp_apply, isNoStore, implies_true]

theorem mwr_not_mem_of_storeFree {es : List Ev} (h : storeFree es = true) (g : Agent) (x n : Nat) (v : Half) :
    (⟨g, .mwr x n v⟩ : Event) ∉ eventsBy .queue es := fun hmem => by
  obtain ⟨e, he, heq⟩ := List.mem_map.1 hmem
  cases heq
  exact Bool.noConfusion (List.all_eq_true.1 h _ he)

/-- From `s` to `t` Q has stored nothing: memory and the fault are as they were, and the events added store nothing. -/
structure NothingStored (s t : State) : Prop where
  params : t.params = s.params := by rfl
  fault : t.fault = s.fault := by rfl
  mem : t.mem = s.mem := by rfl
  events : ∃ es, storeFree es = true ∧ t.hist = s.hist ++ eventsBy .queue es

theorem NothingStored.refl (s : State) : NothingStored s s where
  events := ⟨[], rfl, (List.append_nil _).symm⟩

theorem NothingStored.trans {s t u : State} (h : NothingStored s t) (h' : NothingStored t u) : NothingStored s u where
  params := h'.params.trans h.params
  fault := h'.fault.trans h.fault
  mem := h'.mem.trans h.mem
  events := by
    obtain ⟨es, hes, hs⟩ := h.events
    obtain ⟨fs, hfs, ht⟩ := h'.events
    exact ⟨es ++ fs, by rw [storeFree_append, hes, hfs, Bool.and_self], by rw [ht, hs, eventsBy_append, List.append_assoc]⟩

theorem nothingStored_pioEntry (cs : Cs) (tx rx : Option Word) (len : Nat) (sl : Slave) (k : Nat) (s : State) :
    NothingStored s (afterPioEntry cs tx rx len sl k s) where
  events := ⟨_, by simp [pioEntryEvents, modeEvents, isNoStore], rfl⟩

theorem nothingStored_transmit (i k m : Nat) (a : Word) (s : State) : NothingStored s (afterTransmit i k m a s) where
  events := ⟨_, by simp [transmitEvents, isNoStore], rfl⟩

theorem nothingStored_exit (r : Word) (s : State) : NothingStored s (engineExit r (statusRead s)) := by
  rw [engineExit_statusRead]
  exact { events := ⟨_, by simp [isNoStore], rfl⟩ }

/-! ### The words -/

/-- The controller answers both polls of each of the next `n` words at once (43_pio.md R213). -/
def AnswersAtOnce (c : Params) (n : Nat) (e : Env) : Prop :=
  ∀ i, i < n → bufTxFull c (wordAt (2 * i) e) = false ∧ bufRxEmpty c (wordAt (2 * i + 1) e) = false

theorem AnswersAtOnce.tail {c : Params} {n : Nat} {e : Env} (h : AnswersAtOnce c (n + 1) e) :
    AnswersAtOnce c n (dropWords 2 e) := fun i hi => by
  obtain ⟨hfree, hready⟩ := h (i + 1) (Nat.succ_lt_succ hi)
  have hindex : 2 * (i + 1) = 2 + 2 * i := by omega
  rw [hindex] at hfree hready
  rw [wordAt_dropWords, wordAt_dropWords, ← Nat.add_assoc]
  exact ⟨hfree, hready⟩

section

variable {cs : Cs} {tx rx : Option Word} {len : Nat} {bits hz : Option Nat} {s : State}

/-- The words of the transmit buffer at `a` up to the count are admitted (20_memory.md R71). -/
def WordsAdmitted (a : Word) (s : State) : Prop :=
  ∀ i, i < s.xf.count → admitted s (wordAddr a i s.xf.bpw) s.xf.bpw = true

theorem wordsAdmitted_of_count {a : Word} (htx : s.xf.tx = some a)
    (hbpw : s.xf.bpw = 1 ∨ (s.xf.bpw = 2 ∧ a.toNat % 2 = 0)) (hcount : s.xf.count * s.xf.bpw ≤ s.xf.len)
    (htop : a.toNat + s.xf.len ≤ 2 ^ 32) : WordsAdmitted a s :=
  fun _ hi => admitted_txWord htx hbpw ((Nat.mul_le_mul_right _ hi).trans hcount) htop

/-- What `n` words sent without a receive buffer leave: `2n` answers taken, the context as it was, nothing stored. -/
structure WordsSent (n : Nat) (s t : State) : Prop extends NothingStored s t where
  xf : t.xf = s.xf
  env : t.env = dropWords (2 * n) s.env

/-- `n` words, four steps each, the loop counter `n` further. -/
theorem execs_sendWords {i n : Nat} {a : Word} (hat : s.seqQ = .pio (.l0 i)) (hn : i + n ≤ s.xf.count)
    (htx : s.xf.tx = some a) (hrx : s.xf.rx = none) (had : WordsAdmitted a s) (hans : AnswersAtOnce s.params n s.env) :
    ∃ t, execs (4 * n) (.transfer cs tx rx len bits hz) s = .next t ∧ t.seqQ = .pio (.l0 (i + n)) ∧ WordsSent n s t := by
  induction n generalizing i s with
  | zero => exact ⟨s, rfl, hat, .refl s, rfl, rfl⟩
  | succ n ih =>
    obtain ⟨hfree, hready⟩ := hans 0 (Nat.succ_pos n)
    have hi : i < s.xf.count := by omega
    have hsend : execs 4 (.transfer cs tx rx len bits hz) s = .next (afterTransmit i 0 0 a s) :=
      execs_transmit (k := 0) (m := 0) hat hi htx (had i hi) (by omega) hfree (by omega) hready
    have hpos : (afterTransmit i 0 0 a s).seqQ = .pio (.l0 (i + 1)) := by rw [afterTransmit, hrx]; rfl
    have hnext : i + 1 + n ≤ s.xf.count := by omega
    obtain ⟨t, hrun, hend, ht⟩ := ih hpos hnext htx hrx had hans.tail
    refine ⟨t, ?_, ?_, (nothingStored_transmit i 0 0 a s).trans ht.toNothingStored, ht.xf, ?_⟩
    · rw [Nat.mul_succ, Nat.add_comm, execs_add hsend, hrun]
    · rw [hend, Nat.add_right_comm, Nat.add_assoc]
    · rw [Nat.mul_succ, Nat.add_comm, ← dropWords_dropWords]
      exact ht.env

/-! ### The status check -/

/-- A clean status word: the result is the byte count (42_transfer.md R199, R202). -/
theorem statusResult_of_clean {c : Params} {x : Xfer} {v : Word} (h : statusDecode c.layout c.rev v = none) :
    statusResult c x v = BitVec.ofNat 32 (x.count * x.bpw) := by
  simp only [statusResult, h]

/-- The end of a transfer on a controller that reports a clean status. -/
theorem execs_cleanExit (hover : dataPhaseOver s)
    (hclean : statusDecode s.params.layout s.params.rev (wordAt 0 s.env) = none) :
    execs 2 (.transfer cs tx rx len bits hz) s =
      .next (engineExit (BitVec.ofNat 32 (s.xf.count * s.xf.bpw)) (statusRead s)) := by
  rw [execs_statusCheck hover, nextWord_eq, statusResult_of_clean hclean]

end

/-- Settles O31: the entry with one read of `BUF`, the words by induction on their number, then the status check. -/
theorem transmitOnlyTransfer : Obligations.TransmitOnlyTransfer := by
  unfold Obligations.TransmitOnlyTransfer
  intro cs a len sl s hat hchecked hpio hbpw htop hempty hwords hstatus
  obtain ⟨haccepted, hfits⟩ := hchecked
  obtain ⟨-, hmod, heven, -⟩ := id hfits
  have hdvd : len / sl.bpw * sl.bpw = len := Nat.div_mul_cancel (Nat.dvd_of_mod_eq_zero hmod)
  let u := afterPioEntry cs (some a) none len sl 0 s
  have hentry : execs 9 (.transfer cs (some a) none len none none) s = .next u :=
    execs_pioEntry (k := 0) (.inr ⟨hat, rfl, rfl, haccepted⟩) hfits hpio (by omega) hempty
  have hword (j : Nat) : wordAt j u.env = wordAt (j + 1) s.env := by
    rw [Nat.add_comm]
    exact wordAt_dropWords 1 j s.env
  have hadm : WordsAdmitted a u :=
    wordsAdmitted_of_count rfl (hbpw.imp_right fun h => ⟨h, (heven h).1 a rfl⟩) (Nat.le_of_eq hdvd) htop
  have hans : AnswersAtOnce u.params (len / sl.bpw) u.env := fun i hi => by
    rw [hword, hword]
    exact hwords i hi
  obtain ⟨t, hrun, hend, ht⟩ := execs_sendWords (cs := cs) (tx := some a) (rx := none) (len := len) (bits := none) (hz := none)
    (s := u) (i := 0) (n := len / sl.bpw) rfl (Nat.le_of_eq (Nat.zero_add _)) rfl rfl hadm hans
  have hover : dataPhaseOver t := .inr ⟨_, by rw [ht.xf, Nat.zero_add]; exact Nat.le_refl _, .inl hend⟩
  have hclean : statusDecode t.params.layout t.params.rev (wordAt 0 t.env) = none := by
    rw [ht.params, ht.env, wordAt_dropWords, hword]
    exact hstatus
  have hbytes : t.xf.count * t.xf.bpw = len := by
    rw [ht.xf]
    exact hdvd
  have hall := ((nothingStored_pioEntry cs (some a) none len sl 0 s).trans ht.toNothingStored).trans
    (nothingStored_exit (BitVec.ofNat 32 len) t)
  obtain ⟨es, hes, hhist⟩ := hall.events
  have hsum : 4 * (len / sl.bpw) + 11 = 9 + (4 * (len / sl.bpw) + 2) := by omega
  rw [hsum, execs_add hentry, execs_add hrun, execs_cleanExit hover hclean, hbytes]
  exact ⟨_, eventsBy .queue es, rfl, rfl, rfl, rfl, rfl, rfl, hall.fault, hall.mem, hhist, mwr_not_mem_of_storeFree hes⟩

end Sys2Proof.Machine
end

section
/-!
SUPPORT and PROOF. What a step of TRANSFER leaves unchanged (42_transfer.md R190, 43_pio.md R210, 44_dma.md R241), and the
obligation O52.
-/

namespace Sys2Proof.Machine

open Sys2Proof

/-! ### What a step of TRANSFER may do -/

/-- The declared values and the mode flags of a record (10_state.md R28). -/
def declared (r : Slave) : Nat × Nat × Byte := (r.declBits, r.declHz, r.mode)

/-- TRANSFER's next step from `s` stores nothing to the byte at `x`. -/
def OutsideStores (s : State) (x : Nat) : Prop := ∀ a n, transferStores s = some (a, n) → x < a ∨ a + n ≤ x

/-- What every step of a TRANSFER of `cs` keeps: the other ports and agents, `suspended`, the clock, `DEF`, the moves and
allocations laid down, the other chip-selects' records and format registers, what the record of `cs` declares, every channel of
the tables, the latches of the chip-selects the engine does not serve, and the bytes the step does not store to. -/
structure TransferKeeps (cs : Cs) (s t : State) : Prop where
  params : t.params = s.params := by rfl
  cmd : t.portQ.cmd = s.portQ.cmd := by rfl
  arg : t.portQ.arg = s.portQ.arg := by rfl
  portF : t.portF = s.portF := by rfl
  portP : t.portP = s.portP := by rfl
  seqF : t.seqF = s.seqF := by rfl
  seqP : t.seqP = s.seqP := by rfl
  seqH : t.seqH = s.seqH := by rfl
  seqTx : t.seqTx = s.seqTx := by rfl
  seqRx : t.seqRx = s.seqRx := by rfl
  suspended : t.suspended = s.suspended := by rfl
  clkOn : t.clkOn = s.clkOn := by rfl
  clkRate : t.clkRate = s.clkRate := by rfl
  dflt : t.regrec.dflt = s.regrec.dflt := by rfl
  turns : t.env.turns = s.env.turns := by rfl
  allocs : t.env.allocs = s.env.allocs := by rfl
  records : ∀ c, c ≠ cs → slaveOf c t = slaveOf c s := by exact fun _ _ => rfl
  formats : ∀ c, c ≠ cs → fmtRec c t = fmtRec c s := by exact fun _ _ => rfl
  declares : (slaveOf cs t).map declared = (slaveOf cs s).map declared := by rfl
  channels : ∀ c, (dmaOf c t).rxCh = (dmaOf c s).rxCh ∧ (dmaOf c t).txCh = (dmaOf c s).txCh := by
    exact fun _ => ⟨rfl, rfl⟩
  latches : ∀ c, c ≠ s.xf.cs → dmaOf c t = dmaOf c s := by exact fun _ _ => rfl
  bytes : ∀ x, OutsideStores s x → memGet t.mem x = memGet s.mem x := by exact fun _ _ => rfl

/-! ### Answers taken: the moves and the allocations laid down stay -/

@[simp] theorem envDropWord_turns (e : Env) : (envDropWord e).turns = e.turns := by
  unfold envDropWord
  split <;> rfl

@[simp] theorem envDropWord_allocs (e : Env) : (envDropWord e).allocs = e.allocs := by
  unfold envDropWord
  split <;> rfl

@[simp] theorem envDropMap_turns (e : Env) : (envDropMap e).turns = e.turns := by
  unfold envDropMap
  split <;> rfl

@[simp] theorem envDropMap_allocs (e : Env) : (envDropMap e).allocs = e.allocs := by
  unfold envDropMap
  split <;> rfl

@[simp] theorem envDropByte_turns (e : Env) : (envDropByte e).turns = e.turns := by
  unfold envDropByte
  split <;> rfl

@[simp] theorem envDropByte_allocs (e : Env) : (envDropByte e).allocs = e.allocs := by
  unfold envDropByte
  split <;> rfl

@[simp] theorem scatter_turns (n a : Nat) (m : Memory) (e : Env) : (scatter n a m e).2.turns = e.turns := by
  induction n generalizing a m e with
  | zero => rfl
  | succ n ih => rw [scatter, ih, envDropByte_turns]

@[simp] theorem scatter_allocs (n a : Nat) (m : Memory) (e : Env) : (scatter n a m e).2.allocs = e.allocs := by
  induction n generalizing a m e with
  | zero => rfl
  | succ n ih => rw [scatter, ih, envDropByte_allocs]

/-! ### The operations -/

section

variable {cs : Cs} {tx rx : Option Word} {len : Nat} {bits hz : Option Nat} {s u : State}

/-- The state after such a step is the state before it but for what the step may change. -/
theorem TransferKeeps.rest (h : TransferKeeps cs s u) : u = { s with
    portQ := { s.portQ with res := u.portQ.res, busy := u.portQ.busy }
    seqQ := u.seqQ
    inUse := u.inUse
    done := u.done
    regrec := { u.regrec with dflt := s.regrec.dflt }
    slave := u.slave
    dma := u.dma
    active := u.active
    xf := u.xf
    fault := u.fault
    hist := u.hist
    mem := u.mem
    env := { u.env with turns := s.env.turns, allocs := s.env.allocs } } := by
  dsimp only
  rw [← h.params, ← h.cmd, ← h.arg, ← h.portF, ← h.portP, ← h.seqF, ← h.seqP, ← h.seqH, ← h.seqTx, ← h.seqRx, ← h.suspended,
    ← h.clkOn, ← h.clkRate, ← h.dflt, ← h.turns, ← h.allocs]

theorem TransferKeeps.refl (cs : Cs) (s : State) : TransferKeeps cs s s := {}

theorem TransferKeeps.setSlave (h : TransferKeeps cs s u) {x : Slave}
    (hx : some (declared x) = (slaveOf cs s).map declared) : TransferKeeps cs s (setSlave cs (some x) u) :=
  { h with
    records := fun c hc => (csGet_csSet_other _ _ hc).trans (h.records c hc)
    declares := (congrArg _ (csGet_csSet_same _ _ _)).trans hx }

theorem TransferKeeps.writeFmt (h : TransferKeeps cs s u) (v : FmtRec) : TransferKeeps cs s (writeFmt .queue cs v u) :=
  { h with formats := fun c hc => (csGet_csSet_other _ _ hc).trans (h.formats c hc) }

theorem TransferKeeps.noteFloor (h : TransferKeeps cs s u) (floored : Bool) :
    TransferKeeps cs s (noteFloor .queue cs floored u) := by
  cases floored
  · exact h
  · exact { h with }

/-- A volatile read. -/
theorem readVolatile_transferKeeps (cs : Cs) (r : Reg) (l : QSeq) (s : State) :
    TransferKeeps cs s (goQ l (readVolatile .queue r s)) where
  turns := envDropWord_turns s.env
  allocs := envDropWord_allocs s.env

/-- `Map` after an update of the context. -/
theorem mapBuffer_transferKeeps (cs : Cs) (a : Word) (n : Nat) (d : Dir) (l : QSeq) (x : Xfer) (s : State) :
    TransferKeeps cs s (goQ l (mapBuffer a n d { s with xf := x })) where
  turns := envDropMap_turns s.env
  allocs := envDropMap_allocs s.env

/-- An admitted store to the word the position stores to. -/
theorem hostWrite_transferKeeps {a n : Nat} {v : Half} (l : QSeq) (had : admitted s a n = true)
    (hstores : transferStores s = some (a, n)) : TransferKeeps cs s (goQ l (hostWrite .queue a n v s)) where
  bytes x hx := memGet_memWrite_other s.mem v (admitted_bounds had).1 (hx a n hstores)

/-- The latches of the chip-select the engine serves cleared (44_dma.md R247). -/
theorem clearLatches_transferKeeps (cs : Cs) (s : State) :
    TransferKeeps cs s (setDma s.xf.cs { dmaOf s.xf.cs s with txDone := false, rxDone := false } s) where
  channels c := by
    simp only [dmaOf, setDma_dma, csGet_csSet]
    split
    next hc => exact hc ▸ ⟨rfl, rfl⟩
    next => exact ⟨rfl, rfl⟩
  latches c hc := csGet_csSet_other _ _ hc

/-! ### `Configure`, T7 and the front end -/

theorem configureStep_transferKeeps (x : CfgSeq) (wrap : CfgSeq → QSeq) (next : QSeq) :
    TransferKeeps cs s (configureStep cs x wrap next s) := by
  cases x with
  | lenW t bits hz => exact { (TransferKeeps.refl cs s).writeFmt _ with }
  | divR hz =>
    rw [configureStep]
    obtain h | ⟨p, floored, -, h⟩ := dividerRead_cases .queue cs hz (fun t p s' => goQ (wrap (.divW t p)) s') s
    · rw [h]
      exact {}
    · rw [h]
      exact { (TransferKeeps.refl cs s).noteFloor floored with }
  | divW t p => exact { (TransferKeeps.refl cs s).writeFmt _ with }

theorem modeStep_transferKeeps (h : TransferKeeps cs s u) (c : Cs) (m : ModeSeq) (wrap : ModeSeq → QSeq) (next : QSeq) :
    TransferKeeps cs s (modeStep c m wrap next u) := by
  cases m <;> exact { h with }

theorem transferContext_transferKeeps {sl : Slave} (hsl : slaveOf cs s = some sl) :
    TransferKeeps cs s (transferContext sl cs tx rx len s) :=
  have hset := (TransferKeeps.refl cs s).setSlave (x := { sl with cmdBase := some (cmdBase s.params cs) }) (by rw [hsl]; rfl)
  { hset with }

theorem transferEnter_transferKeeps : TransferKeeps cs s (transferEnter cs tx rx len s) := by
  unfold transferEnter
  split
  · exact {}
  next sl hsl =>
    have hctx : TransferKeeps cs s (transferContext sl cs tx rx len s) := transferContext_transferKeeps hsl
    split
    · exact {}
    · unfold transferDispatch
      split
      · exact { hctx with }
      · exact modeStep_transferKeeps hctx _ _ _ _

theorem transferFirst_transferKeeps : TransferKeeps cs s (transferFirst cs tx rx len bits hz s) := by
  unfold transferFirst
  split
  · exact {}
  split
  · exact {}
  split
  · exact {}
  split
  · exact {}
  split
  · exact {}
  split
  · refine getD_of_forall {} fun t h => ?_
    obtain ⟨sl, hsl, -, rfl⟩ := configureStart_cases h
    exact { (TransferKeeps.refl cs s).setSlave (by rw [hsl]; rfl) with }
  · exact transferEnter_transferKeeps

/-! ### The engines -/

theorem rxStore_transferKeeps {i : Nat} {d : Half} {next : QSeq} {t : State} (h : rxStore i d next s = some t)
    (hstores : ∀ a, s.xf.rx = some a → transferStores s = some (wordAddr a i s.xf.bpw, s.xf.bpw)) : TransferKeeps cs s t := by
  obtain ⟨a, hrx, had, rfl⟩ := rxStore_cases h
  exact hostWrite_transferKeeps next had (hstores a hrx)

theorem pioStep_transferKeeps {x : PioSeq} {t : State} (hat : s.seqQ = .pio x) (h : pioStep x s = some t) :
    TransferKeeps cs s t := by
  cases x with
  | mode m => cases h; exact modeStep_transferKeeps {} _ _ _ _
  | p5 | p6 | p7 | p8 | l3 | r2 | i2 | i3 | i4 => cases h; exact {}
  | p9 | l2 | l4 | l5 | r3 | r4 => cases h; exact readVolatile_transferKeeps cs .buf _ s
  | l0 i =>
    obtain ⟨-, a, -, -, rfl⟩ | ⟨-, rfl⟩ := pioTxHead_cases h
    · exact {}
    · exact readVolatile_transferKeeps cs .flg _ s
  | l5s i d => exact rxStore_transferKeeps h fun a hrx => by simp only [transferStores, hat, hrx]
  | r5 i d => exact rxStore_transferKeeps h fun a hrx => by simp only [transferStores, hat, hrx]
  | r0 i =>
    cases h
    unfold pioPollHead
    split <;> exact readVolatile_transferKeeps cs _ _ s
  | i0 i =>
    cases h
    unfold pioIrqHead
    split <;> exact {}

theorem dmaProgram_transferKeeps {ch : ChanId} {src dst : Word} {v : DmaUnit} {n : Nat} {next : QSeq}
    (h : TransferKeeps cs s u) : TransferKeeps cs s (dmaProgram ch src dst v n next u) := by
  unfold dmaProgram
  split <;> exact { h with }

/-- G20 clears the latches of the chip-select the engine serves. -/
theorem dmaStartTx_transferKeeps {t : State} (h : dmaStartTx s = some t) : TransferKeeps cs s t := by
  unfold dmaStartTx at h
  split at h <;> cases h
  exact { clearLatches_transferKeeps cs s with }

/-- G27 draws the bytes of the receive buffer. -/
theorem dmaUnmapRx_transferKeeps {t : State} (hat : s.seqQ = .dma .g27) (h : dmaUnmapRx s = some t) : TransferKeeps cs s t := by
  unfold dmaUnmapRx at h
  split at h <;> cases h
  next a hrx =>
    have hstores : transferStores s = some (a.toNat, s.xf.rxn) := by simp only [transferStores, hat, hrx]
    exact
      { turns := scatter_turns _ _ _ _
        allocs := scatter_allocs _ _ _ _
        bytes := fun x hx => memGet_scatter_other s.xf.rxn a.toNat s.mem s.env (hx _ _ hstores) }

theorem dmaStep_transferKeeps {x : DmaSeq} {t : State} (hat : s.seqQ = .dma x) (h : dmaStep x s = some t) :
    TransferKeeps cs s t := by
  cases x with
  | mode m =>
    cases m with
    | m1 =>
      cases h
      unfold dmaModeRead
      split <;> exact {}
    | m2 | m3 | m4 => cases h; exact modeStep_transferKeeps {} _ _ _ _
  | g6 | g7 | g8 | g9 | g10 | g11 | g12 | g18u | g22 | g23 | g26 => cases h; exact {}
  | g13 => cases h; exact readVolatile_transferKeeps cs .buf _ s
  | g15 k =>
    obtain ⟨had, rfl⟩ := dmaFill_cases h
    exact hostWrite_transferKeeps _ had (by simp only [transferStores, hat])
  | g16 => cases h; exact mapBuffer_transferKeeps cs _ _ _ _ _ s
  | g17 m =>
    simp only [dmaStep, dmaProgTx] at h
    split at h <;> cases h
    exact dmaProgram_transferKeeps {}
  | g19 r =>
    simp only [dmaStep, dmaProgRx] at h
    split at h <;> cases h
    exact dmaProgram_transferKeeps {}
  | g18 =>
    simp only [dmaStep, dmaMapRx] at h
    split at h <;> cases h
    exact mapBuffer_transferKeeps cs _ _ _ _ s.xf s
  | g20 => exact dmaStartTx_transferKeeps h
  | g21 | g24 | g25 =>
    simp only [dmaStep, dmaStartRx] at h
    split at h <;> cases h
    exact {}
  | g27 => exact dmaUnmapRx_transferKeeps hat h

theorem transferStep_transferKeeps {t : State} (h : transferStep cs tx rx len bits hz s = some t) : TransferKeeps cs s t := by
  unfold transferStep at h
  split at h
  next => cases h; exact transferFirst_transferKeeps
  next x _ => cases h; exact configureStep_transferKeeps x .t6 .t7
  next => cases h; exact transferEnter_transferKeeps
  next hat => exact pioStep_transferKeeps hat h
  next hat => exact dmaStep_transferKeeps hat h
  next => cases h; exact readVolatile_transferKeeps cs .flg _ s
  next => cases h; exact {}
  next => cases h; exact {}
  next => cases h

end

/-- Settles O52: each step of TRANSFER, and the state left as it is where it has none. -/
theorem transferFrame : Obligations.TransferFrame := by
  unfold Obligations.TransferFrame
  intro cs tx rx len bits hz s
  have h : TransferKeeps cs s ((transferStep cs tx rx len bits hz s).getD s) :=
    getD_of_forall {} fun _ => transferStep_transferKeeps
  refine ⟨_, rfl, h.rest, fun c hc => ⟨h.records c hc, h.formats c hc⟩, h.declares, h.channels, h.latches,
    fun hnone x => h.bytes x ?_, fun a n hsome x hx => h.bytes x ?_⟩
  · intro a n hsome
    rw [hnone] at hsome
    cases hsome
  · intro a' n' hsome'
    cases hsome.symm.trans hsome'
    exact hx

end Sys2Proof.Machine
end

section
/-!
SUPPORT and PROOF. The interrupt-driven receive loop (43_pio.md R217, R218), and the obligation O29.
-/

namespace Sys2Proof.Machine

open Sys2Proof

section

variable {cs : Cs} {tx rx : Option Word} {len : Nat} {bits hz : Option Nat} {s : State}

/-- The head of the loop where words remain: the read of `INT` that the arming rewrites. -/
theorem transfer_i0_word {i : Nat} (h : s.seqQ = .pio (.i0 i)) (hi : i < s.xf.count) :
    exec (.transfer cs tx rx len bits hz) s = .next (goQ (.pio (.i2 i s.regrec.int)) (readInt .queue s)) := by
  rw [transfer_i0 cs tx rx len bits hz s i h, pioIrqHead, if_pos hi]

/-- The head of the loop after the last word: the release write. -/
theorem transfer_i0_release {i : Nat} (h : s.seqQ = .pio (.i0 i)) (hi : s.xf.count ≤ i) :
    exec (.transfer cs tx rx len bits hz) s = .next (goQ .x1 (writeDat .queue (releaseWord s.params s.xf.cs) s)) := by
  rw [transfer_i0 cs tx rx len bits hz s i h, pioIrqHead, if_neg (Nat.not_lt.2 hi), regWrite_dat]

/-- A word's three steps up to the poll: the receive sources armed on the record read, then the command word. -/
theorem execs_armReceive {i : Nat} (h : s.seqQ = .pio (.i0 i)) (hi : i < s.xf.count) :
    execs 3 (.transfer cs tx rx len bits hz) s =
      .next (goQ (.pio (.i4 i)) (writeDat .queue s.xf.cmd (writeInt .queue (withRxArmed s.regrec.int) (readInt .queue s)))) := by
  rw [execs_succ (transfer_i0_word h hi), execs_succ (transfer_i2 cs tx rx len bits hz _ i _ rfl),
    execs_succ (transfer_i3 cs tx rx len bits hz _ i rfl), execs_zero]
  rfl

end

/-- Settles O29: a word armed as `execs_armReceive` says, one look at `IE_RX`, the release write after the last word. -/
theorem receiveWordByInterrupt : Obligations.ReceiveWordByInterrupt := by
  unfold Obligations.ReceiveWordByInterrupt
  refine fun cs tx rx len bits hz i s => ⟨fun h hi => ?_, fun h => ?_, fun h hi => ?_⟩
  · rw [execs_armReceive h hi]
    simp only [goQ, writeDat, writeInt, readInt, withRxArmed, record, eventsBy_cons, eventsBy_nil, List.append_assoc,
      List.cons_append, List.nil_append]
  · exact transfer_i4 cs tx rx len bits hz s i h
  · exact transfer_i0_release h hi

end Sys2Proof.Machine
end

section
/-!
SUPPORT and PROOF. The DMA engine's pre-load, its receive channel, its start and its completion waits (44_dma.md R243,
R246-R249, R252), and the obligations O33, O36, O37 and O38.
-/

namespace Sys2Proof.Machine

open Sys2Proof

section

variable {cs : Cs} {tx rx : Option Word} {len : Nat} {bits hz : Option Nat} {s : State}

/-! ### The pre-load (44_dma.md R243) -/

/-- What G8 to G12 leave: the command word written between the controller's disabling and its enabling, Q at the poll G13. -/
def afterPreload (s : State) : State :=
  let g0 := { s.regrec.gcr with enable := some false }
  let g1 := { s.regrec.gcr with enable := some true }
  { s with
    seqQ := .dma .g13
    regrec := { s.regrec with gcr := g1, dat := some s.xf.cmd }
    hist := s.hist ++ eventsBy .queue
      [.rd .gcr (.gcr s.regrec.gcr), .wr .gcr (.gcr g0), .wr .dat (.word s.xf.cmd), .rd .gcr (.gcr g0), .wr .gcr (.gcr g1)] }

theorem execs_preload (hat : s.seqQ = .dma .g8) : execs 5 (.transfer cs tx rx len bits hz) s = .next (afterPreload s) := by
  rw [execs_succ (transfer_g8 cs tx rx len bits hz s hat), execs_succ (transfer_g9 cs tx rx len bits hz _ _ rfl),
    execs_succ (transfer_g10 cs tx rx len bits hz _ rfl), execs_succ (transfer_g11 cs tx rx len bits hz _ rfl),
    execs_succ (transfer_g12 cs tx rx len bits hz _ _ rfl), execs_zero]
  simp only [afterPreload, goQ, writeDat, writeGcr, readGcr, record, eventsBy_cons, eventsBy_nil, List.append_assoc,
    List.cons_append, List.nil_append]

/-- G13 until `BUF` reads `RXEMPTY = 1`, then the transmit mapping or the scratch fill before it. -/
theorem execs_preloadPoll {k : Nat} (hat : s.seqQ = .dma .g13)
    (hwait : ∀ j, j < k → bufRxEmpty s.params (wordAt j s.env) = false)
    (hready : bufRxEmpty s.params (wordAt k s.env) = true) :
    execs (k + 1) (.transfer cs tx rx len bits hz) s = .next (afterPoll (.dma (dmaAfterPreload s.xf)) (k + 1) s) := by
  refine execs_poll k 0 (fun u hu _ hxf => ?_) hat hwait hready
  rw [transfer_g13 cs tx rx len bits hz u hu, hxf]
  cases bufRxEmpty u.params (nextWord u) <;> rfl

/-! ### The receive mapping and its channel (44_dma.md R246) -/

/-- The step that maps the receive buffer at `b`, `r` the mapping's answer. -/
theorem transfer_g18 {b : Word} {r : Option Word} (hat : s.seqQ = .dma .g18) (hrx : s.xf.rx = some b) (hr : nextMap s = r) :
    exec (.transfer cs tx rx len bits hz) s = .next { s with
      seqQ := .dma (r.elim .g18u .g19)
      hist := s.hist ++ [⟨.queue, .mapping b (s.xf.count * s.xf.bpw) .rx r⟩]
      env := envDropMap s.env } := by
  refine transfer_of_dmaStep_some hat ?_
  simp only [dmaStep, dmaMapRx, hrx, hr]
  cases r <;> simp only [mapBuffer, hr] <;> rfl

/-- The step that programs the receive channel, where the channel and the unit exist. -/
theorem transfer_g19 {r : Word} {ch : ChanId} {u : DmaUnit} (hat : s.seqQ = .dma (.g19 r))
    (hch : (dmaOf s.xf.cs s).rxCh = some ch) (hu : dmaUnit s.xf.bpw = some u) :
    exec (.transfer cs tx rx len bits hz) s =
      .next (dmaProgram ch s.params.dmaRxAddr r u s.xf.count (.dma .g20)
        { s with xf := { s.xf with rxd := r, rxn := s.xf.count * s.xf.bpw } }) :=
  transfer_of_dmaStep_some hat (by simp only [dmaStep, dmaProgRx, hch, hu])

/-! ### The start (44_dma.md R247) -/

theorem isActive_insertChan (ch x : ChanId) (s : State) :
    isActive { s with active := insertChan ch s.active } x = (x == ch || isActive s x) := by
  rw [Bool.eq_iff_iff]
  simp only [isActive, List.contains_iff_mem, mem_insertChan, Bool.or_eq_true, beq_iff_eq]

/-- The step that clears both latches and starts the transmit channel. -/
theorem transfer_g20 {ch : ChanId} (hat : s.seqQ = .dma .g20) (hch : (dmaOf s.xf.cs s).txCh = some ch) :
    exec (.transfer cs tx rx len bits hz) s = .next (goQ (.dma (if s.xf.rx.isSome then .g21 else .g22))
      (dmaStart ch (setDma s.xf.cs { dmaOf s.xf.cs s with txDone := false, rxDone := false } s))) :=
  transfer_of_dmaStep_some hat (by simp only [dmaStep, dmaStartTx, hch])

/-- The step that starts the receive channel. -/
theorem transfer_g21 {ch : ChanId} (hat : s.seqQ = .dma .g21) (hch : (dmaOf s.xf.cs s).rxCh = some ch) :
    exec (.transfer cs tx rx len bits hz) s = .next (goQ (.dma .g22) (dmaStart ch s)) :=
  transfer_of_dmaStep_some hat (by simp only [dmaStep, dmaStartRx, hch])

/-- G22 and G23: `INT.DMAREQEN` set, Q at the first wait. -/
theorem execs_requestEnable (hat : s.seqQ = .dma .g22) :
    execs 2 (.transfer cs tx rx len bits hz) s = .next { s with
      seqQ := .dma (dmaFirstWait s.xf)
      regrec := { s.regrec with int := { s.regrec.int with dmareqen := some true } }
      hist := s.hist ++ eventsBy .queue
        [.rd .int (.int s.regrec.int), .wr .int (.int { s.regrec.int with dmareqen := some true })] } := by
  rw [execs_succ (transfer_g22 cs tx rx len bits hz s hat), execs_succ (transfer_g23 cs tx rx len bits hz _ _ rfl), execs_zero]
  simp only [goQ, writeInt, readInt, record, eventsBy_cons, eventsBy_nil, List.append_assoc, List.cons_append, List.nil_append]

/-! ### The waits (44_dma.md R248, R249) -/

/-- The transmit wait with its latch set: one step, and no interruption. -/
theorem transmitWait_passes (hat : s.seqQ = .dma .g24) (hdone : (dmaOf s.xf.cs s).txDone = true) :
    exec (.transfer cs tx rx len bits hz) s = .next (goQ (.dma (dmaAfterTxWait s.xf)) s) ∧ envIntr s = none :=
  ⟨transfer_of_dmaStep_some hat (if_pos hdone), by simp only [envIntr, hat, hdone, if_true]⟩

/-- The transmit wait before its latch is set: no step but the interruption. -/
theorem transmitWait_holds (hat : s.seqQ = .dma .g24) (hdone : (dmaOf s.xf.cs s).txDone = false) :
    exec (.transfer cs tx rx len bits hz) s = .next s
      ∧ envIntr s = some (goQ (.dma (dmaAfterTxWait s.xf)) (record .env .intr s)) := by
  refine ⟨transfer_of_dmaStep_none hat ?_, ?_⟩
  · simp only [dmaStep, hdone, Bool.false_eq_true, if_false]
  · simp only [envIntr, hat, hdone, Bool.false_eq_true, if_false]

/-- The receive wait with its latch set: one step, and no interruption. -/
theorem receiveWait_passes (hat : s.seqQ = .dma .g25) (hdone : (dmaOf s.xf.cs s).rxDone = true) :
    exec (.transfer cs tx rx len bits hz) s = .next (goQ (.dma .g26) s) ∧ envIntr s = none :=
  ⟨transfer_of_dmaStep_some hat (if_pos hdone), by simp only [envIntr, hat, hdone, if_true]⟩

/-- The receive wait before its latch is set: no step but the interruption. -/
theorem receiveWait_holds (hat : s.seqQ = .dma .g25) (hdone : (dmaOf s.xf.cs s).rxDone = false) :
    exec (.transfer cs tx rx len bits hz) s = .next s ∧ envIntr s = some (goQ (.dma .g26) (record .env .intr s)) := by
  refine ⟨transfer_of_dmaStep_none hat ?_, ?_⟩
  · simp only [dmaStep, hdone, Bool.false_eq_true, if_false]
  · simp only [envIntr, hat, hdone, Bool.false_eq_true, if_false]

/-- `Intr(Q)` is admitted at the two waits alone. -/
theorem envIntr_of_no_wait (htx : s.seqQ ≠ .dma .g24) (hrx : s.seqQ ≠ .dma .g25) : envIntr s = none := by
  unfold envIntr
  split
  · exact absurd ‹_› htx
  · exact absurd ‹_› hrx
  · rfl

end

/-- Settles O33: the five steps of the pre-load, then the poll. -/
theorem dmaPreloadOrder : Obligations.DmaPreloadOrder := by
  unfold Obligations.DmaPreloadOrder
  intro cs tx rx len bits hz k s hat hwait hready g0 g1
  have hlen : k + 6 = 5 + (k + 1) := by omega
  rw [hlen, execs_add (execs_preload hat), execs_preloadPoll (s := afterPreload s) rfl hwait hready]
  simp only [afterPoll, afterPreload, eventsBy_append, List.append_assoc]
  rfl

/-- Settles O36: the mapping's answer decides between the unmapping with `Exit(E_RES_MAP)` and the channel's programming. -/
theorem dmaReceiveProgrammed : Obligations.DmaReceiveProgrammed := by
  unfold Obligations.DmaReceiveProgrammed
  refine fun cs tx rx len bits hz b s hrx =>
    ⟨fun hat => ⟨fun hnone => ?_, fun r hsome => ?_⟩, fun r ch u hat hch hbpw => ⟨fun hact => ?_, fun hact => ?_⟩⟩
  · rw [execs_succ (transfer_g18 hat hrx hnone), execs_succ (transfer_g18u cs tx rx len bits hz _ rfl),
      execs_succ (transfer_exit cs tx rx len bits hz _ _ rfl), execs_zero, engineExit_eq]
    simp only [unmapTx, goQ, record, eventsBy_cons, eventsBy_nil, List.append_assoc, List.cons_append, List.nil_append]
    rfl
  · exact transfer_g18 hat hrx hsome
  · rw [transfer_g19 hat hch (dmaUnit_eq hbpw), dmaProgram_active (by exact hact)]
  · rw [transfer_g19 hat hch (dmaUnit_eq hbpw), dmaProgram_inactive (by exact hact)]
    rfl

/-- Settles O37: one start, or two, and the request enable, each the state the step before it leaves. -/
theorem dmaStartOrder : Obligations.DmaStartOrder := by
  unfold Obligations.DmaStartOrder
  refine ⟨isActive_insertChan, fun cs tx rx len bits hz ch s hat hch => ?_⟩
  have hstart := transfer_g20 (cs := cs) (tx := tx) (rx := rx) (len := len) (bits := bits) (hz := hz) hat hch
  refine ⟨fun hrx => ?_, fun b ch' hrx hch' => ?_⟩
  · rw [execs_succ hstart, hrx, execs_requestEnable rfl]
    simp only [goQ, dmaStart, setDma, record, dmaFirstWait, hrx, List.append_assoc]
    rfl
  · rw [execs_succ hstart, hrx, execs_succ (transfer_g21 (ch := ch') rfl ?_), execs_requestEnable rfl]
    · simp only [goQ, dmaStart, setDma, record, dmaFirstWait, hrx, List.append_assoc]
      rfl
    · simpa [dmaOf] using hch'

/-- Settles O38: each wait by its latch. -/
theorem dmaWaits : Obligations.DmaWaits := by
  unfold Obligations.DmaWaits
  exact fun cs tx rx len bits hz s =>
    ⟨fun hat => ⟨transmitWait_holds hat, transmitWait_passes hat⟩, fun hat => ⟨receiveWait_holds hat, receiveWait_passes hat⟩,
      envIntr_of_no_wait⟩

end Sys2Proof.Machine
end

section
/-!
SUPPORT and PROOF. The DMA completion callbacks: a run of one (44_dma.md R262), two of one transfer in any interleaving (R263),
and the obligations O48 and O49.
-/

namespace Sys2Proof.Machine

open Sys2Proof

/-! ### The callback's step at each of its positions (44_dma.md R262) -/

section

variable {d : Dir} {c : Cs} {ch : ChanId} {s : State}

@[simp] theorem seqCb_goCb_same (d : Dir) (l : CbSeq) (s : State) : seqCb d (goCb d l s) = l := by
  rw [seqCb_goCb, if_pos rfl]

theorem callbackStep_clean (h : seqCb d s = .k1 c ch .clean) :
    callbackStep d s = some (goCb d (.k4 c) (dmaStop (.callback d) ch s)) := by
  simp only [callbackStep, h]

theorem callbackStep_error (h : seqCb d s = .k1 c ch .error) :
    callbackStep d s = some (goCb d (.k2 c ch) (dmaStop (.callback d) ch s)) := by
  simp only [callbackStep, h]

theorem callbackStep_k2 (h : seqCb d s = .k2 c ch) :
    callbackStep d s = some (goCb d (.k4 c) (dmaClean (.callback d) ch s)) := by
  simp only [callbackStep, h]

theorem callbackStep_k4 (h : seqCb d s = .k4 c) : callbackStep d s =
    some (goCb d (.k5 s.regrec.int) (readInt (.callback d) (setDma c (withDone d (dmaOf c s)) s))) := by
  simp only [callbackStep, h]

theorem callbackStep_k5 {t : IntRec} (h : seqCb d s = .k5 t) :
    callbackStep d s = some (goCb d .idle (writeInt (.callback d) { t with dmareqen := some false } s)) := by
  simp only [callbackStep, h]

/-- A run of a callback from the state its first step leaves. -/
theorem callbackSteps_succ {k : Nat} {t : State} (h : callbackStep d s = some t) :
    callbackSteps d (k + 1) s = callbackSteps d k t := by
  simp only [callbackSteps, h, Option.bind_some]

/-! ### A run of one callback -/

/-- What the callback of direction `d` leaves once its channel is stopped, and cleaned where that is due: the latch set and
`DMAREQEN` cleared. -/
def afterLatch (d : Dir) (c : Cs) (s : State) : State :=
  let t := { s.regrec.int with dmareqen := some false }
  goCb d .idle { s with
    dma := csSet s.dma c (withDone d (dmaOf c s))
    regrec := { s.regrec with int := t }
    hist := s.hist ++ eventsBy (.callback d) [.rd .int (.int s.regrec.int), .wr .int (.int t)] }

/-- The last two steps. -/
theorem callbackSteps_latch (h : seqCb d s = .k4 c) : callbackSteps d 2 s = some (afterLatch d c s) := by
  rw [callbackSteps_succ (callbackStep_k4 h), callbackSteps_succ (callbackStep_k5 (seqCb_goCb_same _ _ _)), callbackSteps]
  cases d <;> simp only [afterLatch, goCb, writeInt, readInt, setDma, record, eventsBy_cons, eventsBy_nil, List.append_assoc,
    List.cons_append, List.nil_append]

end

/-- Settles O48: the stop, the clean on an error, then the last two steps. -/
theorem callbackRuns : Obligations.CallbackRuns := by
  unfold Obligations.CallbackRuns
  refine fun d c ch s => ⟨fun h => ?_, fun h => ?_⟩
  · rw [callbackSteps_succ (callbackStep_clean h), callbackSteps_latch (seqCb_goCb_same _ _ _)]
    cases d <;> simp only [afterLatch, goCb, dmaStop, record, eventsBy_cons, eventsBy_nil, List.append_assoc,
      List.cons_append, List.nil_append] <;> rfl
  · rw [callbackSteps_succ (callbackStep_error h), callbackSteps_succ (callbackStep_k2 (seqCb_goCb_same _ _ _)),
      callbackSteps_latch (seqCb_goCb_same _ _ _)]
    cases d <;> simp only [afterLatch, goCb, dmaClean, dmaStop, record, eventsBy_cons, eventsBy_nil, List.append_assoc,
      List.cons_append, List.nil_append] <;> rfl

/-! ### What a callback leaves true (44_dma.md R263) -/

/-- The completion latch of direction `d`. -/
def latch (d : Dir) (e : DmaEntry) : Bool :=
  match d with
  | .tx => e.txDone
  | .rx => e.rxDone

@[simp] theorem latch_withDone (d : Dir) (e : DmaEntry) : latch d (withDone d e) = true := by cases d <;> rfl

theorem latch_withDone_of_latch {d : Dir} (d' : Dir) {e : DmaEntry} (h : latch d e = true) :
    latch d (withDone d' e) = true := by
  cases d' <;> cases d
  case tx.tx | rx.rx => rfl
  case tx.rx | rx.tx => exact h

@[simp] theorem isActive_goCb (d : Dir) (l : CbSeq) (s : State) (ch : ChanId) : isActive (goCb d l s) ch = isActive s ch := by
  rw [isActive, goCb_active, isActive]

theorem isActive_dmaStop (a : Agent) (ch x : ChanId) (s : State) :
    isActive (dmaStop a ch s) x = (isActive s x && x != ch) := by
  rw [Bool.eq_iff_iff]
  simp only [isActive, dmaStop_active, List.contains_iff_mem, List.mem_filter, Bool.and_eq_true]

theorem dmaOf_setDma (c x : Cs) (e : DmaEntry) (s : State) : dmaOf x (setDma c e s) = if x = c then e else dmaOf x s :=
  csGet_csSet _ _ _ _

section

variable {s t : State}

/-- What no step of a callback undoes: a channel stopped, a latch set, `DMAREQEN` cleared. -/
structure CallbackKeeps (s t : State) : Prop where
  stopped : ∀ ch, isActive s ch = false → isActive t ch = false := by exact fun _ h => h
  latched : ∀ d c, latch d (dmaOf c s) = true → latch d (dmaOf c t) = true := by exact fun _ _ h => h
  released : s.regrec.int.dmareqen = some false → t.regrec.int.dmareqen = some false := by exact fun h => h

theorem CallbackKeeps.goCb (h : CallbackKeeps s t) (d : Dir) (l : CbSeq) : CallbackKeeps s (goCb d l t) := by
  cases d <;> exact { h with }

theorem callbackKeeps_dmaStop (a : Agent) (ch : ChanId) (s : State) : CallbackKeeps s (dmaStop a ch s) where
  stopped x hx := by rw [isActive_dmaStop, hx, Bool.false_and]

theorem callbackKeeps_setDma (d : Dir) (c : Cs) (s : State) : CallbackKeeps s (setDma c (withDone d (dmaOf c s)) s) where
  latched d' c' h := by
    rw [dmaOf_setDma]
    split
    next heq => exact latch_withDone_of_latch d (heq ▸ h)
    next => exact h

theorem callbackStep_keeps {d : Dir} (h : callbackStep d s = some t) : CallbackKeeps s t := by
  obtain ⟨c, ch, -, rfl⟩ | ⟨c, ch, -, rfl⟩ | ⟨c, ch, -, rfl⟩ | ⟨c, -, rfl⟩ | ⟨r, -, rfl⟩ := callbackStep_cases h
  · exact (callbackKeeps_dmaStop _ ch s).goCb d _
  · exact (callbackKeeps_dmaStop _ ch s).goCb d _
  · exact .goCb {} d _
  · have hu := callbackKeeps_setDma d c s
    refine .goCb ?_ d _
    exact { hu with }
  · exact .goCb { released := fun _ => rfl } d _

/-- A callback's step leaves the position of the other. -/
theorem callbackStep_other {d e : Dir} (h : callbackStep e s = some t) (hne : d ≠ e) : seqCb d t = seqCb d s := by
  obtain ⟨c, ch, -, rfl⟩ | ⟨c, ch, -, rfl⟩ | ⟨c, ch, -, rfl⟩ | ⟨c, -, rfl⟩ | ⟨r, -, rfl⟩ := callbackStep_cases h
  all_goals
    rw [seqCb_goCb, if_neg hne]
    cases d <;> rfl

end

/-! ### The two callbacks of one transfer -/

/-- What the callback of direction `d`, started for chip-select `c` and channel `ch`, holds and has done at each position. -/
def CallbackProgress (d : Dir) (c : Cs) (ch : ChanId) (s : State) : CbSeq → Prop
  | .k1 c' ch' _ => c' = c ∧ ch' = ch
  | .k2 c' _ => c' = c ∧ isActive s ch = false
  | .k4 c' => c' = c ∧ isActive s ch = false
  | .k5 _ => isActive s ch = false ∧ latch d (dmaOf c s) = true
  | .idle => isActive s ch = false ∧ latch d (dmaOf c s) = true ∧ s.regrec.int.dmareqen = some false

section

variable {d : Dir} {c : Cs} {ch : ChanId} {s t : State}

theorem CallbackKeeps.progress (h : CallbackKeeps s t) {l : CbSeq} (hs : CallbackProgress d c ch s l) :
    CallbackProgress d c ch t l := by
  cases l with
  | k1 c' ch' st => exact hs
  | k2 | k4 => exact hs.imp_right (h.stopped ch)
  | k5 r => exact hs.imp (h.stopped ch) (h.latched d c)
  | idle => exact hs.imp (h.stopped ch) (And.imp (h.latched d c) h.released)

/-- A callback's own step. -/
theorem callbackStep_progress_own (h : callbackStep d s = some t) (hs : CallbackProgress d c ch s (seqCb d s)) :
    CallbackProgress d c ch t (seqCb d t) := by
  obtain ⟨c', ch', hat, rfl⟩ | ⟨c', ch', hat, rfl⟩ | ⟨c', ch', hat, rfl⟩ | ⟨c', hat, rfl⟩ | ⟨r, hat, rfl⟩ :=
    callbackStep_cases h
  all_goals
    rw [hat] at hs
    rw [seqCb_goCb_same]
  · obtain ⟨rfl, rfl⟩ := hs
    exact ⟨rfl, by simp [isActive_dmaStop]⟩
  · obtain ⟨rfl, rfl⟩ := hs
    exact ⟨rfl, by simp [isActive_dmaStop]⟩
  · exact (callbackStep_keeps h).progress hs
  · obtain ⟨rfl, hstop⟩ := hs
    exact ⟨(callbackStep_keeps h).stopped ch hstop, by simp [dmaOf]⟩
  · obtain ⟨hstop, hlatch⟩ := (callbackStep_keeps h).progress hs
    exact ⟨hstop, hlatch, by simp⟩

/-- A step of either callback. -/
theorem callbackStep_progress {e : Dir} (h : callbackStep e s = some t) (hs : CallbackProgress d c ch s (seqCb d s)) :
    CallbackProgress d c ch t (seqCb d t) := by
  by_cases hde : d = e
  · subst hde
    exact callbackStep_progress_own h hs
  · rw [callbackStep_other h hde]
    exact (callbackStep_keeps h).progress hs

theorem callbackSchedule_progress (order : List Dir) (hs : CallbackProgress d c ch s (seqCb d s)) :
    CallbackProgress d c ch (callbackSchedule order s) (seqCb d (callbackSchedule order s)) := by
  induction order generalizing s with
  | nil => exact hs
  | cons e order ih =>
    exact ih (getD_of_forall (P := fun u => CallbackProgress d c ch u (seqCb d u)) hs
      fun _ ht => callbackStep_progress ht hs)

end

/-- Settles O49: each callback's progress holds in any interleaving, and says at its end what the pair leaves. -/
theorem callbackPairInAnyOrder : Obligations.CallbackPairInAnyOrder := by
  unfold Obligations.CallbackPairInAnyOrder
  intro c ch ch' st st' order s hTx hRx hendTx hendRx t
  have hstartTx : CallbackProgress .tx c ch s (seqCb .tx s) := by
    rw [seqCb, hTx]
    exact ⟨rfl, rfl⟩
  have hstartRx : CallbackProgress .rx c ch' s (seqCb .rx s) := by
    rw [seqCb, hRx]
    exact ⟨rfl, rfl⟩
  have htx := callbackSchedule_progress order hstartTx
  have hrx := callbackSchedule_progress order hstartRx
  rw [seqCb, hendTx] at htx
  rw [seqCb, hendRx] at hrx
  obtain ⟨hstopTx, hlatchTx, hreleased⟩ := htx
  obtain ⟨hstopRx, hlatchRx, -⟩ := hrx
  exact ⟨hreleased, hstopTx, hstopRx, hlatchTx, hlatchRx⟩

end Sys2Proof.Machine
end

section
/-!
SUPPORT and PROOF. When the environment's events are admitted (60_exceptions.md R345-R347, 44_dma.md R261), and the obligation O50.
-/

namespace Sys2Proof.Machine

open Sys2Proof

/-! ### `Irq` (60_exceptions.md R346) -/

/-- The interrupt-source enables of `INT`. -/
def sourceEnables (t : IntRec) : List (Option Bool) :=
  [t.ieDlen, t.ieTimeout, t.ieParity, t.ieDesync, t.ieBiterr, t.ieOvrn, t.ieRx, t.ieTx]

theorem lineEnabled_iff (t : IntRec) : lineEnabled t = true ↔ ∃ e ∈ sourceEnables t, e ≠ some false := by
  simp [lineEnabled, sourceEnables, mayEnable, or_assoc]

theorem envIrq_of_admitted {s : State} (hidle : s.seqH = .idle) (hline : ∃ e ∈ sourceEnables s.regrec.int, e ≠ some false) :
    envIrq s = some { s with seqH := .h1, hist := s.hist ++ [⟨.env, .irq⟩] } :=
  if_pos ⟨hidle, (lineEnabled_iff _).2 hline⟩

theorem envIrq_eq_none {s : State} (h : s.seqH ≠ .idle ∨ ∀ e ∈ sourceEnables s.regrec.int, e = some false) :
    envIrq s = none := by
  refine if_neg fun ⟨hidle, hline⟩ => ?_
  obtain ⟨e, he, hne⟩ := (lineEnabled_iff _).1 hline
  exact h.elim (· hidle) fun hoff => hne (hoff e he)

/-! ### The owner of a channel (60_exceptions.md R347) -/

/-- The channel of direction `d`. -/
def channelOf (d : Dir) (e : DmaEntry) : Option ChanId :=
  match d with
  | .tx => e.txCh
  | .rx => e.rxCh

/-- A property of one chip-select alone finds it. -/
theorem find?_allCs_of_unique {f : Cs → Bool} {c : Cs} (hc : f c = true) (hunique : ∀ c', c' ≠ c → f c' ≠ true) :
    allCs.find? f = some c := by
  cases hfind : allCs.find? f with
  | none => exact absurd hc (List.find?_eq_none.1 hfind c (mem_allCs c))
  | some c' =>
    by_contra hne
    exact hunique c' (fun heq => hne (congrArg some heq)) (List.find?_some hfind)

section

variable {c : Cs} {d : Dir} {ch : ChanId} {st : Completion} {s : State}

/-- The owner's entry holds the channel on the owner's side. -/
theorem channelOwner_holds (h : channelOwner ch s = some (c, d)) : channelOf d (dmaOf c s) = some ch := by
  unfold channelOwner at h
  split at h
  next c' hfind =>
    cases h
    have hc := List.find?_some hfind
    exact beq_iff_eq.1 hc
  next =>
    split at h <;> cases h
    next hfind =>
      have hc := List.find?_some hfind
      exact beq_iff_eq.1 hc

/-- A channel that one entry's receive side holds alone. -/
theorem channelOwner_rx (hc : (dmaOf c s).rxCh = some ch) (hunique : ∀ c', c' ≠ c → (dmaOf c' s).rxCh ≠ some ch) :
    channelOwner ch s = some (c, .rx) := by
  have hfind : allCs.find? (fun c => (dmaOf c s).rxCh == some ch) = some c :=
    find?_allCs_of_unique (beq_iff_eq.2 hc) fun c' hne => mt beq_iff_eq.1 (hunique c' hne)
  rw [channelOwner, hfind]

/-- No receive side holds the channel: the owner is sought on the transmit sides. -/
theorem channelOwner_of_no_rx (hrx : ∀ c, (dmaOf c s).rxCh ≠ some ch) :
    channelOwner ch s = (allCs.find? fun c => (dmaOf c s).txCh == some ch).map (·, .tx) := by
  have hfind : allCs.find? (fun c => (dmaOf c s).rxCh == some ch) = none :=
    List.find?_eq_none.2 fun c _ => mt beq_iff_eq.1 (hrx c)
  rw [channelOwner, hfind]
  cases allCs.find? fun c => (dmaOf c s).txCh == some ch <;> rfl

/-- A channel that one entry's transmit side holds alone. -/
theorem channelOwner_tx (hc : (dmaOf c s).txCh = some ch) (hrx : ∀ c', (dmaOf c' s).rxCh ≠ some ch)
    (hunique : ∀ c', c' ≠ c → (dmaOf c' s).txCh ≠ some ch) : channelOwner ch s = some (c, .tx) := by
  have hfind : allCs.find? (fun c => (dmaOf c s).txCh == some ch) = some c :=
    find?_allCs_of_unique (beq_iff_eq.2 hc) fun c' hne => mt beq_iff_eq.1 (hunique c' hne)
  rw [channelOwner_of_no_rx hrx, hfind, Option.map_some]

theorem channelOwner_eq_none (h : ∀ c, (dmaOf c s).rxCh ≠ some ch ∧ (dmaOf c s).txCh ≠ some ch) : channelOwner ch s = none := by
  rw [channelOwner_of_no_rx fun c => (h c).1, List.find?_eq_none.2 fun c _ => mt beq_iff_eq.1 (h c).2, Option.map_none]

/-! ### `DmaDone` (44_dma.md R261) -/

/-- `DmaDone` of a channel with an owner: admitted while the channel is active and the owner's callback idle. -/
theorem envDmaDone_of_owner (h : channelOwner ch s = some (c, d)) :
    envDmaDone ch st s =
      if isActive s ch = true ∧ seqCb d s = .idle then
        some (goCb d (.k1 c ch st) { s with hist := s.hist ++ [⟨.env, .dmaDone ch st⟩] })
      else none := by
  simp only [envDmaDone, h]
  rfl

theorem envDmaDone_of_no_owner (h : channelOwner ch s = none) : envDmaDone ch st s = none := by
  simp only [envDmaDone, h]

end

/-- Settles O50: `Irq` by the enables, `DmaDone` by the owner of the channel. -/
theorem eventAdmission : Obligations.EventAdmission := by
  unfold Obligations.EventAdmission
  refine ⟨fun s => ⟨fun ⟨hidle, hline⟩ => envIrq_of_admitted hidle hline, envIrq_eq_none⟩,
    fun c d ch st s hown => ⟨?_, fun hact hidle => ?_, fun hnot => ?_⟩,
    fun c ch st s => ⟨fun hc htx hunique => ?_, fun hc hrx hunique => ?_,
      fun hnone => envDmaDone_of_no_owner (channelOwner_eq_none hnone)⟩⟩
  · have hholds := channelOwner_holds hown
    cases d <;> exact hholds
  · rw [envDmaDone_of_owner hown, if_pos ⟨hact, hidle⟩]
  · rw [envDmaDone_of_owner hown, if_neg]
    rintro ⟨hact, hidle⟩
    exact hnot.elim (fun h => Bool.false_ne_true (h.symm.trans hact)) (· hidle)
  · exact envDmaDone_of_owner (channelOwner_rx hc hunique)
  · exact envDmaDone_of_owner (channelOwner_tx hc hrx hunique)

end Sys2Proof.Machine
end

section
/-!
SUPPORT and PROOF. The status decoder (45_error_decoder.md R280-R282), and the obligation O40.
-/

namespace Sys2Proof.Machine

open Sys2Proof

/-! ### A search through a list of status bits -/

/-- The error of the first status bit of the list that is set. -/
def firstSetError (fields : List (Nat × Err)) (v : Word) : Option Err :=
  (fields.find? fun f => v.getLsbD f.1).map Prod.snd

@[simp] theorem firstSetError_nil (v : Word) : firstSetError [] v = none := rfl

/-- The head of the list decides where its bit is set, else the rest is searched: one test of the decoder's chain. -/
theorem firstSetError_cons (lo : Nat) (e : Err) (fields : List (Nat × Err)) (v : Word) :
    firstSetError ((lo, e) :: fields) v = if getFlag lo v then some e else firstSetError fields v := by
  rw [getFlag]
  split
  next hset =>
    rw [firstSetError, List.find?_cons_of_pos, Option.map_some]
    exact hset
  next hclear =>
    rw [firstSetError, List.find?_cons_of_neg, firstSetError]
    exact hclear

/-! ### The decoder on each revision -/

section

variable (L : Layout) (v : Word)

/-- The status bits that both revisions read, in the order of R280. -/
def commonStatusFields : List (Nat × Err) :=
  [(L.loTimeout, .hwTimeout), (L.loDesync, .hwDesync), (L.loBiterr, .hwBiterr)]

/-- The status bits that only `V2` reads, in the order of R280. -/
def v2StatusFields : List (Nat × Err) :=
  [(L.loDlen, .hwDlen), (L.loParity, .hwParity), (L.loOvrn, .hwOverrun), (L.loTxint, .hwTxint), (L.loBufinit, .busy)]

/-- On `V1` the decoder stops after the three common bits. -/
theorem statusDecode_v1 : statusDecode L .v1 v = firstSetError (commonStatusFields L) v := by
  simp only [statusDecode, if_true, commonStatusFields, firstSetError_cons, firstSetError_nil]

/-- On `V2` the decoder goes on to the five bits of that revision. -/
theorem statusDecode_v2 : statusDecode L .v2 v = firstSetError (commonStatusFields L ++ v2StatusFields L) v := by
  have hrev : Rev.v2 ≠ Rev.v1 := by decide
  simp only [statusDecode, if_neg hrev, commonStatusFields, v2StatusFields, List.cons_append, List.nil_append,
    firstSetError_cons, firstSetError_nil]

end

/-- Settles O40: the decoder's chain of tests is the search for the first set bit, on each revision. -/
theorem statusDecodePriority : Obligations.StatusDecodePriority := by
  unfold Obligations.StatusDecodePriority
  exact fun L v => ⟨statusDecode_v1 L v, statusDecode_v2 L v⟩

end Sys2Proof.Machine
end

section
/-!
SUPPORT and PROOF. FREQ_PRE, SUSPEND and RESUME (46_coordination.md R300-R301, R310-R311, R315), what a step of the coordination
commands leaves unchanged (R316), the suspended port (R317), and the obligations O23, O43, O45, O46 and O55.
-/

namespace Sys2Proof.Machine

open Sys2Proof

/-! ### The frames (46_coordination.md R316) -/

/-- What a step of FREQ_PRE may do: the state differs in port F's `RES` and `BUSY`, F's position and the history alone. -/
def FreqPreKeeps (s t : State) : Prop :=
  t = { s with
    portF := { s.portF with res := t.portF.res, busy := t.portF.busy }
    seqF := t.seqF
    hist := t.hist }

theorem freqPreStep_keeps {s t : State} (h : freqPreStep s = some t) : FreqPreKeeps s t := by
  unfold freqPreStep at h
  split at h
  next => split at h <;> cases h; rfl
  next => cases h; rfl
  next => cases h

/-- What the loop of FQ2 may do before the write step of a `WriteDivider`: it changes no format register. -/
def FreqPostLoopKeeps (s t : State) : Prop :=
  t = { s with
    portF := { s.portF with res := t.portF.res, busy := t.portF.busy }
    seqF := t.seqF
    fault := t.fault
    hist := t.hist }

theorem freqPostLoopKeeps_readFmt (cs : Cs) (floored : Bool) (l : FSeq) (s : State) :
    FreqPostLoopKeeps s (goF l (readFmt .freq cs (noteFloor .freq cs floored s))) := by
  cases floored <;> rfl

theorem freqPostFrom_keeps (k : Nat) (s : State) : FreqPostLoopKeeps s (freqPostFrom k s) := by
  unfold freqPostFrom
  split
  next => rfl
  next cs hz _ =>
    obtain h | ⟨p, floored, -, h⟩ := dividerRead_cases .freq cs hz (fun t p s' => goF (.fqW cs t p) s') s
    · rw [h]
      rfl
    · rw [h]
      exact freqPostLoopKeeps_readFmt cs floored _ s

theorem FreqPostLoopKeeps.fmtRec_eq {s t : State} (h : FreqPostLoopKeeps s t) (c : Cs) : fmtRec c t = fmtRec c s := by
  rw [h]
  rfl

/-- What a step of FREQ_POST may do: it differs in port F's `RES` and `BUSY`, F's position, `clk_rate`, the format registers, the
fault and the history alone, and only the write step of a chip-select touches its format register. -/
structure FreqPostKeeps (s t : State) : Prop where
  rest : t = { s with
    portF := { s.portF with res := t.portF.res, busy := t.portF.busy }
    seqF := t.seqF
    clkRate := t.clkRate
    regrec := { s.regrec with fmt := t.regrec.fmt }
    fault := t.fault
    hist := t.hist } := by rfl
  formats : ∀ c, (∀ t0 p, s.seqF ≠ .fqW c t0 p) → fmtRec c t = fmtRec c s := by exact fun _ _ => rfl

/-- A turn of the loop, from a state whose clock rate may just have changed. -/
theorem freqPostKeeps_of_loop {s t : State} {clk : Nat} (h : FreqPostLoopKeeps { s with clkRate := clk } t) :
    FreqPostKeeps s t where
  rest := by
    rw [h]
  formats c _ := h.fmtRec_eq c

theorem freqPostKeeps_write {s : State} {cs : Cs} {t0 : FmtRec} {p : Nat} (l : FSeq) (hat : s.seqF = .fqW cs t0 p) :
    FreqPostKeeps s (goF l (dividerWrite .freq cs t0 p s)) where
  formats c hc := csGet_csSet_other _ _ fun he => hc t0 p (he ▸ hat)

theorem freqPostStep_keeps {newClk : Nat} {s t : State} (h : freqPostStep newClk s = some t) : FreqPostKeeps s t := by
  unfold freqPostStep at h
  split at h <;> cases h
  next => exact freqPostKeeps_of_loop (freqPostFrom_keeps 0 _)
  next hat => exact freqPostKeeps_write _ hat
  next k _ => exact freqPostKeeps_of_loop (freqPostFrom_keeps k s)

/-- The write step of `WriteDivider` leaves the record read with its prescale replaced. -/
theorem fmtRec_freqPost_write {newClk : Nat} {s t : State} {c : Cs} {t0 : FmtRec} {p : Nat}
    (ht : exec (.freqPost newClk) s = .next t) (hat : s.seqF = .fqW c t0 p) :
    fmtRec c t = { t0 with prescale := some (BitVec.ofNat 8 p) } := by
  rw [freqPost_fqW newClk s c t0 p hat] at ht
  cases ht
  exact csGet_csSet_same _ _ _

/-- What a step of SUSPEND or RESUME may do: the state differs in port P's `RES` and `BUSY`, P's position, `suspended`, the clock,
`GCR` and the history alone. -/
def PowerKeeps (s t : State) : Prop :=
  t = { s with
    portP := { s.portP with res := t.portP.res, busy := t.portP.busy }
    seqP := t.seqP
    suspended := t.suspended
    clkOn := t.clkOn
    regrec := { s.regrec with gcr := t.regrec.gcr }
    hist := t.hist }

theorem suspendStep_keeps {s t : State} (h : suspendStep s = some t) : PowerKeeps s t := by
  unfold suspendStep at h
  split at h
  next => split at h <;> cases h; rfl
  next => cases h; rfl
  next => cases h; rfl
  next => cases h; rfl
  next => cases h; rfl
  next => cases h; rfl
  next => cases h

theorem resumeStep_keeps {s t : State} (h : resumeStep s = some t) : PowerKeeps s t := by
  unfold resumeStep at h
  split at h <;> cases h
  next => rfl
  next => rfl
  next => rfl
  next => rfl

/-- Settles O55: each step of the four commands, and the state left as it is where a command has none. -/
theorem coordinationFrame : Obligations.CoordinationFrame := by
  unfold Obligations.CoordinationFrame
  refine ⟨fun s => ?_, fun newClk s => ?_, fun i s hi => ?_⟩
  · have h : FreqPreKeeps s ((freqPreStep s).getD s) := getD_of_forall rfl fun _ => freqPreStep_keeps
    exact ⟨_, rfl, h, fun a => by rw [h]⟩
  · have h : FreqPostKeeps s ((freqPostStep newClk s).getD s) := getD_of_forall {} fun _ => freqPostStep_keeps
    exact ⟨_, rfl, h.rest, h.formats, fun _ _ _ => fmtRec_freqPost_write rfl, fun a => by rw [h.rest]⟩
  · obtain rfl | rfl := hi
    · have h : PowerKeeps s ((suspendStep s).getD s) := getD_of_forall rfl fun _ => suspendStep_keeps
      exact ⟨_, rfl, h, fun a => by rw [h]⟩
    · have h : PowerKeeps s ((resumeStep s).getD s) := getD_of_forall rfl fun _ => resumeStep_keeps
      exact ⟨_, rfl, h, fun a => by rw [h]⟩

/-! ### The suspended port (46_coordination.md R317) -/

section

variable {cs : Cs} {s : State}

theorem setupFirst_suspended (mode : Byte) (bits maxHz : Nat) (hcs : cs.toNat < s.params.numCs) (hsus : s.suspended = true) :
    setupFirst cs mode bits maxHz s = raise .queue .suspended s := by
  rw [setupFirst, if_neg (Nat.not_le.2 hcs), if_pos hsus]

theorem transferFirst_suspended (tx rx : Option Word) (len : Nat) (bits hz : Option Nat) (hcs : cs.toNat < s.params.numCs)
    (hsus : s.suspended = true) : transferFirst cs tx rx len bits hz s = raise .queue .suspended s := by
  rw [transferFirst, if_neg (Nat.not_le.2 hcs), if_pos hsus]

theorem chipselectFirst_suspended (act : Bool) (hcs : cs.toNat < s.params.numCs) (hsus : s.suspended = true) :
    chipselectFirst cs act s = raise .queue .suspended s := by
  rw [chipselectFirst, if_neg (Nat.not_le.2 hcs), if_pos hsus]

end

/-- The state with `suspended` replaced. -/
def withSuspended (b : Bool) (s : State) : State := { s with suspended := b }

@[simp] theorem withSuspended_params (b : Bool) (s : State) : (withSuspended b s).params = s.params := rfl

@[simp] theorem dmaOf_withSuspended (b : Bool) (cs : Cs) (s : State) : dmaOf cs (withSuspended b s) = dmaOf cs s := rfl

@[simp] theorem isActive_withSuspended (b : Bool) (s : State) (ch : ChanId) :
    isActive (withSuspended b s) ch = isActive s ch := rfl

/-- CLEANUP's first step does not look at `suspended`. -/
theorem cleanupFirst_withSuspended (cs : Cs) (b : Bool) (s : State) :
    cleanupFirst cs (withSuspended b s) = withSuspended b (cleanupFirst cs s) := by
  unfold cleanupFirst
  rw [withSuspended_params, dmaOf_withSuspended]
  split
  · rfl
  split
  · rw [isActive_withSuspended, isActive_withSuspended]
    split <;> rfl
  · rfl

/-- Settles O23: the first step of each command of port Q. -/
theorem suspendedPortRefuses : Obligations.SuspendedPortRefuses := by
  unfold Obligations.SuspendedPortRefuses
  intro cs s hsus hcs
  refine ⟨fun mode bits maxHz hat => ?_, fun tx rx len bits hz hat => ?_, fun act hat => ?_, fun hat => ?_⟩
  · rw [setup_s1 cs mode bits maxHz s hat, setupFirst_suspended mode bits maxHz hcs hsus]
  · rw [transfer_t1 cs tx rx len bits hz s hat, transferFirst_suspended tx rx len bits hz hcs hsus]
  · rw [chipselect_cs1 cs act s hat, chipselectFirst_suspended act hcs hsus]
  · refine ⟨cleanupFirst cs s, cleanup_c1 cs s hat, by rw [(cleanupFirst_keeps cs s).rest], ?_⟩
    exact (cleanup_c1 cs (withSuspended false s) hat).trans (congrArg _ (cleanupFirst_withSuspended cs false s))

/-! ### FREQ_PRE (46_coordination.md R300, R301) -/

theorem freqPre_fp1 {s : State} (hat : s.seqF = .fp1) :
    exec .freqPre s = .next (if s.done then goF .fp2 s else s) := by
  simp only [exec, execFreqPre, freqPreStep, hat]
  split <;> rfl

/-- Settles O43: the wait holds or passes, and the end is a step of its own. -/
theorem freqPreWaits : Obligations.FreqPreWaits := by
  unfold Obligations.FreqPreWaits
  refine ⟨fun s hat => ?_, fun s hat => freqPre_fp2 s hat⟩
  have hstep := freqPre_fp1 hat
  refine ⟨fun hbusy => ?_, fun hdone => ?_, fun hdone => ?_⟩
  · rw [hstep, hbusy, if_neg (by decide)]
  · rw [hstep, if_pos hdone]
    rfl
  · rw [if_pos hdone] at hstep
    rw [execs_succ hstep, execs_succ (freqPre_fp2 _ rfl)]
    rfl

/-! ### SUSPEND (46_coordination.md R310, R311) -/

/-- The end of a command on port P, field by field. -/
theorem finish_power_eq (r : Word) (s : State) : finish .power r s = { s with
    portP := { s.portP with res := r, busy := false }
    seqP := .idle
    hist := s.hist ++ [⟨.power, .res .power r⟩] } := rfl

theorem suspend_sp1 {s : State} (hat : s.seqP = .sp1) : exec .suspend s = .next (if s.done then goP .sp2 s else s) := by
  simp only [exec, execSuspend, suspendStep, hat]
  split <;> rfl

/-- `Timeout(P)` is admitted at the wait while `done` is false. -/
theorem envTimeout_sp1 {s : State} (hat : s.seqP = .sp1) :
    envTimeout s = if s.done then none else some (goP .spTimeout (record .env .timeout s)) := by
  simp only [envTimeout, hat]

/-- `Timeout(P)` is admitted nowhere else. -/
theorem envTimeout_of_no_wait {s : State} (h : s.seqP ≠ .sp1) : envTimeout s = none := by
  unfold envTimeout
  split
  · exact absurd ‹_› h
  · rfl

/-- SP1 to SP5 once the wait passes. -/
theorem execs_suspend {s : State} (hat : s.seqP = .sp1) (hdone : s.done = true) :
    execs 5 .suspend s = .next
      (finish .power 0 { clockGate false (writeGcr .power { s.regrec.gcr with enable := some false } (readGcr .power s)) with
        suspended := true }) := by
  have hwait := suspend_sp1 hat
  rw [if_pos hdone] at hwait
  rw [execs_succ hwait, execs_succ (suspend_sp2 _ rfl), execs_succ (suspend_sp3 _ _ rfl), execs_succ (suspend_sp4 _ rfl),
    execs_succ (suspend_sp5 _ rfl)]
  rfl

/-- Settles O45: the wait holds, passes or is timed out; the four steps after it. -/
theorem suspendCompletes : Obligations.SuspendCompletes := by
  unfold Obligations.SuspendCompletes
  refine ⟨fun s hat => ⟨fun hdone => ⟨?_, ?_⟩, fun hbusy => ⟨?_, ?_⟩⟩, fun s => envTimeout_of_no_wait,
    fun s hat => suspend_sp5 s hat⟩
  · rw [envTimeout_sp1 hat, if_pos hdone]
  · rw [execs_suspend hat hdone]
    simp only [finish_power_eq, clockGate, writeGcr, readGcr, record, eventsBy_cons, eventsBy_nil, List.append_assoc,
      List.cons_append, List.nil_append]
  · rw [suspend_sp1 hat, hbusy, if_neg (by decide)]
  · refine ⟨goP .spTimeout (record .env .timeout s), ?_, ?_⟩
    · rw [envTimeout_sp1 hat, hbusy, if_neg (by decide)]
    · have herr : errWord .waitTimeout = 0xFFFFFFF4 := rfl
      rw [suspend_timeout _ rfl, herr]
      simp only [finish_power_eq, goP, record, List.append_assoc, List.cons_append, List.nil_append]

/-! ### RESUME (46_coordination.md R315) -/

/-- RS1 to RS4. -/
theorem execs_resume {s : State} (hat : s.seqP = .rs1) :
    execs 4 .resume s = .next
      (finish .power 0 { writeGcr .power { s.regrec.gcr with enable := some true } (readGcr .power (clockGate true s)) with
        suspended := false }) := by
  rw [execs_succ (resume_rs1 s hat), execs_succ (resume_rs2 _ rfl), execs_succ (resume_rs3 _ _ rfl),
    execs_succ (resume_rs4 _ rfl)]
  rfl

/-- Settles O46: the four steps, and the last of them alone. -/
theorem resumeCompletes : Obligations.ResumeCompletes := by
  unfold Obligations.ResumeCompletes
  refine ⟨fun s hat => ?_, fun s hat => resume_rs4 s hat⟩
  rw [execs_resume hat]
  simp only [finish_power_eq, clockGate, writeGcr, readGcr, record, eventsBy_cons, eventsBy_nil, List.append_assoc,
    List.cons_append, List.nil_append]

end Sys2Proof.Machine
end

section
/-!
PROOF. The stop after a fault (60_exceptions.md R335) and reset (70_reset_and_hazards.md R380): the obligations O11 and O13.
-/

namespace Sys2Proof.Machine

open Sys2Proof

/-! ### Raising a fault (60_exceptions.md R335) -/

/-- A raised fault, field by field. -/
theorem raise_eq (a : Agent) (r : FaultReason) (s : State) :
    raise a r s = { s with fault := some r, hist := s.hist ++ [⟨a, .raised r⟩] } := rfl

/-! ### A step after a fault -/

/-- No move but reset is taken after a fault. -/
theorem step_of_fault {s : State} {r : FaultReason} (hf : s.fault = some r) (hm : nextTurn s ≠ .attach) :
    step s = .fault (.stopped r) := by
  cases hmove : nextTurn s with
  | attach => exact absurd hmove hm
  | _ => simp only [step, hf, hmove]

/-! ### Reset (70_reset_and_hazards.md R380) -/

/-- Reset is taken with a fault and without one. -/
theorem step_of_nextTurn_attach {s : State} (hm : nextTurn s = .attach) : step s = .next (attach (dropTurn s)) := by
  cases hf : s.fault with
  | none => exact step_of_nextTurn hf hm
  | some r => simp only [step, hf, hm]

/-- The state reset leaves, the move taken before it: memory and the rest of the environment's data are as before. -/
theorem attach_dropTurn (s : State) :
    attach (dropTurn s) = { State.resetWith s.params with mem := s.mem, env := envDropTurn s.env } := rfl

/-! ### The obligations -/

/-- Settles O11: the state of `raise`, and the step from a state with a fault. -/
theorem faultedMachineStops : Obligations.FaultedMachineStops := by
  unfold Obligations.FaultedMachineStops
  exact ⟨raise_eq, fun _ _ => step_of_fault⟩

/-- Settles O13: the one reset move, from a state with a fault and from one without. -/
theorem attachResets : Obligations.AttachResets := by
  unfold Obligations.AttachResets
  intro s hm
  rw [step_of_nextTurn_attach hm, attach_dropTurn]

end Sys2Proof.Machine
end
